-- ==== Sys2Proof/Word.lean ====
section
/-! DEFINITION. The words the VZ16 carries on its links: bytes and 32-bit tote codes (00_scope.md section 4). -/

namespace Sys2Proof

/-- A byte of a frame. -/
abbrev Byte := BitVec 8

/-- A tote code, 32 bits (00_scope.md section 4, Tote codes). -/
abbrev Code := BitVec 32

/-- The code that stands for "no read". -/
abbrev noReadCode : Code := 0#32

/-- The service code. -/
abbrev serviceCode : Code := 0xFFFFFFFF#32

end Sys2Proof
end

