-- ==== Sys2Proof/Syntax.lean ====
section
/-! DEFINITION. The commands of the VZ16: one constructor of `Instr` for each row of spec/opcode_table.json, with its
operands, and `Request`, the twenty-three requests a command-link frame can carry (12_frame_and_record_formats.md, 12.2).
Request fields keep the widths of the frame, so that an undefined value can be written and is refused by the
command's own checks (R186). The operands of the event rows are the model's reading of each event (log entry 2). -/

namespace Sys2Proof

/-- A slot of the Record Table, 0–63. -/
abbrev Slot := Fin 64

/-- A port, 0–3. -/
abbrev Port := Fin 4

/-- A put position, 0–11. -/
abbrev Position := Fin 12

/-- A picker station. -/
inductive Station where
  | a
  | b
  deriving DecidableEq, Repr

/-- A reader channel: the divert scanner, or the reader at a port's stop (R157). -/
inductive Channel where
  | scanner
  | port (p : Port)
  deriving DecidableEq, Repr

/-- The reason of a REFUSED message (03, 3.1.1). -/
inductive RefuseReason where
  | busy
  | blocked
  | unknownTote
  deriving DecidableEq, Repr

/-- The outcome of a CANCEL_RESULT message (03, 3.1.1). -/
inductive CancelOutcome where
  | cancelled
  | tooLate
  | unknownTag
  deriving DecidableEq, Repr

/-- One line of a SUBMIT_SOURCE or AMEND_LINES request, as carried: target slot and quantity. -/
structure LineArg where
  target : Byte
  quantity : Byte
  deriving DecidableEq, Repr

/-- One byte taken by the supply receiver, and whether its stop bit was good (R49). -/
structure SerialByte where
  value : Byte
  stopOk : Bool
  deriving DecidableEq, Repr

/-- The fifteen parameters of CONFIGURE as carried (R168, R187): budgets in seconds, windows in tenths (attendance in
seconds), the family filter with flag i as bit i. -/
structure ConfigArgs where
  chilledBudget : BitVec 16
  frozenBudget : BitVec 16
  warnPercent : Byte
  pipelineDepth : Byte
  divertLimit : Byte
  confirmWindow : Byte
  answerWindow : Byte
  attendanceWindow : Byte
  qualityThreshold : Byte
  readerWindow : BitVec 16
  readerBadLimit : Byte
  familyFilter : BitVec 64
  openAcceptance : Byte
  strayPort : Byte
  servicePort : Byte
  deriving DecidableEq, Repr

/-- A request of the command link with its arguments (12.2). -/
inductive Request where
  | configure (args : ConfigArgs)
  | start
  | halt
  | clearBench
  | readConfig
  | readStatus
  | submitSource (code : Code) (cls : Byte) (exposure : BitVec 16) (station : Byte) (lines : List LineArg)
  | bindOrder (code : Code) (cls : Byte) (exposure : BitVec 16) (position : Byte)
  | amendLines (slot : Byte) (cancels : List Byte) (adds : List LineArg)
  | withdraw (slot : Byte)
  | closeOrder (slot : Byte) (force : Byte)
  | readRecord (slot : Byte)
  | findTote (code : Code)
  | openPort (port : Byte)
  | closePort (port : Byte)
  | ackFault (port : Byte)
  | listPort (port : Byte)
  | releaseService (port : Byte)
  | holdStation (station : Byte)
  | releaseHold (station : Byte)
  | resumeStation (station : Byte)
  | readNotices (most : Byte)
  | readReaderStats
  deriving DecidableEq, Repr

/-- The commands of the block: one constructor per row of spec/opcode_table.json, in the table's order. -/
inductive Instr where
  /-- HARDWARE_RESET: power-on (RESET_N deasserted, `held` false) or assertion of RESET_N (`held` true). -/
  | hardwareReset (held : Bool)
  /-- CS_N_FALL. -/
  | csNFall
  /-- CS_N_RISE, with the whole bytes clocked since the fall, as taken on MOSI. -/
  | csNRise (mosi : List Byte)
  /-- RESPONSE_PLACED. -/
  | responsePlaced
  | configure (args : ConfigArgs)
  | start
  | halt
  | clearBench
  | readConfig
  | readStatus
  | submitSource (code : Code) (cls : Byte) (exposure : BitVec 16) (station : Byte) (lines : List LineArg)
  | bindOrder (code : Code) (cls : Byte) (exposure : BitVec 16) (position : Byte)
  | amendLines (slot : Byte) (cancels : List Byte) (adds : List LineArg)
  | withdraw (slot : Byte)
  | closeOrder (slot : Byte) (force : Byte)
  | readRecord (slot : Byte)
  | findTote (code : Code)
  | openPort (port : Byte)
  | closePort (port : Byte)
  | ackFault (port : Byte)
  | listPort (port : Byte)
  | releaseService (port : Byte)
  | holdStation (station : Byte)
  | releaseHold (station : Byte)
  | resumeStation (station : Byte)
  | readNotices (most : Byte)
  | readReaderStats
  | supplyReadyRise
  | supplyReadyFall
  | accepted (tag : Byte)
  | refused (tag : Byte) (reason : RefuseReason)
  | released (tag : Byte)
  | cancelResult (tag : Byte) (outcome : CancelOutcome)
  | taken (tag : Byte)
  /-- BAD_SUPPLY_FRAME: the bytes that arrive at the supply receiver (log entry 18). -/
  | badSupplyFrame (bytes : List SerialByte)
  /-- SUPPLY_IDLE_GAP_TIMEOUT: the bytes that arrive, and then more than 20 ms without one. -/
  | supplyIdleGapTimeout (bytes : List SerialByte)
  | callWindowExpiry (slot : Slot)
  | cancelWindowExpiry (slot : Slot)
  | readerMarker (channel : Channel)
  | readerRuntTimeout (channel : Channel)
  /-- READER_FRAME: the bytes taken on the channel's data line up to now, and the time, in microseconds. -/
  | readerFrame (channel : Channel) (bytes : List Byte) (time : Nat)
  | confirmWindowExpiry (port : Port)
  | entryEvent (port : Port)
  | seatOn (port : Port)
  | seatOff (port : Port)
  | readWindowExpiry (port : Port)
  | readerExitEvent (port : Port)
  | exitWindowExpiry (port : Port)
  | localControlAssert (port : Port)
  | localControlDeassert (port : Port)
  | presenceOff (position : Position)
  | presenceOn (position : Position)
  | putButton (position : Position)
  | shortButton (station : Station)
  /-- PAUSE_SWITCH_CHANGE: the station's pause switch goes to its other level. -/
  | pauseSwitchChange (station : Station)
  | attendanceWindowExpiry (station : Station)
  | exposureTick (slot : Slot)
  | warnThresholdReached (slot : Slot)
  | budgetReached (slot : Slot)
  | resetNRelease
  | readerStopBitError (channel : Channel)
  | supplyFrameTransmitted
  deriving DecidableEq, Repr

end Sys2Proof
end

