-- ==== Sys2Proof/WellFormed.lean ====
section
/-! DEFINITION. Which command terms can occur on the VZ16's ports: a request must fit a frame of at most 120 argument
bytes (12.2, R187), and a reader frame row carries at most the six bytes of one frame, and at least one (R158). -/

namespace Sys2Proof

/-- The length n of SUBMIT_SOURCE with its lines fits a request frame (R187: n = 9 + 2k, at most 120). -/
def submitFits (lines : List LineArg) : Bool := decide (9 + 2 * lines.length ≤ 120)

/-- The length n of AMEND_LINES fits a request frame (R187: n = 3 + c + 2a, at most 120). -/
def amendFits (cancels : List Byte) (adds : List LineArg) : Bool :=
  decide (3 + cancels.length + 2 * adds.length ≤ 120)

/-- The bytes of one READER_FRAME row: one to six (R157, R158). -/
def readerBytesFit (bytes : List Byte) : Bool := decide (1 ≤ bytes.length ∧ bytes.length ≤ 6)

/-- The check of a command term. Every operand of a row without a check here has its legal range in its type, or is a
request field whose undefined values the command itself refuses (R186). -/
def wellFormed : Instr → Bool
  | .hardwareReset _ => true
  | .csNFall => true
  | .csNRise _ => true
  | .responsePlaced => true
  | .configure _ => true
  | .start => true
  | .halt => true
  | .clearBench => true
  | .readConfig => true
  | .readStatus => true
  | .submitSource _ _ _ _ lines => submitFits lines
  | .bindOrder _ _ _ _ => true
  | .amendLines _ cancels adds => amendFits cancels adds
  | .withdraw _ => true
  | .closeOrder _ _ => true
  | .readRecord _ => true
  | .findTote _ => true
  | .openPort _ => true
  | .closePort _ => true
  | .ackFault _ => true
  | .listPort _ => true
  | .releaseService _ => true
  | .holdStation _ => true
  | .releaseHold _ => true
  | .resumeStation _ => true
  | .readNotices _ => true
  | .readReaderStats => true
  | .supplyReadyRise => true
  | .supplyReadyFall => true
  | .accepted _ => true
  | .refused _ _ => true
  | .released _ => true
  | .cancelResult _ _ => true
  | .taken _ => true
  | .badSupplyFrame _ => true
  | .supplyIdleGapTimeout _ => true
  | .callWindowExpiry _ => true
  | .cancelWindowExpiry _ => true
  | .readerMarker _ => true
  | .readerRuntTimeout _ => true
  | .readerFrame _ bytes _ => readerBytesFit bytes
  | .confirmWindowExpiry _ => true
  | .entryEvent _ => true
  | .seatOn _ => true
  | .seatOff _ => true
  | .readWindowExpiry _ => true
  | .readerExitEvent _ => true
  | .exitWindowExpiry _ => true
  | .localControlAssert _ => true
  | .localControlDeassert _ => true
  | .presenceOff _ => true
  | .presenceOn _ => true
  | .putButton _ => true
  | .shortButton _ => true
  | .pauseSwitchChange _ => true
  | .attendanceWindowExpiry _ => true
  | .exposureTick _ => true
  | .warnThresholdReached _ => true
  | .budgetReached _ => true
  | .resetNRelease => true
  | .readerStopBitError _ => true
  | .supplyFrameTransmitted => true

end Sys2Proof
end

