-- ==== Sys2Proof/Config.lean ====
section
/-! DEFINITION. What the manual fixes for every part (lengths of unconfigurable windows, limits) and the one value it
leaves free: the backoff drawn at a collision. -/

namespace Sys2Proof

/-- FREE VALUE (log entry 7). The number drawn at the n-th backoff draw since the model began. R86 fixes the range of a
backoff and says no more than that it is drawn uniformly at random; the range is applied where the draw is used. -/
opaque Config.backoffDraw : Nat → Nat

/-- The most notices the Notice Queue holds (R178). -/
abbrev Config.noticeLimit : Nat := 32

/-- The exit window, 5.0 s, in tenths (R106). -/
abbrev Config.exitWindow : Nat := 50

/-- The duplicate filter's reach, 1.0 s, in microseconds (R72). -/
abbrev Config.duplicateReach : Nat := 1000000

/-- The most records a roster holds (R29). -/
abbrev Config.rosterLimit : Nat := 10

/-- The number of credits (R41). -/
abbrev Config.creditLimit : Nat := 4

/-- The most lines a source record holds (R8). -/
abbrev Config.lineLimit : Nat := 8

/-- The most attempts of a call before its record is retired (R58, R63). -/
abbrev Config.callAttemptLimit : Nat := 3

/-- The recycle limit (R87). -/
abbrev Config.recycleLimit : Nat := 2

end Sys2Proof
end

