-- ==== Sys2Proof/Machine/State.lean ====
section
/-! DEFINITION. The state of the VZ16 as plain data: everything 00 to 12 of spec/ give the part, each piece once, and the
state right after reset. A piece that a law of the spec makes a function of others (the pending count, credits,
occupancy, reservation, rosters, claims, outputs) is an accessor in Machine/Ops.lean (log entry 8). -/

namespace Sys2Proof.Machine

/-! ### Records (chapter 1) -/

/-- The temperature class of a tote. -/
inductive ToteClass where
  | ambient
  | chilled
  | frozen
  deriving DecidableEq, Repr

/-- The kind of a record (R3). -/
inductive RecordKind where
  | source
  | order
  deriving DecidableEq, Repr

/-- The states of a source record (R6). -/
inductive SourceState where
  | queued
  | calling
  | called
  | cancelling
  | inbound
  | laned
  | atStop
  | ready
  | presented
  | releasing
  | returning
  | recycling
  | missing
  deriving DecidableEq, Repr

/-- The states of an order record (R7). -/
inductive OrderState where
  | bound
  | missing
  | expired
  deriving DecidableEq, Repr

/-- The states of a pick line (R9); `isOpen` is OPEN. -/
inductive LineState where
  | isOpen
  | blocked
  | done
  | short
  | cancelled
  | orphaned
  | deferred
  deriving DecidableEq, Repr

/-- A pick line (R8). -/
structure Line where
  target : Slot
  quantity : Nat
  state : LineState
  deriving DecidableEq, Repr

/-- The pass-through reason of a source record (R5). -/
inductive PassReason where
  | withdrawn
  | expired
  | verifyFailed
  deriving DecidableEq, Repr

/-- The leaving cause of a source record (R5). -/
inductive LeavingCause where
  | complete
  | withdrawn
  | expired
  | divertExhausted
  deriving DecidableEq, Repr

/-- The cause of a RETIRED notice (R26). -/
inductive RetireCause where
  | complete
  | withdrawn
  | expired
  | callFailed
  | divertExhausted
  | closed
  | closedForced
  deriving DecidableEq, Repr

/-- What every live record holds (R3) beside its state: the exposure count and whether it runs (R133). -/
structure Tote where
  code : Code
  cls : ToteClass
  exposure : Nat
  running : Bool
  warned : Bool
  expired : Bool
  deriving DecidableEq, Repr

/-- A source record (R4, R5), with the answer window (its length in tenths while it runs, R53) and the held CANCEL
(R62) that the Supply Link Controller keeps for it. -/
structure Source where
  tote : Tote
  state : SourceState
  port : Port
  visit : Fin 4
  callAttempts : Nat
  divertAttempts : Nat
  backoff : Nat
  recycleCount : Nat
  lines : List Line
  current : Option Nat
  withdraw : Bool
  requeue : Bool
  returnOwed : Bool
  passThrough : Option PassReason
  leaving : Option LeavingCause
  answerWindow : Option Nat
  cancelHeld : Bool
  deriving DecidableEq, Repr

/-- An order record (R7). -/
structure Order where
  tote : Tote
  state : OrderState
  position : Position
  deriving DecidableEq, Repr

/-- A live record. -/
inductive Record where
  | source (r : Source)
  | order (r : Order)
  deriving DecidableEq, Repr

/-! ### The supply link (chapter 3) -/

/-- The cause carried by a RETURN (R65). -/
inductive ReturnCause where
  | complete
  | withdrawn
  | expired
  | recycle
  | callFailed
  deriving DecidableEq, Repr

/-- A message the VZ16 sends (03, 3.1.1); `tag` is slot × 4 + visit. -/
inductive Message where
  | call (tag : Nat) (code : Code) (port : Port) (cls : ToteClass)
  | cancel (tag : Nat)
  | returnTote (tag : Nat) (code : Code) (cls : ToteClass) (cause : ReturnCause)
  deriving DecidableEq, Repr

/-- A message the dispatcher sends (03, 3.1.1). -/
inductive DispatcherMessage where
  | accepted (tag : Byte)
  | refused (tag : Byte) (reason : RefuseReason)
  | released (tag : Byte)
  | cancelResult (tag : Byte) (outcome : CancelOutcome)
  | taken (tag : Byte)
  deriving DecidableEq, Repr

/-- What one byte gives the supply receiver (R49): nothing yet, a bad frame, or a whole dispatcher message. -/
inductive ReceiverEvent where
  | none
  | bad
  | message (m : DispatcherMessage)
  deriving DecidableEq, Repr

/-- The supply receiver (R49): between frames, or with the bytes after the start byte taken so far. -/
inductive SupplyReceiver where
  | hunting
  | inFrame (bytes : List Byte)
  deriving DecidableEq, Repr

/-- The Supply Link Controller's own state: transmitter (R48), receiver and counts (R49, R50), and, while SUPPLY_READY is
asserted, how far the pass over the owed returns has come (R62, R67): none once the pass has ended, else the slot number
from which it looks on. -/
structure SupplyLink where
  sending : Option Message
  waiting : List Message
  receiver : SupplyReceiver
  staleCount : Nat
  badCount : Nat
  pass : Option Nat
  deriving DecidableEq, Repr

/-! ### Ports: queue view, lane, stop, divert (chapters 2, 4, 5, 8) -/

/-- Why a lane entry is FOREIGN (R93). -/
inductive ForeignReason where
  | stray
  | captured
  | service
  | misrouted
  deriving DecidableEq, Repr

/-- An entry of a lane list (R93). -/
inductive LaneEntry where
  | slot (i : Slot)
  | unidentified
  | foreign (reason : ForeignReason) (code : Code)
  deriving DecidableEq, Repr

/-- The item of an armed divert (R85). -/
inductive ArmItem where
  | slot (i : Slot)
  | foreign (reason : ForeignReason) (code : Code)
  deriving DecidableEq, Repr

/-- An armed divert: its item and the length, in tenths, of its confirm window, which runs while it is armed (R85). -/
structure Arm where
  item : ArmItem
  window : Nat
  deriving DecidableEq, Repr

/-- The attempt of the readiness chain (R98, R99). -/
inductive Attempt where
  | first
  | second
  deriving DecidableEq, Repr

/-- The state of a stop (R97). -/
inductive Stop where
  | vacant
  | reading (attempt : Attempt)
  | verified
  | holding
  | openSeated
  | openClear (waiting : Bool)
  | leaving
  deriving DecidableEq, Repr

/-- The port state (R145); `isOpen` is OPEN. -/
inductive PortMode where
  | closed
  | isOpen
  | closing
  | faulted
  deriving DecidableEq, Repr

/-- The fault causes (R151). -/
inductive FaultCause where
  | override
  | divert
  | stopJam
  | overfill
  deriving DecidableEq, Repr

/-- What each port holds; `readPulses` counts the pulses of the read-request output (R98, R99; log entry 16). -/
structure PortRec where
  mode : PortMode
  cause : Option FaultCause
  queue : List Slot
  lane : List LaneEntry
  arm : Option Arm
  unconfirmed : Nat
  stop : Stop
  exitWindow : Option Nat
  readPulses : Nat
  deriving DecidableEq, Repr

/-- The duplicate filter's content (R72): the code, and the time it was read, in microseconds. -/
structure FilterEntry where
  code : Code
  time : Nat
  deriving DecidableEq, Repr

/-! ### Stations (chapter 6) -/

/-- A side of a station. -/
inductive Side where
  | left
  | right
  deriving DecidableEq, Repr

/-- The step of a station in STEP (R111). -/
inductive StepUse where
  | isOpen
  | inUse
  deriving DecidableEq, Repr

/-- The hold status, with the step that is present in STEP alone (R111). -/
inductive HoldStatus where
  | running
  | holdPending
  | held
  | step (use : StepUse)
  deriving DecidableEq, Repr

/-- The attendance state (R131). -/
inductive Attendance where
  | attended
  | unattended
  deriving DecidableEq, Repr

/-- What each station holds (R111), less the pause switch level, which is an input. -/
structure StationRec where
  presentation : Option Slot
  workingPort : Option Port
  side : Side
  hold : HoldStatus
  commandFlag : Bool
  holdMode : Bool
  attendance : Attendance
  window : Option Nat
  deriving DecidableEq, Repr

/-! ### Readers (chapter 9) -/

/-- A channel's receiver (R158). -/
inductive ReaderReceiver where
  | hunting
  | receiving (bytes : List Byte)
  | ignoring
  deriving DecidableEq, Repr

/-- A channel's status (R164). -/
inductive ReaderStatus where
  | ok
  | degraded
  deriving DecidableEq, Repr

/-- What each reader channel holds (R158, R162, R163). -/
structure ReaderRec where
  receiver : ReaderReceiver
  frames : Nat
  bad : Nat
  lastBad : Nat
  windows : BitVec 8
  status : ReaderStatus
  deriving DecidableEq, Repr

/-- The class of a complete reader frame (R160). -/
inductive FrameClass where
  | badCheck
  | malformed
  | noRead
  | lowQuality
  | good (code : Code)
  deriving DecidableEq, Repr

/-! ### Notices (chapter 11) -/

/-- Where a record of a WARNED or EXPIRED notice stands: a source's port, or an order's put position (R184). -/
inductive RecordPlace where
  | port (p : Port)
  | position (u : Position)
  deriving DecidableEq, Repr

/-- The state of a record of either kind. -/
inductive RecordState where
  | source (st : SourceState)
  | order (st : OrderState)
  deriving DecidableEq, Repr

/-- The detail of a PRESENT_LOST notice. -/
inductive LostDetail where
  | sighted
  | seatLost
  | exitUnreleased
  | override
  deriving DecidableEq, Repr

/-- The detail of a PRESENT_REGAINED notice. -/
inductive RegainedDetail where
  | sighted
  | atStop
  deriving DecidableEq, Repr

/-- The detail of a STATION_HELD notice (R129). -/
inductive HeldDetail where
  | request
  | pendingDone
  | stepDone
  deriving DecidableEq, Repr

/-- A line outcome of a RETIRED notice (R26). -/
structure LineOutcome where
  state : LineState
  target : Slot
  quantity : Nat
  deriving DecidableEq, Repr

/-- A notice (R183, R184), one constructor per kind (RETIRED has one per kind of record), with the fields its kind
carries. -/
inductive Notice where
  | retiredSource (slot : Slot) (code : Code) (port : Port) (cause : RetireCause) (exposure : Nat)
      (outcomes : List LineOutcome)
  | retiredOrder (slot : Slot) (code : Code) (position : Position) (cause : RetireCause) (exposure : Nat)
      (orphaned : Nat)
  | warned (slot : Slot) (code : Code) (place : RecordPlace) (cls : ToteClass) (count : Nat) (threshold : Nat)
  | expired (slot : Slot) (code : Code) (place : RecordPlace) (state : RecordState) (cls : ToteClass) (count : Nat)
      (budget : Nat)
  | divertExhausted (slot : Slot) (code : Code) (port : Port) (final : Bool) (recycleCount : Nat)
  | unconfirmedSlot (slot : Slot) (code : Code) (port : Port) (count : Nat)
  | unconfirmedForeign (code : Code) (port : Port) (reason : ForeignReason) (count : Nat)
  | stray (order : Option Slot) (code : Code) (place : Option Port) (atStop : Bool)
  | presentLost (slot : Slot) (code : Code) (port : Port) (detail : LostDetail)
  | presentRegained (slot : Slot) (code : Code) (port : Port) (detail : RegainedDetail)
  | verifyFailed (head : Option (Slot × Code)) (port : Port)
  | misrouted (slot : Slot) (code : Code) (place : Port) (own : Port)
  | orderMissing (slot : Slot) (code : Code) (position : Position)
  | orderRestored (slot : Slot) (code : Code) (position : Position)
  | wrongPut (presented : Option Slot) (station : Station) (position : Position)
  | portFault (port : Port) (raised : FaultCause) (kept : FaultCause)
  | portClosed (port : Port)
  | stationHeld (station : Station) (detail : HeldDetail)
  | stationUnattended (slot : Slot) (station : Station)
  | readerDegraded (channel : Channel) (bad : Nat) (limit : Nat) (window : Nat)
  | readerRecovered (channel : Channel) (bad : Nat) (limit : Nat) (window : Nat)
  deriving DecidableEq, Repr

/-! ### Bench control and the command link (chapter 10) -/

/-- The bench state (R167). -/
inductive BenchState where
  | unconfigured
  | configured
  | running
  | halted
  deriving DecidableEq, Repr

/-- The configuration (R168): budgets in seconds, windows in tenths but for the attendance window in seconds, the family
filter with flag i as bit i. -/
structure Configuration where
  chilledBudget : Nat
  frozenBudget : Nat
  warnPercent : Nat
  pipelineDepth : Nat
  divertLimit : Nat
  confirmWindow : Nat
  answerWindow : Nat
  attendanceWindow : Nat
  qualityThreshold : Nat
  readerWindow : Nat
  readerBadLimit : Nat
  familyFilter : BitVec 64
  openAcceptance : Bool
  strayPort : Option Port
  servicePort : Option Port
  deriving DecidableEq, Repr

/-- The response statuses (12.2). -/
inductive Status where
  | ok
  | inProgress
  | notReady
  | frameError
  | unknownCommand
  | badLength
  | badArgument
  | wrongState
  | notConfigured
  | tableFull
  | rosterFull
  | noOpenPort
  | duplicateCode
  | noSuchRecord
  | linesRejected
  | linesPending
  | lineInWork
  | alreadyLeaving
  | exposureSpent
  | positionOccupied
  | noToteAtPosition
  | faultActive
  | localControl
  deriving DecidableEq, Repr

/-- A response before it is framed: status and result bytes (R187). -/
structure Response where
  status : Status
  result : List Byte
  deriving DecidableEq, Repr

/-- A response placed in the response buffer, with its DISCARDED flag (R176). -/
structure PlacedResponse where
  response : Response
  discarded : Bool
  deriving DecidableEq, Repr

/-- A transaction in progress (R174): the frame chosen at the fall of CS_N, and whether it is the buffered response. -/
structure Transaction where
  frame : List Byte
  fromBuffer : Bool
  deriving DecidableEq, Repr

/-- The request in hand (R175, R176): none, one dispatched and not yet acted on, or one acted on whose response is not
yet placed. -/
inductive Work where
  | idle
  | dispatched (request : Request)
  | answered (response : Response)
  deriving DecidableEq, Repr

/-- The Command Link Interface. -/
structure CommandLink where
  transaction : Option Transaction
  work : Work
  buffer : Option PlacedResponse
  discardFlag : Bool
  discardCount : Nat
  deriving DecidableEq, Repr

/-! ### The state -/

/-- The levels of the input lines the part reads as levels (12.6). -/
structure Inputs where
  supplyReady : Bool
  pauseA : Bool
  pauseB : Bool
  localControl : Vector Bool 4
  seat : Vector Bool 4
  presence : Vector Bool 12
  deriving DecidableEq, Repr

/-- The state of the VZ16, and what is the model's own: the counter of backoff draws (log entry 7), the queue of commands that
wait (log entry 3) and, filled from outside as the queue is, the number of frames after which another event meets the next
pass of the supply link, none where none does (log entry 14). -/
structure State where
  resetHeld : Bool
  inputs : Inputs
  bench : BenchState
  config : Configuration
  slots : Vector (Option Record) 64
  allocPtr : Slot
  ports : Vector PortRec 4
  rotation : Port
  supply : SupplyLink
  dupFilter : Option FilterEntry
  stationA : StationRec
  stationB : StationRec
  scannerReader : ReaderRec
  portReaders : Vector ReaderRec 4
  link : CommandLink
  notices : List Notice
  overflow : Nat
  draws : Nat
  meets : Option Nat
  pending : List Instr
  deriving DecidableEq, Repr

/-- The reasons a command stops the machine: none, since the spec gives every command an effect in every state. -/
inductive Fault where
  deriving DecidableEq, Repr

/-- The reasons a command is refused by the model. -/
inductive Refusal where
  /-- Raised by `exec` for a command that has no meaning yet (safe: the model says nothing of it); no arm raises it. -/
  | notModelled (mnemonic : String)
  deriving DecidableEq, Repr

/-- What a request gives: the state after its effects, and the response to be placed. -/
structure Reply where
  state : State
  response : Response
  deriving DecidableEq, Repr

/-! ### Reset -/

/-- The configuration after a hardware reset (R168). -/
def Configuration.reset : Configuration where
  chilledBudget := 900
  frozenBudget := 300
  warnPercent := 75
  pipelineDepth := 4
  divertLimit := 8
  confirmWindow := 15
  answerWindow := 20
  attendanceWindow := 30
  qualityThreshold := 40
  readerWindow := 256
  readerBadLimit := 16
  familyFilter := 0#64
  openAcceptance := false
  strayPort := none
  servicePort := none

/-- A port after a hardware reset or a bench clear (R31, R85, R90, R93, R97, R145). -/
def PortRec.reset : PortRec where
  mode := .closed
  cause := none
  queue := []
  lane := []
  arm := none
  unconfirmed := 0
  stop := .vacant
  exitWindow := none
  readPulses := 0

/-- A station after a hardware reset or a bench clear (R111). -/
def StationRec.reset : StationRec where
  presentation := none
  workingPort := none
  side := .right
  hold := .running
  commandFlag := false
  holdMode := false
  attendance := .attended
  window := none

/-- A reader channel after a hardware reset (R158, R162, R163, R164). -/
def ReaderRec.reset : ReaderRec where
  receiver := .hunting
  frames := 0
  bad := 0
  lastBad := 0
  windows := 0#8
  status := .ok

/-- The Supply Link Controller after a hardware reset (R48, R49, R50). -/
def SupplyLink.reset : SupplyLink where
  sending := none
  waiting := []
  receiver := .hunting
  staleCount := 0
  badCount := 0
  pass := none

/-- The Command Link Interface after a hardware reset (R176). -/
def CommandLink.reset : CommandLink where
  transaction := none
  work := .idle
  buffer := none
  discardFlag := false
  discardCount := 0

/-- The input lines, all at their inactive level: DESIGN CHOICE (log entry 4); the spec makes them inputs. -/
def Inputs.quiet : Inputs where
  supplyReady := false
  pauseA := false
  pauseB := false
  localControl := Vector.replicate 4 false
  seat := Vector.replicate 4 false
  presence := Vector.replicate 12 false

/-- The part right after a hardware reset (R167), RESET_N released and every input line inactive (log entry 4). -/
def State.reset : State where
  resetHeld := false
  inputs := Inputs.quiet
  bench := .unconfigured
  config := Configuration.reset
  slots := Vector.replicate 64 none
  allocPtr := 0
  ports := Vector.replicate 4 PortRec.reset
  rotation := 3
  supply := SupplyLink.reset
  dupFilter := none
  stationA := StationRec.reset
  stationB := StationRec.reset
  scannerReader := ReaderRec.reset
  portReaders := Vector.replicate 4 ReaderRec.reset
  link := CommandLink.reset
  notices := []
  overflow := 0
  draws := 0
  meets := none
  pending := []

end Sys2Proof.Machine
end

