-- ==== Sys2Proof/Machine/Ops.lean ====
section
/-! DEFINITION. The named operations over the state that every family uses: access to records, ports, stations and
readers; the views that a law of the spec derives from them; posting a notice; sending supply frames; the queue view;
retirement; entry into RETURNING; collisions; arming a divert. -/

namespace Sys2Proof.Machine

/-! ### Names of places (00_scope.md 1.2) -/

/-- The station of a port: 0 and 1 are A's, 2 and 3 are B's. -/
def portStation (p : Port) : Station := if p.val < 2 then .a else .b

/-- The side of a port. -/
def portSide (p : Port) : Side := if p.val % 2 = 0 then .left else .right

/-- The port on a side of a station. -/
def stationPort : Station → Side → Port
  | .a, .left => 0
  | .a, .right => 1
  | .b, .left => 2
  | .b, .right => 3

/-- The station of a put position: 0–5 A, 6–11 B. -/
def positionStation (u : Position) : Station := if u.val < 6 then .a else .b

/-- The opposite side. -/
def Side.other : Side → Side
  | .left => .right
  | .right => .left

/-- The slots in order. -/
def allSlots : List Slot := List.finRange 64

/-- The ports in order. -/
def allPorts : List Port := [0, 1, 2, 3]

/-! ### Access -/

/-- The live record of a slot, if any. -/
def State.record (s : State) (i : Slot) : Option Record := s.slots[i.val]

/-- The source record of a slot, if it holds one. -/
def State.source (s : State) (i : Slot) : Option Source :=
  match s.record i with
  | some (.source r) => some r
  | _ => none

/-- The order record of a slot, if it holds one. -/
def State.order (s : State) (i : Slot) : Option Order :=
  match s.record i with
  | some (.order r) => some r
  | _ => none

/-- The one place where a slot is written. -/
def State.setSlot (s : State) (i : Slot) (r : Option Record) : State :=
  { s with slots := s.slots.set i.val r }

/-- Write a source record. -/
def State.putSource (s : State) (i : Slot) (r : Source) : State := s.setSlot i (some (.source r))

/-- Write an order record. -/
def State.putOrder (s : State) (i : Slot) (r : Order) : State := s.setSlot i (some (.order r))

/-- Change the source record of a slot, if it holds one. -/
def State.modifySource (s : State) (i : Slot) (f : Source → Source) : State :=
  match s.source i with
  | some r => s.putSource i (f r)
  | none => s

/-- Apply a function to every slot. -/
def State.mapSlots (s : State) (f : Option Record → Option Record) : State :=
  { s with slots := ⟨(s.slots.toList.map f).toArray, by simp⟩ }

/-- A port's record. -/
def State.port (s : State) (p : Port) : PortRec := s.ports[p.val]

/-- The one place where a port is written. -/
def State.setPort (s : State) (p : Port) (r : PortRec) : State := { s with ports := s.ports.set p.val r }

/-- Change a port. -/
def State.modifyPort (s : State) (p : Port) (f : PortRec → PortRec) : State := s.setPort p (f (s.port p))

/-- A station's record. -/
def State.station (s : State) : Station → StationRec
  | .a => s.stationA
  | .b => s.stationB

/-- The one place where a station is written. -/
def State.setStation (s : State) (st : Station) (r : StationRec) : State :=
  match st with
  | .a => { s with stationA := r }
  | .b => { s with stationB := r }

/-- Change a station. -/
def State.modifyStation (s : State) (st : Station) (f : StationRec → StationRec) : State :=
  s.setStation st (f (s.station st))

/-- A reader channel's record. -/
def State.reader (s : State) : Channel → ReaderRec
  | .scanner => s.scannerReader
  | .port p => s.portReaders[p.val]

/-- The one place where a reader channel is written. -/
def State.setReader (s : State) (c : Channel) (r : ReaderRec) : State :=
  match c with
  | .scanner => { s with scannerReader := r }
  | .port p => { s with portReaders := s.portReaders.set p.val r }

/-- The pause switch level of a station. -/
def State.pauseSwitch (s : State) : Station → Bool
  | .a => s.inputs.pauseA
  | .b => s.inputs.pauseB

/-- The seat sensor level of a port. -/
def State.seatLevel (s : State) (p : Port) : Bool := s.inputs.seat[p.val]

/-- The local-control level of a port. -/
def State.localLevel (s : State) (p : Port) : Bool := s.inputs.localControl[p.val]

/-- The presence sensor level of a put position. -/
def State.presenceLevel (s : State) (u : Position) : Bool := s.inputs.presence[u.val]

/-- Change the input levels. -/
def State.setInputs (s : State) (x : Inputs) : State := { s with inputs := x }

/-- Change the supply link's own state. -/
def State.setSupply (s : State) (x : SupplyLink) : State := { s with supply := x }

/-- Change the command link. -/
def State.setLink (s : State) (x : CommandLink) : State := { s with link := x }

/-- A count that saturates at `most` rises by one. -/
def saturate (most n : Nat) : Nat := if n < most then n + 1 else n

/-- An event acts only while RESET_N is not held asserted (R167). -/
def State.whenLive (s : State) (f : State → State) : State := if s.resetHeld then s else f s

/-- The bench follows the lanes and the scanner in RUNNING and HALTED alone (R71, R95, R116). -/
def State.following (s : State) : Bool :=
  match s.bench with
  | .running => true
  | .halted => true
  | .unconfigured => false
  | .configured => false

/-! ### Records -/

/-- The common fields of a record. -/
def Record.tote : Record → Tote
  | .source r => r.tote
  | .order r => r.tote

/-- A record with its common fields replaced. -/
def Record.withTote (t : Tote) : Record → Record
  | .source r => .source { r with tote := t }
  | .order r => .order { r with tote := t }

/-- The kind of a record (R3). -/
def Record.kind : Record → RecordKind
  | .source _ => .source
  | .order _ => .order

/-- The station of a record (R3): its port's, or its put position's. -/
def Record.station : Record → Station
  | .source r => portStation r.port
  | .order r => positionStation r.position

/-- The state of a record. -/
def Record.state : Record → RecordState
  | .source r => .source r.state
  | .order r => .order r.state

/-- Where a record's notices say it stands (R184). -/
def Record.place : Record → RecordPlace
  | .source r => .port r.port
  | .order r => .position r.position

/-- The tag of a record, slot × 4 + visit (R4). -/
def Source.tag (i : Slot) (r : Source) : Nat := i.val * 4 + r.visit.val

/-- The withdraw mark or the expired mark is set. -/
def Source.marked (r : Source) : Bool := r.withdraw || r.tote.expired

/-- The record holds a credit (R52). -/
def Source.holdsCredit (r : Source) : Bool :=
  match r.state with
  | .calling => true
  | .cancelling => true
  | _ => false

/-- The record is counted in its port's committed count (R37). -/
def Source.committed (r : Source) : Bool :=
  match r.state with
  | .calling => true
  | .called => true
  | .inbound => true
  | .recycling => true
  | _ => false

/-- The record holds a closing port open (R150). -/
def Source.holdsPortOpen (r : Source) : Bool :=
  match r.state with
  | .calling => true
  | .called => true
  | .cancelling => true
  | .inbound => true
  | _ => false

/-- A cancel claim stands for the record: CALLED under the withdraw or expired mark (R40). -/
def Source.cancelClaim (r : Source) : Bool := decide (r.state = .called) && r.marked

/-- The live record with a tote code (R2: at most one), by slot. -/
def State.findCode (s : State) (c : Code) : Option Slot :=
  allSlots.find? (fun i => match s.record i with
    | some r => decide (r.tote.code = c)
    | none => false)

/-- The live order record at a put position (R7: at most one), by slot. -/
def State.orderAt (s : State) (u : Position) : Option Slot :=
  allSlots.find? (fun i => match s.order i with
    | some r => decide (r.position = u)
    | none => false)

/-- The number of slots whose source record fits a test. -/
def State.countSources (s : State) (f : Source → Bool) : Nat :=
  s.slots.toList.countP (fun o => match o with
    | some (.source r) => f r
    | _ => false)

/-- The number of FREE slots (R1). -/
def State.freeSlots (s : State) : Nat := s.slots.toList.countP (fun o => o.isNone)

/-- The credits in use: the records in CALLING or CANCELLING (R52). -/
def State.creditsInUse (s : State) : Nat := s.countSources Source.holdsCredit

/-- The size of a port's roster (R29). -/
def State.rosterSize (s : State) (p : Port) : Nat := s.countSources (fun r => decide (r.port = p))

/-- The committed count of a port (R37). -/
def State.committedCount (s : State) (p : Port) : Nat :=
  s.countSources (fun r => decide (r.port = p) && r.committed) + (s.port p).lane.length

/-- Whether the source record of a slot is QUEUED. -/
def State.isQueued (s : State) (i : Slot) : Bool :=
  match s.source i with
  | some r => decide (r.state = .queued)
  | none => false

/-! ### Pick lines -/

/-- The line is still to be worked: OPEN or BLOCKED (R10). -/
def Line.pending (l : Line) : Bool :=
  match l.state with
  | .isOpen => true
  | .blocked => true
  | _ => false

/-- Move the lines that fit a test into a state. -/
def moveLines (test : Line → Bool) (dest : LineState) (ls : List Line) : List Line :=
  ls.map (fun l => if test l then { l with state := dest } else l)

/-- Every OPEN or BLOCKED line of a record goes into a final state. -/
def Source.resolveLines (r : Source) (dest : LineState) : Source :=
  { r with lines := moveLines Line.pending dest r.lines }

/-- The line of one index goes into a state, while it is OPEN or BLOCKED: a line in a final state never changes (R9). -/
def setLine (ls : List Line) (k : Nat) (dest : LineState) : List Line :=
  ls.modify k (fun l => if l.pending then { l with state := dest } else l)

/-- The pending lines of a record that target an order. -/
def Source.pendingFor (r : Source) (o : Slot) : Nat :=
  r.lines.countP (fun l => l.pending && decide (l.target = o))

/-- The pending count of an order: the OPEN or BLOCKED lines, across all live source records, that target it (R10). -/
def State.pendingCount (s : State) (o : Slot) : Nat :=
  (s.slots.toList.map (fun x => match x with
    | some (.source r) => r.pendingFor o
    | _ => 0)).sum

/-- Move, in every live source record, the lines that target an order and fit a test into a state. -/
def State.moveLinesFor (s : State) (o : Slot) (test : Line → Bool) (dest : LineState) : State :=
  s.mapSlots (fun x => match x with
    | some (.source r) =>
      some (.source { r with lines := moveLines (fun l => test l && decide (l.target = o)) dest r.lines })
    | other => other)

/-! ### Notices (R179) -/

/-- Post a notice: it joins the newest end, or, at a full queue, is dropped and counted. -/
def State.post (s : State) (n : Notice) : State :=
  if s.notices.length < Config.noticeLimit then { s with notices := s.notices ++ [n] }
  else { s with overflow := saturate 255 s.overflow }

/-- ATTN (R180). -/
def State.attn (s : State) : Bool := !s.notices.isEmpty

/-! ### Supply frames (R48) -/

/-- Produce a frame: an idle transmitter begins it, otherwise it waits its turn. -/
def State.transmit (s : State) (m : Message) : State :=
  match s.supply.sending with
  | none => s.setSupply { s.supply with sending := some m }
  | some _ => s.setSupply { s.supply with waiting := s.supply.waiting ++ [m] }

/-- The cause a RETURN of the record carries (R65). -/
def Source.returnCause (r : Source) : ReturnCause :=
  if r.state = .recycling then .recycle
  else match r.leaving with
    | some .complete => .complete
    | some .withdrawn => .withdrawn
    | some .expired => .expired
    | some .divertExhausted => .recycle
    | none => .complete

/-- Send the record's RETURN, or, with SUPPLY_READY deasserted, owe it (R65, R66). -/
def State.sendReturn (s : State) (i : Slot) : State :=
  match s.source i with
  | none => s
  | some r =>
    if s.inputs.supplyReady then
      (s.putSource i { r with returnOwed := false }).transmit
        (.returnTote (r.tag i) r.tote.code r.tote.cls r.returnCause)
    else s.putSource i { r with returnOwed := true }

/-- Send the record's CANCEL and open its window, or, with SUPPLY_READY deasserted, hold it (R53, R62). -/
def State.sendCancel (s : State) (i : Slot) : State :=
  match s.source i with
  | none => s
  | some r =>
    if s.inputs.supplyReady then
      (s.putSource i { r with answerWindow := some s.config.answerWindow, cancelHeld := false }).transmit
        (.cancel (r.tag i))
    else s.putSource i { r with answerWindow := none, cancelHeld := true }

/-! ### The queue view (R31) -/

/-- Put a slot immediately ahead of the first slot that fits a test, or at the end. -/
def insertAhead (test : Slot → Bool) (i : Slot) : List Slot → List Slot
  | [] => [i]
  | j :: rest => if test j then i :: j :: rest else j :: insertAhead test i rest

/-- The queue view without a slot. -/
def withoutSlot (i : Slot) (q : List Slot) : List Slot := q.filter (fun j => decide (j ≠ i))

/-- A slot leaves a port's queue view (R36). -/
def State.unqueue (s : State) (p : Port) (i : Slot) : State :=
  s.modifyPort p (fun r => { r with queue := withoutSlot i r.queue })

/-- A slot goes to the head of a port's queue view (R36). -/
def State.queueHead (s : State) (p : Port) (i : Slot) : State :=
  s.modifyPort p (fun r => { r with queue := i :: withoutSlot i r.queue })

/-- A slot goes to the tail of a port's queue view (R33, R34). -/
def State.queueTail (s : State) (p : Port) (i : Slot) : State :=
  s.modifyPort p (fun r => { r with queue := withoutSlot i r.queue ++ [i] })

/-- A slot goes to the head of the QUEUED portion of a port's queue view (R31, R33, R35). -/
def State.queueAhead (s : State) (p : Port) (i : Slot) : State :=
  s.modifyPort p (fun r => { r with queue := insertAhead s.isQueued i (withoutSlot i r.queue) })

/-! ### Read windows (R98) -/

/-- A read window opens for an attempt, and the read-request output is pulsed (R98). -/
def PortRec.startRead (r : PortRec) (attempt : Attempt) : PortRec :=
  { r with stop := .reading attempt, readPulses := r.readPulses + 1 }

/-! ### Arms (R85) -/

/-- The reservation of a port: 1 while its divert is armed (R94). -/
def PortRec.reservation (r : PortRec) : Nat := if r.arm.isSome then 1 else 0

/-- The port accepts a divert (R84). -/
def PortRec.accepts (r : PortRec) : Bool :=
  (decide (r.mode = .isOpen) || decide (r.mode = .closing)) && decide (r.lane.length + r.reservation < 3)
    && r.arm.isNone

/-- Arm a port's divert with an item (R85). -/
def State.armDivert (s : State) (p : Port) (item : ArmItem) : State :=
  s.modifyPort p (fun r => { r with arm := some { item := item, window := s.config.confirmWindow } })

/-- End a port's arm with nothing more. -/
def State.clearArm (s : State) (p : Port) : State := s.modifyPort p (fun r => { r with arm := none })

/-- End the arm of a record's port if it is armed with the record, with nothing counted (R91, third row). -/
def State.dropArmOf (s : State) (p : Port) (i : Slot) : State :=
  s.modifyPort p (fun r =>
    if r.arm.map Arm.item = some (.slot i) then { r with arm := none } else r)

/-! ### Leaving: RETURNING and retirement (R6, R25, R65) -/

/-- A source record enters RETURNING with a leaving cause: its OPEN and BLOCKED lines are DEFERRED (a withdrawn record
has none left), it leaves its queue view, an arm with it ends, and RETURN is sent or owed (R6, R65, R66, R91). -/
def State.enterReturning (s : State) (i : Slot) (cause : LeavingCause) : State :=
  match s.source i with
  | none => s
  | some r =>
    ((((s.putSource i { r.resolveLines .deferred with
        state := .returning, leaving := some cause, current := none, answerWindow := none,
        cancelHeld := false }).unqueue r.port i).dropArmOf r.port i).sendReturn i)

/-- The leaving cause a marked record takes: WITHDRAWN under the withdraw mark, else EXPIRED (R75, R102). -/
def Source.markedCause (r : Source) : LeavingCause := if r.withdraw then .withdrawn else .expired

/-- The line outcomes a RETIRED notice carries (R26). -/
def Source.outcomes (r : Source) : List LineOutcome :=
  r.lines.map (fun l => { state := l.state, target := l.target, quantity := l.quantity })

/-- Retire a source record with a cause (R25, R26): lines deferred, its place in the roster's views and any arm given up,
RETIRED posted, the slot FREE. Its window, held CANCEL, claim, credit and owed return go with the record. -/
def State.retireSource (s : State) (i : Slot) (cause : RetireCause) : State :=
  match s.source i with
  | none => s
  | some r =>
    let d := r.resolveLines .deferred
    let left := (s.modifyPort r.port (fun q =>
      { q with queue := withoutSlot i q.queue, lane := q.lane.filter (fun e => decide (e ≠ .slot i)) })).dropArmOf r.port i
    (left.post (.retiredSource i r.tote.code r.port cause r.tote.exposure d.outcomes)).setSlot i none

/-- Retire an order record with a cause and the number of lines its close orphaned (R25, R26). -/
def State.retireOrder (s : State) (i : Slot) (cause : RetireCause) (orphaned : Nat) : State :=
  match s.order i with
  | none => s
  | some r =>
    (s.post (.retiredOrder i r.tote.code r.position cause r.tote.exposure orphaned)).setSlot i none

/-! ### Collisions (R86, R87) -/

/-- The number of values a backoff is drawn from after a collision: 2 to the smaller of the attempts and 4 (R86). -/
def backoffRange (attempts : Nat) : Nat := 2 ^ min attempts 4

/-- The record's attempts are exhausted: recycled below the recycle limit, sent home for good at it (R87). An arm that still
holds the record, where the collision was that of its misrouted tote's exit (R107), ends quietly: R91 does not name this
end, and it is the model's choice (log entry 11). -/
def State.exhaust (s : State) (i : Slot) (attempts : Nat) : State :=
  match s.source i with
  | none => s
  | some r =>
    if r.recycleCount < Config.recycleLimit then
      (((s.putSource i { r with
          state := .recycling, divertAttempts := attempts, backoff := 0,
          recycleCount := r.recycleCount + 1 }).dropArmOf r.port i).sendReturn i).post
        (.divertExhausted i r.tote.code r.port false (r.recycleCount + 1))
    else
      ((s.putSource i { r with divertAttempts := attempts, backoff := 0 }).enterReturning i .divertExhausted).post
        (.divertExhausted i r.tote.code r.port true r.recycleCount)

/-- A record's attempts after a collision: one more while below the limit (R86). -/
def Source.attemptsAfter (r : Source) (limit : Nat) : Nat :=
  if r.divertAttempts < limit then r.divertAttempts + 1 else r.divertAttempts

/-- A backoff is drawn for a record whose attempts stand below the limit (R86): a free value in the range of the attempts
(log entry 7). -/
def State.drawBackoff (s : State) (i : Slot) (r : Source) (attempts : Nat) : State :=
  let t := s.putSource i { r with
    divertAttempts := attempts, backoff := Config.backoffDraw s.draws % backoffRange attempts }
  { t with draws := t.draws + 1 }

/-- A collision is counted against an INBOUND record (R86): attempts rise to at most the limit; at the limit they are
exhausted, below it a backoff is drawn. -/
def State.collide (s : State) (i : Slot) : State :=
  match s.source i with
  | none => s
  | some r =>
    if r.state = .inbound then
      if r.attemptsAfter s.config.divertLimit < s.config.divertLimit then
        s.drawBackoff i r (r.attemptsAfter s.config.divertLimit)
      else s.exhaust i (r.attemptsAfter s.config.divertLimit)
    else s

/-- An arm is withdrawn by an overfill or the local-control line: it ends, a slot item's record collides, a FOREIGN item
is dropped, and the unconfirmed count is unchanged (R91). -/
def State.withdrawArm (s : State) (p : Port) : State :=
  match (s.port p).arm with
  | none => s
  | some a =>
    match a.item with
    | .slot i => (s.clearArm p).collide i
    | .foreign _ _ => s.clearArm p

end Sys2Proof.Machine
end

