-- ==== Sys2Proof/Machine/Operands.lean ====
section
/-! DEFINITION. The fields a frame carries: byte order, the CRC-8 (R185), the value encodings (R186), the request fields
and the parameters of CONFIGURE (R168). -/

namespace Sys2Proof.Machine

/-! ### Byte order (00_scope.md section 4: most significant byte first) -/

/-- A byte of a list, 0 past its end. -/
def byteAt (bs : List Byte) (k : Nat) : Byte := bs.getD k 0#8

/-- Two bytes, most significant first. -/
def word16 (bs : List Byte) (k : Nat) : BitVec 16 := byteAt bs k ++ byteAt bs (k + 1)

/-- Four bytes, most significant first. -/
def word32 (bs : List Byte) (k : Nat) : BitVec 32 :=
  byteAt bs k ++ byteAt bs (k + 1) ++ byteAt bs (k + 2) ++ byteAt bs (k + 3)

/-- A number as one byte. -/
def byteOf (n : Nat) : Byte := BitVec.ofNat 8 n

/-- A number as two bytes, most significant first. -/
def bytes16 (n : Nat) : List Byte := [byteOf (n / 256), byteOf n]

/-- A tote code as four bytes, most significant first. -/
def bytes32 (c : Code) : List Byte :=
  [c.extractLsb' 24 8, c.extractLsb' 16 8, c.extractLsb' 8 8, c.extractLsb' 0 8]

/-- The eight filter bytes as 64 flags: flag i is bit (i mod 8) of byte i div 8 (R186). -/
def flags64 (bs : List Byte) (k : Nat) : BitVec 64 :=
  byteAt bs (k + 7) ++ byteAt bs (k + 6) ++ byteAt bs (k + 5) ++ byteAt bs (k + 4)
    ++ byteAt bs (k + 3) ++ byteAt bs (k + 2) ++ byteAt bs (k + 1) ++ byteAt bs k

/-- The 64 flags as the eight filter bytes (R186). -/
def bytesOfFlags (f : BitVec 64) : List Byte :=
  (List.range 8).map (fun k => f.extractLsb' (8 * k) 8)

/-! ### The check (R185) -/

/-- The check register is shifted by one bit: one place to the left, and 0x07 for the bit that falls out (R185). -/
def crcBit (c : Byte) : Byte := if c.msb then (c <<< 1) ^^^ 0x07#8 else c <<< 1

/-- The CRC-8 of a run of bytes: generator 0x07, register 0 at the start, most significant bit first, eight shifts a byte
(R185). -/
def crc8 (bs : List Byte) : Byte := bs.foldl (fun c b => Nat.repeat crcBit 8 (c ^^^ b)) 0#8

/-! ### Request fields (R186): none is an undefined value -/

/-- A slot number, 0–63. -/
def slotField (b : Byte) : Option Slot := if h : b.toNat < 64 then some ⟨b.toNat, h⟩ else none

/-- A port number, 0–3. -/
def portField (b : Byte) : Option Port := if h : b.toNat < 4 then some ⟨b.toNat, h⟩ else none

/-- A put position, 0–11. -/
def positionField (b : Byte) : Option Position := if h : b.toNat < 12 then some ⟨b.toNat, h⟩ else none

/-- A station: A 0, B 1. -/
def stationField (b : Byte) : Option Station :=
  if b = 0#8 then some .a else if b = 1#8 then some .b else none

/-- A class: AMBIENT 0, CHILLED 1, FROZEN 2. -/
def classField (b : Byte) : Option ToteClass :=
  if b = 0#8 then some .ambient else if b = 1#8 then some .chilled else if b = 2#8 then some .frozen else none

/-- A flag: 0 or 1. -/
def flagField (b : Byte) : Option Bool := if b = 0#8 then some false else if b = 1#8 then some true else none

/-- A port parameter of CONFIGURE: 0–3, or 0xFF for none (R186). -/
def optionalPortField (b : Byte) : Option (Option Port) :=
  if b = 0xFF#8 then some none else (portField b).map some

/-- A tote code a record may hold: not 0 and not the service code (R2). -/
def recordCode (c : Code) : Bool := decide (c ≠ noReadCode) && decide (c ≠ serviceCode)

/-- The slot a tag names: its quotient by 4 (R50). -/
def tagSlot (tag : Byte) : Slot := ⟨tag.toNat / 4, by have := tag.isLt; omega⟩

/-- The visit a tag names: its remainder by 4 (R50). -/
def tagVisit (tag : Byte) : Fin 4 := ⟨tag.toNat % 4, by omega⟩

/-! ### The parameters of CONFIGURE (R168) -/

/-- A number within bounds. -/
def within (lo hi n : Nat) : Bool := decide (lo ≤ n) && decide (n ≤ hi)

/-- The fifteen checks in index order: whether each parameter holds a valid value (R168). -/
def configChecks (a : ConfigArgs) : List Bool :=
  [within 60 3600 a.chilledBudget.toNat,
   within 30 1800 a.frozenBudget.toNat,
   within 50 95 a.warnPercent.toNat,
   within 1 6 a.pipelineDepth.toNat,
   within 2 12 a.divertLimit.toNat,
   within 2 50 a.confirmWindow.toNat,
   within 5 100 a.answerWindow.toNat,
   within 5 120 a.attendanceWindow.toNat,
   within 1 100 a.qualityThreshold.toNat,
   decide (a.readerWindow = 64#16) || decide (a.readerWindow = 256#16),
   within 1 255 a.readerBadLimit.toNat,
   true,
   (flagField a.openAcceptance).isSome,
   (optionalPortField a.strayPort).isSome,
   (optionalPortField a.servicePort).isSome]

/-- The index, 1–15, of the first parameter outside its valid values, if any (R168). -/
def configFirstBad (a : ConfigArgs) : Option Nat :=
  ((configChecks a).findIdx? (fun ok => !ok)).map (· + 1)

/-- The configuration that valid parameters give. -/
def configurationOf (a : ConfigArgs) : Configuration where
  chilledBudget := a.chilledBudget.toNat
  frozenBudget := a.frozenBudget.toNat
  warnPercent := a.warnPercent.toNat
  pipelineDepth := a.pipelineDepth.toNat
  divertLimit := a.divertLimit.toNat
  confirmWindow := a.confirmWindow.toNat
  answerWindow := a.answerWindow.toNat
  attendanceWindow := a.attendanceWindow.toNat
  qualityThreshold := a.qualityThreshold.toNat
  readerWindow := a.readerWindow.toNat
  readerBadLimit := a.readerBadLimit.toNat
  familyFilter := a.familyFilter
  openAcceptance := (flagField a.openAcceptance).getD false
  strayPort := (optionalPortField a.strayPort).getD none
  servicePort := (optionalPortField a.servicePort).getD none

/-! ### Value encodings (R186) -/

/-- An optional one-byte field: 0xFF when absent. -/
def optionalByte (o : Option Byte) : Byte := o.getD 0xFF#8

/-- A truth value as a byte. -/
def boolByte (b : Bool) : Byte := if b then 1#8 else 0#8

def slotByte (i : Slot) : Byte := byteOf i.val

def portByte (p : Port) : Byte := byteOf p.val

def positionByte (u : Position) : Byte := byteOf u.val

def RecordKind.byte : RecordKind → Byte
  | .source => 0#8
  | .order => 1#8

def ToteClass.byte : ToteClass → Byte
  | .ambient => 0#8
  | .chilled => 1#8
  | .frozen => 2#8

def stationByte : Station → Byte
  | .a => 0#8
  | .b => 1#8

def Side.byte : Side → Byte
  | .left => 0#8
  | .right => 1#8

def SourceState.byte : SourceState → Byte
  | .queued => 0#8
  | .calling => 1#8
  | .called => 2#8
  | .cancelling => 3#8
  | .inbound => 4#8
  | .laned => 5#8
  | .atStop => 6#8
  | .ready => 7#8
  | .presented => 8#8
  | .releasing => 9#8
  | .returning => 10#8
  | .recycling => 11#8
  | .missing => 12#8

def OrderState.byte : OrderState → Byte
  | .bound => 0#8
  | .missing => 1#8
  | .expired => 2#8

def RecordState.byte : RecordState → Byte
  | .source st => st.byte
  | .order st => st.byte

def LineState.byte : LineState → Byte
  | .isOpen => 0#8
  | .blocked => 1#8
  | .done => 2#8
  | .short => 3#8
  | .cancelled => 4#8
  | .orphaned => 5#8
  | .deferred => 6#8

def PassReason.byte : PassReason → Byte
  | .withdrawn => 0#8
  | .expired => 1#8
  | .verifyFailed => 2#8

def RetireCause.byte : RetireCause → Byte
  | .complete => 0#8
  | .withdrawn => 1#8
  | .expired => 2#8
  | .callFailed => 3#8
  | .divertExhausted => 4#8
  | .closed => 5#8
  | .closedForced => 6#8

/-- The retirement cause a leaving cause becomes (R68). -/
def LeavingCause.retireCause : LeavingCause → RetireCause
  | .complete => .complete
  | .withdrawn => .withdrawn
  | .expired => .expired
  | .divertExhausted => .divertExhausted

def LeavingCause.byte (c : LeavingCause) : Byte := c.retireCause.byte

def ReturnCause.byte : ReturnCause → Byte
  | .complete => 0#8
  | .withdrawn => 1#8
  | .expired => 2#8
  | .recycle => 3#8
  | .callFailed => 4#8

def BenchState.byte : BenchState → Byte
  | .unconfigured => 0#8
  | .configured => 1#8
  | .running => 2#8
  | .halted => 3#8

def PortMode.byte : PortMode → Byte
  | .closed => 0#8
  | .isOpen => 1#8
  | .closing => 2#8
  | .faulted => 3#8

def FaultCause.byte : FaultCause → Byte
  | .override => 0#8
  | .divert => 1#8
  | .stopJam => 2#8
  | .overfill => 3#8

def ForeignReason.byte : ForeignReason → Byte
  | .stray => 0#8
  | .captured => 1#8
  | .service => 2#8
  | .misrouted => 3#8

def HoldStatus.byte : HoldStatus → Byte
  | .running => 0#8
  | .holdPending => 1#8
  | .held => 2#8
  | .step _ => 3#8

/-- The step of a station: open 0, in use 1, absent outside STEP. -/
def HoldStatus.stepByte : HoldStatus → Byte
  | .step .isOpen => 0#8
  | .step .inUse => 1#8
  | .running => 0xFF#8
  | .holdPending => 0xFF#8
  | .held => 0xFF#8

def Attendance.byte : Attendance → Byte
  | .attended => 0#8
  | .unattended => 1#8

def ReaderStatus.byte : ReaderStatus → Byte
  | .ok => 0#8
  | .degraded => 1#8

def channelByte : Channel → Byte
  | .scanner => 0#8
  | .port p => byteOf (p.val + 1)

/-- The status codes (12.2). -/
def Status.byte : Status → Byte
  | .ok => 0#8
  | .inProgress => 1#8
  | .notReady => 2#8
  | .frameError => 16#8
  | .unknownCommand => 17#8
  | .badLength => 18#8
  | .badArgument => 19#8
  | .wrongState => 20#8
  | .notConfigured => 21#8
  | .tableFull => 32#8
  | .rosterFull => 33#8
  | .noOpenPort => 34#8
  | .duplicateCode => 35#8
  | .noSuchRecord => 36#8
  | .linesRejected => 37#8
  | .linesPending => 38#8
  | .lineInWork => 39#8
  | .alreadyLeaving => 40#8
  | .exposureSpent => 41#8
  | .positionOccupied => 42#8
  | .noToteAtPosition => 43#8
  | .faultActive => 48#8
  | .localControl => 49#8

/-! ### Supply frames (R190) -/

/-- The type and payload of a message the VZ16 sends. -/
def Message.body : Message → Byte × List Byte
  | .call tag code port cls => (0x01#8, byteOf tag :: (bytes32 code ++ [byteOf port.val, cls.byte]))
  | .cancel tag => (0x02#8, [byteOf tag])
  | .returnTote tag code cls cause => (0x03#8, byteOf tag :: (bytes32 code ++ [cls.byte, cause.byte]))

/-- The bytes of the frame on the transmit line (R190): start byte, type, length, payload, check. -/
def Message.frame (m : Message) : List Byte :=
  let covered := m.body.1 :: byteOf m.body.2.length :: m.body.2
  0xA5#8 :: (covered ++ [crc8 covered])

/-- The reason a REFUSED carries, where it is defined. -/
def refuseReasonField (b : Byte) : Option RefuseReason :=
  if b = 0#8 then some .busy else if b = 1#8 then some .blocked else if b = 2#8 then some .unknownTote else none

/-- The outcome a CANCEL_RESULT carries, where it is defined. -/
def cancelOutcomeField (b : Byte) : Option CancelOutcome :=
  if b = 0#8 then some .cancelled else if b = 1#8 then some .tooLate else if b = 2#8 then some .unknownTag else none

/-- The dispatcher message of a type and a payload, where it is well formed (R49, R190). -/
def dispatcherMessage (type : Byte) (payload : List Byte) : Option DispatcherMessage :=
  match type.toNat, payload with
  | 0x81, [tag] => some (.accepted tag)
  | 0x82, [tag, reason] => (refuseReasonField reason).map (DispatcherMessage.refused tag)
  | 0x83, [tag] => some (.released tag)
  | 0x84, [tag, outcome] => (cancelOutcomeField outcome).map (DispatcherMessage.cancelResult tag)
  | 0x85, [tag] => some (.taken tag)
  | _, _ => none

/-- A reason as a REFUSED carries it. -/
def refuseReasonByte : RefuseReason → Byte
  | .busy => 0#8
  | .blocked => 1#8
  | .unknownTote => 2#8

/-- An outcome as a CANCEL_RESULT carries it. -/
def cancelOutcomeByte : CancelOutcome → Byte
  | .cancelled => 0#8
  | .tooLate => 1#8
  | .unknownTag => 2#8

/-- The type and payload of a message the dispatcher sends (R190). -/
def DispatcherMessage.body : DispatcherMessage → Byte × List Byte
  | .accepted tag => (0x81#8, [tag])
  | .refused tag reason => (0x82#8, [tag, refuseReasonByte reason])
  | .released tag => (0x83#8, [tag])
  | .cancelResult tag outcome => (0x84#8, [tag, cancelOutcomeByte outcome])
  | .taken tag => (0x85#8, [tag])

/-- The bytes of its frame on the receive line (R190). -/
def DispatcherMessage.frame (m : DispatcherMessage) : List Byte :=
  let covered := m.body.1 :: byteOf m.body.2.length :: m.body.2
  0xA5#8 :: (covered ++ [crc8 covered])

end Sys2Proof.Machine
end

