-- ==== Sys2Proof/Machine/Flags.lean ====
section
/-! DEFINITION. Flag bytes and flag computations: the response flags and a record's marks (R186), the family filter
(R83), the hold request and at-hold flag (R111, R124), and the outputs that the rules derive (R97, R106, R115). -/

namespace Sys2Proof.Machine

/-- A byte from its three lowest flags. -/
def flagsByte (b0 b1 b2 : Bool) : Byte :=
  byteOf (b0.toNat + 2 * b1.toNat + 4 * b2.toNat)

/-- The OVERFLOW condition (R179). -/
def State.overflowed (s : State) : Bool := decide (0 < s.overflow)

/-- The flags byte of a response frame: bit 0 DISCARDED, bit 1 ATTN, bit 2 OVERFLOW (R186). -/
def State.responseFlags (s : State) (discarded : Bool) : Byte := flagsByte discarded s.attn s.overflowed

/-- A record's marks byte: warned, expired, withdraw, requeue, return owed (R186). -/
def Record.marks : Record → Byte
  | .source r => byteOf (r.tote.warned.toNat + 2 * r.tote.expired.toNat + 4 * r.withdraw.toNat
      + 8 * r.requeue.toNat + 16 * r.returnOwed.toNat)
  | .order r => byteOf (r.tote.warned.toNat + 2 * r.tote.expired.toNat)

/-- The family index of a code: the sum of its four bytes, modulo 64 (R83). -/
def familyIndex (c : Code) : Nat := ((bytes32 c).map BitVec.toNat).sum % 64

/-- The unknown tote is reported: open acceptance is on, or its family's flag is set (R83). -/
def Configuration.reports (k : Configuration) (c : Code) : Bool :=
  k.openAcceptance || k.familyFilter.getLsbD (familyIndex c)

/-- The hold request of a station (R124). -/
def State.holdRequest (s : State) (st : Station) : Bool := (s.station st).commandFlag || s.pauseSwitch st

/-- The at-hold flag (R111). -/
def StationRec.atHold (r : StationRec) : Bool := decide (r.hold = .held)

/-- RESP_RDY (R176). -/
def CommandLink.respReady (l : CommandLink) : Bool := l.buffer.isSome

/-- The stop-open output (R106, R107). -/
def PortRec.stopOpen (r : PortRec) : Bool :=
  match r.stop with
  | .openSeated => true
  | .openClear _ => true
  | _ => false

/-- The divert-arm output (R85). -/
def PortRec.divertArm (r : PortRec) : Bool := r.arm.isSome

/-- The read-request output is up: its last pulse, whose length the spec leaves open, is shown for as long as the read window
it opened runs (R98; log entry 16). Each pulse, that of a re-read included (R99), counts one more in `readPulses`. -/
def PortRec.readRequest (r : PortRec) : Bool :=
  match r.stop with
  | .reading _ => true
  | _ => false

/-- The line a station's picker works: of its presented record, the current line (R114). -/
def State.currentLine (s : State) (st : Station) : Option Line := do
  let i ← (s.station st).presentation
  let r ← s.source i
  let k ← r.current
  r.lines[k]?

/-- The lit port lamp of a station (R115). -/
def State.portLamp (s : State) (st : Station) : Option Port :=
  match s.currentLine st with
  | some _ => (s.station st).workingPort
  | none => none

/-- The lit put lamp of a station: the put position of the current line's target order (R115). -/
def State.putLamp (s : State) (st : Station) : Option Position := do
  let l ← s.currentLine st
  let o ← s.order l.target
  some o.position

/-- The quantity display of a station, none when blank (R115). -/
def State.display (s : State) (st : Station) : Option Nat := (s.currentLine st).map Line.quantity

end Sys2Proof.Machine
end

