-- ==== Sys2Proof/Machine/Stop.lean ====
section
/-! DEFINITION. Shared operations of the stop, its faults and the end of a presentation (chapters 5, 6 and 8): opening
and seating, the exit and the loss of a head, displacement, raising a fault, local control, and the end of an arm that
was not confirmed. -/

namespace Sys2Proof.Machine

/-! ### The end of a presentation (R121) -/

/-- A station enters HELD: the hold-mode flag is set and STATION_HELD posted (R129). -/
def State.enterHeld (s : State) (st : Station) (detail : HeldDetail) : State :=
  (s.modifyStation st (fun r => { r with hold := .held, holdMode := true })).post (.stationHeld st detail)

/-- A station enters RUNNING: the hold-mode flag is cleared (R129). -/
def State.enterRunning (s : State) (st : Station) : State :=
  s.modifyStation st (fun r => { r with hold := .running, holdMode := false })

/-- Steps 1 to 4 of R121: the presentation and the record's current line become none, the attendance window stops, and
the hold status is settled. The guidance follows (R115), and the station selects again when the event settles. -/
def State.endPresentation (s : State) (st : Station) : State :=
  match (s.station st).presentation with
  | none => s
  | some i =>
    let ended := (s.modifySource i (fun r => { r with current := none })).modifyStation st
      (fun r => { r with presentation := none, window := none })
    match (s.station st).hold with
    | .holdPending => ended.enterHeld st .pendingDone
    | .step .inUse => ended.enterHeld st .stepDone
    | .step .isOpen => ended
    | .running => ended
    | .held => ended

/-- The presentation of a record at a port's station ends, if that station presents it. -/
def State.endPresentationOf (s : State) (p : Port) (i : Slot) : State :=
  if (s.station (portStation p)).presentation = some i then s.endPresentation (portStation p) else s

/-! ### Opening and seating (R97, R98, R106) -/

/-- The Lane Controller opens a port's stop (R106): OPEN_SEATED, the exit window starts, a slot head becomes RELEASING,
and its presentation, if it has one, ends. -/
def State.openStop (s : State) (p : Port) : State :=
  let opened := s.modifyPort p (fun r => { r with stop := .openSeated, exitWindow := some Config.exitWindow })
  match (s.port p).lane with
  | .slot i :: _ =>
    (opened.modifySource i (fun r => { r with state := .releasing })).endPresentationOf p i
  | _ => opened

/-- A seat-on in VACANT (R97): an empty lane gets an UNIDENTIFIED head, a slot head becomes AT_STOP, and the readiness
chain starts at attempt 1 (R98). -/
def State.seatHead (s : State) (p : Port) : State :=
  let reading := s.modifyPort p (fun r =>
    { r.startRead .first with lane := if r.lane.isEmpty then [.unidentified] else r.lane })
  match (s.port p).lane with
  | .slot i :: _ => reading.modifySource i (fun r => { r with state := .atStop })
  | _ => reading

/-- A READY head with pass-through reason WITHDRAWN or EXPIRED is passed through at once (R106). -/
def State.passHead (s : State) (p : Port) : State :=
  match (s.port p).lane with
  | .slot i :: _ =>
    match s.source i with
    | some r =>
      if r.state = .ready ∧ (r.passThrough = some .withdrawn ∨ r.passThrough = some .expired) then s.openStop p else s
    | none => s
  | _ => s

/-! ### The exit (R107) -/

/-- Where the removed head of a released stop goes (R107). -/
def State.exitResult (s : State) : LaneEntry → State
  | .slot i =>
    match s.source i with
    | none => s
    | some r =>
      match r.passThrough with
      | none => s.enterReturning i .complete
      | some .withdrawn => s.enterReturning i .withdrawn
      | some .expired => s.enterReturning i .expired
      | some .verifyFailed =>
        if r.tote.expired then (s.putSource i { r with passThrough := none }).enterReturning i .expired
        else ((s.putSource i { r with passThrough := none, state := .inbound }).queueHead r.port i).collide i
  | .foreign .misrouted c =>
    match s.findCode c with
    | some i => s.collide i
    | none => s
  | .foreign .stray _ => s
  | .foreign .captured _ => s
  | .foreign .service _ => s
  | .unidentified => s

/-- The stop after an exit, and whether the next tote is already seated (R107). -/
def Stop.afterExit : Stop → Stop × Bool
  | .openClear waiting => (.vacant, waiting)
  | .openSeated => (.leaving, false)
  | .vacant => (.leaving, false)
  | .reading _ => (.leaving, false)
  | .verified => (.leaving, false)
  | .holding => (.leaving, false)
  | .leaving => (.leaving, false)

/-- The exit of the released head (R107): the window stops, the head is removed, the stop moves on, a waiting tote is
seated, and the removed head goes its way. -/
def State.takeExit (s : State) (p : Port) : State :=
  match (s.port p).lane with
  | [] => s
  | head :: rest =>
    let after := (s.port p).stop.afterExit
    let moved := s.modifyPort p (fun r => { r with lane := rest, stop := after.1, exitWindow := none })
    (if after.2 then moved.seatHead p else moved).exitResult head

/-! ### Losses (R109, R153) -/

/-- A record of a lane becomes MISSING: its presentation, if it has one, ends, and PRESENT_LOST is posted. -/
def State.makeMissing (s : State) (i : Slot) (detail : LostDetail) : State :=
  match s.source i with
  | none => s
  | some r =>
    ((s.putSource i { r with state := .missing, current := none }).endPresentationOf r.port i).post
      (.presentLost i r.tote.code r.port detail)

/-- Where an entry lost from a lane goes: a slot under the withdraw mark is retired, any other becomes MISSING, and an
UNIDENTIFIED or FOREIGN entry is dropped (R109, R153). -/
def State.loseEntry (s : State) (detail : LostDetail) : LaneEntry → State
  | .slot i =>
    match s.source i with
    | none => s
    | some r =>
      if r.withdraw then (s.endPresentationOf r.port i).retireSource i .withdrawn else s.makeMissing i detail
  | .unidentified => s
  | .foreign _ _ => s

/-- A loss at a closed stop (R109): the seated head is removed and goes its way; the stop becomes VACANT for a seat-off
and LEAVING for an exit. -/
def State.loseHead (s : State) (p : Port) (after : Stop) (detail : LostDetail) : State :=
  match (s.port p).lane with
  | [] => s.modifyPort p (fun r => { r with stop := after })
  | head :: rest =>
    (s.modifyPort p (fun r => { r with lane := rest, stop := after })).loseEntry detail head

/-! ### Displacement (R102) -/

/-- The first UNIDENTIFIED entry of a list replaced by a slot, if there is one. -/
def replaceUnidentified (i : Slot) : List LaneEntry → Option (List LaneEntry)
  | [] => none
  | .unidentified :: rest => some (.slot i :: rest)
  | e :: rest => (replaceUnidentified i rest).map (e :: ·)

/-- A displaced slot head that finds no UNIDENTIFIED entry behind it leaves the lane: home under a mark, otherwise back
to the loop at the head of its queue view with a collision (R102). -/
def State.leaveLane (s : State) (i : Slot) : State :=
  match s.source i with
  | none => s
  | some r =>
    if r.marked then s.enterReturning i r.markedCause
    else ((s.putSource i { r with state := .inbound }).queueHead r.port i).collide i

/-- A new head takes the place of the one that stands at the stop, which is dealt with by the displacement rule (R102). -/
def State.displaceHead (s : State) (p : Port) (head : LaneEntry) : State :=
  match (s.port p).lane with
  | [] => s
  | .slot i :: rest =>
    match replaceUnidentified i rest with
    | some behind =>
      (s.modifyPort p (fun r => { r with lane := head :: behind })).modifySource i
        (fun r => { r with state := .laned })
    | none => (s.modifyPort p (fun r => { r with lane := head :: rest })).leaveLane i
  | _ :: rest => s.modifyPort p (fun r => { r with lane := head :: rest })

/-! ### Faults (R151, R152, R153) -/

/-- The lines of a demoted record: under pass-through reason EXPIRED its current line is DEFERRED (R148, R152). -/
def Source.deferCurrent (r : Source) : List Line :=
  match r.passThrough, r.current with
  | some .expired, some k => setLine r.lines k .deferred
  | _, _ => r.lines

/-- A PRESENTED head of a faulted port is demoted to READY (R152). -/
def State.demote (s : State) (p : Port) : State :=
  match (s.port p).lane with
  | .slot i :: _ =>
    match s.source i with
    | some r =>
      if r.state = .presented then
        ((s.putSource i { r with state := .ready, current := none, lines := r.deferCurrent }).endPresentationOf p i).passHead p
      else s
    | none => s
  | _ => s

/-- The state and kept cause of a port at the raising of a fault, and its notice (R151). -/
def State.markFault (s : State) (p : Port) (cause : FaultCause) : State :=
  let kept := if (s.port p).mode = .faulted then (s.port p).cause.getD cause else cause
  (s.modifyPort p (fun r =>
    if r.mode = .faulted then r else { r with mode := .faulted, cause := some cause })).post (.portFault p cause kept)

/-- A fault of cause DIVERT, STOP_JAM or OVERFILL is raised (R151, R152). -/
def State.raiseFault (s : State) (p : Port) (cause : FaultCause) : State := (s.markFault p cause).demote p

/-- A record lost under local control drops pass-through reason VERIFY_FAILED (R153). -/
def State.clearVerifyFailed (s : State) : LaneEntry → State
  | .slot i => s.modifySource i (fun r =>
      if r.passThrough = some .verifyFailed then { r with passThrough := none } else r)
  | .unidentified => s
  | .foreign _ _ => s

/-- Assertion of a port's local-control line, in the order R153 gives: the arm withdrawn, the stop vacated, the lane
emptied entry by entry from the head, the OVERRIDE fault raised. -/
def State.takeLocalControl (s : State) (p : Port) : State :=
  let withdrawn := s.withdrawArm p
  let entries := (withdrawn.port p).lane
  let vacated := withdrawn.modifyPort p (fun r => { r with stop := .vacant, exitWindow := none, lane := [] })
  (entries.foldl (fun t e => (t.clearVerifyFailed e).loseEntry .override e) vacated).markFault p .override

/-! ### An arm that was not confirmed (R90) -/

/-- The notice of an unconfirmed divert (R90). -/
def State.unconfirmedNotice (s : State) (p : Port) (count : Nat) : ArmItem → Option Notice
  | .slot i =>
    match s.record i with
    | some r => some (.unconfirmedSlot i r.tote.code p count)
    | none => none
  | .foreign reason code => some (.unconfirmedForeign code p reason count)

/-- Post a notice if there is one. -/
def State.postIf (s : State) : Option Notice → State
  | some n => s.post n
  | none => s

/-- An armed divert ends unconfirmed (R90): the arm ends, the count rises, DIVERT_UNCONFIRMED is posted ahead of what a
slot item's collision posts, and at a count of 2 the port faults with cause DIVERT. -/
def State.endUnconfirmed (s : State) (p : Port) : State :=
  match (s.port p).arm with
  | none => s
  | some a =>
    let count := (s.port p).unconfirmed + 1
    let ended := (s.modifyPort p (fun r => { r with arm := none, unconfirmed := count })).postIf
      (s.unconfirmedNotice p count a.item)
    let collided := match a.item with
      | .slot i => ended.collide i
      | .foreign _ _ => ended
    if 2 ≤ count then collided.raiseFault p .divert else collided

end Sys2Proof.Machine
end

