-- ==== Sys2Proof/Machine/Work.lean ====
section
/-! DEFINITION. Shared operations of the stations, the Call Planner and the credit arbiter, and `State.settle`: what
stands at the end of an event is acted on, selection first, then the drain test, then the arbiter (log entry 9). -/

namespace Sys2Proof.Machine

/-! ### The current line and release (R114, R120) -/

/-- The first OPEN line in index order (R114). -/
def firstOpen (ls : List Line) : Option Nat := ls.findIdx? (fun l => decide (l.state = .isOpen))

/-- Release of a presented record (R120): BLOCKED lines are DEFERRED, the stop opens, the presentation ends. -/
def State.releasePresented (s : State) (i : Slot) : State :=
  match s.source i with
  | none => s
  | some r =>
    (s.putSource i { r with
      current := none, lines := moveLines (fun l => decide (l.state = .blocked)) .deferred r.lines }).openStop r.port

/-- The choice of the current line of a station's presented record: the first OPEN line, or release (R114, R120). -/
def State.chooseLine (s : State) (st : Station) : State :=
  match (s.station st).presentation with
  | none => s
  | some i =>
    match s.source i with
    | none => s
    | some r =>
      match firstOpen r.lines with
      | some k => s.putSource i { r with current := some k }
      | none => s.releasePresented i

/-- If the current line of a station's presented record is no longer OPEN, the next is chosen (R114, R123). -/
def State.refreshLine (s : State) (st : Station) : State :=
  match s.currentLine st with
  | some l => if l.state = .isOpen then s else s.chooseLine st
  | none => s

/-! ### Selection and presentation (R112, R113) -/

/-- The slot a port offers: OPEN or CLOSING, with a READY head of its own without a pass-through reason (R93, R112). -/
def State.offers (s : State) (p : Port) : Option Slot :=
  if (s.port p).mode = .isOpen ∨ (s.port p).mode = .closing then
    match (s.port p).lane with
    | .slot i :: _ =>
      match s.source i with
      | some r => if r.state = .ready ∧ r.passThrough = none ∧ r.port = p then some i else none
      | none => none
    | _ => none
  else none

/-- The hold status lets the station select (R112). -/
def HoldStatus.selects : HoldStatus → Bool
  | .running => true
  | .step .isOpen => true
  | .step .inUse => false
  | .holdPending => false
  | .held => false

/-- The hold status once a tote is presented: a step passes from open to in use (R113). -/
def HoldStatus.onPresent : HoldStatus → HoldStatus
  | .step _ => .step .inUse
  | .running => .running
  | .holdPending => .holdPending
  | .held => .held

/-- The port a station would present from: its preferred port, else the other (R113). -/
def State.selectedPort (s : State) (st : Station) : Option (Port × Slot) :=
  let preferred := stationPort st (s.station st).side.other
  let other := stationPort st (s.station st).side
  match s.offers preferred with
  | some i => some (preferred, i)
  | none => (s.offers other).map (fun i => (other, i))

/-- A head is presented (R113): PRESENTED, the working port and side flag set, a step spent, the attendance window
started, the current line chosen or the record released at once. -/
def State.present (s : State) (st : Station) (p : Port) (i : Slot) : State :=
  ((s.modifySource i (fun r => { r with state := .presented })).modifyStation st (fun r =>
    { r with
      presentation := some i, workingPort := some p, side := portSide p, hold := r.hold.onPresent,
      window := some (10 * s.config.attendanceWindow) })).chooseLine st

/-- Selection (R112), again after each presentation that is released at once; `fuel` bounds it by the heads there are. -/
def State.selectHead (s : State) (st : Station) : Nat → State
  | 0 => s
  | fuel + 1 =>
    if (s.station st).presentation = none ∧ (s.station st).hold.selects = true then
      match s.selectedPort st with
      | some (p, i) => (s.present st p i).selectHead st fuel
      | none => s
    else s

/-- Selection at a station: at most its two ports' heads can be presented in one event. -/
def State.select (s : State) (st : Station) : State := s.selectHead st 3

/-! ### The drain test (R150) -/

/-- A record of the port's roster is in CALLING, CALLED, CANCELLING or INBOUND. -/
def State.inFlight (s : State) (p : Port) : Bool :=
  decide (0 < s.countSources (fun r => decide (r.port = p) && r.holdsPortOpen))

/-- The drain condition (R150). -/
def State.drained (s : State) (p : Port) : Bool :=
  (s.port p).lane.isEmpty && (s.port p).arm.isNone && !s.inFlight p

/-- A CLOSING port whose drain condition holds becomes CLOSED and posts PORT_CLOSED (R150). The test is taken where the event
has had its effect: a port that the same event faults is FAULTED by then, its closing ended, and posts no PORT_CLOSED. R150
does not say which comes first, and it is the model's choice (log entry 9). -/
def State.drainPort (s : State) (p : Port) : State :=
  if (s.port p).mode = .closing ∧ s.drained p = true then
    (s.modifyPort p (fun r => { r with mode := .closed })).post (.portClosed p)
  else s

/-! ### Claims and grants (R38 to R43) -/

/-- The port is eligible to call (R38). -/
def State.eligible (s : State) (p : Port) : Bool :=
  decide (s.bench = .running) && s.inputs.supplyReady && decide ((s.port p).mode = .isOpen)
    && decide ((s.reader (.port p)).status = .ok) && decide (s.scannerReader.status = .ok)
    && decide (s.committedCount p < s.config.pipelineDepth)

/-- The record may be called while the station's attendance is as it is (R38, R39). -/
def State.fitsAttendance (s : State) (p : Port) (r : Source) : Bool :=
  decide ((s.station (portStation p)).attendance = .attended) || decide (r.tote.cls = .ambient)

/-- The candidate of a port: the first fitting QUEUED record of its queue view (R38). -/
def State.candidate (s : State) (p : Port) : Option Slot :=
  (s.port p).queue.find? (fun i => match s.source i with
    | some r => decide (r.state = .queued) && s.fitsAttendance p r
    | none => false)

/-- The call claim a port holds, for its candidate (R38). -/
def State.callClaim (s : State) (p : Port) : Option Slot := if s.eligible p then s.candidate p else none

/-- The cancel claim granted first: that of the record of lowest slot number (R41). -/
def State.cancelClaim (s : State) : Option Slot :=
  allSlots.find? (fun i => match s.source i with
    | some r => r.cancelClaim
    | none => false)

/-- The ports in the order in which their call claims are tried (R41). -/
def rotationOrder (from_ : Port) : List Port := [from_ + 1, from_ + 2, from_ + 3, from_]

/-- The call claim granted first, with its port (R41). -/
def State.nextCall (s : State) : Option (Port × Slot) :=
  (rotationOrder s.rotation).findSome? (fun p => (s.callClaim p).map (fun i => (p, i)))

/-- The grant of a cancel claim (R43). -/
def State.grantCancel (s : State) (i : Slot) : State :=
  (s.modifySource i (fun r => { r with state := .cancelling })).sendCancel i

/-- The grant of a port's call claim (R42). -/
def State.grantCall (s : State) (p : Port) (i : Slot) : State :=
  match s.source i with
  | none => s
  | some r =>
    let called : Source := { r with
      visit := r.visit + 1, state := .calling, answerWindow := some s.config.answerWindow }
    ({ s.putSource i called with rotation := p }).transmit (.call (called.tag i) r.tote.code p r.tote.cls)

/-- The arbiter may grant: SUPPLY_READY is asserted, the pass that its rise began has ended (R62, R67), and fewer than 4
credits are in use (R41). -/
def State.mayGrant (s : State) : Bool :=
  s.inputs.supplyReady && s.supply.pass.isNone && decide (s.creditsInUse < Config.creditLimit)

/-- The credit arbiter (R41): grants while it may and a claim stands; each grant takes a credit, so four rounds suffice. -/
def State.grants (s : State) : Nat → State
  | 0 => s
  | fuel + 1 =>
    if s.mayGrant then
      match s.cancelClaim with
      | some i => (s.grantCancel i).grants fuel
      | none =>
        match s.nextCall with
        | some (p, i) => (s.grantCall p i).grants fuel
        | none => s
    else s

/-- The credit arbiter over all free credits. -/
def State.arbitrate (s : State) : State := s.grants Config.creditLimit

/-- Selection at A and B (R112, R121), then the drain test of each port (R150). -/
def State.selectAndDrain (s : State) : State := allPorts.foldl State.drainPort ((s.select .a).select .b)

/-- What stands at the end of an event is acted on: selection at A and B, the drain test of each port, the arbiter. -/
def State.settle (s : State) : State := s.selectAndDrain.arbitrate

/-- The arm of a port whose tote is sighted again ends as a confirm window expiry ends it, whole with the selection at a
presentation's end and the drain test, before the sighting itself is handled (R91, R121). That the arbiter is left to the
end of the event is the model's choice (log entry 9). -/
def State.endSighted (s : State) (p : Port) : State := (s.endUnconfirmed p).selectAndDrain

end Sys2Proof.Machine
end

