-- ==== Sys2Proof/Machine/Exposure.lean ====
section
/-! DEFINITION. The Exposure Monitor (chapter 7): the counts, budgets and warn thresholds, warning and expiry. -/

namespace Sys2Proof.Machine

/-- The budget of a class in tenths, none for AMBIENT (R136). -/
def Configuration.budget (k : Configuration) : ToteClass → Option Nat
  | .ambient => none
  | .chilled => some (k.chilledBudget * 10)
  | .frozen => some (k.frozenBudget * 10)

/-- The warn threshold of a class in tenths, truncated, none for AMBIENT (R136). -/
def Configuration.warnThreshold (k : Configuration) (c : ToteClass) : Option Nat :=
  (k.budget c).map (fun b => b * k.warnPercent / 100)

/-- A count stands at or over a figure, if there is one. -/
def reaches (count : Nat) : Option Nat → Bool
  | some figure => decide (figure ≤ count)
  | none => false

/-- The warned mark a record is created with (R3). -/
def Configuration.warnedAtCreation (k : Configuration) (c : ToteClass) (exposure : Nat) : Bool :=
  reaches exposure (k.warnThreshold c)

/-- One tenth of a second of a record's count: a running count rises by one, saturating at 65535 (R133). -/
def Tote.tick (t : Tote) : Tote :=
  if t.running then { t with exposure := saturate 65535 t.exposure } else t

/-- The record of a slot with its common fields changed. -/
def State.modifyTote (s : State) (i : Slot) (f : Tote → Tote) : State :=
  match s.record i with
  | some r => s.setSlot i (some (r.withTote (f r.tote)))
  | none => s

/-- A record whose count stands at or over its warn threshold, its warned mark clear, is warned (R137). -/
def State.warnRecord (s : State) (i : Slot) : State :=
  match s.record i with
  | none => s
  | some r =>
    match s.config.warnThreshold r.tote.cls with
    | none => s
    | some w =>
      if w ≤ r.tote.exposure ∧ r.tote.warned = false then
        (s.modifyTote i (fun t => { t with warned := true })).post
          (.warned i r.tote.code r.place r.tote.cls r.tote.exposure w)
      else s

/-- The lines of a PRESENTED record at its expiry: every OPEN or BLOCKED line but the current one is DEFERRED (R142). -/
def Source.deferOthers (r : Source) : List Line :=
  r.lines.mapIdx (fun k l => if l.pending && decide (some k ≠ r.current) then { l with state := .deferred } else l)

/-- The pass-through reason of a lane record after its expiry: EXPIRED unless WITHDRAWN stands (R141). -/
def Source.expiredReason (r : Source) : PassReason :=
  if r.passThrough = some .withdrawn then .withdrawn else .expired

/-- What the expiry of a source record does in each state, once the mark is set and EXPIRED posted (R140, R141, R142).
A CALLED record's cancel claim stands by its mark (R40). -/
def State.expireSource (s : State) (i : Slot) : State :=
  match s.source i with
  | none => s
  | some r =>
    match r.state with
    | .queued => s.retireSource i .expired
    | .calling => s
    | .called => s
    | .cancelling => s.putSource i { r with requeue := false }
    | .inbound => s.enterReturning i .expired
    | .laned => s.putSource i { r.resolveLines .deferred with passThrough := some r.expiredReason }
    | .atStop => s.putSource i { r.resolveLines .deferred with passThrough := some r.expiredReason }
    | .ready => (s.putSource i { r.resolveLines .deferred with passThrough := some r.expiredReason }).passHead r.port
    | .presented =>
      let deferred := s.putSource i { r with lines := r.deferOthers, passThrough := some r.expiredReason }
      if r.current = none then deferred.releasePresented i else deferred
    | .releasing => s
    | .returning => s
    | .recycling => s.putSource i (r.resolveLines .deferred)
    | .missing => s.putSource i (r.resolveLines .deferred)

/-- The expiry of an order record (R144): EXPIRED, and every OPEN or BLOCKED line that targets it ORPHANED, the
presented records' current lines chosen again. -/
def State.expireOrder (s : State) (i : Slot) : State :=
  match s.order i with
  | none => s
  | some r =>
    (((s.putOrder i { r with state := .expired }).moveLinesFor i Line.pending .orphaned).refreshLine .a).refreshLine .b

/-- A record whose count stands at or over its budget, its expired mark clear, expires (R138): the mark, the EXPIRED
notice with the state it was found in, then the expiry by kind and state. -/
def State.expireRecord (s : State) (i : Slot) : State :=
  match s.record i with
  | none => s
  | some r =>
    match s.config.budget r.tote.cls with
    | none => s
    | some b =>
      if b ≤ r.tote.exposure ∧ r.tote.expired = false then
        let marked := (s.modifyTote i (fun t => { t with expired := true })).post
          (.expired i r.tote.code r.place r.state r.tote.cls r.tote.exposure b)
        match r with
        | .source _ => marked.expireSource i
        | .order _ => marked.expireOrder i
      else s

/-- A record is examined against both figures, the warning first (R138, R139). -/
def State.examine (s : State) (i : Slot) : State := (s.warnRecord i).expireRecord i

/-- EXPOSURE_TICK (R133): one tenth of a second of the record's own count has passed. -/
def execExposureTick (i : Slot) (s : State) : Host.Outcome State Fault Refusal :=
  .next (s.whenLive (fun s => s.modifyTote i Tote.tick))

/-- The record of a slot counts: a stopped count reaches no figure (R133; R143, last row). -/
def State.counting (s : State) (i : Slot) : Bool :=
  match s.record i with
  | some r => r.tote.running
  | none => false

/-- WARN_THRESHOLD_REACHED (R137). -/
def execWarnThresholdReached (i : Slot) (s : State) : Host.Outcome State Fault Refusal :=
  .next (s.whenLive (fun s => if s.counting i then s.warnRecord i else s))

/-- BUDGET_REACHED (R138, R140 to R144). -/
def execBudgetReached (i : Slot) (s : State) : Host.Outcome State Fault Refusal :=
  .next (s.whenLive (fun s => if s.counting i then (s.examine i).settle else s))

end Sys2Proof.Machine
end

