-- ==== Sys2Proof/Machine/Loop.lean ====
section
/-! DEFINITION. The Divert Controller (chapter 4): sightings of source records, totes without a record, the divert
decision, and the duplicate filter. -/

namespace Sys2Proof.Machine

/-! ### Sightings of source records (R74 to R79) -/

/-- What a record held for its call is given back, and its exposure runs (R74): its answer window, its held CANCEL and
its requeue mark. Its credit and its cancel claim go with its state. -/
def Source.giveBack (r : Source) : Source :=
  { r with
    answerWindow := none, cancelHeld := false, requeue := false, tote := { r.tote with running := true } }

/-- An adoption (R74): INBOUND, in its place in the queue view. -/
def State.adopt (s : State) (i : Slot) : State :=
  s.modifySource i (fun r => { r.giveBack with state := .inbound })

/-- A slot's entry in a lane list becomes UNIDENTIFIED in the same position (R78); at a VERIFIED stop the chain starts
again at attempt 1 (R100). -/
def State.unidentify (s : State) (p : Port) (i : Slot) : State :=
  s.modifyPort p (fun q =>
    { (if q.lane.head? = some (.slot i) ∧ q.stop = .verified then q.startRead .first else q) with
      lane := q.lane.map (fun e => if e = .slot i then .unidentified else e) })

/-- A sighting of a marked record sends it home (R75). -/
def State.sendHome (s : State) (i : Slot) : State :=
  match s.source i with
  | none => s
  | some r =>
    (((s.putSource i r.giveBack).unidentify r.port i).endPresentationOf r.port i).enterReturning i r.markedCause

/-- A sighting of an unmarked record of a lane corrects the lane list (R78). -/
def State.sightLane (s : State) (i : Slot) : State :=
  match s.source i with
  | none => s
  | some r =>
    let corrected := ((s.unidentify r.port i).endPresentationOf r.port i).modifySource i
      (fun q => { q with state := .inbound, current := none })
    let told := if r.state = .presented then corrected.post (.presentLost i r.tote.code r.port .sighted) else corrected
    told.queueHead r.port i

/-- A sighting of an unmarked MISSING record finds it (R77). -/
def State.sightMissing (s : State) (i : Slot) : State :=
  match s.source i with
  | none => s
  | some r =>
    ((s.putSource i { r.giveBack with state := .inbound }).queueHead r.port i).post
      (.presentRegained i r.tote.code r.port .sighted)

/-- A sighting of an INBOUND record: an arm that holds it ends as an unconfirmed divert (R91); else nothing (R76). -/
def State.sightInbound (s : State) (i : Slot) (p : Port) : State :=
  if (s.port p).arm.map Arm.item = some (.slot i) then s.endSighted p else s

/-- A sighting of a source record, by its state and marks, without the divert decision (the table after R79). -/
def State.sightSource (s : State) (i : Slot) : State :=
  match s.source i with
  | none => s
  | some r =>
    match r.state with
    | .queued => s.adopt i
    | .calling => if r.marked then s.sendHome i else s.adopt i
    | .called => if r.marked then s.sendHome i else s.adopt i
    | .cancelling => if r.marked then s.sendHome i else s.adopt i
    | .inbound => s.sightInbound i r.port
    | .laned => if r.marked then s.sendHome i else s.sightLane i
    | .atStop => if r.marked then s.sendHome i else s.sightLane i
    | .ready => if r.marked then s.sendHome i else s.sightLane i
    | .presented => if r.marked then s.sendHome i else s.sightLane i
    | .releasing => s.takeExit r.port
    | .returning => s
    | .recycling => s
    | .missing => if r.marked then s.sendHome i else s.sightMissing i

/-! ### The divert decision (R84) -/

/-- The divert decision, for a record that the sighting left INBOUND. -/
def State.divertDecision (s : State) (i : Slot) : State :=
  match s.source i with
  | none => s
  | some r =>
    if r.state = .inbound then
      if s.bench = .halted then s
      else if 0 < r.backoff then s.putSource i { r with backoff := r.backoff - 1 }
      else if (s.port r.port).accepts then s.armDivert r.port (.slot i)
      else s.collide i
    else s

/-! ### Totes without a source record (R81 to R83) -/

/-- A port to which a tote without a record may be diverted now: configured, RUNNING, and the port accepts. -/
def State.capturePort (s : State) (configured : Option Port) : Option Port :=
  match configured with
  | some p => if s.bench = .running ∧ (s.port p).accepts = true then some p else none
  | none => none

/-- Arm a capture port, if there is one, with a FOREIGN item. -/
def State.armForeign (s : State) (place : Option Port) (reason : ForeignReason) (c : Code) : State :=
  match place with
  | some p => s.armDivert p (.foreign reason c)
  | none => s

/-- A sighting of the service code (R81). -/
def State.sightService (s : State) : State :=
  s.armForeign (s.capturePort s.config.servicePort) .service serviceCode

/-- A sighting of an order record's code (R82). -/
def State.sightOrder (s : State) (i : Slot) (c : Code) : State := s.post (.stray (some i) c none false)

/-- A sighting of a code no live record holds (R83). -/
def State.sightUnknown (s : State) (c : Code) : State :=
  if s.config.reports c then
    let place := s.capturePort s.config.strayPort
    (s.armForeign place .captured c).post (.stray none c place false)
  else s

/-! ### The scanner's good read (R71 to R73) -/

/-- The read is a duplicate (R72). -/
def State.isDuplicate (s : State) (c : Code) (time : Nat) : Bool :=
  match s.dupFilter with
  | some f => decide (f.code = c) && decide (time - f.time ≤ Config.duplicateReach)
  | none => false

/-- The arm of a port ends as an unconfirmed divert if it holds a FOREIGN item of the sighted code (R91). -/
def State.endForeignArm (c : Code) (s : State) (p : Port) : State :=
  match (s.port p).arm with
  | some ⟨.foreign _ d, _⟩ => if d = c then s.endSighted p else s
  | _ => s

/-- A sighting is identified by its code (R73). -/
def State.identify (s : State) (c : Code) : State :=
  if c = serviceCode then s.sightService
  else match s.findCode c with
    | none => s.sightUnknown c
    | some i =>
      match s.source i with
      | some _ => (s.sightSource i).divertDecision i
      | none => s.sightOrder i c

/-- A good read of the scanner (R71, R72). -/
def State.scannerRead (s : State) (c : Code) (time : Nat) : State :=
  if s.following then
    let noted := { s with dupFilter := some { code := c, time := time } }
    if s.isDuplicate c time then noted else (allPorts.foldl (State.endForeignArm c) noted).identify c
  else s

/-- CONFIRM_WINDOW_EXPIRY (R90). -/
def execConfirmWindowExpiry (p : Port) (s : State) : Host.Outcome State Fault Refusal :=
  .next (s.whenLive (fun s => (s.endUnconfirmed p).settle))

end Sys2Proof.Machine
end

