-- ==== Sys2Proof/Machine/Lane.lean ====
section
/-! DEFINITION. The Lane Controller (chapters 5 and 8): verification at the stop, the entry, seat and exit sensors, the
read and exit windows, and the local-control line. -/

namespace Sys2Proof.Machine

/-! ### Verification (R101 to R104) -/

/-- A verified slot head (R101): READY at a VERIFIED stop, passed through at once if its reason asks it. -/
def State.makeReady (s : State) (p : Port) (i : Slot) : State :=
  ((s.modifySource i (fun r => { r with state := .ready })).modifyPort p (fun q => { q with stop := .verified })).passHead p

/-- The head and another slot's entry exchange positions (R101). -/
def exchangeHead (i : Slot) : List LaneEntry → List LaneEntry
  | [] => []
  | head :: rest => .slot i :: rest.map (fun e => if e = .slot i then head else e)

/-- A head displaced within its lane: a slot's record becomes LANED (R101). -/
def State.stepBack (s : State) : Option LaneEntry → State
  | some (.slot j) => s.modifySource j (fun r => { r with state := .laned })
  | _ => s

/-- A read that names a record of the lane list: its own head, or one that has changed places with it (R101). -/
def State.verifyInLane (s : State) (p : Port) (i : Slot) : State :=
  if (s.port p).lane.head? = some (.slot i) then s.makeReady p i
  else
    ((s.stepBack (s.port p).lane.head?).modifyPort p (fun q => { q with lane := exchangeHead i q.lane })).makeReady p i

/-- The record found at the stop, as it stands at the head (R102): its call given back, and under a mark its lines
DEFERRED (a withdrawn record has none left) and its reason taken. -/
def Source.foundAtStop (r : Source) : Source :=
  let r := r.giveBack
  if r.marked then
    { r.resolveLines .deferred with
      passThrough := some (if r.withdraw then PassReason.withdrawn else PassReason.expired) }
  else r

/-- A read that names a record of this port outside the lane list (R102). -/
def State.verifyFound (s : State) (p : Port) (i : Slot) (r : Source) : State :=
  let taken := (((s.putSource i { r.foundAtStop with state := .ready }).unqueue p i).dropArmOf p i).displaceHead p (.slot i)
  let told := if r.state = .missing then taken.post (.presentRegained i r.tote.code p .atStop) else taken
  told.makeReady p i

/-- A head that is FOREIGN and not held (R102 to R104). -/
def State.foreignHead (s : State) (p : Port) (reason : ForeignReason) (c : Code) : State :=
  s.displaceHead p (.foreign reason c)

/-- A read that names a record of this port, by its state. -/
def State.verifyOwn (s : State) (p : Port) (i : Slot) (r : Source) : State :=
  match r.state with
  | .laned => s.verifyInLane p i
  | .atStop => s.verifyInLane p i
  | .ready => s.verifyInLane p i
  | .presented => s.verifyInLane p i
  | .releasing => s.verifyInLane p i
  | .queued => s.verifyFound p i r
  | .calling => s.verifyFound p i r
  | .called => s.verifyFound p i r
  | .cancelling => s.verifyFound p i r
  | .inbound => s.verifyFound p i r
  | .missing => s.verifyFound p i r
  | .returning => (s.foreignHead p .misrouted r.tote.code).openStop p
  | .recycling => (s.foreignHead p .misrouted r.tote.code).openStop p

/-- A read that names a record of another port (R103). -/
def State.verifyMisrouted (s : State) (p : Port) (i : Slot) (r : Source) : State :=
  (((s.sightSource i).foreignHead p .misrouted r.tote.code).post (.misrouted i r.tote.code p r.port)).openStop p

/-- A read of the service code (R104). -/
def State.verifyService (s : State) (p : Port) : State :=
  let named := s.foreignHead p .service serviceCode
  if s.config.servicePort = some p then named.modifyPort p (fun q => { q with stop := .holding }) else named.openStop p

/-- A read of a code no source record holds, with the order's slot if an order holds it (R104). What a displaced head posts
comes ahead of STRAY: R104 gives the two no order, and it is the model's choice (log entry 10). -/
def State.verifyStray (s : State) (p : Port) (c : Code) (order : Option Slot) : State :=
  if s.config.strayPort = some p then
    ((s.foreignHead p .captured c).post (.stray order c (some p) true)).modifyPort p (fun q => { q with stop := .holding })
  else ((s.foreignHead p .stray c).post (.stray order c (some p) true)).openStop p

/-- A read at the stop of a port is verified against its head and the Record Table (5.4). -/
def State.verify (s : State) (p : Port) (c : Code) : State :=
  if c = serviceCode then s.verifyService p
  else match s.findCode c with
    | none => s.verifyStray p c none
    | some i =>
      match s.source i with
      | none => s.verifyStray p c (some i)
      | some r => if r.port = p then s.verifyOwn p i r else s.verifyMisrouted p i r

/-! ### The readiness chain (R98, R99) -/

/-- What VERIFY_FAILED says of the head: a slot and its code. -/
def State.headName (s : State) (p : Port) : Option (Slot × Code) :=
  match (s.port p).lane with
  | .slot i :: _ => (s.source i).map (fun r => (i, r.tote.code))
  | _ => none

/-- A slot head without a reason takes pass-through reason VERIFY_FAILED (R99). -/
def State.failHead (s : State) (p : Port) : State :=
  match (s.port p).lane with
  | .slot i :: _ => s.modifySource i (fun r =>
      if r.passThrough = none then { r with passThrough := some .verifyFailed } else r)
  | _ => s

/-- A failed read (R99): a re-read at attempt 1, a failed verification at attempt 2. -/
def State.failedRead (s : State) (p : Port) (attempt : Attempt) : State :=
  match attempt with
  | .first => s.modifyPort p (fun q => q.startRead .second)
  | .second => ((s.post (.verifyFailed (s.headName p) p)).failHead p).openStop p

/-- A frame of the port's reader, judged while a read window runs and otherwise not (R95, R98). -/
def State.laneFrame (s : State) (p : Port) (f : FrameClass) : State :=
  match (s.port p).stop with
  | .reading attempt =>
    if s.following then
      match f with
      | .good c => s.verify p c
      | .badCheck => s.failedRead p attempt
      | .malformed => s.failedRead p attempt
      | .noRead => s.failedRead p attempt
      | .lowQuality => s.failedRead p attempt
    else s
  | .vacant => s
  | .verified => s
  | .holding => s
  | .openSeated => s
  | .openClear _ => s
  | .leaving => s

/-! ### The entry sensor (R96) -/

/-- The lane entry an armed item makes (R89). -/
def ArmItem.entry : ArmItem → LaneEntry
  | .slot i => .slot i
  | .foreign reason c => .foreign reason c

/-- The armed tote's entry consumes the arm (R89). -/
def State.consumeArm (s : State) (p : Port) (item : ArmItem) : State :=
  let entered := s.modifyPort p (fun q =>
    { q with lane := q.lane ++ [item.entry], arm := none, unconfirmed := 0 })
  match item with
  | .slot i => (entered.modifySource i (fun r => { r with state := .laned })).unqueue p i
  | .foreign _ _ => entered

/-- An entry event (R96). -/
def State.takeEntry (s : State) (p : Port) : State :=
  if (s.port p).lane.length < 3 then
    match (s.port p).arm with
    | some a => s.consumeArm p a.item
    | none => s.modifyPort p (fun q => { q with lane := q.lane ++ [.unidentified] })
  else (s.withdrawArm p).raiseFault p .overfill

/-! ### The seat and exit sensors (R97, R107, R109) -/

/-- The seat sensor of a port takes a level. -/
def State.setSeat (s : State) (p : Port) (level : Bool) : State :=
  s.setInputs { s.inputs with seat := s.inputs.seat.set p.val level }

/-- The state of a port's stop. -/
def State.setStop (s : State) (p : Port) (stop : Stop) : State := s.modifyPort p (fun q => { q with stop := stop })

/-- A seat-on event (R97). -/
def State.takeSeatOn (s : State) (p : Port) : State :=
  match (s.port p).stop with
  | .vacant => s.seatHead p
  | .openClear _ => s.setStop p (.openClear true)
  | .reading _ => s
  | .verified => s
  | .holding => s
  | .openSeated => s
  | .leaving => s

/-- A seat-off event (R97, R109). -/
def State.takeSeatOff (s : State) (p : Port) : State :=
  match (s.port p).stop with
  | .openSeated => s.setStop p (.openClear false)
  | .openClear _ => s.setStop p (.openClear false)
  | .leaving => s.setStop p .vacant
  | .reading _ => s.loseHead p .vacant .seatLost
  | .verified => s.loseHead p .vacant .seatLost
  | .holding => s.loseHead p .vacant .seatLost
  | .vacant => s

/-- An exit event (R107, R109). -/
def State.takeExitEvent (s : State) (p : Port) : State :=
  match (s.port p).stop with
  | .openSeated => s.takeExit p
  | .openClear _ => s.takeExit p
  | .reading _ => s.loseHead p .leaving .exitUnreleased
  | .verified => s.loseHead p .leaving .exitUnreleased
  | .holding => s.loseHead p .leaving .exitUnreleased
  | .vacant => s
  | .leaving => s

/-! ### The local-control line (R153, R154) -/

/-- The local-control line of a port takes a level. -/
def State.setLocalControl (s : State) (p : Port) (level : Bool) : State :=
  s.setInputs { s.inputs with localControl := s.inputs.localControl.set p.val level }

/-- A tote left on the seat of a VACANT stop is seated (R95, R154). -/
def State.seatWaiting (s : State) (p : Port) : State :=
  if (s.port p).stop = .vacant ∧ s.seatLevel p = true then s.seatHead p else s

/-! ### The commands -/

/-- ENTRY_EVENT (R95, R96). -/
def execEntryEvent (p : Port) (s : State) : Host.Outcome State Fault Refusal :=
  .next (s.whenLive (fun s => if s.following then (s.takeEntry p).settle else s))

/-- SEAT_ON (R95, R97): the level is held in every bench state; a repeat of it changes nothing. -/
def execSeatOn (p : Port) (s : State) : Host.Outcome State Fault Refusal :=
  .next ((s.setSeat p true).whenLive (fun t =>
    if t.following && !s.seatLevel p then (t.takeSeatOn p).settle else t))

/-- SEAT_OFF (R95, R97, R109). -/
def execSeatOff (p : Port) (s : State) : Host.Outcome State Fault Refusal :=
  .next ((s.setSeat p false).whenLive (fun t =>
    if t.following && s.seatLevel p then (t.takeSeatOff p).settle else t))

/-- READ_WINDOW_EXPIRY (R98, R99). -/
def execReadWindowExpiry (p : Port) (s : State) : Host.Outcome State Fault Refusal :=
  .next (s.whenLive (fun s => match (s.port p).stop with
    | .reading attempt => (s.failedRead p attempt).settle
    | .vacant => s
    | .verified => s
    | .holding => s
    | .openSeated => s
    | .openClear _ => s
    | .leaving => s))

/-- READER_EXIT_EVENT (R95, R107, R109). -/
def execReaderExitEvent (p : Port) (s : State) : Host.Outcome State Fault Refusal :=
  .next (s.whenLive (fun s => if s.following then (s.takeExitEvent p).settle else s))

/-- EXIT_WINDOW_EXPIRY (R108). -/
def execExitWindowExpiry (p : Port) (s : State) : Host.Outcome State Fault Refusal :=
  .next (s.whenLive (fun s =>
    if (s.port p).exitWindow.isSome then
      ((s.modifyPort p (fun q => { q with exitWindow := none })).raiseFault p .stopJam).settle
    else s))

/-- LOCAL_CONTROL_ASSERT (R153): a repeat of the level changes nothing. -/
def execLocalControlAssert (p : Port) (s : State) : Host.Outcome State Fault Refusal :=
  .next ((s.setLocalControl p true).whenLive (fun t =>
    if s.localLevel p then t else (t.takeLocalControl p).settle))

/-- LOCAL_CONTROL_DEASSERT (R154). -/
def execLocalControlDeassert (p : Port) (s : State) : Host.Outcome State Fault Refusal :=
  .next ((s.setLocalControl p false).whenLive (fun t =>
    if t.following && s.localLevel p then (t.seatWaiting p).settle else t))

end Sys2Proof.Machine
end

