-- ==== Sys2Proof/Machine/Supply.lean ====
section
/-! DEFINITION. The Supply Link Controller (chapter 3): the dispatcher's messages, stale and bad frames, the answer
windows, SUPPLY_READY and the transmitter. -/

namespace Sys2Proof.Machine

/-! ### Staleness (R50) -/

/-- A stale message is discarded and counted. -/
def State.stale (s : State) : State :=
  s.setSupply { s.supply with staleCount := saturate 65535 s.supply.staleCount }

/-- The source record a message fits: the slot holds one, its visit is the tag's, and its state fits (R50). -/
def State.fitting (s : State) (tag : Byte) (fits : Source → Bool) : Option Source :=
  match s.source (tagSlot tag) with
  | some r => if r.visit = tagVisit tag ∧ fits r = true then some r else none
  | none => none

/-- ACCEPTED and REFUSED fit a CALLING record. -/
def Source.fitsAnswer (r : Source) : Bool := decide (r.state = .calling)

/-- RELEASED fits a CALLING or CALLED record. -/
def Source.fitsReleased (r : Source) : Bool := decide (r.state = .calling) || decide (r.state = .called)

/-- CANCEL_RESULT fits a CANCELLING record whose CANCEL has been sent. -/
def Source.fitsCancelResult (r : Source) : Bool := decide (r.state = .cancelling) && !r.cancelHeld

/-- TAKEN fits a RETURNING or RECYCLING record. -/
def Source.fitsTaken (r : Source) : Bool := decide (r.state = .returning) || decide (r.state = .recycling)

/-! ### The end of a call (R57 to R64) -/

/-- The cause with which a call that brought no tote out retires its record, if it does: by its mark, or at its third
attempt (R58, R63). -/
def Source.failedCallCause (r : Source) : Option RetireCause :=
  if r.withdraw then some .withdrawn
  else if r.tote.expired then some .expired
  else if Config.callAttemptLimit ≤ r.callAttempts + 1 then some .callFailed
  else none

/-- A call that brought no tote out ends: retirement, or back to the queue's tail with the attempt counted (R34, R58,
R63). -/
def State.endFailedCall (s : State) (i : Slot) (r : Source) : State :=
  match r.failedCallCause with
  | some cause => s.retireSource i cause
  | none =>
    (s.putSource i { r with
      state := .queued, callAttempts := r.callAttempts + 1, answerWindow := none, cancelHeld := false,
      requeue := false }).queueTail r.port i

/-- The tote of a record has left the outfeed (R60, R64): its exposure runs, its call is given back, and it is INBOUND
in its place, or goes home under a mark. -/
def State.takeRelease (s : State) (i : Slot) (r : Source) : State :=
  if r.marked then (s.putSource i r.giveBack).enterReturning i r.markedCause
  else s.putSource i { r.giveBack with state := .inbound }

/-- ACCEPTED for the record it fits (R57). -/
def State.acceptCall (s : State) (i : Slot) (r : Source) : State :=
  if r.marked then
    (s.putSource i { r with state := .cancelling, answerWindow := none, requeue := false }).sendCancel i
  else s.putSource i { r with state := .called, answerWindow := none }

/-- REFUSED for the record it fits (R58, R59). -/
def State.refuseCall (s : State) (i : Slot) (r : Source) : RefuseReason → State
  | .busy => s.endFailedCall i r
  | .blocked => s.endFailedCall i r
  | .unknownTote => s.retireSource i
      (if r.withdraw then .withdrawn else if r.tote.expired then .expired else .callFailed)

/-- CANCEL_RESULT for the record it fits (R63, R64). -/
def State.resolveCancel (s : State) (i : Slot) (r : Source) : CancelOutcome → State
  | .cancelled => s.endFailedCall i r
  | .unknownTag => s.endFailedCall i r
  | .tooLate => s.takeRelease i r

/-- TAKEN for the record it fits (R68, R69). -/
def State.takeHome (s : State) (i : Slot) (r : Source) : State :=
  if r.state = .returning then s.retireSource i (r.leaving.getD .complete).retireCause
  else if r.withdraw then s.retireSource i .withdrawn
  else if r.tote.expired then s.retireSource i .expired
  else
    let back : Source := { r with
      state := .queued, divertAttempts := 0, backoff := 0, returnOwed := false,
      tote := { r.tote with running := false } }
    if r.tote.warned then (s.putSource i back).queueAhead r.port i else (s.putSource i back).queueTail r.port i

/-! ### Messages -/

/-- A message acts on the record it fits, and the event settles; a stale one is counted. -/
def State.answer (s : State) (tag : Byte) (fits : Source → Bool) (act : State → Slot → Source → State) : State :=
  match s.fitting tag fits with
  | some r => (act s (tagSlot tag) r).settle
  | none => s.stale

/-- A message of the dispatcher is handed to its rule. -/
def State.takeMessage (s : State) : DispatcherMessage → State
  | .accepted tag => s.answer tag Source.fitsAnswer State.acceptCall
  | .refused tag reason => s.answer tag Source.fitsAnswer (fun t i r => t.refuseCall i r reason)
  | .released tag => s.answer tag Source.fitsReleased State.takeRelease
  | .cancelResult tag outcome => s.answer tag Source.fitsCancelResult (fun t i r => t.resolveCancel i r outcome)
  | .taken tag => s.answer tag Source.fitsTaken State.takeHome

/-! ### The receiver (R49) -/

/-- The receiver takes a state. -/
def State.setReceiver (s : State) (x : SupplyReceiver) : State := s.setSupply { s.supply with receiver := x }

/-- A bad supply frame is counted, and the receiver is between frames. -/
def State.badSupply (s : State) : State :=
  s.setSupply { s.supply with receiver := .hunting, badCount := saturate 65535 s.supply.badCount }

/-- What a complete frame, from its type byte to its check byte, gives. -/
def frameEvent (bytes : List Byte) : ReceiverEvent :=
  let n := bytes.length - 1
  if crc8 (bytes.take n) = byteAt bytes n then
    match dispatcherMessage (byteAt bytes 0) ((bytes.take n).drop 2) with
    | some m => .message m
    | none => .bad
  else .bad

/-- The receiver takes one byte (R49). -/
def SupplyReceiver.next (x : SupplyReceiver) (b : SerialByte) : SupplyReceiver × ReceiverEvent :=
  match x with
  | .hunting => if b.value = 0xA5#8 ∧ b.stopOk = true then (.inFrame [], .none) else (.hunting, .none)
  | .inFrame taken =>
    if b.stopOk then
      let bytes := taken ++ [b.value]
      if bytes.length < 2 then (.inFrame bytes, .none)
      else if 16 < (byteAt bytes 1).toNat then (.hunting, .bad)
      else if bytes.length < (byteAt bytes 1).toNat + 3 then (.inFrame bytes, .none)
      else (.hunting, frameEvent bytes)
    else (.hunting, .bad)

/-- One byte arrives at the supply receiver. -/
def State.takeSupplyByte (s : State) (b : SerialByte) : State :=
  let out := s.supply.receiver.next b
  match out.2 with
  | .none => s.setReceiver out.1
  | .bad => s.badSupply
  | .message m => (s.setReceiver out.1).takeMessage m

/-- Bytes arrive one after another. -/
def State.takeSupplyBytes (s : State) (bs : List SerialByte) : State := bs.foldl State.takeSupplyByte s

/-- More than 20 ms pass without a byte: a frame in progress is a bad frame (R49). -/
def State.supplyGap (s : State) : State :=
  match s.supply.receiver with
  | .inFrame _ => s.badSupply
  | .hunting => s

/-! ### The windows (R54, R55) -/

/-- The answer window of a CALL expires (R54). -/
def State.expireCallWindow (s : State) (i : Slot) : State :=
  match s.source i with
  | none => s
  | some r =>
    if r.state = .calling ∧ r.answerWindow.isSome = true then
      ((s.putSource i { r with
        state := .cancelling, requeue := !r.marked, answerWindow := none }).sendCancel i).settle
    else s

/-- The cause a courtesy RETURN carries for a retirement cause (R55). -/
def RetireCause.courtesy : RetireCause → ReturnCause
  | .withdrawn => .withdrawn
  | .expired => .expired
  | .callFailed => .callFailed
  | .complete => .complete
  | .divertExhausted => .recycle
  | .closed => .complete
  | .closedForced => .complete

/-- The courtesy RETURN of a record just retired, dropped while SUPPLY_READY is deasserted (R55). -/
def State.courtesyReturn (s : State) (i : Slot) (r : Source) : State :=
  match r.failedCallCause with
  | some cause =>
    if s.inputs.supplyReady then s.transmit (.returnTote (r.tag i) r.tote.code r.tote.cls cause.courtesy) else s
  | none => s

/-- The answer window of a CANCEL expires (R55). -/
def State.expireCancelWindow (s : State) (i : Slot) : State :=
  match s.source i with
  | none => s
  | some r =>
    if r.state = .cancelling ∧ r.answerWindow.isSome = true then
      ((s.endFailedCall i r).courtesyReturn i r).settle
    else s

/-! ### SUPPLY_READY (R62, R67) -/

/-- SUPPLY_READY takes a level. -/
def State.setSupplyReady (s : State) (level : Bool) : State := s.setInputs { s.inputs with supplyReady := level }

/-- The pass stands where it has come to, or has ended. -/
def State.setPass (s : State) (x : Option Nat) : State := s.setSupply { s.supply with pass := x }

/-- A frame that the pass of a rise of SUPPLY_READY has to produce: a held CANCEL (R62) or an owed RETURN (R67). -/
inductive PassFrame where
  | cancel (slot : Slot)
  | giveHome (slot : Slot)
  deriving DecidableEq, Repr

/-- The slots whose record has a held CANCEL, in slot order (R62). -/
def State.heldCancels (s : State) : List Slot :=
  allSlots.filter (fun i => match s.source i with
    | some r => r.cancelHeld
    | none => false)

/-- The owed set, in slot order (R66). -/
def State.owedReturns (s : State) : List Slot :=
  allSlots.filter (fun i => match s.source i with
    | some r => r.returnOwed
    | none => false)

/-- What the pass has still to produce from where it has come to: every held CANCEL, then the owed RETURNs in slot order from
there, and at the end those of slots that it has passed (R62, R67). -/
def State.passFrames (s : State) (place : Nat) : List PassFrame :=
  s.heldCancels.map .cancel
    ++ ((s.owedReturns.filter (fun i => decide (place ≤ i.val)))
      ++ s.owedReturns.filter (fun i => decide (i.val < place))).map .giveHome

/-- The pass produces a frame: a CANCEL opens its window as it is sent (R62), a RETURN clears its mark (R67). -/
def State.producePass (s : State) : PassFrame → State
  | .cancel i => s.sendCancel i
  | .giveHome i => (s.sendReturn i).setPass (some (i.val + 1))

/-- The pass has produced everything: it ends, and the arbiter resumes granting claims (R67). -/
def State.endPass (s : State) : State := (s.setPass none).settle

/-- A rise of SUPPLY_READY begins the pass (R62, R67), which it takes to its end, or as many frames on as `meets` gives,
after which another event meets it (log entry 14). -/
def State.beginPass (s : State) : State :=
  let begun := ({ s with meets := none } : State).setPass (some 0)
  let frames := s.passFrames 0
  match s.meets with
  | none => (frames.foldl State.producePass begun).endPass
  | some n => (frames.take n).foldl State.producePass begun

/-- With no command waiting the block goes on with the pass, if SUPPLY_READY is asserted and the pass has not ended: it
produces the next frame, or ends (R62, R67; log entries 3 and 14). Otherwise it idles. -/
def State.idle (s : State) : State :=
  s.whenLive (fun s =>
    match s.supply.pass with
    | none => s
    | some place =>
      if s.inputs.supplyReady then
        match s.passFrames place with
        | [] => s.endPass
        | frame :: _ => s.producePass frame
      else s)

/-! ### The commands -/

/-- SUPPLY_READY_RISE (R62, R67): a repeat of the level changes nothing. -/
def execSupplyReadyRise (s : State) : Host.Outcome State Fault Refusal :=
  .next ((s.setSupplyReady true).whenLive (fun t => if s.inputs.supplyReady then t else t.beginPass))

/-- SUPPLY_READY_FALL (R48, R62, R67): frames produced before it are still sent; what a pass has not produced stays held or
owed, and the next rise begins a new pass. -/
def execSupplyReadyFall (s : State) : Host.Outcome State Fault Refusal := .next (s.setSupplyReady false)

/-- ACCEPTED (R57). -/
def execAccepted (tag : Byte) (s : State) : Host.Outcome State Fault Refusal :=
  .next (s.whenLive (fun s => (s.setReceiver .hunting).takeMessage (.accepted tag)))

/-- REFUSED (R58, R59). -/
def execRefused (tag : Byte) (reason : RefuseReason) (s : State) : Host.Outcome State Fault Refusal :=
  .next (s.whenLive (fun s => (s.setReceiver .hunting).takeMessage (.refused tag reason)))

/-- RELEASED (R60). -/
def execReleased (tag : Byte) (s : State) : Host.Outcome State Fault Refusal :=
  .next (s.whenLive (fun s => (s.setReceiver .hunting).takeMessage (.released tag)))

/-- CANCEL_RESULT (R63, R64). -/
def execCancelResult (tag : Byte) (outcome : CancelOutcome) (s : State) : Host.Outcome State Fault Refusal :=
  .next (s.whenLive (fun s => (s.setReceiver .hunting).takeMessage (.cancelResult tag outcome)))

/-- TAKEN (R68, R69). -/
def execTaken (tag : Byte) (s : State) : Host.Outcome State Fault Refusal :=
  .next (s.whenLive (fun s => (s.setReceiver .hunting).takeMessage (.taken tag)))

/-- BAD_SUPPLY_FRAME (R49): the receiver judges the bytes that arrive; a good frame among them is taken. -/
def execBadSupplyFrame (bytes : List SerialByte) (s : State) : Host.Outcome State Fault Refusal :=
  .next (s.whenLive (fun s => s.takeSupplyBytes bytes))

/-- SUPPLY_IDLE_GAP_TIMEOUT (R49): bytes arrive, and then more than 20 ms without one. -/
def execSupplyIdleGapTimeout (bytes : List SerialByte) (s : State) : Host.Outcome State Fault Refusal :=
  .next (s.whenLive (fun s => (s.takeSupplyBytes bytes).supplyGap))

/-- CALL_WINDOW_EXPIRY (R54). -/
def execCallWindowExpiry (i : Slot) (s : State) : Host.Outcome State Fault Refusal :=
  .next (s.whenLive (fun s => s.expireCallWindow i))

/-- CANCEL_WINDOW_EXPIRY (R55). -/
def execCancelWindowExpiry (i : Slot) (s : State) : Host.Outcome State Fault Refusal :=
  .next (s.whenLive (fun s => s.expireCancelWindow i))

/-- SUPPLY_FRAME_TRANSMITTED (R48): the frame being sent is out, and the next one waiting begins. -/
def execSupplyFrameTransmitted (s : State) : Host.Outcome State Fault Refusal :=
  .next (s.whenLive (fun s => s.setSupply
    { s.supply with sending := s.supply.waiting.head?, waiting := s.supply.waiting.tail }))

end Sys2Proof.Machine
end

