-- ==== Sys2Proof/Machine/Readers.lean ====
section
/-! DEFINITION. The Reader Interface (chapter 9): reception of a channel's bytes, classification, the quality windows and
the channel statuses. -/

namespace Sys2Proof.Machine

/-- Change a reader channel. -/
def State.modifyReader (s : State) (c : Channel) (f : ReaderRec → ReaderRec) : State := s.setReader c (f (s.reader c))

/-- The class of a complete frame, the tests in the order of R160. -/
def classifyFrame (threshold : Nat) (bytes : List Byte) : FrameClass :=
  let code := word32 bytes 0
  let quality := (byteAt bytes 4).toNat
  if byteAt bytes 5 ≠ crc8 (bytes.take 5) then .badCheck
  else if 100 < quality ∨ (1 ≤ quality ∧ code = noReadCode) then .malformed
  else if quality = 0 then .noRead
  else if quality < threshold then .lowQuality
  else .good code

/-- The class counts as a bad frame (R160, R162). -/
def FrameClass.bad : FrameClass → Bool
  | .good _ => false
  | .badCheck => true
  | .malformed => true
  | .noRead => true
  | .lowQuality => true

/-- The status a closed window gives (R163). -/
def closedStatus (bad limit : Nat) : ReaderStatus := if limit ≤ bad then .degraded else .ok

/-- The notice of a window close: posted when the status changes (R163). -/
def closeNotice (c : Channel) (before : ReaderStatus) (bad limit window : Nat) : Option Notice :=
  match before, closedStatus bad limit with
  | .ok, .degraded => some (.readerDegraded c bad limit window)
  | .degraded, .ok => some (.readerRecovered c bad limit window)
  | .ok, .ok => none
  | .degraded, .degraded => none

/-- A window closes with the frames counted in it (R163). -/
def State.closeWindow (s : State) (c : Channel) (r : ReaderRec) : State :=
  let limit := s.config.readerBadLimit
  (s.setReader c { r with
    frames := 0, bad := 0, lastBad := r.bad, windows := r.windows + 1#8,
    status := closedStatus r.bad limit }).postIf (closeNotice c r.status r.bad limit s.config.readerWindow)

/-- A channel with one more frame counted (R162). -/
def ReaderRec.counted (r : ReaderRec) (bad : Bool) : ReaderRec :=
  { r with frames := r.frames + 1, bad := r.bad + bad.toNat }

/-- A frame is counted in its channel's window, which closes when it reaches its length (R162, R163). -/
def State.countFrame (s : State) (c : Channel) (bad : Bool) : State :=
  let r := (s.reader c).counted bad
  if s.config.readerWindow ≤ r.frames then s.closeWindow c r else s.setReader c r

/-- A complete frame is handed to the block that uses it (R161). -/
def State.handOn (s : State) (c : Channel) (f : FrameClass) (time : Nat) : State :=
  match c with
  | .scanner =>
    match f with
    | .good code => s.scannerRead code time
    | .badCheck => s
    | .malformed => s
    | .noRead => s
    | .lowQuality => s
  | .port p => s.laneFrame p f

/-- A complete frame: the receiver is HUNTING, the frame is classified, handed on with all its consequences, and then
counted (R158, R160, R161, R162). -/
def State.completeFrame (s : State) (c : Channel) (bytes : List Byte) (time : Nat) : State :=
  let f := classifyFrame s.config.qualityThreshold bytes
  (((s.modifyReader c (fun r => { r with receiver := .hunting })).handOn c f time).settle.countFrame c f.bad).settle

/-- A byte is taken on a channel's data line (R158). -/
def State.takeReaderByte (c : Channel) (time : Nat) (s : State) (b : Byte) : State :=
  match (s.reader c).receiver with
  | .hunting => s
  | .ignoring => s
  | .receiving held =>
    let bytes := held ++ [b]
    if bytes.length < 6 then s.modifyReader c (fun r => { r with receiver := .receiving bytes })
    else s.completeFrame c bytes time

/-- A frame begun and not completed is discarded and counted as one bad frame (R159). -/
def State.discardFrame (s : State) (c : Channel) (after : ReaderReceiver) : State :=
  ((s.modifyReader c (fun r => { r with receiver := after })).countFrame c true).settle

/-- READER_MARKER (R158, R159). -/
def execReaderMarker (c : Channel) (s : State) : Host.Outcome State Fault Refusal :=
  .next (s.whenLive (fun s => match (s.reader c).receiver with
    | .receiving _ => s.discardFrame c .ignoring
    | .hunting => s.modifyReader c (fun r => { r with receiver := .receiving [] })
    | .ignoring => s.modifyReader c (fun r => { r with receiver := .receiving [] })))

/-- READER_RUNT_TIMEOUT (R159). -/
def execReaderRuntTimeout (c : Channel) (s : State) : Host.Outcome State Fault Refusal :=
  .next (s.whenLive (fun s => match (s.reader c).receiver with
    | .receiving _ => s.discardFrame c .hunting
    | .hunting => s
    | .ignoring => s))

/-- READER_STOP_BIT_ERROR (R159). -/
def execReaderStopBitError (c : Channel) (s : State) : Host.Outcome State Fault Refusal :=
  .next (s.whenLive (fun s => match (s.reader c).receiver with
    | .receiving _ => s.discardFrame c .ignoring
    | .hunting => s
    | .ignoring => s))

/-- READER_FRAME (R158, R160 to R163): bytes are taken on the data line, up to the one that completes the frame. -/
def execReaderFrame (c : Channel) (bytes : List Byte) (time : Nat) (s : State) : Host.Outcome State Fault Refusal :=
  .next (s.whenLive (fun s => bytes.foldl (State.takeReaderByte c time) s))

end Sys2Proof.Machine
end

