-- ==== Sys2Proof/Machine/Stations.lean ====
section
/-! DEFINITION. The Station Controller (chapter 6) and the presence sensors (R27, R28): buttons, the hold request, picker
inputs, attendance, the station commands, order totes that go missing and return. -/

namespace Sys2Proof.Machine

/-! ### Replies -/

/-- A request answered in a state. -/
def State.reply (s : State) (status : Status) (result : List Byte) : Reply :=
  { state := s, response := { status := status, result := result } }

/-- A request refused without a result: nothing changes. -/
def State.refuse (s : State) (status : Status) : Reply := s.reply status []

/-! ### Picker inputs (R131, R132) -/

/-- A picker input (R132). The attendance window restarts with the length it runs with (log entry 5), and elapsed time
is not held, so its restart leaves the state as it is. -/
def State.pickerInput (s : State) (st : Station) : State :=
  s.modifyStation st (fun r => { r with attendance := .attended })

/-- The attendance window expires (R131). -/
def State.expireAttendance (s : State) (st : Station) : State :=
  let r := s.station st
  match r.window with
  | none => s
  | some _ =>
    match r.attendance with
    | .attended =>
      (s.setStation st { r with window := none, attendance := .unattended }).postIf
        (r.presentation.map (fun i => .stationUnattended i st))
    | .unattended => s.setStation st { r with window := none }

/-! ### Buttons (R117, R118) -/

/-- The current line of a station's presented record is resolved, and the next is chosen (R114, R117, R118). -/
def State.resolveCurrent (s : State) (st : Station) (dest : LineState) : State :=
  match (s.station st).presentation with
  | none => s
  | some i =>
    match s.source i with
    | none => s
    | some r =>
      match r.current with
      | none => s
      | some k => (s.putSource i { r with lines := setLine r.lines k dest }).chooseLine st

/-- A press of the put button at a position of its station (R117). -/
def State.pressPut (s : State) (u : Position) : State :=
  let st := positionStation u
  if s.putLamp st = some u then s.resolveCurrent st .done
  else s.post (.wrongPut (s.station st).presentation st u)

/-! ### Holds (R124, R125, R127) -/

/-- A setting of the hold request (R125). -/
def State.holdSet (s : State) (st : Station) : State :=
  match (s.station st).hold with
  | .running =>
    if (s.station st).presentation = none then s.enterHeld st .request
    else s.modifyStation st (fun r => { r with hold := .holdPending })
  | .holdPending => s
  | .held => s
  | .step _ => s

/-- A clearing of the hold request (R125). -/
def State.holdClear (s : State) (st : Station) : State :=
  match (s.station st).hold with
  | .holdPending => s.enterRunning st
  | .running => s
  | .held => s
  | .step _ => s

/-- The hold status follows the request from its level before the event (R124). -/
def State.followRequest (s : State) (st : Station) (before : Bool) : State :=
  match before, s.holdRequest st with
  | false, true => s.holdSet st
  | true, false => s.holdClear st
  | false, false => s
  | true, true => s

/-- The command flag of a station takes a value, and the request is followed (R128). -/
def State.setCommandFlag (s : State) (st : Station) (flag : Bool) : State :=
  (s.modifyStation st (fun r => { r with commandFlag := flag })).followRequest st (s.holdRequest st)

/-- A held station resumes (R127). -/
def State.resume (s : State) (st : Station) : State :=
  match (s.station st).hold with
  | .held =>
    if s.holdRequest st then s.modifyStation st (fun r => { r with hold := .step .isOpen }) else s.enterRunning st
  | .running => s
  | .holdPending => s
  | .step _ => s

/-- The pause switch of a station goes to its other level. -/
def State.togglePause (s : State) : Station → State
  | .a => s.setInputs { s.inputs with pauseA := !s.inputs.pauseA }
  | .b => s.setInputs { s.inputs with pauseB := !s.inputs.pauseB }

/-- A station command: its station checked, its effect, the event settled, OK with the hold status as it then stands
(R127, R128). -/
def State.stationCommand (s : State) (station : Byte) (act : State → Station → State) : Reply :=
  match stationField station with
  | none => s.refuse .badArgument
  | some st =>
    let after := (act s st).settle
    after.reply .ok [(after.station st).hold.byte]

/-- HOLD_STATION (R128). -/
def cmdHoldStation (station : Byte) (s : State) : Reply :=
  s.stationCommand station (fun t st => t.setCommandFlag st true)

/-- RELEASE_HOLD (R128). -/
def cmdReleaseHold (station : Byte) (s : State) : Reply :=
  s.stationCommand station (fun t st => t.setCommandFlag st false)

/-- RESUME_STATION (R127). -/
def cmdResumeStation (station : Byte) (s : State) : Reply := s.stationCommand station State.resume

/-! ### Presence sensors (R27, R28) -/

/-- The presence sensor of a put position takes a level. -/
def State.setPresence (s : State) (u : Position) (level : Bool) : State :=
  s.setInputs { s.inputs with presence := s.inputs.presence.set u.val level }

/-- The line is in a state. -/
def Line.isIn (st : LineState) (l : Line) : Bool := decide (l.state = st)

/-- The order tote of a position is gone (R27): MISSING, its OPEN lines BLOCKED, the notice, and the current lines chosen
again where they no longer stand. -/
def State.orderGone (s : State) (u : Position) : State :=
  match s.orderAt u with
  | none => s
  | some o =>
    match s.order o with
    | none => s
    | some r =>
      if r.state = .bound then
        (((((s.putOrder o { r with state := .missing }).moveLinesFor o (Line.isIn .isOpen) .blocked).post
          (.orderMissing o r.tote.code r.position)).refreshLine .a).refreshLine .b).settle
      else s

/-- The order tote of a position is back (R28): BOUND, its BLOCKED lines OPEN, the notice. -/
def State.orderBack (s : State) (u : Position) : State :=
  match s.orderAt u with
  | none => s
  | some o =>
    match s.order o with
    | none => s
    | some r =>
      if r.state = .missing then
        (((s.putOrder o { r with state := .bound }).moveLinesFor o (Line.isIn .blocked) .isOpen).post
          (.orderRestored o r.tote.code r.position)).settle
      else s

/-! ### The commands -/

/-- PRESENCE_OFF (R27): a repeat of the level changes nothing. -/
def execPresenceOff (u : Position) (s : State) : Host.Outcome State Fault Refusal :=
  .next ((s.setPresence u false).whenLive (fun t => if s.presenceLevel u then t.orderGone u else t))

/-- PRESENCE_ON (R28): a repeat of the level changes nothing. -/
def execPresenceOn (u : Position) (s : State) : Host.Outcome State Fault Refusal :=
  .next ((s.setPresence u true).whenLive (fun t => if s.presenceLevel u then t else t.orderBack u))

/-- PUT_BUTTON (R116, R117, R132). -/
def execPutButton (u : Position) (s : State) : Host.Outcome State Fault Refusal :=
  .next (s.whenLive (fun s =>
    let attended := s.pickerInput (positionStation u)
    (if attended.following then attended.pressPut u else attended).settle))

/-- SHORT_BUTTON (R116, R118, R132). -/
def execShortButton (st : Station) (s : State) : Host.Outcome State Fault Refusal :=
  .next (s.whenLive (fun s =>
    let attended := s.pickerInput st
    (if attended.following then attended.resolveCurrent st .short else attended).settle))

/-- PAUSE_SWITCH_CHANGE (R124, R125, R132). -/
def execPauseSwitchChange (st : Station) (s : State) : Host.Outcome State Fault Refusal :=
  .next ((s.togglePause st).whenLive (fun t =>
    ((t.pickerInput st).followRequest st (s.holdRequest st)).settle))

/-- ATTENDANCE_WINDOW_EXPIRY (R131). -/
def execAttendanceWindowExpiry (st : Station) (s : State) : Host.Outcome State Fault Refusal :=
  .next (s.whenLive (fun s => (s.expireAttendance st).settle))

end Sys2Proof.Machine
end

