-- ==== Sys2Proof/Machine/Results.lean ====
section
/-! DEFINITION. The byte layouts of results (R187 to R189): records, ports, status, reader statistics, notices and the
configuration; and READ_NOTICES and READ_READER_STATS. -/

namespace Sys2Proof.Machine

/-! ### READ_RECORD (R188) -/

/-- The bytes common to every record. -/
def Record.head (r : Record) : List Byte :=
  r.kind.byte :: (bytes32 r.tote.code ++ [r.tote.cls.byte, stationByte r.station, r.state.byte]
    ++ bytes16 r.tote.exposure ++ [r.marks])

/-- The three bytes of a pick line. -/
def Line.bytes (l : Line) : List Byte := [slotByte l.target, byteOf l.quantity, l.state.byte]

/-- The bytes of a source record after the common ones. -/
def Source.bytes (r : Source) : List Byte :=
  [portByte r.port, byteOf r.visit.val, byteOf r.callAttempts, byteOf r.divertAttempts, byteOf r.backoff,
    byteOf r.recycleCount, optionalByte (r.current.map byteOf), optionalByte (r.passThrough.map PassReason.byte),
    optionalByte (r.leaving.map LeavingCause.byte), byteOf r.lines.length] ++ r.lines.flatMap Line.bytes

/-- The result of READ_RECORD. -/
def State.recordBytes (s : State) (i : Slot) (r : Record) : List Byte :=
  r.head ++ match r with
    | .source q => q.bytes
    | .order o => [positionByte o.position, byteOf (s.pendingCount i)]

/-! ### LIST_PORT (R46, R188) -/

/-- A slot and its source record's state. -/
def State.memberBytes (s : State) (i : Slot) : List Byte :=
  match s.source i with
  | some r => [slotByte i, r.state.byte]
  | none => [slotByte i, 0xFF#8]

/-- The seven bytes of a lane entry. -/
def LaneEntry.bytes : LaneEntry → List Byte
  | .slot i => [0#8, slotByte i] ++ bytes32 noReadCode ++ [0xFF#8]
  | .unidentified => [1#8, 0xFF#8] ++ bytes32 noReadCode ++ [0xFF#8]
  | .foreign reason c => [2#8, 0xFF#8] ++ bytes32 c ++ [reason.byte]

/-- The roster members in neither view: RETURNING or MISSING (R46). -/
def State.otherMembers (s : State) (p : Port) : List Slot :=
  allSlots.filter (fun i => match s.source i with
    | some r => decide (r.port = p) && (decide (r.state = .returning) || decide (r.state = .missing))
    | none => false)

/-- The result of LIST_PORT. -/
def State.portBytes (s : State) (p : Port) : List Byte :=
  let r := s.port p
  [r.mode.byte, optionalByte (r.cause.map FaultCause.byte), byteOf (s.rosterSize p), byteOf r.queue.length]
    ++ r.queue.flatMap s.memberBytes
    ++ [byteOf r.lane.length] ++ r.lane.flatMap LaneEntry.bytes
    ++ [byteOf (s.otherMembers p).length] ++ (s.otherMembers p).flatMap s.memberBytes
    ++ [byteOf r.lane.length, byteOf r.reservation, byteOf r.unconfirmed]

/-! ### READ_STATUS and READ_READER_STATS (R189) -/

/-- The thirteen bytes of a station. -/
def State.stationBytes (s : State) (st : Station) : List Byte :=
  let r := s.station st
  [r.hold.byte, r.hold.stepByte, boolByte r.holdMode, boolByte r.atHold, boolByte r.commandFlag,
    boolByte (s.pauseSwitch st), r.attendance.byte, boolByte r.window.isSome, optionalByte (r.workingPort.map portByte),
    r.side.byte, optionalByte ((s.portLamp st).map portByte), optionalByte ((s.putLamp st).map positionByte),
    byteOf ((s.display st).getD 0)]

/-- The reader channels, scanner first. -/
def allChannels : List Channel := [.scanner, .port 0, .port 1, .port 2, .port 3]

/-- The result of READ_STATUS. -/
def State.statusBytes (s : State) : List Byte :=
  [s.bench.byte, boolByte s.inputs.supplyReady, byteOf s.creditsInUse, byteOf s.freeSlots, byteOf s.notices.length]
    ++ s.stationBytes .a ++ s.stationBytes .b
    ++ allPorts.flatMap (fun p => [(s.port p).mode.byte, optionalByte ((s.port p).cause.map FaultCause.byte)])
    ++ allChannels.map (fun c => (s.reader c).status.byte)
    ++ bytes16 s.supply.staleCount ++ bytes16 s.supply.badCount ++ bytes16 s.link.discardCount

/-- The six bytes of a reader channel (R166). -/
def ReaderRec.bytes (r : ReaderRec) : List Byte :=
  [byteOf r.frames, byteOf r.bad] ++ bytes16 r.lastBad ++ [r.windows, r.status.byte]

/-- READ_READER_STATS (R166). -/
def cmdReadReaderStats (s : State) : Reply := s.reply .ok (allChannels.flatMap (fun c => (s.reader c).bytes))

/-! ### READ_CONFIG (R170, R187) -/

/-- The 25 bytes of the configuration, as CONFIGURE takes them. -/
def Configuration.bytes (k : Configuration) : List Byte :=
  bytes16 k.chilledBudget ++ bytes16 k.frozenBudget
    ++ [byteOf k.warnPercent, byteOf k.pipelineDepth, byteOf k.divertLimit, byteOf k.confirmWindow,
      byteOf k.answerWindow, byteOf k.attendanceWindow, byteOf k.qualityThreshold]
    ++ bytes16 k.readerWindow ++ [byteOf k.readerBadLimit] ++ bytesOfFlags k.familyFilter
    ++ [boolByte k.openAcceptance, optionalByte (k.strayPort.map portByte), optionalByte (k.servicePort.map portByte)]

/-! ### Notices (R183, R184, R189) -/

/-- A notice location: its type and value (R186). -/
def portLocation (p : Port) : List Byte := [1#8, portByte p]

def stationLocation (st : Station) : List Byte := [2#8, stationByte st]

def channelLocation (c : Channel) : List Byte := [3#8, channelByte c]

def positionLocation (u : Position) : List Byte := [4#8, positionByte u]

def noLocation : List Byte := [0#8, 0xFF#8]

/-- The location of a record's notice. -/
def RecordPlace.location : RecordPlace → List Byte
  | .port p => portLocation p
  | .position u => positionLocation u

/-- The kind of record that stands at a place. -/
def RecordPlace.kind : RecordPlace → RecordKind
  | .port _ => .source
  | .position _ => .order

/-- The three bytes of a line outcome. -/
def LineOutcome.bytes (l : LineOutcome) : List Byte := [l.state.byte, slotByte l.target, byteOf l.quantity]

/-- The bytes of a notice, from its fields (R189). -/
def noticeRecord (kind : Nat) (slot : Option Slot) (code : Code) (location : List Byte) (detail : Option Nat)
    (extras : List Nat) (outcomes : List LineOutcome) : List Byte :=
  [byteOf kind, optionalByte (slot.map slotByte)] ++ bytes32 code ++ location ++ [optionalByte (detail.map byteOf)]
    ++ [byteOf extras.length] ++ extras.flatMap bytes16
    ++ [byteOf outcomes.length] ++ outcomes.flatMap LineOutcome.bytes

/-- The detail of a PRESENT_LOST notice. -/
def LostDetail.number : LostDetail → Nat
  | .sighted => 0
  | .seatLost => 1
  | .exitUnreleased => 2
  | .override => 3

/-- The detail of a PRESENT_REGAINED notice. -/
def RegainedDetail.number : RegainedDetail → Nat
  | .sighted => 0
  | .atStop => 1

/-- The detail of a STATION_HELD notice. -/
def HeldDetail.number : HeldDetail → Nat
  | .request => 0
  | .pendingDone => 1
  | .stepDone => 2

/-- The detail of a DIVERT_UNCONFIRMED notice of a FOREIGN item: SERVICE, then CAPTURED, as R184 lists them; no other
reason is ever armed (R85). -/
def ForeignReason.armedNumber : ForeignReason → Option Nat
  | .service => some 0
  | .captured => some 1
  | .stray => none
  | .misrouted => none

/-- The bytes of a notice (R184, R189). -/
def Notice.bytes : Notice → List Byte
  | .retiredSource i c p cause exposure outcomes =>
    noticeRecord 1 (some i) c (portLocation p) (some cause.byte.toNat)
      [RecordKind.source.byte.toNat, (stationByte (portStation p)).toNat, exposure] outcomes
  | .retiredOrder i c u cause exposure orphaned =>
    noticeRecord 1 (some i) c (positionLocation u) (some cause.byte.toNat)
      [RecordKind.order.byte.toNat, (stationByte (positionStation u)).toNat, exposure, orphaned] []
  | .warned i c place cls count threshold =>
    noticeRecord 2 (some i) c place.location none [place.kind.byte.toNat, cls.byte.toNat, count, threshold] []
  | .expired i c place state cls count budget =>
    noticeRecord 3 (some i) c place.location (some state.byte.toNat)
      [place.kind.byte.toNat, cls.byte.toNat, count, budget] []
  | .divertExhausted i c p final recycleCount =>
    noticeRecord 4 (some i) c (portLocation p) (some final.toNat) [recycleCount] []
  | .unconfirmedSlot i c p count => noticeRecord 5 (some i) c (portLocation p) none [count] []
  | .unconfirmedForeign c p reason count => noticeRecord 5 none c (portLocation p) reason.armedNumber [count] []
  | .stray order c place atStop =>
    noticeRecord 6 order c (match place with | some p => portLocation p | none => noLocation)
      (some (if order.isSome then 0 else 1)) [atStop.toNat] []
  | .presentLost i c p detail => noticeRecord 7 (some i) c (portLocation p) (some detail.number) [] []
  | .presentRegained i c p detail => noticeRecord 8 (some i) c (portLocation p) (some detail.number) [] []
  | .verifyFailed head p =>
    noticeRecord 9 (head.map Prod.fst) ((head.map Prod.snd).getD noReadCode) (portLocation p) none [] []
  | .misrouted i c place own => noticeRecord 10 (some i) c (portLocation place) none [own.val] []
  | .orderMissing i c u => noticeRecord 11 (some i) c (positionLocation u) none [] []
  | .orderRestored i c u => noticeRecord 12 (some i) c (positionLocation u) none [] []
  | .wrongPut presented st u =>
    noticeRecord 13 presented noReadCode (stationLocation st) (some (if presented.isSome then 0 else 1)) [u.val] []
  | .portFault p raised kept =>
    noticeRecord 14 none noReadCode (portLocation p) (some raised.byte.toNat) [kept.byte.toNat] []
  | .portClosed p => noticeRecord 15 none noReadCode (portLocation p) none [] []
  | .stationHeld st detail => noticeRecord 16 none noReadCode (stationLocation st) (some detail.number) [] []
  | .stationUnattended i st => noticeRecord 17 (some i) noReadCode (stationLocation st) none [] []
  | .readerDegraded c bad limit window =>
    noticeRecord 18 none noReadCode (channelLocation c) none [bad, limit, window] []
  | .readerRecovered c bad limit window =>
    noticeRecord 19 none noReadCode (channelLocation c) none [bad, limit, window] []

/-- READ_NOTICES (R181): the oldest notices leave the queue, and the overflow count is reported and cleared. -/
def cmdReadNotices (most : Byte) (s : State) : Reply :=
  if within 1 4 most.toNat then
    let given := s.notices.take most.toNat
    let kept := s.notices.drop most.toNat
    ({ s with notices := kept, overflow := 0 } : State).reply .ok
      ([byteOf given.length, byteOf kept.length, byteOf s.overflow] ++ given.flatMap Notice.bytes)
  else s.refuse .badArgument

end Sys2Proof.Machine
end

