-- ==== Sys2Proof/Machine/Records.lean ====
section
/-! DEFINITION. The Record Table (chapter 1) and placement (R32): the record commands, each checked in the order its rule
gives, and its effect. -/

namespace Sys2Proof.Machine

/-! ### Allocation and placement (R1, R32) -/

/-- The first FREE slot, searching upward from the allocation pointer and wrapping (R1). -/
def State.nextFree (s : State) : Option Slot :=
  ((List.range 64).map (fun k => s.allocPtr + Fin.ofNat 64 k)).find? (fun i => (s.record i).isNone)

/-- A record is created in a slot, and the pointer goes to the slot after it (R1). -/
def State.create (s : State) (i : Slot) (r : Record) : State :=
  { s.setSlot i (some r) with allocPtr := i + 1 }

/-- The port is eligible for placement (R32). -/
def State.hasRoom (s : State) (p : Port) : Bool :=
  decide ((s.port p).mode = .isOpen) && decide (s.rosterSize p < Config.rosterLimit)

/-- Where a source record of a station is placed (R32). -/
def State.placement (s : State) (st : Station) : Option Port :=
  let left := stationPort st .left
  let right := stationPort st .right
  if s.hasRoom left then
    if s.hasRoom right && decide (s.rosterSize right < s.rosterSize left) then some right else some left
  else if s.hasRoom right then some right
  else none

/-- A port of the station is OPEN (R12). -/
def State.someOpen (s : State) (st : Station) : Bool :=
  decide ((s.port (stationPort st .left)).mode = .isOpen) || decide ((s.port (stationPort st .right)).mode = .isOpen)

/-- The carried exposure is at or past the class budget (R12, R15). -/
def State.exposureSpent (s : State) (cls : ToteClass) (exposure : Nat) : Bool := reaches exposure (s.config.budget cls)

/-- The common fields of a new record (R3). -/
def State.newTote (s : State) (code : Code) (cls : ToteClass) (exposure : Nat) (running : Bool) : Tote where
  code := code
  cls := cls
  exposure := exposure
  running := running
  warned := s.config.warnedAtCreation cls exposure
  expired := false

/-- Bench commands on the table are refused in UNCONFIGURED (R11). -/
def State.whenConfigured (s : State) (reply : Reply) : Reply :=
  if s.bench = .unconfigured then s.refuse .notConfigured else reply

/-! ### Lines (R13) -/

/-- The order a line names, where the line may target it: live, of the station, not EXPIRED (R13). -/
def State.lineTarget (s : State) (st : Station) (l : LineArg) : Option (Slot × Order) :=
  match slotField l.target with
  | none => none
  | some i =>
    match s.order i with
    | none => none
    | some r => if positionStation r.position = st ∧ r.state ≠ .expired then some (i, r) else none

/-- A line is rejected: its target, its quantity, or a target taken by an earlier line or another line of the record
(R13, R16). -/
def State.lineRejected (s : State) (st : Station) (taken : List Byte) (l : LineArg) : Bool :=
  (s.lineTarget st l).isNone || !(within 1 99 l.quantity.toNat) || taken.contains l.target

/-- The rejections of lines in order, each compared with those before it. -/
def State.rejections (s : State) (st : Station) : List Byte → List LineArg → List Bool
  | _, [] => []
  | taken, l :: rest => s.lineRejected st taken l :: s.rejections st (taken ++ [l.target]) rest

/-- The reject mask: bit `base + i` for a rejection at index i (R13, R16). -/
def rejectMask : Nat → List Bool → Byte
  | _, [] => 0#8
  | base, rejected :: rest => (if rejected then 1#8 <<< base else 0#8) ||| rejectMask (base + 1) rest

/-- The line a valid argument gives: OPEN for a BOUND target, BLOCKED for a MISSING one (R9, R14). -/
def State.newLine (s : State) (st : Station) (l : LineArg) : Option Line :=
  (s.lineTarget st l).map (fun t =>
    { target := t.1, quantity := l.quantity.toNat, state := if t.2.state = .missing then .blocked else .isOpen })

/-! ### SUBMIT_SOURCE (R12 to R14) -/

/-- The source record a taken submission creates (R4, R5, R14). -/
def State.newSource (s : State) (code : Code) (cls : ToteClass) (exposure : Nat) (st : Station) (p : Port)
    (lines : List LineArg) : Source where
  tote := s.newTote code cls exposure false
  state := .queued
  port := p
  visit := 0
  callAttempts := 0
  divertAttempts := 0
  backoff := 0
  recycleCount := 0
  lines := lines.filterMap (s.newLine st)
  current := none
  withdraw := false
  requeue := false
  returnOwed := false
  passThrough := none
  leaving := none
  answerWindow := none
  cancelHeld := false

/-- A taken submission: the record created, placed, and queued by its warned mark (R14, R33). -/
def State.admitSource (s : State) (i : Slot) (p : Port) (r : Source) : Reply :=
  let created := s.create i (.source r)
  let queued := if r.tote.warned then created.queueAhead p i else created.queueTail p i
  queued.settle.reply .ok [slotByte i, portByte p, boolByte r.tote.warned]

/-- The checks of SUBMIT_SOURCE from the third on, in their order (R12). -/
def State.submitChecked (s : State) (code : Code) (cls : ToteClass) (exposure : Nat) (st : Station)
    (lines : List LineArg) : Reply :=
  if (s.findCode code).isSome then s.refuse .duplicateCode
  else if s.exposureSpent cls exposure then s.refuse .exposureSpent
  else match s.nextFree with
    | none => s.refuse .tableFull
    | some i =>
      if s.someOpen st then
        match s.placement st with
        | none => s.refuse .rosterFull
        | some p =>
          let rejected := s.rejections st [] lines
          if rejected.contains true then s.reply .linesRejected [rejectMask 0 rejected]
          else s.admitSource i p (s.newSource code cls exposure st p lines)
      else s.refuse .noOpenPort

/-- SUBMIT_SOURCE (R12). -/
def cmdSubmitSource (code : Code) (cls : Byte) (exposure : BitVec 16) (station : Byte) (lines : List LineArg)
    (s : State) : Reply :=
  s.whenConfigured
    (match classField cls, stationField station with
      | some c, some st =>
        if recordCode code && within 1 Config.lineLimit lines.length then
          s.submitChecked code c exposure.toNat st lines
        else s.refuse .badArgument
      | _, _ => s.refuse .badArgument)

/-! ### BIND_ORDER (R15) -/

/-- The order record a taken binding creates (R7, R15). -/
def State.newOrder (s : State) (code : Code) (cls : ToteClass) (exposure : Nat) (u : Position) : Order where
  tote := s.newTote code cls exposure true
  state := .bound
  position := u

/-- The checks of BIND_ORDER from the third on, in their order (R15). -/
def State.bindChecked (s : State) (code : Code) (cls : ToteClass) (exposure : Nat) (u : Position) : Reply :=
  if (s.findCode code).isSome then s.refuse .duplicateCode
  else if s.exposureSpent cls exposure then s.refuse .exposureSpent
  else match s.nextFree with
    | none => s.refuse .tableFull
    | some i =>
      if (s.orderAt u).isSome then s.refuse .positionOccupied
      else if s.presenceLevel u then
        let r := s.newOrder code cls exposure u
        (s.create i (.order r)).reply .ok [slotByte i, boolByte r.tote.warned]
      else s.refuse .noToteAtPosition

/-- BIND_ORDER (R15). -/
def cmdBindOrder (code : Code) (cls : Byte) (exposure : BitVec 16) (position : Byte) (s : State) : Reply :=
  s.whenConfigured
    (match classField cls, positionField position with
      | some c, some u =>
        if recordCode code then s.bindChecked code c exposure.toNat u else s.refuse .badArgument
      | _, _ => s.refuse .badArgument)

/-! ### Commands that name a source record (R11) -/

/-- The slot checks of R11 for a command on a source record. -/
def State.onSource (s : State) (slot : Byte) (act : Slot → Source → Reply) : Reply :=
  s.whenConfigured
    (match slotField slot with
      | none => s.refuse .badArgument
      | some i =>
        match s.record i with
        | none => s.refuse .noSuchRecord
        | some (.order _) => s.refuse .badArgument
        | some (.source r) => act i r)

/-! ### AMEND_LINES (R16, R17) -/

/-- The record is RELEASING, RETURNING or RECYCLING, or under a mark (R16). -/
def Source.leavingNow (r : Source) : Bool :=
  decide (r.state = .releasing) || decide (r.state = .returning) || decide (r.state = .recycling) || r.marked

/-- A cancel index names an OPEN or BLOCKED line (R16). -/
def cancelNames (lines : List Line) (k : Byte) : Bool :=
  match lines[k.toNat]? with
  | some l => l.pending
  | none => false

/-- Some index appears twice in a list (R16). -/
def repeated : List Byte → Bool
  | [] => false
  | k :: rest => rest.contains k || repeated rest

/-- The fourth check of AMEND_LINES fails: its indices or its line total (R16). -/
def Source.amendBad (r : Source) (cancels : List Byte) (adds : List LineArg) : Bool :=
  !(cancels.all (cancelNames r.lines)) || repeated cancels || decide (Config.lineLimit < r.lines.length + adds.length)

/-- A cancel index names the current line of a PRESENTED record (R16). -/
def Source.inWork (r : Source) (cancels : List Byte) : Bool :=
  decide (r.state = .presented) && cancels.any (fun k => decide (some k.toNat = r.current))

/-- The lines with the named ones CANCELLED (R17). -/
def cancelNamed (cancels : List Byte) (lines : List Line) : List Line :=
  cancels.foldl (fun ls k => setLine ls k.toNat .cancelled) lines

/-- The targets of the lines that are not CANCELLED (R16). -/
def liveTargets (lines : List Line) : List Byte :=
  (lines.filter (fun l => decide (l.state ≠ .cancelled))).map (fun l => slotByte l.target)

/-- AMEND_LINES on the record it names, its checks in order (R16, R17). -/
def State.amendRecord (s : State) (i : Slot) (r : Source) (cancels : List Byte) (adds : List LineArg) : Reply :=
  if r.leavingNow then s.refuse .alreadyLeaving
  else if r.amendBad cancels adds then s.refuse .badArgument
  else if r.inWork cancels then s.refuse .lineInWork
  else
    let st := portStation r.port
    let kept := cancelNamed cancels r.lines
    let rejected := s.rejections st (liveTargets kept) adds
    if rejected.contains true then s.reply .linesRejected [rejectMask r.lines.length rejected]
    else
      let lines := kept ++ adds.filterMap (s.newLine st)
      (s.putSource i { r with lines := lines }).reply .ok [byteOf lines.length]

/-- AMEND_LINES (R16). -/
def cmdAmendLines (slot : Byte) (cancels : List Byte) (adds : List LineArg) (s : State) : Reply :=
  s.onSource slot (fun i r => s.amendRecord i r cancels adds)

/-! ### WITHDRAW (R18, R19) -/

/-- The record under the withdraw mark, its OPEN and BLOCKED lines CANCELLED (R18). -/
def Source.withdrawn (r : Source) : Source := { r.resolveLines .cancelled with withdraw := true }

/-- The effect of a WITHDRAW on a record without marks, by its state (R18, R19). -/
def State.withdrawByState (s : State) (i : Slot) (r : Source) : State :=
  match r.state with
  | .queued => (s.putSource i r.withdrawn).retireSource i .withdrawn
  | .calling => s.putSource i r.withdrawn
  | .called => s.putSource i r.withdrawn
  | .cancelling => s.putSource i { r.withdrawn with requeue := false }
  | .inbound => (s.putSource i r.withdrawn).enterReturning i .withdrawn
  | .laned => s.putSource i { r.withdrawn with passThrough := some .withdrawn }
  | .atStop => s.putSource i { r.withdrawn with passThrough := some .withdrawn }
  | .ready => (s.putSource i { r.withdrawn with passThrough := some .withdrawn }).passHead r.port
  | .presented =>
    (s.putSource i { r.withdrawn with passThrough := some .withdrawn, current := none }).openStop r.port
  | .missing => (s.putSource i r.withdrawn).retireSource i .withdrawn
  | .recycling => s.putSource i { r.withdrawn with leaving := some .withdrawn }
  | .releasing => s
  | .returning => s

/-- The effect of a WITHDRAW on a record under the expired mark: retirement from QUEUED or MISSING, else none (R19). -/
def State.withdrawExpired (s : State) (i : Slot) (r : Source) : State :=
  match r.state with
  | .queued => s.retireSource i .withdrawn
  | .missing => s.retireSource i .withdrawn
  | _ => s

/-- The response of a WITHDRAW that is taken (R18, R19). -/
def Source.withdrawStatus (r : Source) : Status :=
  match r.state with
  | .queued => .ok
  | .missing => .ok
  | _ => .inProgress

/-- WITHDRAW on the record it names. -/
def State.withdrawRecord (s : State) (i : Slot) (r : Source) : Reply :=
  if r.state = .releasing ∨ r.state = .returning then s.refuse .alreadyLeaving
  else if r.tote.expired then (s.withdrawExpired i r).settle.reply r.withdrawStatus []
  else if r.withdraw then s.reply .inProgress []
  else (s.withdrawByState i r).settle.reply r.withdrawStatus []

/-- WITHDRAW (R18, R19). -/
def cmdWithdraw (slot : Byte) (s : State) : Reply := s.onSource slot s.withdrawRecord

/-! ### CLOSE_ORDER (R21) -/

/-- A close that is taken: lines still pending are ORPHANED, current lines chosen again, the order retired (R21). -/
def State.closeRecord (s : State) (i : Slot) : State :=
  let pending := s.pendingCount i
  let orphaned := ((s.moveLinesFor i Line.pending .orphaned).refreshLine .a).refreshLine .b
  (orphaned.retireOrder i (if 0 < pending then .closedForced else .closed) pending).settle

/-- CLOSE_ORDER (R21). -/
def cmdCloseOrder (slot force : Byte) (s : State) : Reply :=
  s.whenConfigured
    (match slotField slot, flagField force with
      | some i, some forced =>
        match s.record i with
        | none => s.refuse .noSuchRecord
        | some (.source _) => s.refuse .badArgument
        | some (.order _) =>
          if 0 < s.pendingCount i ∧ forced = false then s.refuse .linesPending
          else (s.closeRecord i).reply .ok []
      | _, _ => s.refuse .badArgument)

/-! ### READ_RECORD and FIND_TOTE (R23, R24) -/

/-- READ_RECORD (R23). -/
def cmdReadRecord (slot : Byte) (s : State) : Reply :=
  match slotField slot with
  | none => s.refuse .badArgument
  | some i =>
    match s.record i with
    | none => s.refuse .noSuchRecord
    | some r => s.reply .ok (s.recordBytes i r)

/-- FIND_TOTE (R24). -/
def cmdFindTote (code : Code) (s : State) : Reply :=
  if recordCode code then
    match s.findCode code with
    | none => s.refuse .noSuchRecord
    | some i =>
      match s.record i with
      | none => s.refuse .noSuchRecord
      | some r => s.reply .ok [slotByte i, r.kind.byte, r.state.byte]
  else s.refuse .badArgument

end Sys2Proof.Machine
end

