-- ==== Sys2Proof/Machine/PortCommands.lean ====
section
/-! DEFINITION. The port commands: OPEN_PORT, CLOSE_PORT, ACK_FAULT (chapter 8), LIST_PORT (R46) and RELEASE_SERVICE
(R105). -/

namespace Sys2Proof.Machine

/-- A port takes a state. -/
def State.setMode (s : State) (p : Port) (mode : PortMode) : State := s.modifyPort p (fun q => { q with mode := mode })

/-- The checks common to the port commands, which answer OK with the port state as it then stands (R146). -/
def State.portCommand (s : State) (port : Byte) (act : Port → Reply) : Reply :=
  s.whenConfigured
    (match portField port with
      | none => s.refuse .badArgument
      | some p => act p)

/-- OK with the port state as it stands after the command's event (R146). -/
def State.replyPort (s : State) (p : Port) : Reply := s.reply .ok [(s.port p).mode.byte]

/-- The readiness chain restarts at a VERIFIED stop (R148): a presentation there ends, an expired record's current line is
DEFERRED, and the head is AT_STOP and read again. -/
def State.restartChain (s : State) (p : Port) : State :=
  if (s.port p).stop = .verified then
    let reading := s.modifyPort p (fun q => q.startRead .first)
    match (s.port p).lane with
    | .slot i :: _ =>
      match s.source i with
      | some r =>
        (reading.putSource i { r with state := .atStop, current := none, lines := r.deferCurrent }).endPresentationOf p i
      | none => reading
    | _ => reading
  else s

/-- OPEN_PORT at a port, by its state (R147). -/
def State.openPort (s : State) (p : Port) : Reply :=
  match (s.port p).mode with
  | .closed => ((s.setMode p .isOpen).restartChain p).settle.replyPort p
  | .closing => ((s.setMode p .isOpen).restartChain p).settle.replyPort p
  | .isOpen => s.replyPort p
  | .faulted => s.refuse .faultActive

/-- OPEN_PORT (R146, R147). -/
def cmdOpenPort (port : Byte) (s : State) : Reply := s.portCommand port s.openPort

/-- CLOSE_PORT at a port, by its state (R149); the drain test comes with the end of the event (R150). -/
def State.closePort (s : State) (p : Port) : Reply :=
  match (s.port p).mode with
  | .isOpen => (s.setMode p .closing).settle.replyPort p
  | .closing => s.replyPort p
  | .closed => s.replyPort p
  | .faulted => s.replyPort p

/-- CLOSE_PORT (R146, R149). -/
def cmdClosePort (port : Byte) (s : State) : Reply := s.portCommand port s.closePort

/-- ACK_FAULT at a port (R155). -/
def State.ackFault (s : State) (p : Port) : Reply :=
  if s.localLevel p then s.refuse .localControl
  else if (s.port p).mode = .faulted then
    (s.modifyPort p (fun q => { q with mode := .closed, cause := none, unconfirmed := 0 })).replyPort p
  else s.refuse .wrongState

/-- ACK_FAULT (R146, R155). -/
def cmdAckFault (port : Byte) (s : State) : Reply := s.portCommand port s.ackFault

/-- LIST_PORT (R46). -/
def cmdListPort (port : Byte) (s : State) : Reply :=
  match portField port with
  | none => s.refuse .badArgument
  | some p => s.reply .ok (s.portBytes p)

/-- RELEASE_SERVICE (R105). -/
def cmdReleaseService (port : Byte) (s : State) : Reply :=
  match portField port with
  | none => s.refuse .badArgument
  | some p => if (s.port p).stop = .holding then (s.openStop p).settle.reply .ok [] else s.refuse .wrongState

end Sys2Proof.Machine
end

