-- ==== Sys2Proof/Machine/Bench.lean ====
section
/-! DEFINITION. Bench Control (chapter 10): the bench states, CONFIGURE and its effects, START, HALT, CLEAR_BENCH, the
hardware reset and its readings, READ_CONFIG and READ_STATUS. -/

namespace Sys2Proof.Machine

/-! ### CONFIGURE (R88, R139, R165, R168, R169) -/

/-- The bench state a CONFIGURE that is taken leaves (R167, R169). -/
def BenchState.afterConfigure : BenchState → BenchState
  | .unconfigured => .configured
  | .configured => .configured
  | .running => .running
  | .halted => .halted

/-- A record's divert attempts under a new limit (R88). -/
def limitAttempts (limit : Nat) : Option Record → Option Record
  | some (.source r) => some (.source { r with divertAttempts := min r.divertAttempts limit })
  | some (.order r) => some (.order r)
  | none => none

/-- The channel's current window restarts without a close (R165). -/
def ReaderRec.restartWindow (r : ReaderRec) : ReaderRec := { r with frames := 0, bad := 0 }

/-- Every channel's current window restarts. -/
def State.restartWindows (s : State) : State :=
  { s with
    scannerReader := s.scannerReader.restartWindow
    portReaders := #v[s.portReaders[0].restartWindow, s.portReaders[1].restartWindow, s.portReaders[2].restartWindow,
      s.portReaders[3].restartWindow] }

/-- A live CHILLED or FROZEN record is examined against the new figures, whole with all that follows, before the next record
is taken (R139): the selection at a presentation's end (R121), the close of a drained port (R150), the grant of a cancel
claim its expiry places (R38). -/
def State.examineWhole (s : State) (i : Slot) : State :=
  match s.record i with
  | none => s
  | some x => if x.tote.cls = .ambient then s else (s.examine i).settle

/-- The configuration replaced, the bench state moved, and what the new values do to records and windows as they stand:
attempts above a lowered limit come down to it (R88), and a changed window length restarts the windows (R165). -/
def State.reconfigured (s : State) (k : Configuration) : State :=
  let held := ({ s with config := k, bench := s.bench.afterConfigure } : State).mapSlots (limitAttempts k.divertLimit)
  if k.readerWindow = s.config.readerWindow then held else held.restartWindows

/-- The effects of a CONFIGURE that is taken (R169): the new values, then every live cold record examined in slot order
(R139). -/
def State.applyConfig (s : State) (k : Configuration) : State := allSlots.foldl State.examineWhole (s.reconfigured k)

/-- A bench command answered OK with the bench state as it stands after it (R167). -/
def State.replyBench (s : State) : Reply := s.reply .ok [s.bench.byte]

/-- CONFIGURE (R168, R169). -/
def cmdConfigure (args : ConfigArgs) (s : State) : Reply :=
  if s.bench = .running then s.reply .wrongState [s.bench.byte]
  else match configFirstBad args with
    | some index => s.reply .badArgument [byteOf index]
    | none => (s.applyConfig (configurationOf args)).replyBench

/-! ### START and HALT (R95, R171, R172) -/

/-- The bench becomes RUNNING. -/
def State.run (s : State) : State := { s with bench := .running }

/-- START (R171). -/
def cmdStart (s : State) : Reply :=
  match s.bench with
  | .unconfigured => s.refuse .notConfigured
  | .running => s.replyBench
  | .configured => (allPorts.foldl State.seatWaiting s.run).settle.replyBench
  | .halted => s.run.settle.replyBench

/-- HALT (R172). -/
def cmdHalt (s : State) : Reply :=
  match s.bench with
  | .running => ({ s with bench := .halted } : State).replyBench
  | .unconfigured => s.replyBench
  | .configured => s.replyBench
  | .halted => s.replyBench

/-! ### The readings after a reset or a bench clear (R124, R145) -/

/-- A pause switch found on is taken as a setting of the request (R124). -/
def State.readPause (s : State) (st : Station) : State := if s.pauseSwitch st then s.holdSet st else s

/-- A local-control line found asserted is taken as an assertion (R145). -/
def State.readLocal (s : State) (p : Port) : State := if s.localLevel p then s.takeLocalControl p else s

/-- The levels are read after a reset or a bench clear (R167, R173): the pause switches, A then B (R124), and the
local-control lines, port 0 to port 3 (R145). That every switch is read before every line, so that STATION_HELD joins the
queue ahead of PORT_FAULT, is the model's choice (log entry 10): no rule orders the two readings. -/
def State.readLevels (s : State) : State := (allPorts.foldl State.readLocal ((s.readPause .a).readPause .b)).settle

/-! ### CLEAR_BENCH (R173) -/

/-- A channel after a bench clear: its receiver is left as it stands (R164). -/
def ReaderRec.cleared (r : ReaderRec) : ReaderRec := { ReaderRec.reset with receiver := r.receiver }

/-- The bench emptied, before the levels are read (R173). -/
def State.emptied (s : State) : State :=
  { s with
    bench := .configured
    slots := State.reset.slots
    allocPtr := State.reset.allocPtr
    ports := State.reset.ports
    rotation := State.reset.rotation
    supply := { s.supply with waiting := [], pass := none }
    dupFilter := none
    stationA := StationRec.reset
    stationB := StationRec.reset
    scannerReader := s.scannerReader.cleared
    portReaders := #v[s.portReaders[0].cleared, s.portReaders[1].cleared, s.portReaders[2].cleared,
      s.portReaders[3].cleared] }

/-- CLEAR_BENCH (R173). -/
def cmdClearBench (s : State) : Reply :=
  match s.bench with
  | .unconfigured => s.refuse .notConfigured
  | .running => s.reply .wrongState [s.bench.byte]
  | .configured => s.emptied.readLevels.replyBench
  | .halted => s.emptied.readLevels.replyBench

/-! ### READ_CONFIG and READ_STATUS (R170, R177) -/

/-- READ_CONFIG (R170). -/
def cmdReadConfig (s : State) : Reply := s.reply .ok s.config.bytes

/-- READ_STATUS (R177). -/
def cmdReadStatus (s : State) : Reply := s.reply .ok s.statusBytes

/-! ### The hardware reset (R167) -/

/-- Every block at its reset values; the input lines keep the levels they are driven to, and the model's own counter of
backoff draws, queue of commands and number of a pass's frames are no part of the hardware (log entries 4, 7 and 14). -/
def State.afterReset (s : State) (held : Bool) : State :=
  { State.reset with
    resetHeld := held, inputs := s.inputs, draws := s.draws, meets := s.meets, pending := s.pending }

/-- HARDWARE_RESET (R167): while RESET_N is held asserted the readings wait for its release. -/
def execHardwareReset (held : Bool) (s : State) : Host.Outcome State Fault Refusal :=
  .next (if held then s.afterReset true else (s.afterReset false).readLevels)

/-- RESET_N_RELEASE (R124, R145, R167). -/
def execResetNRelease (s : State) : Host.Outcome State Fault Refusal :=
  .next (if s.resetHeld then (s.afterReset false).readLevels else s)

end Sys2Proof.Machine
end

