-- ==== Sys2Proof/Machine/CommandLink.lean ====
section
/-! DEFINITION. The Command Link Interface (R174 to R176, 12.2): frames, transactions, the checks of a request frame, and
the processing of a request from its acceptance to its response. -/

namespace Sys2Proof.Machine

/-! ### Response frames (R174, R187) -/

/-- A response frame: status, flags, result length, result, check. -/
def responseFrame (status : Status) (flags : Byte) (result : List Byte) : List Byte :=
  let covered := status.byte :: flags :: byteOf result.length :: result
  covered ++ [crc8 covered]

/-- The byte that MISO carries at the k-th byte clocked, from 0: the frame's, and 0x00 after its last (R174). -/
def Transaction.miso (t : Transaction) (k : Nat) : Byte := t.frame.getD k 0#8

/-- What is shifted out in a transaction that begins now (R174). -/
def State.shiftedOut (s : State) : Transaction :=
  match s.link.buffer with
  | some b =>
    { frame := responseFrame b.response.status (s.responseFlags b.discarded) b.response.result, fromBuffer := true }
  | none => { frame := responseFrame .notReady (s.responseFlags false) [], fromBuffer := false }

/-! ### Request frames (R175, R187) -/

/-- Lines as carried: target slot and quantity, in pairs. -/
def lineArgs : List Byte → List LineArg
  | target :: quantity :: rest => { target := target, quantity := quantity } :: lineArgs rest
  | _ => []

/-- The parameters of CONFIGURE as carried (R187). -/
def configArgs (a : List Byte) : ConfigArgs where
  chilledBudget := word16 a 0
  frozenBudget := word16 a 2
  warnPercent := byteAt a 4
  pipelineDepth := byteAt a 5
  divertLimit := byteAt a 6
  confirmWindow := byteAt a 7
  answerWindow := byteAt a 8
  attendanceWindow := byteAt a 9
  qualityThreshold := byteAt a 10
  readerWindow := word16 a 11
  readerBadLimit := byteAt a 13
  familyFilter := flags64 a 14
  openAcceptance := byteAt a 22
  strayPort := byteAt a 23
  servicePort := byteAt a 24

/-- A request of a fixed length, or BAD_LENGTH. -/
def ofLength (n : Nat) (a : List Byte) (r : Request) : Except Status Request :=
  if a.length = n then .ok r else .error .badLength

/-- SUBMIT_SOURCE: at least 9 bytes, 9 + 2k for the line count k they carry (R187). -/
def submitRequest (a : List Byte) : Except Status Request :=
  if 9 ≤ a.length ∧ a.length = 9 + 2 * (byteAt a 8).toNat then
    .ok (.submitSource (word32 a 0) (byteAt a 4) (word16 a 5) (byteAt a 7) (lineArgs (a.drop 9)))
  else .error .badLength

/-- AMEND_LINES: 3 + c + 2a bytes for the counts they carry (R187). -/
def amendRequest (a : List Byte) : Except Status Request :=
  let cancels := (byteAt a 1).toNat
  if 3 + cancels ≤ a.length ∧ a.length = 3 + cancels + 2 * (byteAt a (2 + cancels)).toNat then
    .ok (.amendLines (byteAt a 0) ((a.drop 2).take cancels) (lineArgs (a.drop (3 + cancels))))
  else .error .badLength

/-- The request a command code and its arguments carry: checks 3 and 4 of R175. -/
def parseRequest (code : Byte) (a : List Byte) : Except Status Request :=
  match code.toNat with
  | 0x01 => ofLength 25 a (.configure (configArgs a))
  | 0x02 => ofLength 0 a .start
  | 0x03 => ofLength 0 a .halt
  | 0x04 => ofLength 0 a .clearBench
  | 0x05 => ofLength 0 a .readConfig
  | 0x06 => ofLength 0 a .readStatus
  | 0x10 => submitRequest a
  | 0x11 => ofLength 8 a (.bindOrder (word32 a 0) (byteAt a 4) (word16 a 5) (byteAt a 7))
  | 0x12 => amendRequest a
  | 0x13 => ofLength 1 a (.withdraw (byteAt a 0))
  | 0x14 => ofLength 2 a (.closeOrder (byteAt a 0) (byteAt a 1))
  | 0x15 => ofLength 1 a (.readRecord (byteAt a 0))
  | 0x16 => ofLength 4 a (.findTote (word32 a 0))
  | 0x20 => ofLength 1 a (.openPort (byteAt a 0))
  | 0x21 => ofLength 1 a (.closePort (byteAt a 0))
  | 0x22 => ofLength 1 a (.ackFault (byteAt a 0))
  | 0x23 => ofLength 1 a (.listPort (byteAt a 0))
  | 0x24 => ofLength 1 a (.releaseService (byteAt a 0))
  | 0x30 => ofLength 1 a (.holdStation (byteAt a 0))
  | 0x31 => ofLength 1 a (.releaseHold (byteAt a 0))
  | 0x32 => ofLength 1 a (.resumeStation (byteAt a 0))
  | 0x40 => ofLength 1 a (.readNotices (byteAt a 0))
  | 0x41 => ofLength 0 a .readReaderStats
  | _ => .error .unknownCommand

/-- The bytes taken on MOSI hold a request: there is a first byte, and it is not 0 (R175). -/
def holdsRequest (mosi : List Byte) : Bool :=
  match mosi with
  | [] => false
  | first :: _ => decide (first ≠ 0#8)

/-- Checks 2 to 4 of R175 on the bytes of a request; bytes after its check byte are ignored. -/
def checkFrame (mosi : List Byte) : Except Status Request :=
  let n := (byteAt mosi 1).toNat
  if n ≤ 120 ∧ n + 3 ≤ mosi.length ∧ byteAt mosi (n + 2) = crc8 (mosi.take (n + 2)) then
    parseRequest (byteAt mosi 0) ((mosi.take (n + 2)).drop 2)
  else .error .frameError

/-- Lines as a request carries them. -/
def lineBytes (ls : List LineArg) : List Byte := ls.flatMap (fun l => [l.target, l.quantity])

/-- The 25 argument bytes of CONFIGURE (R187). -/
def configArgBytes (a : ConfigArgs) : List Byte :=
  bytes16 a.chilledBudget.toNat ++ bytes16 a.frozenBudget.toNat
    ++ [a.warnPercent, a.pipelineDepth, a.divertLimit, a.confirmWindow, a.answerWindow, a.attendanceWindow,
      a.qualityThreshold]
    ++ bytes16 a.readerWindow.toNat ++ [a.readerBadLimit] ++ bytesOfFlags a.familyFilter
    ++ [a.openAcceptance, a.strayPort, a.servicePort]

/-- The command code and the argument bytes of a request (R187). -/
def requestBody : Request → Byte × List Byte
  | .configure args => (0x01#8, configArgBytes args)
  | .start => (0x02#8, [])
  | .halt => (0x03#8, [])
  | .clearBench => (0x04#8, [])
  | .readConfig => (0x05#8, [])
  | .readStatus => (0x06#8, [])
  | .submitSource code cls exposure station lines =>
    (0x10#8, bytes32 code ++ [cls] ++ bytes16 exposure.toNat ++ [station, byteOf lines.length] ++ lineBytes lines)
  | .bindOrder code cls exposure position => (0x11#8, bytes32 code ++ [cls] ++ bytes16 exposure.toNat ++ [position])
  | .amendLines slot cancels adds =>
    (0x12#8, [slot, byteOf cancels.length] ++ cancels ++ [byteOf adds.length] ++ lineBytes adds)
  | .withdraw slot => (0x13#8, [slot])
  | .closeOrder slot force => (0x14#8, [slot, force])
  | .readRecord slot => (0x15#8, [slot])
  | .findTote code => (0x16#8, bytes32 code)
  | .openPort port => (0x20#8, [port])
  | .closePort port => (0x21#8, [port])
  | .ackFault port => (0x22#8, [port])
  | .listPort port => (0x23#8, [port])
  | .releaseService port => (0x24#8, [port])
  | .holdStation station => (0x30#8, [station])
  | .releaseHold station => (0x31#8, [station])
  | .resumeStation station => (0x32#8, [station])
  | .readNotices most => (0x40#8, [most])
  | .readReaderStats => (0x41#8, [])

/-- The frame of a command code and argument bytes (R175): code, length, arguments, check. -/
def requestFrame (code : Byte) (args : List Byte) : List Byte :=
  let covered := code :: byteOf args.length :: args
  covered ++ [crc8 covered]

/-! ### The processing of a request (R175, R176) -/

/-- A request acts by the rule of its command. -/
def act (r : Request) (s : State) : Reply :=
  match r with
  | .configure args => cmdConfigure args s
  | .start => cmdStart s
  | .halt => cmdHalt s
  | .clearBench => cmdClearBench s
  | .readConfig => cmdReadConfig s
  | .readStatus => cmdReadStatus s
  | .submitSource code cls exposure station lines => cmdSubmitSource code cls exposure station lines s
  | .bindOrder code cls exposure position => cmdBindOrder code cls exposure position s
  | .amendLines slot cancels adds => cmdAmendLines slot cancels adds s
  | .withdraw slot => cmdWithdraw slot s
  | .closeOrder slot force => cmdCloseOrder slot force s
  | .readRecord slot => cmdReadRecord slot s
  | .findTote code => cmdFindTote code s
  | .openPort port => cmdOpenPort port s
  | .closePort port => cmdClosePort port s
  | .ackFault port => cmdAckFault port s
  | .listPort port => cmdListPort port s
  | .releaseService port => cmdReleaseService port s
  | .holdStation station => cmdHoldStation station s
  | .releaseHold station => cmdReleaseHold station s
  | .resumeStation station => cmdResumeStation station s
  | .readNotices most => cmdReadNotices most s
  | .readReaderStats => cmdReadReaderStats s

/-- The request in hand takes a state. -/
def State.setWork (s : State) (w : Work) : State := s.setLink { s.link with work := w }

/-- A response is placed in the response buffer: processing ends, and the discard flag goes with the response (R176). -/
def State.placeResponse (s : State) (r : Response) : State :=
  s.setLink { s.link with
    work := .idle, buffer := some { response := r, discarded := s.link.discardFlag }, discardFlag := false }

/-- An unread response is dropped as a request is taken (R176); a transaction that shifts it out has then nothing left
in the buffer to read. -/
def State.dropUnread (s : State) : State :=
  s.setLink { s.link with
    buffer := none, transaction := s.link.transaction.map (fun t => { t with fromBuffer := false }) }

/-- A request that arrives during processing is discarded and counted (R176). -/
def State.discardRequest (s : State) : State :=
  s.setLink { s.link with discardCount := saturate 65535 s.link.discardCount, discardFlag := true }

/-- The request acts, and its response is to be placed. -/
def State.actOn (s : State) (r : Request) : State :=
  let out := act r s
  out.state.setWork (.answered out.response)

/-- A request row (log entry 1): a request dispatched by a transaction acts; with no request in hand the row is the
request's arrival, checks and action in one. A response that still waits is placed first, and the request then replaces
it (R176, either order); during the processing of another request it is discarded (R176). -/
def State.takeRequest (s : State) (r : Request) : State :=
  match s.link.work with
  | .idle => s.dropUnread.actOn r
  | .dispatched q => if q = r then s.actOn r else s.discardRequest
  | .answered waiting => (s.placeResponse waiting).dropUnread.actOn r

/-- A request frame at the rise of CS_N, by the order of R175. -/
def State.takeFrame (s : State) (mosi : List Byte) : State :=
  match s.link.work with
  | .idle =>
    match checkFrame mosi with
    | .error status => s.dropUnread.placeResponse { status := status, result := [] }
    | .ok r => s.dropUnread.setWork (.dispatched r)
  | .dispatched _ => s.discardRequest
  | .answered _ => s.discardRequest

/-- The read of R174 at the rise of CS_N: a response shifted out whole leaves the buffer. -/
def State.endTransaction (s : State) (t : Transaction) (clocked : Nat) : State :=
  s.setLink { s.link with
    transaction := none,
    buffer := if t.fromBuffer && decide (t.frame.length ≤ clocked) then none else s.link.buffer }

/-- CS_N_FALL (R174): a transaction begins, unless one is in progress. -/
def execCsNFall (s : State) : Host.Outcome State Fault Refusal :=
  .next (s.whenLive (fun s => match s.link.transaction with
    | some _ => s
    | none => s.setLink { s.link with transaction := some s.shiftedOut }))

/-- CS_N_RISE (R174, R175), with the whole bytes clocked, as taken on MOSI. -/
def execCsNRise (mosi : List Byte) (s : State) : Host.Outcome State Fault Refusal :=
  .next (s.whenLive (fun s => match s.link.transaction with
    | none => s
    | some t =>
      let read := s.endTransaction t mosi.length
      if holdsRequest mosi then read.takeFrame mosi else read))

/-- RESPONSE_PLACED (R176): the request in hand has acted, now if not before, and its response is placed. -/
def execResponsePlaced (s : State) : Host.Outcome State Fault Refusal :=
  .next (s.whenLive (fun s => match s.link.work with
    | .idle => s
    | .dispatched r => (act r s).state.placeResponse (act r s).response
    | .answered r => s.placeResponse r))

end Sys2Proof.Machine
end

