-- ==== Sys2Proof/Machine/Requests.lean ====
section
/-! DEFINITION. The meanings of the twenty-three request rows: each is the request taken by the Command Link Interface
(R176, log entry 1), whose effect and response its command's rule gives. -/

namespace Sys2Proof.Machine

/-- CONFIGURE (R168, R169). -/
def execConfigure (args : ConfigArgs) (s : State) : Host.Outcome State Fault Refusal :=
  .next (s.whenLive (fun s => s.takeRequest (.configure args)))

/-- START (R171). -/
def execStart (s : State) : Host.Outcome State Fault Refusal :=
  .next (s.whenLive (fun s => s.takeRequest .start))

/-- HALT (R172). -/
def execHalt (s : State) : Host.Outcome State Fault Refusal :=
  .next (s.whenLive (fun s => s.takeRequest .halt))

/-- CLEAR_BENCH (R173). -/
def execClearBench (s : State) : Host.Outcome State Fault Refusal :=
  .next (s.whenLive (fun s => s.takeRequest .clearBench))

/-- READ_CONFIG (R170). -/
def execReadConfig (s : State) : Host.Outcome State Fault Refusal :=
  .next (s.whenLive (fun s => s.takeRequest .readConfig))

/-- READ_STATUS (R177). -/
def execReadStatus (s : State) : Host.Outcome State Fault Refusal :=
  .next (s.whenLive (fun s => s.takeRequest .readStatus))

/-- SUBMIT_SOURCE (R12 to R14, R32, R33). -/
def execSubmitSource (code : Code) (cls : Byte) (exposure : BitVec 16) (station : Byte) (lines : List LineArg) (s : State) :
    Host.Outcome State Fault Refusal :=
  .next (s.whenLive (fun s => s.takeRequest (.submitSource code cls exposure station lines)))

/-- BIND_ORDER (R15). -/
def execBindOrder (code : Code) (cls : Byte) (exposure : BitVec 16) (position : Byte) (s : State) :
    Host.Outcome State Fault Refusal :=
  .next (s.whenLive (fun s => s.takeRequest (.bindOrder code cls exposure position)))

/-- AMEND_LINES (R16, R17). -/
def execAmendLines (slot : Byte) (cancels : List Byte) (adds : List LineArg) (s : State) :
    Host.Outcome State Fault Refusal :=
  .next (s.whenLive (fun s => s.takeRequest (.amendLines slot cancels adds)))

/-- WITHDRAW (R18, R19). -/
def execWithdraw (slot : Byte) (s : State) : Host.Outcome State Fault Refusal :=
  .next (s.whenLive (fun s => s.takeRequest (.withdraw slot)))

/-- CLOSE_ORDER (R21). -/
def execCloseOrder (slot : Byte) (force : Byte) (s : State) : Host.Outcome State Fault Refusal :=
  .next (s.whenLive (fun s => s.takeRequest (.closeOrder slot force)))

/-- READ_RECORD (R23). -/
def execReadRecord (slot : Byte) (s : State) : Host.Outcome State Fault Refusal :=
  .next (s.whenLive (fun s => s.takeRequest (.readRecord slot)))

/-- FIND_TOTE (R24). -/
def execFindTote (code : Code) (s : State) : Host.Outcome State Fault Refusal :=
  .next (s.whenLive (fun s => s.takeRequest (.findTote code)))

/-- OPEN_PORT (R147, R148). -/
def execOpenPort (port : Byte) (s : State) : Host.Outcome State Fault Refusal :=
  .next (s.whenLive (fun s => s.takeRequest (.openPort port)))

/-- CLOSE_PORT (R149, R150). -/
def execClosePort (port : Byte) (s : State) : Host.Outcome State Fault Refusal :=
  .next (s.whenLive (fun s => s.takeRequest (.closePort port)))

/-- ACK_FAULT (R155). -/
def execAckFault (port : Byte) (s : State) : Host.Outcome State Fault Refusal :=
  .next (s.whenLive (fun s => s.takeRequest (.ackFault port)))

/-- LIST_PORT (R46). -/
def execListPort (port : Byte) (s : State) : Host.Outcome State Fault Refusal :=
  .next (s.whenLive (fun s => s.takeRequest (.listPort port)))

/-- RELEASE_SERVICE (R105). -/
def execReleaseService (port : Byte) (s : State) : Host.Outcome State Fault Refusal :=
  .next (s.whenLive (fun s => s.takeRequest (.releaseService port)))

/-- HOLD_STATION (R128). -/
def execHoldStation (station : Byte) (s : State) : Host.Outcome State Fault Refusal :=
  .next (s.whenLive (fun s => s.takeRequest (.holdStation station)))

/-- RELEASE_HOLD (R128). -/
def execReleaseHold (station : Byte) (s : State) : Host.Outcome State Fault Refusal :=
  .next (s.whenLive (fun s => s.takeRequest (.releaseHold station)))

/-- RESUME_STATION (R127). -/
def execResumeStation (station : Byte) (s : State) : Host.Outcome State Fault Refusal :=
  .next (s.whenLive (fun s => s.takeRequest (.resumeStation station)))

/-- READ_NOTICES (R181). -/
def execReadNotices (most : Byte) (s : State) : Host.Outcome State Fault Refusal :=
  .next (s.whenLive (fun s => s.takeRequest (.readNotices most)))

/-- READ_READER_STATS (R166). -/
def execReadReaderStats (s : State) : Host.Outcome State Fault Refusal :=
  .next (s.whenLive (fun s => s.takeRequest .readReaderStats))

end Sys2Proof.Machine
end

