-- ==== Sys2Proof/Machine/Dispatch.lean ====
section
/-! DEFINITION. The dispatch of a command to its meaning: one arm per constructor of `Instr`. -/

namespace Sys2Proof.Machine

def exec (i : Instr) (s : State) : Host.Outcome State Fault Refusal :=
  match i with
  | .hardwareReset held => Sys2Proof.Machine.execHardwareReset held s
  | .csNFall => Sys2Proof.Machine.execCsNFall s
  | .csNRise mosi => Sys2Proof.Machine.execCsNRise mosi s
  | .responsePlaced => Sys2Proof.Machine.execResponsePlaced s
  | .configure args => Sys2Proof.Machine.execConfigure args s
  | .start => Sys2Proof.Machine.execStart s
  | .halt => Sys2Proof.Machine.execHalt s
  | .clearBench => Sys2Proof.Machine.execClearBench s
  | .readConfig => Sys2Proof.Machine.execReadConfig s
  | .readStatus => Sys2Proof.Machine.execReadStatus s
  | .submitSource code cls exposure station lines => Sys2Proof.Machine.execSubmitSource code cls exposure station lines s
  | .bindOrder code cls exposure position => Sys2Proof.Machine.execBindOrder code cls exposure position s
  | .amendLines slot cancels adds => Sys2Proof.Machine.execAmendLines slot cancels adds s
  | .withdraw slot => Sys2Proof.Machine.execWithdraw slot s
  | .closeOrder slot force => Sys2Proof.Machine.execCloseOrder slot force s
  | .readRecord slot => Sys2Proof.Machine.execReadRecord slot s
  | .findTote code => Sys2Proof.Machine.execFindTote code s
  | .openPort port => Sys2Proof.Machine.execOpenPort port s
  | .closePort port => Sys2Proof.Machine.execClosePort port s
  | .ackFault port => Sys2Proof.Machine.execAckFault port s
  | .listPort port => Sys2Proof.Machine.execListPort port s
  | .releaseService port => Sys2Proof.Machine.execReleaseService port s
  | .holdStation station => Sys2Proof.Machine.execHoldStation station s
  | .releaseHold station => Sys2Proof.Machine.execReleaseHold station s
  | .resumeStation station => Sys2Proof.Machine.execResumeStation station s
  | .readNotices most => Sys2Proof.Machine.execReadNotices most s
  | .readReaderStats => Sys2Proof.Machine.execReadReaderStats s
  | .supplyReadyRise => Sys2Proof.Machine.execSupplyReadyRise s
  | .supplyReadyFall => Sys2Proof.Machine.execSupplyReadyFall s
  | .accepted tag => Sys2Proof.Machine.execAccepted tag s
  | .refused tag reason => Sys2Proof.Machine.execRefused tag reason s
  | .released tag => Sys2Proof.Machine.execReleased tag s
  | .cancelResult tag outcome => Sys2Proof.Machine.execCancelResult tag outcome s
  | .taken tag => Sys2Proof.Machine.execTaken tag s
  | .badSupplyFrame bytes => Sys2Proof.Machine.execBadSupplyFrame bytes s
  | .supplyIdleGapTimeout bytes => Sys2Proof.Machine.execSupplyIdleGapTimeout bytes s
  | .callWindowExpiry slot => Sys2Proof.Machine.execCallWindowExpiry slot s
  | .cancelWindowExpiry slot => Sys2Proof.Machine.execCancelWindowExpiry slot s
  | .readerMarker channel => Sys2Proof.Machine.execReaderMarker channel s
  | .readerRuntTimeout channel => Sys2Proof.Machine.execReaderRuntTimeout channel s
  | .readerFrame channel bytes time => Sys2Proof.Machine.execReaderFrame channel bytes time s
  | .confirmWindowExpiry port => Sys2Proof.Machine.execConfirmWindowExpiry port s
  | .entryEvent port => Sys2Proof.Machine.execEntryEvent port s
  | .seatOn port => Sys2Proof.Machine.execSeatOn port s
  | .seatOff port => Sys2Proof.Machine.execSeatOff port s
  | .readWindowExpiry port => Sys2Proof.Machine.execReadWindowExpiry port s
  | .readerExitEvent port => Sys2Proof.Machine.execReaderExitEvent port s
  | .exitWindowExpiry port => Sys2Proof.Machine.execExitWindowExpiry port s
  | .localControlAssert port => Sys2Proof.Machine.execLocalControlAssert port s
  | .localControlDeassert port => Sys2Proof.Machine.execLocalControlDeassert port s
  | .presenceOff position => Sys2Proof.Machine.execPresenceOff position s
  | .presenceOn position => Sys2Proof.Machine.execPresenceOn position s
  | .putButton position => Sys2Proof.Machine.execPutButton position s
  | .shortButton station => Sys2Proof.Machine.execShortButton station s
  | .pauseSwitchChange station => Sys2Proof.Machine.execPauseSwitchChange station s
  | .attendanceWindowExpiry station => Sys2Proof.Machine.execAttendanceWindowExpiry station s
  | .exposureTick slot => Sys2Proof.Machine.execExposureTick slot s
  | .warnThresholdReached slot => Sys2Proof.Machine.execWarnThresholdReached slot s
  | .budgetReached slot => Sys2Proof.Machine.execBudgetReached slot s
  | .resetNRelease => Sys2Proof.Machine.execResetNRelease s
  | .readerStopBitError channel => Sys2Proof.Machine.execReaderStopBitError channel s
  | .supplyFrameTransmitted => Sys2Proof.Machine.execSupplyFrameTransmitted s

end Sys2Proof.Machine
end

