-- ==== Sys2Proof/Safety.lean ====
section
/-! DEFINITION. What a safe run of the VZ16 is: the laws that the spec says its blocks keep, as predicates on plain states,
and the words in which the statements about commands are made. No command faults: `Fault` has no constructor. -/

namespace Sys2Proof.Machine

/-! ### The laws of a state -/

/-- The law of a port's counts (R93, R94): occupancy plus reservation is at most 3. -/
abbrev LaneLaw (q : PortRec) : Prop := q.lane.length + q.reservation ≤ 3

/-- The law of a port's fault cause (R145): set exactly while the port is FAULTED. -/
abbrev CauseLaw (q : PortRec) : Prop := q.cause.isSome = true ↔ q.mode = .faulted

/-- The law of a station's hold (R125, R126, R129, R131): the hold-mode flag by the hold status, no presentation while HELD,
and the attendance window only with a presentation. -/
structure StationLaw (q : StationRec) : Prop where
  held : q.hold = .held → q.holdMode = true ∧ q.presentation = none
  running : q.hold = .running → q.holdMode = false
  pending : q.hold = .holdPending → q.holdMode = false
  step : ∀ u, q.hold = .step u → q.holdMode = true
  window : q.window.isSome = true → q.presentation.isSome = true

/-- The law of a reader channel (R158, R162): at most 5 bytes held, bad frames within the frames, frames below the window. -/
structure ReaderLaw (window : Nat) (q : ReaderRec) : Prop where
  bytes : ∀ bs, q.receiver = .receiving bs → bs.length ≤ 5
  bad : q.bad ≤ q.frames
  frames : q.frames < window

/-- The law of the configuration (R168): each numbered parameter within its valid values. -/
structure ConfigLaw (k : Configuration) : Prop where
  chilled : 60 ≤ k.chilledBudget ∧ k.chilledBudget ≤ 3600
  frozen : 30 ≤ k.frozenBudget ∧ k.frozenBudget ≤ 1800
  warn : 50 ≤ k.warnPercent ∧ k.warnPercent ≤ 95
  depth : 1 ≤ k.pipelineDepth ∧ k.pipelineDepth ≤ 6
  limit : 2 ≤ k.divertLimit ∧ k.divertLimit ≤ 12
  confirm : 2 ≤ k.confirmWindow ∧ k.confirmWindow ≤ 50
  answer : 5 ≤ k.answerWindow ∧ k.answerWindow ≤ 100
  attendance : 5 ≤ k.attendanceWindow ∧ k.attendanceWindow ≤ 120
  threshold : 1 ≤ k.qualityThreshold ∧ k.qualityThreshold ≤ 100
  reader : k.readerWindow = 64 ∨ k.readerWindow = 256
  badLimit : 1 ≤ k.readerBadLimit ∧ k.readerBadLimit ≤ 255

/-- The law of the counts that saturate and of the Notice Queue's room (R49, R50, R176, R178, R179). -/
structure CountLaw (s : State) : Prop where
  notices : s.notices.length ≤ 32
  overflow : s.overflow ≤ 255
  stale : s.supply.staleCount ≤ 65535
  bad : s.supply.badCount ≤ 65535
  discarded : s.link.discardCount ≤ 65535

/-- The law of tote codes (R2): each live record's code is one a record may hold, and no two hold the same. -/
structure CodeLaw (s : State) : Prop where
  legal : ∀ i x, s.record i = some x → recordCode x.tote.code = true
  unique : ∀ i j x y, s.record i = some x → s.record j = some y → x.tote.code = y.tote.code → i = j

/-- The law of a live record's counts (R8, R86, R133). -/
structure RecordLaw (limit : Nat) (x : Record) : Prop where
  exposure : x.tote.exposure ≤ 65535
  source : ∀ r, x = .source r →
    r.divertAttempts ≤ limit ∧ r.backoff ≤ 15 ∧ r.recycleCount ≤ 2 ∧ r.lines.length ≤ 8

/-- The law of put positions (R7): no two live orders hold one position. -/
def PositionLaw (s : State) : Prop :=
  ∀ i j o q, s.order i = some o → s.order j = some q → o.position = q.position → i = j

/-- The states in which a record stands in its port's lane list (R30, R93). -/
def SourceState.inLane : SourceState → Bool
  | .laned => true
  | .atStop => true
  | .ready => true
  | .presented => true
  | .releasing => true
  | _ => false

/-- The states in which a record stands in its port's queue view (R30). -/
def SourceState.inQueue : SourceState → Bool
  | .queued => true
  | .calling => true
  | .called => true
  | .cancelling => true
  | .inbound => true
  | .recycling => true
  | _ => false

/-- The law of the views of the rosters (R30, R85, R93): a slot in a lane list is a record of that port in a lane state, listed
once; a port's queue view holds exactly the records of that port in a queue state; and an armed slot is an INBOUND record
of the port. -/
structure ViewLaw (s : State) : Prop where
  lane : ∀ p i, LaneEntry.slot i ∈ (s.port p).lane → ∃ r, s.source i = some r ∧ r.port = p ∧ r.state.inLane = true
  once : ∀ p i, (s.port p).lane.count (.slot i) ≤ 1
  queue : ∀ p i, i ∈ (s.port p).queue ↔ ∃ r, s.source i = some r ∧ r.port = p ∧ r.state.inQueue = true
  arm : ∀ p i, (s.port p).arm.map Arm.item = some (.slot i) →
    ∃ r, s.source i = some r ∧ r.port = p ∧ r.state = .inbound

/-- The lane half of the law of the rosters (R30): a record in a lane state stands in its port's lane list. -/
def ListedLaw (s : State) : Prop :=
  ∀ i r, s.source i = some r → r.state.inLane = true → LaneEntry.slot i ∈ (s.port r.port).lane

/-- The law of the queue views' order (R31): a queue view lists a slot at most once. -/
def QueueOrderLaw (s : State) : Prop := ∀ p, (s.port p).queue.Nodup

/-- The state of a slot head's record at a stop (R93, R97). -/
def Stop.heads : Stop → SourceState → Bool
  | .vacant, st => decide (st = .laned)
  | .leaving, st => decide (st = .laned)
  | .reading _, st => decide (st = .atStop)
  | .verified, st => decide (st = .ready) || decide (st = .presented)
  | .openSeated, st => decide (st = .releasing)
  | .openClear _, st => decide (st = .releasing)
  | .holding, _ => false

/-- The law of the stops (R93, R97): a slot head's record is in the state its stop gives it, a record behind the head is
LANED, a stop that has no head is VACANT or LEAVING, one VERIFIED has a slot head, and one HOLDING a FOREIGN head, CAPTURED
or SERVICE. -/
structure StopLaw (s : State) : Prop where
  head : ∀ p i rest r, (s.port p).lane = .slot i :: rest → s.source i = some r → (s.port p).stop.heads r.state = true
  behind : ∀ p e rest i r, (s.port p).lane = e :: rest → LaneEntry.slot i ∈ rest → s.source i = some r → r.state = .laned
  empty : ∀ p, (s.port p).lane = [] → (s.port p).stop = .vacant ∨ (s.port p).stop = .leaving
  verified : ∀ p, (s.port p).stop = .verified → ∃ i rest, (s.port p).lane = .slot i :: rest
  holding : ∀ p, (s.port p).stop = .holding → ∃ reason c rest,
    (s.port p).lane = .foreign reason c :: rest ∧ (reason = .captured ∨ reason = .service)

/-- The law of the presentations (R111, R114): a station's presentation is a PRESENTED record, the head of the lane list of
its working port, a port of the station; a PRESENTED record is the presentation of its port's station; and a record in any
other state has no current line. -/
structure PresentationLaw (s : State) : Prop where
  shown : ∀ st i, (s.station st).presentation = some i → ∃ r rest, s.source i = some r ∧ r.state = .presented ∧
    portStation r.port = st ∧ (s.station st).workingPort = some r.port ∧ (s.port r.port).lane = .slot i :: rest
  only : ∀ i r, s.source i = some r → r.state = .presented → (s.station (portStation r.port)).presentation = some i
  current : ∀ i r, s.source i = some r → r.state ≠ .presented → r.current = none

/-- The law of the pick lines (R6 to R9): an OPEN or BLOCKED line targets a live order record of its record's station, BOUND
for OPEN and MISSING for BLOCKED; two lines that are not CANCELLED have different targets; a quantity is 1 to 99; and a
RETURNING record has no OPEN or BLOCKED line. -/
structure LineLaw (s : State) : Prop where
  served : ∀ i r l, s.source i = some r → l ∈ r.lines → l.pending = true →
    ∃ o, s.order l.target = some o ∧ positionStation o.position = portStation r.port ∧
      (l.state = .isOpen → o.state = .bound) ∧ (l.state = .blocked → o.state = .missing)
  distinct : ∀ i r (j k : Nat) l m, s.source i = some r → r.lines[j]? = some l → r.lines[k]? = some m →
    l.state ≠ .cancelled → m.state ≠ .cancelled → l.target = m.target → j = k
  quantity : ∀ i r l, s.source i = some r → l ∈ r.lines → 1 ≤ l.quantity ∧ l.quantity ≤ 99
  home : ∀ i r l, s.source i = some r → r.state = .returning → l ∈ r.lines → l.pending = false

/-- The laws all together: what a safe state keeps. -/
structure Safe (s : State) : Prop where
  lanes : ∀ p, LaneLaw (s.port p)
  causes : ∀ p, CauseLaw (s.port p)
  stations : ∀ st, StationLaw (s.station st)
  config : ConfigLaw s.config
  readers : ∀ c, ReaderLaw s.config.readerWindow (s.reader c)
  counts : CountLaw s
  codes : CodeLaw s
  positions : PositionLaw s
  views : ViewLaw s
  listed : ListedLaw s
  queues : QueueOrderLaw s
  stops : StopLaw s
  presentations : PresentationLaw s
  lines : LineLaw s
  records : ∀ i x, s.record i = some x → RecordLaw s.config.divertLimit x
  credits : s.creditsInUse ≤ 4
  rosters : ∀ p, s.rosterSize p ≤ 10

/-- One state follows another in a run. -/
def Follows (s t : State) : Prop := step s = .next t

/-- Runs of the block: commands taken one after another from the queue. -/
abbrev Runs : State → State → Prop := Relation.ReflTransGen Follows

/-! ### What a record keeps while it lives -/

/-- What a record's common fields keep (R3, R133): code and class, marks once set, and an exposure that does not fall and
stays within 65535. -/
structure ToteKeeps (t u : Tote) : Prop where
  code : u.code = t.code
  cls : u.cls = t.cls
  exposure : t.exposure ≤ u.exposure
  capped : t.exposure ≤ 65535 → u.exposure ≤ 65535
  warned : t.warned = true → u.warned = true
  expired : t.expired = true → u.expired = true

/-- What a record's lines keep (R8, R9): each its index, target and quantity, a line in a final state that state, and the
list its limit of 8. -/
structure LinesKeep (ls ms : List Line) : Prop where
  line : ∀ (k : Nat) (l : Line), ls[k]? = some l →
    ∃ m, ms[k]? = some m ∧ m.target = l.target ∧ m.quantity = l.quantity ∧ (l.pending = false → m.state = l.state)
  length : ls.length ≤ 8 → ms.length ≤ 8

/-- What a live record keeps (R3, R4, R7, R8): its kind, its common fields, its place, its withdraw mark and its lines. -/
inductive RecordKeeps : Record → Record → Prop where
  | source {r q : Source} : ToteKeeps r.tote q.tote → q.port = r.port → (r.withdraw = true → q.withdraw = true) →
      LinesKeep r.lines q.lines → RecordKeeps (.source r) (.source q)
  | order {r q : Order} : ToteKeeps r.tote q.tote → q.position = r.position → RecordKeeps (.order r) (.order q)

/-! ### The commands, by what they touch -/

/-- The requests that change the bench as a whole (R167) or create a record (R14, R15). -/
def shapingRequest : Request → Bool
  | .configure _ => true
  | .start => true
  | .halt => true
  | .clearBench => true
  | .submitSource _ _ _ _ _ => true
  | .bindOrder _ _ _ _ => true
  | _ => false

/-- A command that neither resets, nor shapes the bench or creates a record, nor places the response of a request that may
do so. -/
def plainCommand : Instr → Bool
  | .hardwareReset _ => false
  | .resetNRelease => false
  | .configure _ => false
  | .start => false
  | .halt => false
  | .clearBench => false
  | .submitSource _ _ _ _ _ => false
  | .bindOrder _ _ _ _ => false
  | .responsePlaced => false
  | _ => true

/-- A command that may change the bench state or the configuration (R167, R168): a reset, a bench command, or the placing
of a response. -/
def benchCommand : Instr → Bool
  | .hardwareReset _ => true
  | .resetNRelease => true
  | .configure _ => true
  | .start => true
  | .halt => true
  | .clearBench => true
  | .responsePlaced => true
  | _ => false

/-- The levels of the input lines after a command: one that is the change of a line's level sets that level, a change of a
pause switch puts it the other way, and no other command changes any. -/
def State.linesAfter (s : State) : Instr → Inputs
  | .supplyReadyRise => { s.inputs with supplyReady := true }
  | .supplyReadyFall => { s.inputs with supplyReady := false }
  | .seatOn p => { s.inputs with seat := s.inputs.seat.set p.val true }
  | .seatOff p => { s.inputs with seat := s.inputs.seat.set p.val false }
  | .localControlAssert p => { s.inputs with localControl := s.inputs.localControl.set p.val true }
  | .localControlDeassert p => { s.inputs with localControl := s.inputs.localControl.set p.val false }
  | .presenceOff u => { s.inputs with presence := s.inputs.presence.set u.val false }
  | .presenceOn u => { s.inputs with presence := s.inputs.presence.set u.val true }
  | .pauseSwitchChange .a => { s.inputs with pauseA := !s.inputs.pauseA }
  | .pauseSwitchChange .b => { s.inputs with pauseB := !s.inputs.pauseB }
  | _ => s.inputs

/-- The row of a request. -/
def requestRow : Request → Instr
  | .configure args => .configure args
  | .start => .start
  | .halt => .halt
  | .clearBench => .clearBench
  | .readConfig => .readConfig
  | .readStatus => .readStatus
  | .submitSource code cls exposure station lines => .submitSource code cls exposure station lines
  | .bindOrder code cls exposure position => .bindOrder code cls exposure position
  | .amendLines slot cancels adds => .amendLines slot cancels adds
  | .withdraw slot => .withdraw slot
  | .closeOrder slot force => .closeOrder slot force
  | .readRecord slot => .readRecord slot
  | .findTote code => .findTote code
  | .openPort port => .openPort port
  | .closePort port => .closePort port
  | .ackFault port => .ackFault port
  | .listPort port => .listPort port
  | .releaseService port => .releaseService port
  | .holdStation station => .holdStation station
  | .releaseHold station => .releaseHold station
  | .resumeStation station => .resumeStation station
  | .readNotices most => .readNotices most
  | .readReaderStats => .readReaderStats

/-! ### The words of the statements -/

/-- A request acts in state `t` when its row is taken in state `s`: RESET_N is not held, and either the request was
dispatched by its transaction, or no request is in hand and taking it drops an unread response (R176, log entry 1). -/
abbrev ActsIn (r : Request) (s t : State) : Prop :=
  s.resetHeld = false ∧ ((s.link.work = .dispatched r ∧ t = s) ∨ (s.link.work = .idle ∧ t = s.dropUnread))

/-- The state with a response to be placed. -/
def State.answered (s : State) (status : Status) (result : List Byte) : State :=
  s.setWork (.answered { status := status, result := result })

/-- A tag that names a slot's record under its present visit (R4). -/
abbrev Names (tag : Byte) (i : Slot) (r : Source) : Prop := tag.toNat = r.tag i

/-! ### The words of the record commands (chapter 1) -/

/-- A carried exposure is at or past the budget of a carried class (R12, R136). -/
abbrev Spent (k : Configuration) (cls : Byte) (exposure : BitVec 16) : Prop :=
  (cls = 1#8 ∧ k.chilledBudget * 10 ≤ exposure.toNat) ∨ (cls = 2#8 ∧ k.frozenBudget * 10 ≤ exposure.toNat)

/-- The warned mark that a carried class and exposure give (R3, R136). -/
def warnedBy (k : Configuration) (cls : Byte) (exposure : BitVec 16) : Bool :=
  (decide (cls = 1#8) && decide (k.chilledBudget * 10 * k.warnPercent / 100 ≤ exposure.toNat))
    || (decide (cls = 2#8) && decide (k.frozenBudget * 10 * k.warnPercent / 100 ≤ exposure.toNat))

/-- A line fails validation for a station (0 for A, 1 for B) beside targets already taken (R13): its target is no live,
non-EXPIRED order of the station, its quantity is 0 or above 99, or its target is taken. -/
def LineBad (s : State) (station : Nat) (taken : List Byte) (l : LineArg) : Prop :=
  (∀ i o, i.val = l.target.toNat → s.order i = some o → ¬ (o.position.val / 6 = station ∧ o.state ≠ .expired)) ∨
  l.quantity.toNat = 0 ∨ 99 < l.quantity.toNat ∨ l.target ∈ taken

/-- Line k of a list fails validation, compared with the targets taken before the list and the lines before it. -/
def LineBadAt (s : State) (station : Nat) (taken : List Byte) (lines : List LineArg) (k : Nat) : Prop :=
  ∃ l, lines[k]? = some l ∧ LineBad s station (taken ++ (lines.take k).map LineArg.target) l

/-- The line that a valid argument gives (R9, R14). -/
def lineGiven (s : State) (l : LineArg) : Line :=
  let i := Fin.ofNat 64 l.target.toNat
  { target := i, quantity := l.quantity.toNat,
    state := if (s.order i).map Order.state = some .missing then .blocked else .isOpen }

/-- Lines with every OPEN and BLOCKED one moved into a state. -/
def resolved (dest : LineState) (ls : List Line) : List Line :=
  ls.map (fun l => if l.state = .isOpen ∨ l.state = .blocked then { l with state := dest } else l)

/-- The slot is the first FREE one from the allocation pointer upward, wrapping (R1). -/
def FirstFree (s : State) (i : Slot) : Prop :=
  s.record i = none ∧ ∀ j, j - s.allocPtr < i - s.allocPtr → s.record j ≠ none

/-- The port is where a record of a station is placed (R32): OPEN with room, and ahead of the station's other such port by
roster size, then by number. -/
def Placed (s : State) (station : Nat) (p : Port) : Prop :=
  p.val / 2 = station ∧ (s.port p).mode = .isOpen ∧ s.rosterSize p < 10 ∧
  ∀ q : Port, q.val / 2 = station → (s.port q).mode = .isOpen → s.rosterSize q < 10 →
    s.rosterSize p < s.rosterSize q ∨ (s.rosterSize p = s.rosterSize q ∧ p ≤ q)

/-- The first of a list of refusals whose condition holds. -/
def FirstRefusal (checks : List (Status × Prop)) (status : Status) : Prop :=
  ∃ (k : Nat) (P : Prop), checks[k]? = some (status, P) ∧ P ∧
    ∀ j < k, ∀ (st : Status) (Q : Prop), checks[j]? = some (st, Q) → ¬ Q

/-- None of a list of refusals applies. -/
def NoRefusal (checks : List (Status × Prop)) : Prop := ∀ c ∈ checks, ¬ c.2

/-- The first seven checks of SUBMIT_SOURCE, in the order of R12. -/
def submitRefusals (s : State) (code : Code) (cls : Byte) (exposure : BitVec 16) (station : Byte) (lines : List LineArg) :
    List (Status × Prop) :=
  [(.notConfigured, s.bench = .unconfigured),
   (.badArgument, code = 0#32 ∨ code = 0xFFFFFFFF#32 ∨ 2 < cls.toNat ∨ 1 < station.toNat ∨ lines.length = 0 ∨
      8 < lines.length),
   (.duplicateCode, ∃ i x, s.record i = some x ∧ x.tote.code = code),
   (.exposureSpent, Spent s.config cls exposure),
   (.tableFull, ∀ i, s.record i ≠ none),
   (.noOpenPort, ∀ p : Port, p.val / 2 = station.toNat → (s.port p).mode ≠ .isOpen),
   (.rosterFull, ∀ p : Port, p.val / 2 = station.toNat → (s.port p).mode = .isOpen → 10 ≤ s.rosterSize p)]

/-- The checks of BIND_ORDER, in the order of R15. -/
def bindRefusals (s : State) (code : Code) (cls : Byte) (exposure : BitVec 16) (position : Byte) : List (Status × Prop) :=
  [(.notConfigured, s.bench = .unconfigured),
   (.badArgument, code = 0#32 ∨ code = 0xFFFFFFFF#32 ∨ 2 < cls.toNat ∨ 11 < position.toNat),
   (.duplicateCode, ∃ i x, s.record i = some x ∧ x.tote.code = code),
   (.exposureSpent, Spent s.config cls exposure),
   (.tableFull, ∀ i, s.record i ≠ none),
   (.positionOccupied, ∃ i o, s.order i = some o ∧ o.position.val = position.toNat),
   (.noToteAtPosition, ∀ u : Position, u.val = position.toNat → s.presenceLevel u = false)]

/-- The checks of AMEND_LINES on its record, in the order of R16. -/
def amendRefusals (r : Source) (cancels : List Byte) (adds : List LineArg) : List (Status × Prop) :=
  [(.alreadyLeaving, r.state = .releasing ∨ r.state = .returning ∨ r.state = .recycling ∨ r.withdraw = true ∨
      r.tote.expired = true),
   (.badArgument, (∃ k ∈ cancels, ∀ l, r.lines[k.toNat]? = some l → l.state ≠ .isOpen ∧ l.state ≠ .blocked) ∨
      ¬ cancels.Nodup ∨ 8 < r.lines.length + adds.length),
   (.lineInWork, r.state = .presented ∧ ∃ k ∈ cancels, r.current = some k.toNat)]

/-- The refusals of a command that names a slot of one kind (R11). -/
def slotRefusals (s : State) (slot : Byte) (kind : RecordKind) : List (Status × Prop) :=
  [(.notConfigured, s.bench = .unconfigured),
   (.badArgument, 63 < slot.toNat),
   (.noSuchRecord, ∀ i, i.val = slot.toNat → s.record i = none),
   (.badArgument, ∃ i x, i.val = slot.toNat ∧ s.record i = some x ∧ x.kind ≠ kind)]

/-- The lines of a record whose current one is DEFERRED under pass-through reason EXPIRED (R148, R152). -/
def currentDeferred (r : Source) : List Line :=
  if r.passThrough = some .expired then
    r.lines.mapIdx (fun k l =>
      if some k = r.current ∧ (l.state = .isOpen ∨ l.state = .blocked) then { l with state := .deferred } else l)
  else r.lines

/-- The withdraw mark and the expired mark are both clear. -/
abbrev Unmarked (r : Source) : Prop := r.withdraw = false ∧ r.tote.expired = false

/-! ### The words of the supply, loop and lane statements (chapters 3 to 5) -/

/-- The state with the supply receiver between frames. -/
def State.betweenFrames (s : State) : State := s.setSupply { s.supply with receiver := .hunting }

/-- A source record given its call back and its exposure started (R60, R64, R74). -/
def Source.found (r : Source) : Source :=
  { r with answerWindow := none, cancelHeld := false, requeue := false, tote := { r.tote with running := true } }

/-- A queue view with a slot moved to its tail. -/
def toTail (i : Slot) (q : List Slot) : List Slot := q.filter (fun j => decide (j ≠ i)) ++ [i]

/-- A queue view with a slot moved to its head. -/
def toHead (i : Slot) (q : List Slot) : List Slot := i :: q.filter (fun j => decide (j ≠ i))

/-- A record called in vain returns to QUEUED at the tail of its queue view, the attempt counted (R34, R58, R63). -/
def State.callAgain (s : State) (i : Slot) (r : Source) : State :=
  (s.putSource i { r with
    state := .queued, callAttempts := r.callAttempts + 1, answerWindow := none, cancelHeld := false,
    requeue := false }).setPort r.port { s.port r.port with queue := toTail i (s.port r.port).queue }

/-- The leaving cause of a marked record: WITHDRAWN under the withdraw mark, else EXPIRED. -/
def leavingBy (r : Source) : LeavingCause := if r.withdraw then .withdrawn else .expired

/-- The port accepts a divert (R84). -/
abbrev Accepts (q : PortRec) : Prop := (q.mode = .isOpen ∨ q.mode = .closing) ∧ q.lane.length < 3 ∧ q.arm = none

/-- A port's arm ended where it is armed with a slot's record. -/
def PortRec.unarmed (q : PortRec) (i : Slot) : PortRec :=
  { q with arm := if q.arm.map Arm.item = some (.slot i) then none else q.arm }

/-- A port whose divert is armed with an item. -/
def PortRec.armed (q : PortRec) (item : ArmItem) (window : Nat) : PortRec :=
  { q with arm := some { item := item, window := window } }

end Sys2Proof.Machine
end

