-- ==== Sys2Proof/Certificates/Slice0/Obligations.lean ====
section
/-! DEFINITION. The statements about the VZ16 to be proved, each a proposition. `ActsIn r s t` reads "the row of request r,
taken in state s, acts in state t", and `u.answered st res` is u with the response (st, res) to be placed. -/

section VZ16

open Sys2Proof Sys2Proof.Machine

/-! ### The block and its resets -/

/-- The command at the front of the queue acts on the state with the queue's rest; with none waiting the block idles, unless
a pass of the supply link goes on, which SupplyReadySendsWhatIsOwed states (the queue is the model's own: log entry 3). -/
def Obligations.StepRunsTheFrontCommand : Prop :=
  (∀ (c : Instr) (rest : List Instr) (s : State),
    step { s with pending := c :: rest } = exec c { s with pending := rest }) ∧
  (∀ s : State, s.pending = [] → (s.resetHeld = true ∨ s.supply.pass = none ∨ s.inputs.supplyReady = false) →
    step s = .next s)

/-- Every command answers a next state, in every state. -/
def Obligations.EveryCommandAnswersANextState : Prop := ∀ (c : Instr) (s : State), ∃ t, exec c s = .next t

/-- The values the rules give for a hardware reset (the input lines and the queue are not among them: log entry 4; the count
of read-request pulses is the model's own and begins at 0: log entry 16). -/
def Obligations.ResetGivesTheValuesOfTheRules : Prop :=
  let s := State.reset
  s.bench = .unconfigured ∧
  s.config = { chilledBudget := 900, frozenBudget := 300, warnPercent := 75, pipelineDepth := 4, divertLimit := 8,
               confirmWindow := 15, answerWindow := 20, attendanceWindow := 30, qualityThreshold := 40,
               readerWindow := 256, readerBadLimit := 16, familyFilter := 0#64, openAcceptance := false,
               strayPort := none, servicePort := none } ∧
  (∀ i, s.record i = none) ∧ s.allocPtr = 0 ∧ s.rotation = 3 ∧
  (∀ p, s.port p = { mode := .closed, cause := none, queue := [], lane := [], arm := none, unconfirmed := 0,
                     stop := .vacant, exitWindow := none, readPulses := 0 }) ∧
  (∀ st, s.station st = { presentation := none, workingPort := none, side := .right, hold := .running,
                          commandFlag := false, holdMode := false, attendance := .attended, window := none }) ∧
  (∀ c, s.reader c = { receiver := .hunting, frames := 0, bad := 0, lastBad := 0, windows := 0#8, status := .ok }) ∧
  s.supply = { sending := none, waiting := [], receiver := .hunting, staleCount := 0, badCount := 0, pass := none } ∧
  s.dupFilter = none ∧
  s.link = { transaction := none, work := .idle, buffer := none, discardFlag := false, discardCount := 0 } ∧
  s.notices = [] ∧ s.overflow = 0

/-- A hardware reset puts every block at its reset values, and the pause switches, A then B, and the local-control lines,
port 0 to port 3, are read: a switch that is on leaves its station HELD with STATION_HELD posted, a line that is asserted
its port FAULTED with cause OVERRIDE and PORT_FAULT posted. RESET_N held asserted leaves the readings to its release. The
levels of the input lines, the model's backoff counter, its queue and its number of a pass's frames stay (log entry 4).
That STATION_HELD stands ahead of PORT_FAULT is the model's choice (log entry 10). -/
def Obligations.ResetReadsTheLevels : Prop :=
  ∀ s : State,
    let at0 (held : Bool) : State :=
      { State.reset with
        resetHeld := held, inputs := s.inputs, draws := s.draws, meets := s.meets, pending := s.pending }
    let held (st : Station) : StationRec :=
      if s.pauseSwitch st then { StationRec.reset with hold := .held, holdMode := true } else StationRec.reset
    let faulted (p : Port) : PortRec :=
      if s.localLevel p then { PortRec.reset with mode := .faulted, cause := some .override } else PortRec.reset
    let read : State :=
      { at0 false with
        stationA := held .a, stationB := held .b,
        ports := #v[faulted 0, faulted 1, faulted 2, faulted 3],
        notices := ([Station.a, .b].filter s.pauseSwitch).map (fun st => Notice.stationHeld st .request)
          ++ (allPorts.filter s.localLevel).map (fun p => Notice.portFault p .override .override) }
    exec (.hardwareReset false) s = .next read ∧
    exec (.hardwareReset true) s = .next (at0 true) ∧
    (s.resetHeld = true → exec .resetNRelease s = .next read)

/-- While RESET_N is held asserted no command but its release or a reset changes anything, apart from the level that an
input line takes: a command that is the change of a line sets that line alone (R167; that the levels are followed is the
model's choice, log entry 4). -/
def Obligations.HeldResetTakesNoEvent : Prop :=
  ∀ (c : Instr) (s : State), s.resetHeld = true → (∀ held, c ≠ .hardwareReset held) → c ≠ .resetNRelease →
    exec c s = .next (s.setInputs (s.linesAfter c))

/-! ### The command link -/

/-- A transaction begins: the unread response's frame is chosen, or NOT_READY, with the flags as they stand. MISO carries the
frame's bytes, and 0x00 after its last. At its end without a request, a response whose every byte was shifted out leaves
the buffer, and one cut short stays unread (R174). -/
def Obligations.TransactionsShiftOutTheResponse : Prop :=
  ∀ s : State, s.resetHeld = false →
    let attn : Nat := if s.notices = [] then 0 else 1
    let lost : Nat := if s.overflow = 0 then 0 else 1
    let framed (status flags : Byte) (result : List Byte) : List Byte :=
      let covered := status :: flags :: byteOf result.length :: result
      covered ++ [crc8 covered]
    (∀ b, s.link.transaction = none → s.link.buffer = some b →
      exec .csNFall s = .next (s.setLink { s.link with transaction := some {
        frame := framed b.response.status.byte (byteOf ((if b.discarded then 1 else 0) + 2 * attn + 4 * lost))
          b.response.result,
        fromBuffer := true } })) ∧
    (s.link.transaction = none → s.link.buffer = none →
      exec .csNFall s = .next (s.setLink { s.link with transaction := some {
        frame := framed 2#8 (byteOf (2 * attn + 4 * lost)) [], fromBuffer := false } })) ∧
    (∀ (t : Transaction) (k : Nat), (∀ b, t.frame[k]? = some b → t.miso k = b) ∧
      (t.frame.length ≤ k → t.miso k = 0#8)) ∧
    (∀ (t : Transaction) (mosi : List Byte), s.link.transaction = some t → (mosi = [] ∨ mosi.head? = some 0#8) →
      (t.fromBuffer = true → t.frame.length ≤ mosi.length →
        exec (.csNRise mosi) s = .next (s.setLink { s.link with transaction := none, buffer := none })) ∧
      ((t.fromBuffer = false ∨ mosi.length < t.frame.length) →
        exec (.csNRise mosi) s = .next (s.setLink { s.link with transaction := none })))

/-- The rise of CS_N of a transaction that holds a request, in the order of R175: during processing the request is
discarded; an incomplete frame or a failed check is FRAME_ERROR; then UNKNOWN_COMMAND and BAD_LENGTH; otherwise the
request is dispatched. A request taken drops an unread response. -/
def Obligations.RequestFrameIsCheckedInOrder : Prop :=
  ∀ (mosi : List Byte) (tr : Transaction) (s : State),
    s.resetHeld = false → s.link.transaction = some tr → mosi ≠ [] → byteAt mosi 0 ≠ 0#8 →
    let n := (byteAt mosi 1).toNat
    let code := byteAt mosi 0
    let args := (mosi.take (n + 2)).drop 2
    let whole : Prop := n ≤ 120 ∧ n + 3 ≤ mosi.length ∧ byteAt mosi (n + 2) = crc8 (mosi.take (n + 2))
    let placed (status : Status) : State := s.setLink { s.link with
      transaction := none, work := .idle, discardFlag := false,
      buffer := some { response := { status := status, result := [] }, discarded := s.link.discardFlag } }
    (s.link.work ≠ .idle →
      exec (.csNRise mosi) s = .next (s.setLink { s.link with
        transaction := none,
        buffer := if tr.fromBuffer = true ∧ tr.frame.length ≤ mosi.length then none else s.link.buffer,
        discardCount := if s.link.discardCount < 65535 then s.link.discardCount + 1 else s.link.discardCount,
        discardFlag := true })) ∧
    (s.link.work = .idle → ¬ whole → exec (.csNRise mosi) s = .next (placed .frameError)) ∧
    (s.link.work = .idle → whole → (∀ r, (requestBody r).1 ≠ code) →
      exec (.csNRise mosi) s = .next (placed .unknownCommand)) ∧
    (s.link.work = .idle → whole → ∀ r, (requestBody r).1 = code →
      ((∀ q, requestBody q ≠ (code, args)) → exec (.csNRise mosi) s = .next (placed .badLength)) ∧
      (requestBody r = (code, args) →
        exec (.csNRise mosi) s = .next (s.setLink { s.link with
          transaction := none, buffer := none, work := .dispatched r })))

/-- The response of a request that has acted, or acts now, is placed with the discard flag, which it clears. A request that
arrives during the processing of another is discarded and counted, and sets the flag. RESP_RDY is asserted exactly while the
response buffer holds a response (R176). -/
def Obligations.OneRequestIsProcessedAtATime : Prop :=
  ∀ (s : State), s.resetHeld = false →
    (∀ r, s.link.work = .answered r →
      exec .responsePlaced s = .next (s.setLink { s.link with
        work := .idle, buffer := some { response := r, discarded := s.link.discardFlag }, discardFlag := false })) ∧
    (∀ r, s.link.work = .dispatched r →
      ∃ u, exec (requestRow r) s = .next u ∧
        (∃ resp, u.link.work = .answered resp) ∧ exec .responsePlaced s = exec .responsePlaced u) ∧
    (∀ q r, s.link.work = .dispatched q → q ≠ r →
      exec (requestRow r) s = .next (s.setLink { s.link with
        discardCount := (if s.link.discardCount < 65535 then s.link.discardCount + 1 else s.link.discardCount),
        discardFlag := true })) ∧
    (s.link.respReady = true ↔ s.link.buffer ≠ none)

/-- Every request whose list lengths fit a frame is read back from its frame, whatever bytes follow it. -/
def Obligations.RequestFramesDecodeToTheirRequest : Prop :=
  ∀ (r : Request) (after : List Byte),
    (∀ code cls exposure station lines, r = .submitSource code cls exposure station lines → submitFits lines = true) →
    (∀ slot cancels adds, r = .amendLines slot cancels adds → amendFits cancels adds = true) →
    checkFrame (requestFrame (requestBody r).1 (requestBody r).2 ++ after) = .ok r

/-- The CRC-8 of R185: the register starts at 0, takes each byte by its eight shifts, and agrees with the table of sixteen
entries taken four bits at a time. A command frame, a supply frame and a reader frame pass by it alike. -/
def Obligations.CrcFollowsItsDefinition : Prop :=
  let entry : List Byte := [0x00#8, 0x07#8, 0x0E#8, 0x09#8, 0x1C#8, 0x1B#8, 0x12#8, 0x15#8,
    0x38#8, 0x3F#8, 0x36#8, 0x31#8, 0x24#8, 0x23#8, 0x2A#8, 0x2D#8]
  let bit (c : Byte) : Byte := if c.msb then (c <<< 1) ^^^ 0x07#8 else c <<< 1
  let half (c : Byte) : Byte := (c <<< 4) ^^^ entry.getD (c.toNat / 16) 0#8
  crc8 [] = 0#8 ∧
  (∀ (bs : List Byte) (b : Byte),
    crc8 (bs ++ [b]) = bit (bit (bit (bit (bit (bit (bit (bit (crc8 bs ^^^ b)))))))) ∧
    crc8 (bs ++ [b]) = half (half (crc8 bs ^^^ b))) ∧
  crc8 [0x01#8] = 0x07#8 ∧
  crc8 [0x31#8, 0x32#8, 0x33#8, 0x34#8, 0x35#8, 0x36#8, 0x37#8, 0x38#8, 0x39#8] = 0xF4#8 ∧
  (∀ (code : Byte) (args : List Byte) (check : Byte), args.length ≤ 120 →
    let covered := code :: byteOf args.length :: args
    (checkFrame (covered ++ [check]) = .error .frameError ↔ check ≠ crc8 covered)) ∧
  (∀ (type length : Byte) (content : List Byte) (check : Byte) (m : DispatcherMessage),
    dispatcherMessage type content = some m →
    let covered := type :: length :: content
    (frameEvent (covered ++ [check]) = if check = crc8 covered then .message m else .bad)) ∧
  (∀ (threshold : Nat) (covered : List Byte) (check : Byte), covered.length = 5 →
    (classifyFrame threshold (covered ++ [check]) = .badCheck ↔ check ≠ crc8 covered))

/-! ### Bench commands and readings -/

/-- READ_CONFIG answers with the fifteen values held, in the form CONFIGURE takes them: byte for byte what a CONFIGURE that
was taken carried, and the reset values until then. -/
def Obligations.ConfigurationReadsBackAsTaken : Prop :=
  (∀ s t : State, ActsIn .readConfig s t → exec .readConfig s = .next (t.answered .ok
    (bytes16 t.config.chilledBudget ++ bytes16 t.config.frozenBudget
      ++ [byteOf t.config.warnPercent, byteOf t.config.pipelineDepth, byteOf t.config.divertLimit,
        byteOf t.config.confirmWindow, byteOf t.config.answerWindow, byteOf t.config.attendanceWindow,
        byteOf t.config.qualityThreshold]
      ++ bytes16 t.config.readerWindow ++ [byteOf t.config.readerBadLimit]
      ++ (List.range 8).map (fun k => t.config.familyFilter.extractLsb' (8 * k) 8)
      ++ [if t.config.openAcceptance then 1#8 else 0#8, (t.config.strayPort.map portByte).getD 0xFF#8,
        (t.config.servicePort.map portByte).getD 0xFF#8]))) ∧
  (∀ (a : ConfigArgs) (s t : State), configFirstBad a = none → s.config = configurationOf a → ActsIn .readConfig s t →
    exec .readConfig s = .next (t.answered .ok (configArgBytes a))) ∧
  (∀ s t : State, s.config = Configuration.reset → ActsIn .readConfig s t →
    exec .readConfig s = .next (t.answered .ok
      [0x03#8, 0x84#8, 0x01#8, 0x2C#8, 75#8, 4#8, 8#8, 15#8, 20#8, 30#8, 40#8, 1#8, 0#8, 16#8,
       0#8, 0#8, 0#8, 0#8, 0#8, 0#8, 0#8, 0#8, 0#8, 0xFF#8, 0xFF#8]))

/-- READ_STATUS answers with its fifty bytes as R189 lays them out, and READ_READER_STATS with its thirty; neither changes
anything. -/
def Obligations.StatusAndReaderStatsAreReported : Prop :=
  ∀ s t : State,
    let flag (b : Bool) : Byte := if b then 1#8 else 0#8
    let station (st : Station) : List Byte :=
      let r := t.station st
      [r.hold.byte,
       match r.hold with | .step .isOpen => 0#8 | .step .inUse => 1#8 | _ => 0xFF#8,
       flag r.holdMode, flag (r.hold = .held), flag r.commandFlag, flag (t.pauseSwitch st), r.attendance.byte,
       flag r.window.isSome, (r.workingPort.map portByte).getD 0xFF#8, r.side.byte,
       ((t.portLamp st).map portByte).getD 0xFF#8, ((t.putLamp st).map positionByte).getD 0xFF#8,
       byteOf ((t.display st).getD 0)]
    let port (p : Port) : List Byte := [(t.port p).mode.byte, ((t.port p).cause.map FaultCause.byte).getD 0xFF#8]
    let channel (c : Channel) : List Byte :=
      let r := t.reader c
      [byteOf r.frames, byteOf r.bad, byteOf (r.lastBad / 256), byteOf r.lastBad, r.windows, r.status.byte]
    (ActsIn .readStatus s t → exec .readStatus s = .next (t.answered .ok
      ([t.bench.byte, flag t.inputs.supplyReady, byteOf t.creditsInUse, byteOf t.freeSlots, byteOf t.notices.length]
        ++ station .a ++ station .b ++ port 0 ++ port 1 ++ port 2 ++ port 3
        ++ [(t.reader .scanner).status.byte, (t.reader (.port 0)).status.byte, (t.reader (.port 1)).status.byte,
          (t.reader (.port 2)).status.byte, (t.reader (.port 3)).status.byte]
        ++ bytes16 t.supply.staleCount ++ bytes16 t.supply.badCount ++ bytes16 t.link.discardCount))) ∧
    (ActsIn .readReaderStats s t → exec .readReaderStats s = .next (t.answered .ok
      (channel .scanner ++ channel (.port 0) ++ channel (.port 1) ++ channel (.port 2) ++ channel (.port 3))))

/-- LIST_PORT answers with the port as it stands, in the bytes of R188, and changes nothing. -/
def Obligations.ListPortReportsThePort : Prop :=
  ∀ (port : Byte) (s t : State), ActsIn (.listPort port) s t →
    (3 < port.toNat → exec (.listPort port) s = .next (t.answered .badArgument [])) ∧
    (∀ p : Port, p.val = port.toNat →
      let q := t.port p
      let member (i : Slot) : List Byte := [slotByte i, ((t.source i).map (fun r => r.state.byte)).getD 0xFF#8]
      let entry : LaneEntry → List Byte
        | .slot i => [0#8, slotByte i, 0#8, 0#8, 0#8, 0#8, 0xFF#8]
        | .unidentified => [1#8, 0xFF#8, 0#8, 0#8, 0#8, 0#8, 0xFF#8]
        | .foreign reason c => [2#8, 0xFF#8] ++ bytes32 c ++ [reason.byte]
      let others : List Slot := allSlots.filter (fun i => match t.source i with
        | some r => decide (r.port = p ∧ (r.state = .returning ∨ r.state = .missing))
        | none => false)
      exec (.listPort port) s = .next (t.answered .ok
        ([q.mode.byte, (q.cause.map FaultCause.byte).getD 0xFF#8, byteOf (t.rosterSize p), byteOf q.queue.length]
          ++ q.queue.flatMap member ++ [byteOf q.lane.length] ++ q.lane.flatMap entry
          ++ [byteOf others.length] ++ others.flatMap member
          ++ [byteOf q.lane.length, if q.arm = none then 0#8 else 1#8, byteOf q.unconfirmed])))

/-- READ_RECORD answers with the record as it stands, in the bytes of R188, and changes nothing. -/
def Obligations.ReadRecordReportsTheRecord : Prop :=
  ∀ (slot : Byte) (s t : State), ActsIn (.readRecord slot) s t →
    let bit (n : Nat) (b : Bool) : Nat := if b then n else 0
    let common (kind : Byte) (x : Record) (station state : Byte) (marks : Nat) : List Byte :=
      [kind] ++ bytes32 x.tote.code ++ [x.tote.cls.byte, station, state] ++ bytes16 x.tote.exposure ++ [byteOf marks]
    (63 < slot.toNat → exec (.readRecord slot) s = .next (t.answered .badArgument [])) ∧
    (∀ i : Slot, i.val = slot.toNat → t.record i = none →
      exec (.readRecord slot) s = .next (t.answered .noSuchRecord [])) ∧
    (∀ (i : Slot) (o : Order), i.val = slot.toNat → t.record i = some (.order o) →
      exec (.readRecord slot) s = .next (t.answered .ok
        (common 1#8 (.order o) (if o.position.val < 6 then 0#8 else 1#8) o.state.byte
            (bit 1 o.tote.warned + bit 2 o.tote.expired)
          ++ [positionByte o.position, byteOf (t.pendingCount i)]))) ∧
    (∀ (i : Slot) (r : Source), i.val = slot.toNat → t.record i = some (.source r) →
      exec (.readRecord slot) s = .next (t.answered .ok
        (common 0#8 (.source r) (if r.port.val < 2 then 0#8 else 1#8) r.state.byte
            (bit 1 r.tote.warned + bit 2 r.tote.expired + bit 4 r.withdraw + bit 8 r.requeue + bit 16 r.returnOwed)
          ++ [portByte r.port, byteOf r.visit.val, byteOf r.callAttempts, byteOf r.divertAttempts, byteOf r.backoff,
            byteOf r.recycleCount, (r.current.map byteOf).getD 0xFF#8, (r.passThrough.map PassReason.byte).getD 0xFF#8,
            (r.leaving.map LeavingCause.byte).getD 0xFF#8, byteOf r.lines.length]
          ++ r.lines.flatMap (fun l => [slotByte l.target, byteOf l.quantity, l.state.byte]))))

/-- FIND_TOTE answers for the one live record that holds the code (R24). -/
def Obligations.FindToteNamesTheLiveRecord : Prop :=
  ∀ (code : Code) (s t : State), ActsIn (.findTote code) s t →
    ((code = 0#32 ∨ code = 0xFFFFFFFF#32) → exec (.findTote code) s = .next (t.answered .badArgument [])) ∧
    (code ≠ 0#32 → code ≠ 0xFFFFFFFF#32 → (∀ i x, t.record i = some x → x.tote.code ≠ code) →
      exec (.findTote code) s = .next (t.answered .noSuchRecord [])) ∧
    (∀ i x, code ≠ 0#32 → code ≠ 0xFFFFFFFF#32 → t.record i = some x → x.tote.code = code →
      (∀ j y, t.record j = some y → y.tote.code = code → j = i) →
      exec (.findTote code) s = .next (t.answered .ok [slotByte i, x.kind.byte, x.state.byte]))

/-- CONFIGURE: refused in RUNNING with the bench state, refused at its first parameter outside its values with its index,
and otherwise taken: all fifteen values replaced, attempts above a lowered limit brought down to it, the reader windows
restarted when their length changes, every live CHILLED and FROZEN record examined in slot order, each whole with what
follows from it before the next, the bench CONFIGURED or still HALTED. -/
def Obligations.ConfigureReplacesTheConfiguration : Prop :=
  ∀ (a : ConfigArgs) (s t : State), ActsIn (.configure a) s t →
    let ok : List Bool :=
      [60 ≤ a.chilledBudget.toNat ∧ a.chilledBudget.toNat ≤ 3600, 30 ≤ a.frozenBudget.toNat ∧ a.frozenBudget.toNat ≤ 1800,
       50 ≤ a.warnPercent.toNat ∧ a.warnPercent.toNat ≤ 95, 1 ≤ a.pipelineDepth.toNat ∧ a.pipelineDepth.toNat ≤ 6,
       2 ≤ a.divertLimit.toNat ∧ a.divertLimit.toNat ≤ 12, 2 ≤ a.confirmWindow.toNat ∧ a.confirmWindow.toNat ≤ 50,
       5 ≤ a.answerWindow.toNat ∧ a.answerWindow.toNat ≤ 100, 5 ≤ a.attendanceWindow.toNat ∧ a.attendanceWindow.toNat ≤ 120,
       1 ≤ a.qualityThreshold.toNat ∧ a.qualityThreshold.toNat ≤ 100,
       a.readerWindow.toNat = 64 ∨ a.readerWindow.toNat = 256, 1 ≤ a.readerBadLimit.toNat, true,
       a.openAcceptance.toNat ≤ 1, a.strayPort.toNat ≤ 3 ∨ a.strayPort.toNat = 255,
       a.servicePort.toNat ≤ 3 ∨ a.servicePort.toNat = 255]
    let k : Configuration :=
      { chilledBudget := a.chilledBudget.toNat, frozenBudget := a.frozenBudget.toNat, warnPercent := a.warnPercent.toNat,
        pipelineDepth := a.pipelineDepth.toNat, divertLimit := a.divertLimit.toNat,
        confirmWindow := a.confirmWindow.toNat, answerWindow := a.answerWindow.toNat,
        attendanceWindow := a.attendanceWindow.toNat, qualityThreshold := a.qualityThreshold.toNat,
        readerWindow := a.readerWindow.toNat, readerBadLimit := a.readerBadLimit.toNat, familyFilter := a.familyFilter,
        openAcceptance := decide (a.openAcceptance = 1#8),
        strayPort := if a.strayPort = 255#8 then none else some (Fin.ofNat 4 a.strayPort.toNat),
        servicePort := if a.servicePort = 255#8 then none else some (Fin.ofNat 4 a.servicePort.toNat) }
    (t.bench = .running → exec (.configure a) s = .next (t.answered .wrongState [2#8])) ∧
    (∀ n, t.bench ≠ .running → ok[n]? = some false → (∀ m < n, ok[m]? = some true) →
      exec (.configure a) s = .next (t.answered .badArgument [byteOf (n + 1)])) ∧
    (t.bench ≠ .running → (∀ m < 15, ok[m]? = some true) →
      let v := t.reconfigured k
      let cold (w : State) (i : Slot) : Bool := match w.record i with
        | some x => x.tote.cls = .chilled ∨ x.tote.cls = .frozen
        | none => false
      let u := allSlots.foldl (fun w i => if cold w i then (w.examine i).settle else w) v
      exec (.configure a) s = .next (u.answered .ok [if t.bench = .halted then 3#8 else 1#8]) ∧
      v.config = k ∧ u.config = k ∧ u.bench = (if t.bench = .halted then .halted else .configured) ∧
      (∀ i, v.record i = match t.record i with
        | some (.source r) => some (.source { r with divertAttempts := min r.divertAttempts k.divertLimit })
        | other => other) ∧
      (∀ c, v.reader c = if k.readerWindow = t.config.readerWindow then t.reader c
        else { t.reader c with frames := 0, bad := 0 }) ∧
      (∀ p, v.port p = t.port p) ∧ (∀ st, v.station st = t.station st) ∧ v.supply = t.supply ∧ v.notices = t.notices)

/-- START is refused in UNCONFIGURED, changes nothing in RUNNING, and otherwise makes the bench RUNNING: from CONFIGURED each
seat found on is taken as a seat-on, and what stands is acted on, the call claims among it. HALT makes a RUNNING bench
HALTED, where no port holds a call claim, and otherwise changes nothing. -/
def Obligations.StartAndHaltMoveTheBench : Prop :=
  (∀ s t : State, ActsIn .start s t →
    (t.bench = .unconfigured → exec .start s = .next (t.answered .notConfigured [])) ∧
    (t.bench = .running → exec .start s = .next (t.answered .ok [2#8])) ∧
    (t.bench = .halted →
      exec .start s = .next (({ t with bench := .running } : State).settle.answered .ok [2#8])) ∧
    (t.bench = .configured →
      exec .start s = .next ((allPorts.foldl (fun (u : State) (p : Port) =>
        if (u.port p).stop = .vacant ∧ u.seatLevel p = true then u.seatHead p else u)
        { t with bench := .running }).settle.answered .ok [2#8]))) ∧
  (∀ s t : State, ActsIn .halt s t →
    (t.bench = .running →
      exec .halt s = .next (({ t with bench := .halted } : State).answered .ok [3#8]) ∧
      ∀ p, (({ t with bench := .halted } : State).answered .ok [3#8]).callClaim p = none) ∧
    (t.bench ≠ .running → exec .halt s = .next (t.answered .ok [t.bench.byte])))

/-- CLEAR_BENCH empties the bench and makes it CONFIGURED, and reads the pause switches and the local-control lines again;
what R173 keeps is kept. It is refused in UNCONFIGURED and in RUNNING. That STATION_HELD is posted ahead of PORT_FAULT is
the model's choice (log entry 10). -/
def Obligations.ClearBenchEmptiesTheBench : Prop :=
  ∀ s t : State, ActsIn .clearBench s t →
    (t.bench = .unconfigured → exec .clearBench s = .next (t.answered .notConfigured [])) ∧
    (t.bench = .running → exec .clearBench s = .next (t.answered .wrongState [2#8])) ∧
    (t.bench = .configured ∨ t.bench = .halted →
      let held (st : Station) : StationRec :=
        if t.pauseSwitch st then { StationRec.reset with hold := .held, holdMode := true } else StationRec.reset
      let faulted (p : Port) : PortRec :=
        if t.localLevel p then { PortRec.reset with mode := .faulted, cause := some .override } else PortRec.reset
      let fresh (c : Channel) : ReaderRec := { ReaderRec.reset with receiver := (t.reader c).receiver }
      let emptied : State :=
        { t with
          bench := .configured, slots := Vector.replicate 64 none, allocPtr := 0, rotation := 3,
          ports := #v[faulted 0, faulted 1, faulted 2, faulted 3], supply := { t.supply with waiting := [], pass := none },
          dupFilter := none, stationA := held .a, stationB := held .b, scannerReader := fresh .scanner,
          portReaders := #v[fresh (.port 0), fresh (.port 1), fresh (.port 2), fresh (.port 3)] }
      exec .clearBench s = .next
        ((([Station.a, .b].filter t.pauseSwitch).map (fun st => Notice.stationHeld st .request)
            ++ (allPorts.filter t.localLevel).map (fun p => Notice.portFault p .override .override)).foldl State.post emptied
          |>.answered .ok [1#8]))

/-! ### Record commands -/

/-- SUBMIT_SOURCE is refused by the first of its checks that applies, in the order of R12, the last with the reject mask of
R13; a refusal changes nothing. -/
def Obligations.SubmitSourceIsRefusedInOrder : Prop :=
  ∀ (code : Code) (cls : Byte) (exposure : BitVec 16) (station : Byte) (lines : List LineArg) (s t : State),
    ActsIn (.submitSource code cls exposure station lines) s t →
    let row := Instr.submitSource code cls exposure station lines
    (∀ status, FirstRefusal (submitRefusals t code cls exposure station lines) status →
      exec row s = .next (t.answered status [])) ∧
    (NoRefusal (submitRefusals t code cls exposure station lines) → (∃ k, LineBadAt t station.toNat [] lines k) →
      ∃ mask : Byte, exec row s = .next (t.answered .linesRejected [mask]) ∧
        ∀ k < 8, mask.getLsbD k = true ↔ LineBadAt t station.toNat [] lines k)

/-- SUBMIT_SOURCE that passes every check creates a QUEUED record in the first FREE slot, with the values of R3, R4 and R5,
at the port that placement chooses, at the tail of its queue view or, warned, ahead of every QUEUED record. -/
def Obligations.SubmitSourceCreatesAQueuedRecord : Prop :=
  ∀ (code : Code) (cls : Byte) (exposure : BitVec 16) (station : Byte) (lines : List LineArg) (c : ToteClass) (i : Slot)
    (p : Port) (s t : State),
    ActsIn (.submitSource code cls exposure station lines) s t →
    NoRefusal (submitRefusals t code cls exposure station lines) → (∀ k, ¬ LineBadAt t station.toNat [] lines k) →
    c.byte = cls → FirstFree t i → Placed t station.toNat p →
    let warned := warnedBy t.config cls exposure
    let r : Source :=
      { tote := { code := code, cls := c, exposure := exposure.toNat, running := false, warned := warned, expired := false },
        state := .queued, port := p, visit := 0, callAttempts := 0, divertAttempts := 0, backoff := 0, recycleCount := 0,
        lines := lines.map (lineGiven t), current := none, withdraw := false, requeue := false, returnOwed := false,
        passThrough := none, leaving := none, answerWindow := none, cancelHeld := false }
    let q := (t.port p).queue.filter (fun j => decide (j ≠ i))
    let waits (j : Slot) : Bool := match t.source j with | some x => decide (x.state ≠ .queued) | none => true
    let queue := if warned then q.takeWhile waits ++ [i] ++ q.dropWhile waits else q ++ [i]
    let u := ({ t.putSource i r with allocPtr := i + 1 } : State).setPort p { t.port p with queue := queue }
    exec (.submitSource code cls exposure station lines) s =
      .next (u.settle.answered .ok [slotByte i, portByte p, if warned then 1#8 else 0#8])

/-- BIND_ORDER is refused by the first of its checks that applies, in the order of R15, and otherwise creates a BOUND order
record in the first FREE slot, its exposure counting at once. -/
def Obligations.BindOrderCreatesABoundRecord : Prop :=
  ∀ (code : Code) (cls : Byte) (exposure : BitVec 16) (position : Byte) (s t : State),
    ActsIn (.bindOrder code cls exposure position) s t →
    let row := Instr.bindOrder code cls exposure position
    let warned := warnedBy t.config cls exposure
    (∀ status, FirstRefusal (bindRefusals t code cls exposure position) status →
      exec row s = .next (t.answered status [])) ∧
    (∀ (c : ToteClass) (u : Position) (i : Slot), NoRefusal (bindRefusals t code cls exposure position) → c.byte = cls →
      u.val = position.toNat → FirstFree t i →
      exec row s = .next ((({ t.putOrder i
        { tote := { code := code, cls := c, exposure := exposure.toNat, running := true, warned := warned,
                    expired := false },
          state := .bound, position := u } with allocPtr := i + 1 } : State)).answered .ok
        [slotByte i, if warned then 1#8 else 0#8]))

/-- AMEND_LINES is refused by the first of its checks that applies, in the order of R11 and R16, and is otherwise applied
whole: the named lines CANCELLED, the added ones appended. -/
def Obligations.AmendLinesIsAppliedWhole : Prop :=
  ∀ (slot : Byte) (cancels : List Byte) (adds : List LineArg) (s t : State), ActsIn (.amendLines slot cancels adds) s t →
    let row := Instr.amendLines slot cancels adds
    (∀ status, FirstRefusal (slotRefusals t slot .source) status → exec row s = .next (t.answered status [])) ∧
    (∀ (i : Slot) (r : Source), t.bench ≠ .unconfigured → i.val = slot.toNat → t.source i = some r →
      let station := r.port.val / 2
      let kept := r.lines.mapIdx (fun k l => if byteOf k ∈ cancels then { l with state := .cancelled } else l)
      let taken := (kept.filter (fun l => decide (l.state ≠ .cancelled))).map (fun l => slotByte l.target)
      (∀ status, FirstRefusal (amendRefusals r cancels adds) status → exec row s = .next (t.answered status [])) ∧
      (NoRefusal (amendRefusals r cancels adds) →
        ((∃ k, LineBadAt t station taken adds k) →
          ∃ mask : Byte, exec row s = .next (t.answered .linesRejected [mask]) ∧
            ∀ k < 8, mask.getLsbD k = true ↔ ∃ m, k = r.lines.length + m ∧ LineBadAt t station taken adds m) ∧
        ((∀ k, ¬ LineBadAt t station taken adds k) →
          let lines := kept ++ adds.map (lineGiven t)
          exec row s = .next ((t.putSource i { r with lines := lines }).answered .ok [byteOf lines.length]))))

/-- WITHDRAW: refused as R11 gives and for a record that is leaving; and in each other state, without marks, what R18 and R19
give, its OPEN and BLOCKED lines CANCELLED. -/
def Obligations.WithdrawActsByTheState : Prop :=
  ∀ (slot : Byte) (s t : State), ActsIn (.withdraw slot) s t →
    (∀ status, FirstRefusal (slotRefusals t slot .source) status →
      exec (.withdraw slot) s = .next (t.answered status [])) ∧
    (∀ (i : Slot) (r : Source), t.bench ≠ .unconfigured → i.val = slot.toNat → t.source i = some r →
      let w : Source := { r with lines := resolved .cancelled r.lines, withdraw := true }
      let taken (status : Status) (u : State) : Prop :=
        exec (.withdraw slot) s = .next (u.settle.answered status [])
      ((r.state = .releasing ∨ r.state = .returning) →
        exec (.withdraw slot) s = .next (t.answered .alreadyLeaving [])) ∧
      (Unmarked r →
        ((r.state = .queued ∨ r.state = .missing) → taken .ok ((t.putSource i w).retireSource i .withdrawn)) ∧
        ((r.state = .calling ∨ r.state = .called) → taken .inProgress (t.putSource i w)) ∧
        (r.state = .cancelling → taken .inProgress (t.putSource i { w with requeue := false })) ∧
        (r.state = .inbound → taken .inProgress ((t.putSource i w).enterReturning i .withdrawn)) ∧
        ((r.state = .laned ∨ r.state = .atStop) → taken .inProgress (t.putSource i { w with passThrough := some .withdrawn })) ∧
        (r.state = .ready → (t.port r.port).lane.head? = some (.slot i) →
          taken .inProgress ((t.putSource i { w with passThrough := some .withdrawn }).openStop r.port)) ∧
        (r.state = .presented →
          taken .inProgress
            ((t.putSource i { w with passThrough := some .withdrawn, current := none }).openStop r.port)) ∧
        (r.state = .recycling → taken .inProgress (t.putSource i { w with leaving := some .withdrawn }))) ∧
      (r.state ≠ .releasing → r.state ≠ .returning → r.tote.expired = false → r.withdraw = true →
        exec (.withdraw slot) s = .next (t.answered .inProgress [])) ∧
      (r.tote.expired = true →
        ((r.state = .queued ∨ r.state = .missing) → taken .ok (t.retireSource i .withdrawn)) ∧
        (r.state ≠ .queued → r.state ≠ .missing → r.state ≠ .releasing → r.state ≠ .returning → taken .inProgress t)))

/-- CLOSE_ORDER: refused as R11 and R21 give, without force while lines are pending; otherwise the pending lines are
ORPHANED, current lines are chosen again, and the order is retired with their number. -/
def Obligations.CloseOrderRetiresTheOrder : Prop :=
  ∀ (slot force : Byte) (s t : State), ActsIn (.closeOrder slot force) s t →
    let row := Instr.closeOrder slot force
    (t.bench = .unconfigured → exec row s = .next (t.answered .notConfigured [])) ∧
    (t.bench ≠ .unconfigured → (63 < slot.toNat ∨ 1 < force.toNat) → exec row s = .next (t.answered .badArgument [])) ∧
    (∀ i : Slot, t.bench ≠ .unconfigured → force.toNat ≤ 1 → i.val = slot.toNat →
      (t.record i = none → exec row s = .next (t.answered .noSuchRecord [])) ∧
      (∀ r, t.source i = some r → exec row s = .next (t.answered .badArgument [])) ∧
      (∀ o, t.order i = some o →
        let n := t.pendingCount i
        let orphaned := ((t.moveLinesFor i (fun l => decide (l.state = .isOpen ∨ l.state = .blocked)) .orphaned).refreshLine
          .a).refreshLine .b
        (0 < n → force = 0#8 → exec row s = .next (t.answered .linesPending [])) ∧
        ((n = 0 ∨ force = 1#8) → exec row s = .next
          ((orphaned.retireOrder i (if 0 < n then .closedForced else .closed) n).settle.answered .ok [])) ∧
        (∀ (u : State) (cause : RetireCause) (m : Nat), u.order i = some o → u.retireOrder i cause m =
          (u.post (.retiredOrder i o.tote.code o.position cause o.tote.exposure m)).setSlot i none)))

/-! ### Port and station commands -/

/-- OPEN_PORT opens a CLOSED or CLOSING port, reading a verified head again, changes nothing at an OPEN one and is refused at
a FAULTED one. CLOSE_PORT makes an OPEN port CLOSING, or CLOSED at once where it is drained, and changes nothing in the
other port states (R146 to R150). The new reading pulses the read-request output, which the model counts (log entry 16). -/
def Obligations.PortsOpenAndClose : Prop :=
  ∀ (port : Byte) (s t : State),
    let opens (u : State) (status : Status) (result : List Byte) : Prop :=
      ActsIn (.openPort port) s t → exec (.openPort port) s = .next (u.answered status result)
    let closes (u : State) (status : Status) (result : List Byte) : Prop :=
      ActsIn (.closePort port) s t → exec (.closePort port) s = .next (u.answered status result)
    (t.bench = .unconfigured → opens t .notConfigured [] ∧ closes t .notConfigured []) ∧
    (t.bench ≠ .unconfigured → 3 < port.toNat → opens t .badArgument [] ∧ closes t .badArgument []) ∧
    (∀ p : Port, t.bench ≠ .unconfigured → p.val = port.toNat →
      let opened := t.setPort p { t.port p with mode := .isOpen }
      let reading := t.setPort p
        { t.port p with mode := .isOpen, stop := .reading .first, readPulses := (t.port p).readPulses + 1 }
      let closing := (t.setPort p { t.port p with mode := .closing }).settle
      ((t.port p).mode = .isOpen → opens t .ok [1#8] ∧ closes closing .ok [(closing.port p).mode.byte]) ∧
      ((t.port p).mode ≠ .isOpen → closes t .ok [(t.port p).mode.byte]) ∧
      ((t.port p).mode = .faulted → opens t .faultActive []) ∧
      ((t.port p).mode = .closed ∨ (t.port p).mode = .closing →
        ((t.port p).stop ≠ .verified → opens opened.settle .ok [1#8]) ∧
        (∀ i r, (t.port p).stop = .verified → (t.port p).lane.head? = some (.slot i) → t.source i = some r →
          opens ((reading.putSource i { r with state := .atStop, current := none, lines := currentDeferred r
            }).endPresentationOf p i).settle .ok [1#8])))

/-- ACK_FAULT (R155): refused while the local-control line is asserted and at a port that is not FAULTED; otherwise the cause
becomes absent, the port CLOSED, and its unconfirmed count 0. -/
def Obligations.AckFaultClosesThePort : Prop :=
  ∀ (port : Byte) (s t : State), ActsIn (.ackFault port) s t →
    (t.bench = .unconfigured → exec (.ackFault port) s = .next (t.answered .notConfigured [])) ∧
    (t.bench ≠ .unconfigured → 3 < port.toNat → exec (.ackFault port) s = .next (t.answered .badArgument [])) ∧
    (∀ p : Port, t.bench ≠ .unconfigured → p.val = port.toNat →
      (t.localLevel p = true → exec (.ackFault port) s = .next (t.answered .localControl [])) ∧
      (t.localLevel p = false → (t.port p).mode ≠ .faulted → exec (.ackFault port) s = .next (t.answered .wrongState [])) ∧
      (t.localLevel p = false → (t.port p).mode = .faulted →
        exec (.ackFault port) s = .next
          ((t.setPort p { t.port p with mode := .closed, cause := none, unconfirmed := 0 }).answered .ok [0#8])))

/-- RELEASE_SERVICE opens a stop that is HOLDING, whose head is FOREIGN, and is refused otherwise (R105, R106). -/
def Obligations.ReleaseServiceOpensTheStop : Prop :=
  ∀ (port : Byte) (s t : State), ActsIn (.releaseService port) s t →
    (3 < port.toNat → exec (.releaseService port) s = .next (t.answered .badArgument [])) ∧
    (∀ p : Port, p.val = port.toNat →
      ((t.port p).stop ≠ .holding → exec (.releaseService port) s = .next (t.answered .wrongState [])) ∧
      (∀ reason c, (t.port p).stop = .holding → (t.port p).lane.head? = some (.foreign reason c) →
        exec (.releaseService port) s = .next
          ((t.setPort p { t.port p with stop := .openSeated, exitWindow := some 50 }).settle.answered .ok [])))

/-- HOLD_STATION and RELEASE_HOLD set and clear the command flag; the hold status follows the request (R124, R125, R128), an
entry to HELD posting STATION_HELD (R129). RESUME_STATION takes a HELD station to STEP with the step open while its request
is set and to RUNNING while it is clear, changes nothing in the other hold statuses, and what R112 allows is selected at
once (R127). -/
def Obligations.StationCommandsMoveTheHold : Prop :=
  (∀ (station : Byte) (flag : Bool) (s t : State),
    let row := if flag then Instr.holdStation station else Instr.releaseHold station
    ActsIn (if flag then .holdStation station else .releaseHold station) s t →
    (1 < station.toNat → exec row s = .next (t.answered .badArgument [])) ∧
    (∀ st : Station, stationByte st = station →
      let r := t.station st
      let answers (u : State) : Prop := exec row s = .next (u.settle.answered .ok [(u.settle.station st).hold.byte])
      let set (hold : HoldStatus) (mode : Bool) : State :=
        t.setStation st { r with commandFlag := flag, hold := hold, holdMode := mode }
      (flag = true → r.commandFlag = false → t.pauseSwitch st = false → r.hold = .running → r.presentation = none →
        answers ((set .held true).post (.stationHeld st .request))) ∧
      (flag = true → r.commandFlag = false → t.pauseSwitch st = false → r.hold = .running → r.presentation ≠ none →
        answers (set .holdPending r.holdMode)) ∧
      (flag = false → r.commandFlag = true → t.pauseSwitch st = false → r.hold = .holdPending →
        answers (set .running false)) ∧
      ((r.commandFlag = flag ∨ t.pauseSwitch st = true ∨ r.hold = .held ∨ (∃ u, r.hold = .step u) ∨
          (flag = true ∧ r.hold = .holdPending) ∨ (flag = false ∧ r.hold = .running)) →
        answers (set r.hold r.holdMode)))) ∧
  (∀ (station : Byte) (s t : State), ActsIn (.resumeStation station) s t →
    (1 < station.toNat → exec (.resumeStation station) s = .next (t.answered .badArgument [])) ∧
    (∀ st : Station, stationByte st = station →
      let r := t.station st
      let request := r.commandFlag || t.pauseSwitch st
      let answers (u : State) : Prop :=
        exec (.resumeStation station) s = .next (u.settle.answered .ok [(u.settle.station st).hold.byte])
      (r.hold = .held → request = true → answers (t.setStation st { r with hold := .step .isOpen })) ∧
      (r.hold = .held → request = false → answers (t.setStation st { r with hold := .running, holdMode := false })) ∧
      (r.hold ≠ .held → answers t)))

/-- The views of the rosters are kept along every run: a slot in a lane list is a record of that port in a lane state, listed
once, a queue view holds exactly the records of its port in a queue state, each once, and an armed slot is an INBOUND record
of the port (R30, R31, R85, R93). With the laws of the stops and the presentations, a record in a lane state stands in its
port's lane list: a lane list holds exactly the records of its port in a lane state (R30, R93). -/
def Obligations.TheRosterViewsKeepTheirLaw : Prop :=
  ∀ s t : State, Runs s t →
    (ViewLaw s → ViewLaw t) ∧
    (QueueOrderLaw s → QueueOrderLaw t) ∧
    (ViewLaw s → ListedLaw s → StopLaw s → PresentationLaw s → ListedLaw t)

/-- READ_NOTICES (R181): the oldest notices, up to the number asked for, leave the queue for the response, which reports the
overflow count and clears it; ATTN falls when the queue is emptied; 0 or above 4 is refused. Each notice takes the bytes of
R189 with the fields of R184, its numbers those of R186. -/
def Obligations.ReadNoticesTakesTheOldest : Prop :=
  (∀ (most : Byte) (s t : State), ActsIn (.readNotices most) s t →
    ((most.toNat = 0 ∨ 4 < most.toNat) → exec (.readNotices most) s = .next (t.answered .badArgument [])) ∧
    (1 ≤ most.toNat → most.toNat ≤ 4 →
      let n := min most.toNat t.notices.length
      exec (.readNotices most) s = .next
        (({ t with notices := t.notices.drop n, overflow := 0 } : State).answered .ok
          ([byteOf n, byteOf (t.notices.length - n), byteOf t.overflow] ++ (t.notices.take n).flatMap Notice.bytes)) ∧
      (({ t with notices := t.notices.drop n, overflow := 0 } : State).attn = true ↔ n < t.notices.length))) ∧
  (let two (n : Nat) : List Byte := [byteOf (n / 256), byteOf n]
   let laid (kind slot : Byte) (c : Code) (place : List Byte) (detail : Byte) (extras : List Nat)
      (outcomes : List LineOutcome) : List Byte :=
     [kind, slot, c.extractLsb' 24 8, c.extractLsb' 16 8, c.extractLsb' 8 8, c.extractLsb' 0 8] ++ place ++ [detail]
       ++ [byteOf extras.length] ++ extras.flatMap two
       ++ [byteOf outcomes.length] ++ outcomes.flatMap (fun l => [l.state.byte, byteOf l.target.val, byteOf l.quantity])
   let absent : Byte := 0xFF#8
   let none_ : Code := 0#32
   let atPort (p : Port) : List Byte := [1#8, byteOf p.val]
   let atStation (st : Station) : List Byte := [2#8, if st = .a then 0#8 else 1#8]
   let atPosition (u : Position) : List Byte := [4#8, byteOf u.val]
   let half (n m : Nat) : Nat := if n < m then 0 else 1
   let cls : ToteClass → Nat
     | .ambient => 0
     | .chilled => 1
     | .frozen => 2
   let retire : RetireCause → Byte
     | .complete => 0#8
     | .withdrawn => 1#8
     | .expired => 2#8
     | .callFailed => 3#8
     | .divertExhausted => 4#8
     | .closed => 5#8
     | .closedForced => 6#8
   let fault : FaultCause → Nat
     | .override => 0
     | .divert => 1
     | .stopJam => 2
     | .overfill => 3
   let lost : LostDetail → Byte
     | .sighted => 0#8
     | .seatLost => 1#8
     | .exitUnreleased => 2#8
     | .override => 3#8
   let heldBy : HeldDetail → Byte
     | .request => 0#8
     | .pendingDone => 1#8
     | .stepDone => 2#8
   ∀ (i : Slot) (c : Code) (p q : Port) (u : Position) (st : Station) (n m k : Nat),
    (∀ cause outcomes, (Notice.retiredSource i c p cause n outcomes).bytes =
      laid 1#8 (byteOf i.val) c (atPort p) (retire cause) [0, half p.val 2, n] outcomes) ∧
    (∀ cause, (Notice.retiredOrder i c u cause n m).bytes =
      laid 1#8 (byteOf i.val) c (atPosition u) (retire cause) [1, half u.val 6, n, m] []) ∧
    (∀ cl, (Notice.warned i c (.port p) cl n m).bytes = laid 2#8 (byteOf i.val) c (atPort p) absent [0, cls cl, n, m] [] ∧
      (Notice.warned i c (.position u) cl n m).bytes =
        laid 2#8 (byteOf i.val) c (atPosition u) absent [1, cls cl, n, m] []) ∧
    (∀ cl state, (Notice.expired i c (.port p) state cl n m).bytes =
        laid 3#8 (byteOf i.val) c (atPort p) state.byte [0, cls cl, n, m] [] ∧
      (Notice.expired i c (.position u) state cl n m).bytes =
        laid 3#8 (byteOf i.val) c (atPosition u) state.byte [1, cls cl, n, m] []) ∧
    (∀ final, (Notice.divertExhausted i c p final n).bytes =
      laid 4#8 (byteOf i.val) c (atPort p) (if final then 1#8 else 0#8) [n] []) ∧
    (Notice.unconfirmedSlot i c p n).bytes = laid 5#8 (byteOf i.val) c (atPort p) absent [n] [] ∧
    (Notice.unconfirmedForeign c p .service n).bytes = laid 5#8 absent c (atPort p) 0#8 [n] [] ∧
    (Notice.unconfirmedForeign c p .captured n).bytes = laid 5#8 absent c (atPort p) 1#8 [n] [] ∧
    (∀ atStop,
      let origin : Nat := if atStop then 1 else 0
      (Notice.stray (some i) c (some p) atStop).bytes = laid 6#8 (byteOf i.val) c (atPort p) 0#8 [origin] [] ∧
      (Notice.stray (some i) c none atStop).bytes = laid 6#8 (byteOf i.val) c [0#8, absent] 0#8 [origin] [] ∧
      (Notice.stray none c (some p) atStop).bytes = laid 6#8 absent c (atPort p) 1#8 [origin] [] ∧
      (Notice.stray none c none atStop).bytes = laid 6#8 absent c [0#8, absent] 1#8 [origin] []) ∧
    (∀ detail, (Notice.presentLost i c p detail).bytes = laid 7#8 (byteOf i.val) c (atPort p) (lost detail) [] []) ∧
    (Notice.presentRegained i c p .sighted).bytes = laid 8#8 (byteOf i.val) c (atPort p) 0#8 [] [] ∧
    (Notice.presentRegained i c p .atStop).bytes = laid 8#8 (byteOf i.val) c (atPort p) 1#8 [] [] ∧
    (Notice.verifyFailed (some (i, c)) p).bytes = laid 9#8 (byteOf i.val) c (atPort p) absent [] [] ∧
    (Notice.verifyFailed none p).bytes = laid 9#8 absent none_ (atPort p) absent [] [] ∧
    (Notice.misrouted i c p q).bytes = laid 10#8 (byteOf i.val) c (atPort p) absent [q.val] [] ∧
    (Notice.orderMissing i c u).bytes = laid 11#8 (byteOf i.val) c (atPosition u) absent [] [] ∧
    (Notice.orderRestored i c u).bytes = laid 12#8 (byteOf i.val) c (atPosition u) absent [] [] ∧
    (Notice.wrongPut (some i) st u).bytes = laid 13#8 (byteOf i.val) none_ (atStation st) 0#8 [u.val] [] ∧
    (Notice.wrongPut none st u).bytes = laid 13#8 absent none_ (atStation st) 1#8 [u.val] [] ∧
    (∀ raised kept, (Notice.portFault p raised kept).bytes =
      laid 14#8 absent none_ (atPort p) (byteOf (fault raised)) [fault kept] []) ∧
    (Notice.portClosed p).bytes = laid 15#8 absent none_ (atPort p) absent [] [] ∧
    (∀ detail, (Notice.stationHeld st detail).bytes = laid 16#8 absent none_ (atStation st) (heldBy detail) [] []) ∧
    (Notice.stationUnattended i st).bytes = laid 17#8 (byteOf i.val) none_ (atStation st) absent [] [] ∧
    (∀ (channel : Channel),
      let place : List Byte := [3#8, match channel with
        | .scanner => 0#8
        | .port x => byteOf (x.val + 1)]
      (Notice.readerDegraded channel n m k).bytes = laid 18#8 absent none_ place absent [n, m, k] [] ∧
      (Notice.readerRecovered channel n m k).bytes = laid 19#8 absent none_ place absent [n, m, k] []))

/-! ### The supply link -/

/-- ACCEPTED and REFUSED for the CALLING record they name. ACCEPTED makes an unmarked record CALLED and has a marked one
cancelled at once, its CANCEL held while SUPPLY_READY is deasserted. REFUSED retires a marked record, one refused as an
unknown tote and one at its third attempt, and otherwise returns the record to the tail of its queue view. A message row
leaves the supply receiver between frames, whatever it held: the model's choice, log entry 18. -/
def Obligations.CallAnswersEndTheCall : Prop :=
  ∀ (tag : Byte) (i : Slot) (r : Source) (s : State),
    s.resetHeld = false → s.source i = some r → Names tag i r → r.state = .calling →
    let t := s.betweenFrames
    let w : Source := { r with state := .cancelling, requeue := false }
    (Unmarked r → exec (.accepted tag) s =
      .next (t.putSource i { r with state := .called, answerWindow := none }).settle) ∧
    (¬ Unmarked r → s.inputs.supplyReady = true → exec (.accepted tag) s =
      .next ((t.putSource i { w with answerWindow := some s.config.answerWindow, cancelHeld := false }).transmit
        (.cancel tag.toNat)).settle) ∧
    (¬ Unmarked r → s.inputs.supplyReady = false → exec (.accepted tag) s =
      .next (t.putSource i { w with answerWindow := none, cancelHeld := true }).settle) ∧
    (∀ reason : RefuseReason,
      (r.withdraw = true → exec (.refused tag reason) s = .next (t.retireSource i .withdrawn).settle) ∧
      (r.withdraw = false → r.tote.expired = true →
        exec (.refused tag reason) s = .next (t.retireSource i .expired).settle) ∧
      (Unmarked r → (reason = .unknownTote ∨ 2 ≤ r.callAttempts) →
        exec (.refused tag reason) s = .next (t.retireSource i .callFailed).settle) ∧
      (Unmarked r → reason ≠ .unknownTote → r.callAttempts < 2 →
        exec (.refused tag reason) s = .next (t.callAgain i r).settle))

/-- RELEASED for a CALLING or CALLED record, and CANCEL_RESULT for a CANCELLING record whose CANCEL is sent. A tote let out
counts its exposure and is INBOUND in its place, or goes home under a mark; a call cancelled, or unknown to the
dispatcher, ends as a refused one. A message row leaves the supply receiver between frames: the model's choice, log
entry 18. -/
def Obligations.ReleasesAndCancelResultsMoveTheRecord : Prop :=
  ∀ (tag : Byte) (i : Slot) (r : Source) (s : State), s.resetHeld = false → s.source i = some r → Names tag i r →
    let t := s.betweenFrames
    let letOut (c : Instr) : Prop :=
      (Unmarked r → exec c s = .next (t.putSource i { r.found with state := .inbound }).settle) ∧
      (¬ Unmarked r → exec c s = .next ((t.putSource i r.found).enterReturning i (leavingBy r)).settle)
    ((r.state = .calling ∨ r.state = .called) → letOut (.released tag)) ∧
    (r.state = .cancelling → r.cancelHeld = false →
      letOut (.cancelResult tag .tooLate) ∧
      ∀ outcome : CancelOutcome, outcome ≠ .tooLate →
        (r.withdraw = true → exec (.cancelResult tag outcome) s = .next (t.retireSource i .withdrawn).settle) ∧
        (r.withdraw = false → r.tote.expired = true →
          exec (.cancelResult tag outcome) s = .next (t.retireSource i .expired).settle) ∧
        (Unmarked r → 2 ≤ r.callAttempts →
          exec (.cancelResult tag outcome) s = .next (t.retireSource i .callFailed).settle) ∧
        (Unmarked r → r.callAttempts < 2 → exec (.cancelResult tag outcome) s = .next (t.callAgain i r).settle))

/-- TAKEN retires a RETURNING record with its leaving cause and a marked RECYCLING one by its mark; an unmarked RECYCLING
record is QUEUED again, its exposure stopped, at the tail of its queue view or, warned, ahead of the QUEUED records. A
message row leaves the supply receiver between frames: the model's choice, log entry 18. -/
def Obligations.TakenEndsTheReturn : Prop :=
  ∀ (tag : Byte) (i : Slot) (r : Source) (s : State), s.resetHeld = false → s.source i = some r → Names tag i r →
    let t := s.betweenFrames
    let retires (cause : RetireCause) : Prop := exec (.taken tag) s = .next (t.retireSource i cause).settle
    let back : Source :=
      { r with
        state := .queued, divertAttempts := 0, backoff := 0, returnOwed := false,
        tote := { r.tote with running := false } }
    let q := (s.port r.port).queue.filter (fun j => decide (j ≠ i))
    let waits (j : Slot) : Bool := match s.source j with | some x => decide (x.state ≠ .queued) | none => true
    (r.state = .returning →
      (r.leaving = some .complete → retires .complete) ∧ (r.leaving = some .withdrawn → retires .withdrawn) ∧
      (r.leaving = some .expired → retires .expired) ∧
      (r.leaving = some .divertExhausted → retires .divertExhausted)) ∧
    (r.state = .recycling →
      (r.withdraw = true → retires .withdrawn) ∧
      (r.withdraw = false → r.tote.expired = true → retires .expired) ∧
      (Unmarked r → exec (.taken tag) s = .next ((t.putSource i back).setPort r.port { s.port r.port with
        queue := if r.tote.warned then q.takeWhile waits ++ [i] ++ q.dropWhile waits else q ++ [i] }).settle))

/-- A message that names no record in a state it fits, under its present visit, is discarded and counted as stale (R50). -/
def Obligations.StaleMessagesAreCounted : Prop :=
  ∀ (tag : Byte) (s : State), s.resetHeld = false →
    let fits (f : Source → Prop) : Prop := ∃ i r, s.source i = some r ∧ Names tag i r ∧ f r
    let counted : Host.Outcome State Fault Refusal := .next (s.setSupply { s.supply with
      receiver := .hunting, staleCount := if s.supply.staleCount < 65535 then s.supply.staleCount + 1
        else s.supply.staleCount })
    (¬ fits (fun r => r.state = .calling) →
      exec (.accepted tag) s = counted ∧ ∀ reason, exec (.refused tag reason) s = counted) ∧
    (¬ fits (fun r => r.state = .calling ∨ r.state = .called) → exec (.released tag) s = counted) ∧
    (¬ fits (fun r => r.state = .cancelling ∧ r.cancelHeld = false) →
      ∀ outcome, exec (.cancelResult tag outcome) s = counted) ∧
    (¬ fits (fun r => r.state = .returning ∨ r.state = .recycling) → exec (.taken tag) s = counted)

/-- The answer windows. A CALL unanswered is cancelled, the requeue mark set on an unmarked record; a CANCEL unanswered ends
as if cancelled, and a retirement it makes sends a courtesy RETURN, dropped while SUPPLY_READY is deasserted. A window
that does not run has no expiry (log entry 21). -/
def Obligations.AnswerWindowsExpire : Prop :=
  ∀ (i : Slot) (s : State), s.resetHeld = false →
    (∀ r, s.source i = some r → r.state = .calling → r.answerWindow ≠ none →
      let w : Source := { r with state := .cancelling, requeue := !r.withdraw && !r.tote.expired }
      (s.inputs.supplyReady = true → exec (.callWindowExpiry i) s =
        .next ((s.putSource i { w with answerWindow := some s.config.answerWindow, cancelHeld := false }).transmit
          (.cancel (r.tag i))).settle) ∧
      (s.inputs.supplyReady = false → exec (.callWindowExpiry i) s =
        .next (s.putSource i { w with answerWindow := none, cancelHeld := true }).settle)) ∧
    (∀ r, s.source i = some r → r.state = .cancelling → r.answerWindow ≠ none →
      let retires (cause : RetireCause) (told : ReturnCause) : Prop :=
        let u := s.retireSource i cause
        exec (.cancelWindowExpiry i) s = .next (if s.inputs.supplyReady then
          u.transmit (.returnTote (r.tag i) r.tote.code r.tote.cls told) else u).settle
      (r.withdraw = true → retires .withdrawn .withdrawn) ∧
      (r.withdraw = false → r.tote.expired = true → retires .expired .expired) ∧
      (Unmarked r → 2 ≤ r.callAttempts → retires .callFailed .callFailed) ∧
      (Unmarked r → r.callAttempts < 2 → exec (.cancelWindowExpiry i) s = .next (s.callAgain i r).settle)) ∧
    ((∀ r, s.source i = some r → r.state ≠ .calling ∨ r.answerWindow = none) →
      exec (.callWindowExpiry i) s = .next s) ∧
    ((∀ r, s.source i = some r → r.state ≠ .cancelling ∨ r.answerWindow = none) →
      exec (.cancelWindowExpiry i) s = .next s)

/-- A rise of SUPPLY_READY begins a pass that sends the held CANCELs in slot order, then the owed RETURNs in slot order; at
its end what stands is acted on. Met by another event (log entry 14), the pass stands where it has come to; with no command
waiting it goes on frame by frame while SUPPLY_READY is asserted, and slots it has passed come at the end. A fall changes
the level alone: what is not yet sent stays held or owed. A frame produced begins at once on an idle transmitter and waits
its turn on a busy one, and at the end of a frame the next one begins, which is the model's reading (log entry 23); its bytes
are those of R190 (R48, R62, R67). -/
def Obligations.SupplyReadySendsWhatIsOwed : Prop :=
  ∀ s : State, s.resetHeld = false →
    let held (i : Slot) (r : Source) : Prop := s.source i = some r ∧ r.cancelHeld = true
    let owed (i : Slot) (r : Source) : Prop := s.source i = some r ∧ r.returnOwed = true
    let returns (i : Slot) (r : Source) : Message := .returnTote (r.tag i) r.tote.code r.tote.cls r.returnCause
    exec .supplyReadyFall s = .next (s.setInputs { s.inputs with supplyReady := false }) ∧
    (s.inputs.supplyReady = true → exec .supplyReadyRise s = .next s) ∧
    (s.inputs.supplyReady = false →
      let cancelled := allSlots.filter (fun i => match s.source i with | some r => r.cancelHeld | none => false)
      let returned := allSlots.filter (fun i => match s.source i with | some r => r.returnOwed | none => false)
      let frames := cancelled.filterMap (fun i => (s.source i).map (fun r => Message.cancel (r.tag i)))
        ++ returned.filterMap (fun i => (s.source i).map (returns i))
      let produced (n : Nat) (pass : Option Nat) (u : State) : Prop :=
        u = { s with
          inputs := { s.inputs with supplyReady := true }, supply := u.supply, slots := u.slots, meets := none } ∧
        u.supply = { ((frames.take n).foldl State.transmit s).supply with pass := pass } ∧
        ∀ i, u.record i = match s.record i with
          | some (.source r) =>
            let sent := i ∈ cancelled.take n
            some (.source { r with
              answerWindow := if sent then some s.config.answerWindow else r.answerWindow,
              cancelHeld := if sent then false else r.cancelHeld,
              returnOwed := if i ∈ returned.take (n - cancelled.length) then false else r.returnOwed })
          | other => other
      (s.meets = none → ∃ u, exec .supplyReadyRise s = .next u.settle ∧ produced frames.length none u) ∧
      (∀ n, s.meets = some n → ∃ u, exec .supplyReadyRise s = .next u ∧
        produced n (some (((returned.take (n - cancelled.length)).getLast?.map (fun i => i.val + 1)).getD 0)) u)) ∧
    (∀ place, s.pending = [] → s.supply.pass = some place → s.inputs.supplyReady = true →
      let turn (i : Slot) : Nat := if place ≤ i.val then i.val else i.val + 64
      (∀ i r, held i r → (∀ j q, held j q → i ≤ j) → step s =
        .next ((s.putSource i { r with answerWindow := some s.config.answerWindow, cancelHeld := false }).transmit
          (.cancel (r.tag i)))) ∧
      (∀ i r, (∀ j q, ¬ held j q) → owed i r → (∀ j q, owed j q → turn i ≤ turn j) →
        let u := (s.putSource i { r with returnOwed := false }).transmit (returns i r)
        step s = .next (u.setSupply { u.supply with pass := some (i.val + 1) })) ∧
      ((∀ j q, ¬ held j q ∧ ¬ owed j q) → step s = .next (s.setSupply { s.supply with pass := none }).settle)) ∧
    (∀ m, s.supply.sending = none → s.transmit m = s.setSupply { s.supply with sending := some m }) ∧
    (∀ m n, s.supply.sending = some n →
      s.transmit m = s.setSupply { s.supply with waiting := s.supply.waiting ++ [m] }) ∧
    exec .supplyFrameTransmitted s = .next (s.setSupply
      { s.supply with sending := s.supply.waiting.head?, waiting := s.supply.waiting.tail }) ∧
    (∀ (tag : Nat) (c : Code) (p : Port) (cls : ToteClass) (cause : ReturnCause),
      let number : Byte := match cls with
        | .ambient => 0#8
        | .chilled => 1#8
        | .frozen => 2#8
      let reason : Byte := match cause with
        | .complete => 0#8
        | .withdrawn => 1#8
        | .expired => 2#8
        | .recycle => 3#8
        | .callFailed => 4#8
      let code : List Byte := [c.extractLsb' 24 8, c.extractLsb' 16 8, c.extractLsb' 8 8, c.extractLsb' 0 8]
      let checked (covered : List Byte) : List Byte := [0xA5#8] ++ covered ++ [crc8 covered]
      (Message.call tag c p cls).frame = checked ([1#8, 7#8, byteOf tag] ++ code ++ [byteOf p.val, number]) ∧
      (Message.cancel tag).frame = checked [2#8, 1#8, byteOf tag] ∧
      (Message.returnTote tag c cls cause).frame = checked ([3#8, 7#8, byteOf tag] ++ code ++ [number, reason]))

/-- The supply receiver. The frame of each dispatcher message, taken between frames, does what the message's row does; bytes
that begin no frame are skipped; a frame cut by a stop-bit error, a length above 16, a bad check, a content that is no
dispatcher message, or an idle gap is counted as bad, and the receiver is between frames. -/
def Obligations.SupplyReceiverReadsFrames : Prop :=
  ∀ s : State, s.resetHeld = false →
    let good (bs : List Byte) : List SerialByte := bs.map (fun b => { value := b, stopOk := true })
    let row : DispatcherMessage → Instr
      | .accepted tag => .accepted tag
      | .refused tag reason => .refused tag reason
      | .released tag => .released tag
      | .cancelResult tag outcome => .cancelResult tag outcome
      | .taken tag => .taken tag
    let bad (u : State) : State := u.setSupply { u.supply with
      receiver := .hunting,
      badCount := if u.supply.badCount < 65535 then u.supply.badCount + 1 else u.supply.badCount }
    (s.supply.receiver = .hunting →
      (∀ m : DispatcherMessage, exec (.badSupplyFrame (good m.frame)) s = exec (row m) s) ∧
      (∀ bytes : List SerialByte, (∀ b ∈ bytes, b.value ≠ 0xA5#8 ∨ b.stopOk = false) →
        exec (.badSupplyFrame bytes) s = .next s) ∧
      (∀ (type length : Byte) (rest : List Byte), length.toNat ≤ 16 → rest.length = length.toNat + 1 →
        (∀ m : DispatcherMessage, m.frame ≠ 0xA5#8 :: type :: length :: rest) →
        exec (.badSupplyFrame (good (0xA5#8 :: type :: length :: rest))) s = .next (bad s)) ∧
      (∀ type length : Byte, 16 < length.toNat →
        exec (.badSupplyFrame (good [0xA5#8, type, length])) s = .next (bad s)) ∧
      exec (.supplyIdleGapTimeout []) s = .next s) ∧
    (∀ taken, s.supply.receiver = .inFrame taken →
      (∀ value, exec (.badSupplyFrame [{ value := value, stopOk := false }]) s = .next (bad s)) ∧
      exec (.supplyIdleGapTimeout []) s = .next (bad s)) ∧
    (∀ (bs cs : List SerialByte) (u : State), exec (.badSupplyFrame bs) s = .next u →
      exec (.badSupplyFrame (bs ++ cs)) s = exec (.badSupplyFrame cs) u ∧
      exec (.supplyIdleGapTimeout bs) s = exec (.supplyIdleGapTimeout []) u)

/-- A record enters RETURNING with its lines DEFERRED, out of its queue view and its arm (that an arm still standing at
DIVERT_EXHAUSTED ends is the model's choice, log entry 11), and RETURN is sent or owed; a
record is retired with its lines DEFERRED, out of its queue view, lane and arm, its RETIRED notice posted, its slot FREE;
and a notice joins the queue, or is dropped and counted when 32 wait (R25, R26, R65, R66, R179). -/
def Obligations.LeavingTotesAreReturnedOrRetired : Prop :=
  ∀ s : State,
    (∀ (i : Slot) (r : Source), s.source i = some r →
      let q := s.port r.port
      let out : PortRec := { q.unarmed i with queue := q.queue.filter (fun j => decide (j ≠ i)) }
      (∀ cause : LeavingCause,
        let gone : Source :=
          { r with
            lines := resolved .deferred r.lines, state := .returning, leaving := some cause, current := none,
            answerWindow := none, cancelHeld := false, returnOwed := !s.inputs.supplyReady }
        let told : ReturnCause := match cause with
          | .complete => .complete
          | .withdrawn => .withdrawn
          | .expired => .expired
          | .divertExhausted => .recycle
        let u := (s.putSource i gone).setPort r.port out
        s.enterReturning i cause =
          if s.inputs.supplyReady then u.transmit (.returnTote (r.tag i) r.tote.code r.tote.cls told) else u) ∧
      (∀ cause : RetireCause, s.retireSource i cause =
        ((s.setPort r.port { out with lane := q.lane.filter (fun e => decide (e ≠ .slot i)) }).post
          (.retiredSource i r.tote.code r.port cause r.tote.exposure
            ((resolved .deferred r.lines).map (fun l =>
              { state := l.state, target := l.target, quantity := l.quantity })))).setSlot i none)) ∧
    (∀ n : Notice,
      (s.notices.length < 32 → s.post n = { s with notices := s.notices ++ [n] }) ∧
      (32 ≤ s.notices.length → s.post n =
        { s with overflow := if s.overflow < 255 then s.overflow + 1 else s.overflow }))

/-! ### The readers -/

/-- A frame counted, good or bad. It closes its channel's window at the window's length: the bad count becomes the last
window's, the windows closed rise by one, the status is judged by the limit, a change of status is told, and the counts
restart (R163). -/
def Obligations.ReaderWindowsCountFrames : Prop :=
  ∀ (c : Channel) (s : State) (isBad : Bool),
    let r := s.reader c
    let limit := s.config.readerBadLimit
    let window := s.config.readerWindow
    let frames := r.frames + 1
    let bad := if isBad then r.bad + 1 else r.bad
    let status : ReaderStatus := if limit ≤ bad then .degraded else .ok
    let closed := s.setReader c
      { r with frames := 0, bad := 0, lastBad := bad, windows := r.windows + 1#8, status := status }
    (frames < window → s.countFrame c isBad = s.setReader c { r with frames := frames, bad := bad }) ∧
    (window ≤ frames → s.countFrame c isBad =
      if r.status = status then closed
      else if limit ≤ bad then closed.post (.readerDegraded c bad limit window)
      else closed.post (.readerRecovered c bad limit window)) ∧
    (State.reset.reader c).lastBad = 0 ∧ (State.reset.reader c).windows = 0#8

/-- A marker begins a frame in HUNTING and IGNORING; a marker or a stop-bit error that cuts a frame short leaves the
receiver IGNORING, a runt leaves it HUNTING, and each counts one bad frame. Of the bytes of a frame, fewer than six are
held; the sixth completes the frame, which is good when its check holds, its quality is 1 to 100 and at the threshold or
over, and its code is not 0. The frame is handed on, with all that follows, and then counted: a good scanner read to the
loop, a frame of a port's reader to its readiness chain while a read window runs. Bytes with no frame begun are skipped
(R158 to R162). -/
def Obligations.ReaderFramesAreClassified : Prop :=
  ∀ (c : Channel) (bytes : List Byte) (time : Nat) (s : State), s.resetHeld = false →
    let r := s.reader c
    let cut (after : ReaderReceiver) : State := ((s.setReader c { r with receiver := after }).countFrame c true).settle
    (∀ taken, r.receiver = .receiving taken →
      exec (.readerMarker c) s = .next (cut .ignoring) ∧ exec (.readerStopBitError c) s = .next (cut .ignoring) ∧
      exec (.readerRuntTimeout c) s = .next (cut .hunting)) ∧
    ((r.receiver = .hunting ∨ r.receiver = .ignoring) →
      exec (.readerMarker c) s = .next (s.setReader c { r with receiver := .receiving [] }) ∧
      exec (.readerStopBitError c) s = .next s ∧ exec (.readerRuntTimeout c) s = .next s ∧
      exec (.readerFrame c bytes time) s = .next s) ∧
    (∀ held, r.receiver = .receiving held → held.length < 6 →
      let frame := held ++ bytes
      let code := word32 frame 0
      let quality := (byteAt frame 4).toNat
      let good : Prop := byteAt frame 5 = crc8 (frame.take 5) ∧ 1 ≤ quality ∧ quality ≤ 100 ∧
        s.config.qualityThreshold ≤ quality ∧ code ≠ 0#32
      let t := s.setReader c { r with receiver := .hunting }
      let counted (u : State) (isBad : Bool) : Prop :=
        exec (.readerFrame c bytes time) s = .next (u.settle.countFrame c isBad).settle
      (frame.length < 6 → exec (.readerFrame c bytes time) s =
        .next (s.setReader c { r with receiver := .receiving frame })) ∧
      (frame.length = 6 → c = .scanner → (good → counted (t.scannerRead code time) false) ∧ (¬ good → counted t true)) ∧
      (∀ p : Port, frame.length = 6 → c = .port p →
        let judged : Prop := s.bench = .running ∨ s.bench = .halted
        (∀ attempt, judged → (s.port p).stop = .reading attempt →
          (good → counted (t.verify p code) false) ∧ (¬ good → counted (t.failedRead p attempt) true)) ∧
        ((¬ judged ∨ ∀ attempt, (s.port p).stop ≠ .reading attempt) →
          (good → counted t false) ∧ (¬ good → counted t true)))) ∧
    (∀ (more : List Byte) (u : State), exec (.readerFrame c bytes time) s = .next u →
      exec (.readerFrame c (bytes ++ more) time) s = exec (.readerFrame c more time) u)

/-! ### The loop -/

/-- A good scanner read in RUNNING or HALTED. A repeat within 1.0 s renews the held time alone (the time is the row's, in
microseconds, and one before the held time counts as a repeat: log entry 17). Any other read is noted, ends a FOREIGN arm of
its code as a confirm window expiry would, at every port that holds it (log entry 11) and whole with the selection and the
drain test that follow (the arbiter is left to the end of the event: log entry 9), and is then identified: the service code,
a source record, an order's code, or an unknown tote, told when its family's flag or open acceptance is set (R71 to R73, R81
to R83, R91, R121). -/
def Obligations.ScannerReadsAreIdentified : Prop :=
  ∀ (code : Code) (time : Nat) (s : State),
    let noted : State := { s with dupFilter := some { code := code, time := time } }
    let whole (u : State) : State := allPorts.foldl State.drainPort ((u.select .a).select .b)
    let repeated : Prop := ∃ f, s.dupFilter = some f ∧ f.code = code ∧ time ≤ f.time + 1000000
    let byte (k : Nat) : Nat := (code.extractLsb' (8 * k) 8).toNat
    let reported : Prop := s.config.openAcceptance = true ∨
      s.config.familyFilter.getLsbD ((byte 3 + byte 2 + byte 1 + byte 0) % 64) = true
    let takes (configured : Option Port) (p : Port) : Prop :=
      configured = some p ∧ s.bench = .running ∧ Accepts (s.port p)
    let armed (p : Port) (reason : ForeignReason) : State :=
      s.setPort p ((s.port p).armed (.foreign reason code) s.config.confirmWindow)
    ((s.bench = .unconfigured ∨ s.bench = .configured) → s.scannerRead code time = s) ∧
    ((s.bench = .running ∨ s.bench = .halted) →
      (repeated → s.scannerRead code time = noted) ∧
      (¬ repeated → s.scannerRead code time = (allPorts.foldl (fun (u : State) (p : Port) =>
        match (u.port p).arm with
        | some ⟨.foreign _ d, _⟩ => if d = code then whole (u.endUnconfirmed p) else u
        | _ => u) noted).identify code)) ∧
    (code = 0xFFFFFFFF#32 →
      (∀ p, takes s.config.servicePort p → s.identify code = armed p .service) ∧
      ((∀ p, ¬ takes s.config.servicePort p) → s.identify code = s)) ∧
    (∀ i x, code ≠ 0xFFFFFFFF#32 → s.record i = some x → x.tote.code = code →
      (∀ j y, s.record j = some y → y.tote.code = code → j = i) →
      (x.kind = .source → s.identify code = (s.sightSource i).divertDecision i) ∧
      (x.kind = .order → s.identify code = s.post (.stray (some i) code none false))) ∧
    (code ≠ 0xFFFFFFFF#32 → (∀ i x, s.record i = some x → x.tote.code ≠ code) →
      (¬ reported → s.identify code = s) ∧
      (∀ p, reported → takes s.config.strayPort p →
        s.identify code = (armed p .captured).post (.stray none code (some p) false)) ∧
      (reported → (∀ p, ¬ takes s.config.strayPort p) → s.identify code = s.post (.stray none code none false)))

/-- A sighting of a source record, by its state and marks: adopted from the queue, corrected out of a lane, found again from
MISSING, sent home under a mark, its arm ended as a confirm window expiry would, whole with the selection and the drain test
that follow (the arbiter is left to the end of the event: log entry 9), its exit taken, or left as it is (R74 to R79, R91,
R121). That a presentation's end, with its STATION_HELD, stands ahead of PRESENT_LOST is the model's choice (log entry 10),
and the count of read-request pulses is the model's own (log entry 16). -/
def Obligations.SightingsMoveTheRecord : Prop :=
  ∀ (i : Slot) (r : Source) (s : State), s.source i = some r →
    let p := r.port
    let q := s.port p
    let again : Prop := q.lane.head? = some (.slot i) ∧ q.stop = .verified
    let unlisted : PortRec :=
      { q with
        lane := q.lane.map (fun e => if e = .slot i then .unidentified else e),
        stop := if again then .reading .first else q.stop,
        readPulses := if again then q.readPulses + 1 else q.readPulses }
    let moved : State := ((s.setPort p unlisted).endPresentationOf p i).putSource i
      { r with state := .inbound, current := none }
    let told := if r.state = .presented then moved.post (.presentLost i r.tote.code p .sighted) else moved
    (r.state = .queued → s.sightSource i = s.putSource i { r.found with state := .inbound }) ∧
    (Unmarked r →
      ((r.state = .calling ∨ r.state = .called ∨ r.state = .cancelling) →
        s.sightSource i = s.putSource i { r.found with state := .inbound }) ∧
      ((r.state = .laned ∨ r.state = .atStop ∨ r.state = .ready ∨ r.state = .presented) →
        s.sightSource i = told.setPort p { unlisted with queue := toHead i q.queue }) ∧
      (r.state = .missing → s.sightSource i =
        ((s.putSource i { r.found with state := .inbound }).setPort p { q with queue := toHead i q.queue }).post
          (.presentRegained i r.tote.code p .sighted))) ∧
    (¬ Unmarked r →
      (r.state = .calling ∨ r.state = .called ∨ r.state = .cancelling ∨ r.state = .laned ∨ r.state = .atStop ∨
        r.state = .ready ∨ r.state = .presented ∨ r.state = .missing) →
      s.sightSource i =
        (((s.putSource i r.found).setPort p unlisted).endPresentationOf p i).enterReturning i (leavingBy r)) ∧
    (r.state = .inbound →
      (q.arm.map Arm.item = some (.slot i) → s.sightSource i =
        allPorts.foldl State.drainPort (((s.endUnconfirmed p).select .a).select .b)) ∧
      (q.arm.map Arm.item ≠ some (.slot i) → s.sightSource i = s)) ∧
    (r.state = .releasing → s.sightSource i = s.takeExit p) ∧
    ((r.state = .returning ∨ r.state = .recycling) → s.sightSource i = s)

/-- The divert decision of an INBOUND record, and the collision. A halted bench passes the tote; a backoff is counted down; a
port that accepts is armed; otherwise the record collides: its attempts rise to at most the limit, and below it a backoff
in the range of R86 is drawn (its value is free: log entry 7), while at it the record is recycled, or, recycled twice
already, sent home for good (R84, R86, R87). An arm that still holds an exhausted record ends quietly, the model's choice
(log entry 11). The divert-arm output is asserted exactly while the port is armed (R85). -/
def Obligations.CollisionsBackOffOrExhaust : Prop :=
  ∀ (i : Slot) (r : Source) (s : State), s.source i = some r →
    let p := r.port
    let q := s.port p
    let n := if r.divertAttempts < s.config.divertLimit then r.divertAttempts + 1 else r.divertAttempts
    (r.state = .inbound →
      (s.bench = .halted → s.divertDecision i = s) ∧
      (s.bench ≠ .halted → 0 < r.backoff →
        s.divertDecision i = s.putSource i { r with backoff := r.backoff - 1 }) ∧
      (s.bench ≠ .halted → r.backoff = 0 →
        (Accepts q → s.divertDecision i = s.setPort p (q.armed (.slot i) s.config.confirmWindow)) ∧
        (¬ Accepts q → s.divertDecision i = s.collide i)) ∧
      (n < s.config.divertLimit → ∃ backoff, backoff < 2 ^ min n 4 ∧
        s.collide i =
          { s.putSource i { r with divertAttempts := n, backoff := backoff } with draws := s.draws + 1 }) ∧
      (s.config.divertLimit ≤ n → r.recycleCount < 2 →
        let u := (s.putSource i { r with
          state := .recycling, divertAttempts := n, backoff := 0, recycleCount := r.recycleCount + 1,
          returnOwed := !s.inputs.supplyReady }).setPort p (q.unarmed i)
        s.collide i = (if s.inputs.supplyReady then
            u.transmit (.returnTote (r.tag i) r.tote.code r.tote.cls .recycle) else u).post
          (.divertExhausted i r.tote.code p false (r.recycleCount + 1))) ∧
      (s.config.divertLimit ≤ n → 2 ≤ r.recycleCount → s.collide i =
        ((s.putSource i { r with divertAttempts := n, backoff := 0 }).enterReturning i .divertExhausted).post
          (.divertExhausted i r.tote.code p true r.recycleCount))) ∧
    (r.state ≠ .inbound → s.divertDecision i = s ∧ s.collide i = s) ∧
    ∀ port : PortRec, port.divertArm = true ↔ port.arm ≠ none

/-- CONFIRM_WINDOW_EXPIRY: the arm ends, the port's unconfirmed count rises, DIVERT_UNCONFIRMED is posted ahead of what the
collision of a slot item posts, and at a count of 2 the port faults with cause DIVERT (R90). Withdrawn by an overfill or
the local-control line, an arm ends with the collision alone (R91). No arm, no expiry (log entry 21). -/
def Obligations.UnconfirmedDivertsAreCounted : Prop :=
  ∀ (p : Port) (s : State),
    let q := s.port p
    let n := q.unconfirmed + 1
    let ended := s.setPort p { q with arm := none, unconfirmed := n }
    let faulted (u : State) : State := if 2 ≤ n then u.raiseFault p .divert else u
    let answers (u : State) : Prop :=
      s.endUnconfirmed p = u ∧ (s.resetHeld = false → exec (.confirmWindowExpiry p) s = .next u.settle)
    (q.arm = none → answers s ∧ s.withdrawArm p = s) ∧
    (∀ i x window, q.arm = some { item := .slot i, window := window } → s.record i = some x →
      answers (faulted ((ended.post (.unconfirmedSlot i x.tote.code p n)).collide i)) ∧
      s.withdrawArm p = (s.setPort p { q with arm := none }).collide i) ∧
    (∀ reason code window, q.arm = some { item := .foreign reason code, window := window } →
      answers (faulted (ended.post (.unconfirmedForeign code p reason n))) ∧
      s.withdrawArm p = s.setPort p { q with arm := none })

/-! ### The lanes -/

/-- ENTRY_EVENT: the armed tote's entry consumes the arm and makes the record LANED, an unexpected one is UNIDENTIFIED, and a
fourth is an overfill: the arm is withdrawn and the port faults (R89, R95, R96). -/
def Obligations.EntriesJoinTheLane : Prop :=
  ∀ (p : Port) (s : State), s.resetHeld = false →
    let q := s.port p
    let followed : Prop := s.bench = .running ∨ s.bench = .halted
    let answers (u : State) : Prop := exec (.entryEvent p) s = .next u.settle
    (¬ followed → exec (.entryEvent p) s = .next s) ∧
    (followed → 3 ≤ q.lane.length → answers ((s.withdrawArm p).raiseFault p .overfill)) ∧
    (followed → q.lane.length < 3 →
      (q.arm = none → answers (s.setPort p { q with lane := q.lane ++ [.unidentified] })) ∧
      (∀ i r window, q.arm = some { item := .slot i, window := window } → s.source i = some r →
        answers ((s.putSource i { r with state := .laned }).setPort p
          { q with
            lane := q.lane ++ [.slot i], arm := none, unconfirmed := 0,
            queue := q.queue.filter (fun j => decide (j ≠ i)) })) ∧
      (∀ reason code window, q.arm = some { item := .foreign reason code, window := window } →
        answers (s.setPort p { q with lane := q.lane ++ [.foreign reason code], arm := none, unconfirmed := 0 })))

/-- SEAT_ON and SEAT_OFF, by the state of the stop (R95, R97, R109): a seating starts the readiness chain and pulses the
read-request output, a released tote's departure is noted, and a seat-off at a closed stop is a loss. The level is held
whatever the bench state; a repeat of it changes nothing. That the pulses are counted, and that the output stands asserted
exactly while the stop is READING, is the model's choice (log entry 16). -/
def Obligations.SeatEventsMoveTheStop : Prop :=
  ∀ (p : Port) (s : State), s.resetHeld = false →
    let q := s.port p
    let followed : Prop := s.bench = .running ∨ s.bench = .halted
    let seated (level : Bool) : State := s.setInputs { s.inputs with seat := s.inputs.seat.set p.val level }
    let goes (level : Bool) (stop : Stop) : State := (seated level).setPort p { q with stop := stop }
    let reading (lane : List LaneEntry) : State :=
      (seated true).setPort p { q with stop := .reading .first, readPulses := q.readPulses + 1, lane := lane }
    (¬ followed → exec (.seatOn p) s = .next (seated true) ∧ exec (.seatOff p) s = .next (seated false)) ∧
    (followed → s.seatLevel p = true → exec (.seatOn p) s = .next (seated true)) ∧
    (followed → s.seatLevel p = false → exec (.seatOff p) s = .next (seated false)) ∧
    (followed → s.seatLevel p = false →
      let answers (u : State) : Prop := exec (.seatOn p) s = .next u.settle
      (q.stop = .vacant →
        (q.lane = [] → answers (reading [.unidentified])) ∧
        (∀ i r, q.lane.head? = some (.slot i) → s.source i = some r →
          answers ((reading q.lane).putSource i { r with state := .atStop })) ∧
        (∀ e, q.lane.head? = some e → (∀ i, e ≠ .slot i) → answers (reading q.lane))) ∧
      (∀ waiting, q.stop = .openClear waiting → answers (goes true (.openClear true))) ∧
      (q.stop ≠ .vacant → (∀ waiting, q.stop ≠ .openClear waiting) → answers (seated true))) ∧
    (followed → s.seatLevel p = true →
      let answers (u : State) : Prop := exec (.seatOff p) s = .next u.settle
      (q.stop = .openSeated → answers (goes false (.openClear false))) ∧
      (∀ waiting, q.stop = .openClear waiting → answers (goes false (.openClear false))) ∧
      (q.stop = .leaving → answers (goes false .vacant)) ∧
      (q.stop = .vacant → answers (seated false)) ∧
      ((q.stop = .verified ∨ q.stop = .holding ∨ ∃ attempt, q.stop = .reading attempt) →
        answers ((seated false).loseHead p .vacant .seatLost))) ∧
    (q.readRequest = true ↔ ∃ attempt, q.stop = .reading attempt)

/-- READER_EXIT_EVENT at an open stop removes the released head and sends it its way, a waiting tote being seated; at a
closed stop with a tote it is a loss. The head of a loss is retired under the withdraw mark and otherwise MISSING, its
presentation ended and PRESENT_LOST posted (R107, R109). That the presentation's end, with its STATION_HELD, stands ahead of
PRESENT_LOST is the model's choice (log entry 10). -/
def Obligations.ExitsAndLossesRemoveTheHead : Prop :=
  ∀ (p : Port) (s : State),
    let q := s.port p
    let followed : Prop := s.bench = .running ∨ s.bench = .halted
    let answers (u : State) : Prop := exec (.readerExitEvent p) s = .next u.settle
    (s.resetHeld = false →
      (¬ followed → exec (.readerExitEvent p) s = .next s) ∧
      (followed →
        ((q.stop = .openSeated ∨ ∃ waiting, q.stop = .openClear waiting) → answers (s.takeExit p)) ∧
        ((q.stop = .vacant ∨ q.stop = .leaving) → answers s) ∧
        ((q.stop = .verified ∨ q.stop = .holding ∨ ∃ attempt, q.stop = .reading attempt) →
          answers (s.loseHead p .leaving .exitUnreleased)))) ∧
    (∀ head rest, q.lane = head :: rest →
      let gone (stop : Stop) : State := s.setPort p { q with lane := rest, stop := stop, exitWindow := none }
      let lost (stop : Stop) : State := s.setPort p { q with lane := rest, stop := stop }
      (q.stop = .openSeated → s.takeExit p = (gone .leaving).exitResult head) ∧
      (q.stop = .openClear false → s.takeExit p = (gone .vacant).exitResult head) ∧
      (q.stop = .openClear true → s.takeExit p = ((gone .vacant).seatHead p).exitResult head) ∧
      (∀ stop detail,
        (∀ i r, head = .slot i → s.source i = some r → r.withdraw = true →
          s.loseHead p stop detail = ((lost stop).endPresentationOf r.port i).retireSource i .withdrawn) ∧
        (∀ i r, head = .slot i → s.source i = some r → r.withdraw = false →
          s.loseHead p stop detail =
            (((lost stop).putSource i { r with state := .missing, current := none }).endPresentationOf r.port i).post
              (.presentLost i r.tote.code r.port detail)) ∧
        ((∀ i, head ≠ .slot i) → s.loseHead p stop detail = lost stop))) ∧
    (∀ i r, s.source i = some r →
      (r.passThrough = none → s.exitResult (.slot i) = s.enterReturning i .complete) ∧
      (r.passThrough = some .withdrawn → s.exitResult (.slot i) = s.enterReturning i .withdrawn) ∧
      (r.passThrough = some .expired → s.exitResult (.slot i) = s.enterReturning i .expired) ∧
      (r.passThrough = some .verifyFailed →
        (r.tote.expired = true →
          s.exitResult (.slot i) = (s.putSource i { r with passThrough := none }).enterReturning i .expired) ∧
        (r.tote.expired = false → s.exitResult (.slot i) =
          ((s.putSource i { r with passThrough := none, state := .inbound }).setPort r.port
            { s.port r.port with queue := toHead i (s.port r.port).queue }).collide i)) ∧
      ((∀ j y, s.record j = some y → y.tote.code = r.tote.code → j = i) →
        s.exitResult (.foreign .misrouted r.tote.code) = s.collide i)) ∧
    (∀ code, (∀ j y, s.record j = some y → y.tote.code = code → y.kind = .order) →
      s.exitResult (.foreign .misrouted code) = s) ∧
    (∀ reason code, reason ≠ .misrouted → s.exitResult (.foreign reason code) = s) ∧
    s.exitResult .unidentified = s

/-- READ_WINDOW_EXPIRY is a failed read: at attempt 1 a re-read with another pulse of the read-request output, at attempt 2
a failed verification, which is told, marks a slot head without a reason VERIFY_FAILED and opens the stop. Opening a stop
starts the exit window, makes a slot head RELEASING and ends its presentation; a READY head with reason WITHDRAWN or EXPIRED
is let go at once (R98, R99, R106). The stop-open output is asserted exactly while the stop is open (R97, R106, R107). The
count of read-request pulses is the model's own (log entry 16). No window, no expiry (log entry 21). -/
def Obligations.FailedReadsOpenTheStop : Prop :=
  ∀ (p : Port) (s : State),
    let q := s.port p
    let opened := s.setPort p { q with stop := .openSeated, exitWindow := some 50 }
    let answers (attempt : Attempt) (u : State) : Prop :=
      s.failedRead p attempt = u ∧
      (s.resetHeld = false → q.stop = .reading attempt → exec (.readWindowExpiry p) s = .next u.settle)
    (s.resetHeld = false → (∀ attempt, q.stop ≠ .reading attempt) → exec (.readWindowExpiry p) s = .next s) ∧
    answers .first (s.setPort p { q with stop := .reading .second, readPulses := q.readPulses + 1 }) ∧
    (∀ i r, q.lane.head? = some (.slot i) → s.source i = some r →
      answers .second (((s.post (.verifyFailed (some (i, r.tote.code)) p)).putSource i
        { r with passThrough := some (r.passThrough.getD .verifyFailed) }).openStop p) ∧
      s.openStop p = (opened.putSource i { r with state := .releasing }).endPresentationOf p i ∧
      (r.state = .ready → (r.passThrough = some .withdrawn ∨ r.passThrough = some .expired) →
        s.passHead p = s.openStop p) ∧
      ((r.state ≠ .ready ∨ r.passThrough = none ∨ r.passThrough = some .verifyFailed) → s.passHead p = s)) ∧
    ((∀ i, q.lane.head? ≠ some (.slot i)) →
      answers .second ((s.post (.verifyFailed none p)).openStop p) ∧ s.openStop p = opened ∧ s.passHead p = s) ∧
    (q.stopOpen = true ↔ q.stop = .openSeated ∨ ∃ waiting, q.stop = .openClear waiting)

/-- A good read at a stop. It verifies its own head, or a record that has changed places with the head; finds a record of
this port from outside the lane; or makes the head FOREIGN: MISROUTED, SERVICE, CAPTURED or STRAY, held at the configured
port and otherwise let go. A displaced slot head takes the place of the first UNIDENTIFIED entry, or leaves the lane
(R101 to R104). -/
def Obligations.ReadsAtTheStopNameTheHead : Prop :=
  ∀ (p : Port) (code : Code) (head : LaneEntry) (rest : List LaneEntry) (s : State), (s.port p).lane = head :: rest →
    let named (reason : ForeignReason) (u : State) : State := u.displaceHead p (.foreign reason code)
    let held (u : State) : State := u.setPort p { u.port p with stop := .holding }
    let ready (u : State) (i : Slot) (r : Source) : State :=
      ((u.putSource i { r with state := .ready }).setPort p { u.port p with stop := .verified }).passHead p
    let strayed (order : Option Slot) : Prop :=
      (s.config.strayPort = some p →
        s.verify p code = held ((named .captured s).post (.stray order code (some p) true))) ∧
      (s.config.strayPort ≠ some p →
        s.verify p code = ((named .stray s).post (.stray order code (some p) true)).openStop p)
    (code = 0xFFFFFFFF#32 →
      (s.config.servicePort = some p → s.verify p code = held (named .service s)) ∧
      (s.config.servicePort ≠ some p → s.verify p code = (named .service s).openStop p)) ∧
    (code ≠ 0xFFFFFFFF#32 → (∀ i x, s.record i = some x → x.tote.code ≠ code) → strayed none) ∧
    (∀ i x, code ≠ 0xFFFFFFFF#32 → s.record i = some x → x.tote.code = code →
      (∀ j y, s.record j = some y → y.tote.code = code → j = i) →
      (x.kind = .order → strayed (some i)) ∧
      (∀ r, x = .source r →
        (r.port ≠ p → s.verify p code =
          ((named .misrouted (s.sightSource i)).post (.misrouted i code p r.port)).openStop p) ∧
        (r.port = p →
          ((r.state = .returning ∨ r.state = .recycling) → s.verify p code = (named .misrouted s).openStop p) ∧
          ((r.state = .atStop ∨ r.state = .laned ∨ r.state = .ready) → head = .slot i → s.verify p code = ready s i r) ∧
          ((r.state = .atStop ∨ r.state = .laned ∨ r.state = .ready) → head ≠ .slot i →
            let swapped := s.setPort p
              { s.port p with lane := .slot i :: rest.map (fun e => if e = .slot i then head else e) }
            (∀ j h, head = .slot j → s.source j = some h →
              s.verify p code = ready (swapped.putSource j { h with state := .laned }) i r) ∧
            ((∀ j, head ≠ .slot j) → s.verify p code = ready swapped i r)) ∧
          ((r.state = .queued ∨ r.state = .calling ∨ r.state = .called ∨ r.state = .cancelling ∨ r.state = .inbound ∨
              r.state = .missing) → head ≠ .slot i →
            let reason : Option PassReason :=
              if r.withdraw then some .withdrawn else if r.tote.expired then some .expired else r.passThrough
            let lines := if r.withdraw ∨ r.tote.expired then resolved .deferred r.lines else r.lines
            let w : Source := { r.found with state := .ready, passThrough := reason, lines := lines }
            let q := (s.port p).unarmed i
            let u := ((s.putSource i w).setPort p
              { q with queue := q.queue.filter (fun j => decide (j ≠ i)) }).displaceHead p (.slot i)
            let told := if r.state = .missing then u.post (.presentRegained i code p .atStop) else u
            s.verify p code = (told.setPort p { told.port p with stop := .verified }).passHead p)))) ∧
    (∀ new : LaneEntry,
      ((∀ j, head ≠ .slot j) → s.displaceHead p new = s.setPort p { s.port p with lane := new :: rest }) ∧
      (∀ j h, head = .slot j → s.source j = some h →
        (∀ before after, rest = before ++ .unidentified :: after → .unidentified ∉ before →
          s.displaceHead p new = (s.setPort p { s.port p with lane := new :: (before ++ .slot j :: after) }).putSource j
            { h with state := .laned }) ∧
        (.unidentified ∉ rest →
          let u := s.setPort p { s.port p with lane := new :: rest }
          (Unmarked h → s.displaceHead p new = ((u.putSource j { h with state := .inbound }).setPort h.port
            { u.port h.port with queue := toHead j (u.port h.port).queue }).collide j) ∧
          (¬ Unmarked h → s.displaceHead p new = u.enterReturning j (leavingBy h)))))

/-! ### Faults and local control -/

/-- LOCAL_CONTROL_ASSERT, in the order of R153: the arm withdrawn, the stop vacated, the lane emptied from its head with each
record retired under the withdraw mark or made MISSING, the OVERRIDE fault raised. LOCAL_CONTROL_DEASSERT seats a tote left
on the seat. A fault keeps its first cause and is told each time; one of another cause demotes a PRESENTED head (R151 to
R154). A repeat of a level changes nothing, which is the model's reading (log entry 13). That PORT_FAULT stands ahead of the
demotion, and a presentation's end with its STATION_HELD ahead of PRESENT_LOST, is the model's choice (log entry 10). -/
def Obligations.FaultsAndLocalControlTakeThePort : Prop :=
  ∀ (p : Port) (s : State),
    let q := s.port p
    let line (level : Bool) : State :=
      s.setInputs { s.inputs with localControl := s.inputs.localControl.set p.val level }
    let kept (cause : FaultCause) : FaultCause := if q.mode = .faulted then q.cause.getD cause else cause
    let marked (cause : FaultCause) : State :=
      (s.setPort p (if q.mode = .faulted then q else { q with mode := .faulted, cause := some cause })).post
        (.portFault p cause (kept cause))
    (s.resetHeld = false →
      (s.localLevel p = true → exec (.localControlAssert p) s = .next (line true)) ∧
      (s.localLevel p = false →
        exec (.localControlAssert p) s = .next ((line true).takeLocalControl p).settle ∧
        exec (.localControlDeassert p) s = .next (line false)) ∧
      (s.localLevel p = true → (s.bench = .running ∨ s.bench = .halted) →
        exec (.localControlDeassert p) s =
          .next (if q.stop = .vacant ∧ s.seatLevel p = true then (line false).seatHead p else line false).settle) ∧
      (s.bench ≠ .running → s.bench ≠ .halted → exec (.localControlDeassert p) s = .next (line false))) ∧
    (let w := s.withdrawArm p
     let vacated := w.setPort p { w.port p with stop := .vacant, exitWindow := none, lane := [] }
     s.takeLocalControl p =
      ((w.port p).lane.foldl (fun u e => (u.clearVerifyFailed e).loseEntry .override e) vacated).markFault p .override) ∧
    (∀ i r, s.source i = some r →
      let c : Source := if r.passThrough = some .verifyFailed then { r with passThrough := none } else r
      (s.clearVerifyFailed (.slot i)).loseEntry .override (.slot i) =
        if r.withdraw then ((s.putSource i c).endPresentationOf r.port i).retireSource i .withdrawn
        else ((s.putSource i { c with state := .missing, current := none }).endPresentationOf r.port i).post
          (.presentLost i r.tote.code r.port .override)) ∧
    (∀ e, (∀ i, e ≠ .slot i) → (s.clearVerifyFailed e).loseEntry .override e = s) ∧
    (∀ cause,
      s.markFault p cause = marked cause ∧
      (∀ i r, q.lane.head? = some (.slot i) → s.source i = some r → r.state = .presented →
        s.raiseFault p cause =
          (((marked cause).putSource i { r with state := .ready, current := none, lines := currentDeferred r
            }).endPresentationOf p i).passHead p) ∧
      ((∀ i r, q.lane.head? = some (.slot i) → s.source i = some r → r.state ≠ .presented) →
        s.raiseFault p cause = marked cause)) ∧
    (s.resetHeld = false →
      (q.exitWindow = none → exec (.exitWindowExpiry p) s = .next s) ∧
      (q.exitWindow ≠ none → exec (.exitWindowExpiry p) s =
        .next ((s.setPort p { q with exitWindow := none }).raiseFault p .stopJam).settle))

/-! ### Orders and pickers -/

/-- PRESENCE_OFF makes the BOUND order at the position MISSING and the OPEN lines that target it BLOCKED, current lines being
chosen again; PRESENCE_ON makes a MISSING one BOUND and its BLOCKED lines OPEN. Any other event of a presence sensor
changes its level alone (R27, R28); that a repeat of a level is none is the model's reading (log entry 13). That
ORDER_MISSING stands ahead of what the choice of a line posts is the model's choice (log entry 10). -/
def Obligations.PresenceMovesTheOrder : Prop :=
  (∀ (u : Position) (s : State), s.resetHeld = false →
    let level (b : Bool) : State := s.setInputs { s.inputs with presence := s.inputs.presence.set u.val b }
    let at_ (o : Slot) (x : Order) : Prop := s.order o = some x ∧ x.position = u ∧
      ∀ j y, s.order j = some y → y.position = u → j = o
    (s.presenceLevel u = false → exec (.presenceOff u) s = .next (level false)) ∧
    (s.presenceLevel u = true → exec (.presenceOn u) s = .next (level true)) ∧
    ((∀ o x, s.order o = some x → x.position ≠ u) →
      exec (.presenceOff u) s = .next (level false) ∧ exec (.presenceOn u) s = .next (level true)) ∧
    (∀ o x, at_ o x →
      (x.state ≠ .bound → exec (.presenceOff u) s = .next (level false)) ∧
      (x.state ≠ .missing → exec (.presenceOn u) s = .next (level true)) ∧
      (x.state = .bound → s.presenceLevel u = true → exec (.presenceOff u) s =
        .next (((((((level false).putOrder o { x with state := .missing }).moveLinesFor o
          (fun l => decide (l.state = .isOpen)) .blocked).post (.orderMissing o x.tote.code u)).refreshLine .a).refreshLine
            .b)).settle) ∧
      (x.state = .missing → s.presenceLevel u = false → exec (.presenceOn u) s =
        .next ((((level true).putOrder o { x with state := .bound }).moveLinesFor o
          (fun l => decide (l.state = .blocked)) .isOpen).post (.orderRestored o x.tote.code u)).settle))) ∧
  (∀ (s : State) (o j : Slot) (test : Line → Bool) (dest : LineState),
    s.moveLinesFor o test dest = { s with slots := (s.moveLinesFor o test dest).slots } ∧
    (s.moveLinesFor o test dest).record j = match s.record j with
      | some (.source r) => some (.source { r with
          lines := r.lines.map (fun l => if test l = true ∧ l.target = o then { l with state := dest } else l) })
      | other => other) ∧
  (∀ (s : State) (st : Station),
    (∀ l, s.currentLine st = some l → l.state ≠ .isOpen → s.refreshLine st = s.chooseLine st) ∧
    ((∀ l, s.currentLine st = some l → l.state = .isOpen) → s.refreshLine st = s))

/-- The picker's inputs. Each makes its station ATTENDED. The put button at the position of the current line makes the line
DONE, the short button makes it SHORT, and the next is chosen; any other press of a put button posts WRONG_PUT. A change of
the pause switch sets or clears the hold request. A running attendance window restarts with the length it began with, the
model's choice (log entry 5), so that an input leaves it as it is held. Its expiry makes an ATTENDED station UNATTENDED and
tells it (R116 to R118, R124, R125, R131, R132). -/
def Obligations.PickerInputsWorkTheStation : Prop :=
  (∀ (st : Station) (s : State), s.resetHeld = false →
    let t := s.setStation st { s.station st with attendance := .attended }
    let followed : Prop := s.bench = .running ∨ s.bench = .halted
    let works (i : Slot) (r : Source) (k : Nat) (l : Line) : Prop :=
      (s.station st).presentation = some i ∧ s.source i = some r ∧ r.current = some k ∧ r.lines[k]? = some l
    let resolve (i : Slot) (r : Source) (k : Nat) (l : Line) (dest : LineState) : State :=
      (t.putSource i { r with lines := r.lines.set k { l with state := dest } }).chooseLine st
    let lit (u : Position) : Prop := ∃ i r k l o, works i r k l ∧ s.order l.target = some o ∧ o.position = u
    (∀ u : Position, positionStation u = st →
      (¬ followed → exec (.putButton u) s = .next t.settle) ∧
      (followed → ¬ lit u →
        exec (.putButton u) s = .next (t.post (.wrongPut (s.station st).presentation st u)).settle) ∧
      (∀ i r k l, followed → lit u → works i r k l → l.state = .isOpen →
        exec (.putButton u) s = .next (resolve i r k l .done).settle)) ∧
    ((¬ followed ∨ ∀ i r k l, ¬ works i r k l) → (∀ i r k, (s.station st).presentation = some i → s.source i = some r →
        r.current = some k → r.lines[k]? ≠ none) → exec (.shortButton st) s = .next t.settle) ∧
    (∀ i r k l, followed → works i r k l → l.state = .isOpen →
      exec (.shortButton st) s = .next (resolve i r k l .short).settle)) ∧
  (∀ (st : Station) (s : State), s.resetHeld = false →
    let r := s.station st
    let on := !s.pauseSwitch st
    let answers (hold : HoldStatus) (mode : Bool) (told : List Notice) : Prop :=
      let flipped := match st with
        | .a => { s.inputs with pauseA := on }
        | .b => { s.inputs with pauseB := on }
      exec (.pauseSwitchChange st) s = .next (told.foldl State.post ((s.setInputs flipped).setStation st
        { r with attendance := .attended, hold := hold, holdMode := mode })).settle
    (on = true → r.commandFlag = false → r.hold = .running →
      (r.presentation = none → answers .held true [.stationHeld st .request]) ∧
      (r.presentation ≠ none → answers .holdPending r.holdMode [])) ∧
    (on = false → r.commandFlag = false → r.hold = .holdPending → answers .running false []) ∧
    ((r.commandFlag = true ∨ r.hold = .held ∨ (∃ u, r.hold = .step u) ∨ (on = true ∧ r.hold = .holdPending) ∨
      (on = false ∧ r.hold = .running)) → answers r.hold r.holdMode [])) ∧
  (∀ (st : Station) (s : State), s.resetHeld = false →
    let r := s.station st
    (r.window = none → exec (.attendanceWindowExpiry st) s = .next s.settle) ∧
    (r.window ≠ none → r.attendance = .unattended →
      exec (.attendanceWindowExpiry st) s = .next (s.setStation st { r with window := none }).settle) ∧
    (∀ i, r.window ≠ none → r.attendance = .attended → r.presentation = some i →
      exec (.attendanceWindowExpiry st) s =
        .next ((s.setStation st { r with window := none, attendance := .unattended }).post
          (.stationUnattended i st)).settle))

/-! ### Exposure -/

/-- A tick raises a running count by one, to at most 65535 (R133). A record at its class's warn threshold is warned once, and
one at its budget expires once, with what its kind and state ask; a count that is stopped reaches neither figure (R136 to
R138, R140 to R144; for the warn threshold the model's reading, log entry 6). -/
def Obligations.ExposureWarnsAndExpires : Prop :=
  ∀ (i : Slot) (x : Record) (s : State), s.record i = some x →
    let e := x.tote
    let budget : Nat := match e.cls with
      | .ambient => 0
      | .chilled => s.config.chilledBudget * 10
      | .frozen => s.config.frozenBudget * 10
    let threshold := budget * s.config.warnPercent / 100
    let with_ (f : Tote) : State := s.setSlot i (some (x.withTote f))
    let count := if e.running ∧ e.exposure < 65535 then e.exposure + 1 else e.exposure
    (s.resetHeld = false →
      exec (.exposureTick i) s = .next (with_ { e with exposure := count }) ∧
      (e.running = true →
        exec (.warnThresholdReached i) s = .next (s.warnRecord i) ∧
        exec (.budgetReached i) s = .next ((s.warnRecord i).expireRecord i).settle) ∧
      (e.running = false → exec (.warnThresholdReached i) s = .next s ∧ exec (.budgetReached i) s = .next s)) ∧
    ((e.cls = .ambient ∨ e.exposure < threshold ∨ e.warned = true) → s.warnRecord i = s) ∧
    (e.cls ≠ .ambient → threshold ≤ e.exposure → e.warned = false → s.warnRecord i =
      (with_ { e with warned := true }).post (.warned i e.code x.place e.cls e.exposure threshold)) ∧
    ((e.cls = .ambient ∨ e.exposure < budget ∨ e.expired = true) → s.expireRecord i = s) ∧
    (e.cls ≠ .ambient → budget ≤ e.exposure → e.expired = false →
      let t := (with_ { e with expired := true }).post (.expired i e.code x.place x.state e.cls e.exposure budget)
      (∀ o, x = .order o → s.expireRecord i =
        (((t.putOrder i { o with tote := { e with expired := true }, state := .expired }).moveLinesFor i
          (fun l => decide (l.state = .isOpen ∨ l.state = .blocked)) .orphaned).refreshLine .a).refreshLine .b) ∧
      (∀ r, x = .source r →
        let w : Source := { r with tote := { e with expired := true } }
        let passing : Source :=
          { w with
            lines := resolved .deferred r.lines,
            passThrough := if r.passThrough = some .withdrawn then r.passThrough else some .expired }
        let working : Source :=
          { passing with
            lines := r.lines.mapIdx (fun k l =>
              if (l.state = .isOpen ∨ l.state = .blocked) ∧ some k ≠ r.current then { l with state := .deferred } else l) }
        (r.state = .queued → s.expireRecord i = t.retireSource i .expired) ∧
        ((r.state = .calling ∨ r.state = .called ∨ r.state = .releasing ∨ r.state = .returning) → s.expireRecord i = t) ∧
        (r.state = .cancelling → s.expireRecord i = t.putSource i { w with requeue := false }) ∧
        (r.state = .inbound → s.expireRecord i = t.enterReturning i .expired) ∧
        ((r.state = .laned ∨ r.state = .atStop) → s.expireRecord i = t.putSource i passing) ∧
        (r.state = .ready → s.expireRecord i = (t.putSource i passing).passHead r.port) ∧
        (r.state = .presented → r.current ≠ none → s.expireRecord i = t.putSource i working) ∧
        (r.state = .presented → r.current = none → s.expireRecord i = (t.putSource i working).releasePresented i) ∧
        ((r.state = .recycling ∨ r.state = .missing) →
          s.expireRecord i = t.putSource i { w with lines := resolved .deferred r.lines })))

/-! ### The end of an event: selection, the drain test, the arbiter -/

/-- A station without a presentation, RUNNING or in STEP with the step open, presents the READY head of the side opposite its
side flag, or of the other; the first OPEN line is current, or the record is released; the guidance shows the current
line; and the end of a presentation settles the hold status (R112 to R115, R120, R121, R126). That the head is a record of
the port is deduced from R93 (log entry 24). -/
def Obligations.StationsPresentReadyHeads : Prop :=
  ∀ (st : Station) (s : State),
    let q := s.station st
    let offered (p : Port) (i : Slot) : Prop :=
      ((s.port p).mode = .isOpen ∨ (s.port p).mode = .closing) ∧ (s.port p).lane.head? = some (.slot i) ∧
      ∃ r, s.source i = some r ∧ r.state = .ready ∧ r.passThrough = none ∧ r.port = p
    let preferred := stationPort st (if q.side = .left then .right else .left)
    let other := stationPort st q.side
    let free : Prop := q.presentation = none ∧ (q.hold = .running ∨ q.hold = .step .isOpen)
    (¬ free → s.select st = s) ∧
    (free → (∀ i, ¬ offered preferred i) → (∀ i, ¬ offered other i) → s.select st = s) ∧
    (∀ i, free → offered preferred i → s.select st = (s.present st preferred i).selectHead st 2) ∧
    (∀ i, free → (∀ j, ¬ offered preferred j) → offered other i →
      s.select st = (s.present st other i).selectHead st 2) ∧
    (∀ p i r, s.source i = some r → s.present st p i =
      ((s.putSource i { r with state := .presented }).setStation st
        { q with
          presentation := some i, workingPort := some p, side := if p.val % 2 = 0 then .left else .right,
          hold := match q.hold with
            | .step _ => .step .inUse
            | h => h,
          window := some (10 * s.config.attendanceWindow) }).chooseLine st) ∧
    (∀ i r, q.presentation = some i → s.source i = some r →
      (∀ k l, r.lines[k]? = some l → l.state = .isOpen → (∀ j m, j < k → r.lines[j]? = some m → m.state ≠ .isOpen) →
        s.chooseLine st = s.putSource i { r with current := some k }) ∧
      ((∀ l ∈ r.lines, l.state ≠ .isOpen) → s.chooseLine st = (s.putSource i { r with
        current := none,
        lines := r.lines.map (fun l => if l.state = .blocked then { l with state := .deferred } else l) }).openStop r.port) ∧
      let ended (hold : HoldStatus) (mode : Bool) : State := (s.putSource i { r with current := none }).setStation st
        { q with presentation := none, window := none, hold := hold, holdMode := mode }
      ((q.hold = .running ∨ q.hold = .held ∨ q.hold = .step .isOpen) → s.endPresentation st = ended q.hold q.holdMode) ∧
      (q.hold = .holdPending → s.endPresentation st = (ended .held true).post (.stationHeld st .pendingDone)) ∧
      (q.hold = .step .inUse → s.endPresentation st = (ended .held true).post (.stationHeld st .stepDone)) ∧
      (∀ k l, r.current = some k → r.lines[k]? = some l →
        s.portLamp st = q.workingPort ∧ s.display st = some l.quantity ∧
        ∀ o, s.order l.target = some o → s.putLamp st = some o.position) ∧
      (r.current = none → s.portLamp st = none ∧ s.putLamp st = none ∧ s.display st = none)) ∧
    (q.presentation = none → s.endPresentation st = s ∧ s.portLamp st = none ∧ s.putLamp st = none ∧ s.display st = none)

/-- What stands is acted on: selection at A and B, the drain test of each port, then the arbiter, which grants while
SUPPLY_READY is asserted, no pass of its rise stands, fewer than 4 credits are in use and a claim stands: cancel claims by
slot number, then call claims in rotation, each for the first fitting QUEUED record of an eligible port (R38, R40 to R43,
R150). Afterwards no claim can be granted, and records that could neither be presented nor granted a claim are as they
were. -/
def Obligations.ClaimsAreGrantedInOrder : Prop :=
  (∀ s : State, s.settle = (allPorts.foldl State.drainPort ((s.select .a).select .b)).grants 4) ∧
  (∀ (s : State) (p : Port),
    let drained : Prop := (s.port p).mode = .closing ∧ (s.port p).lane = [] ∧ (s.port p).arm = none ∧
      ∀ i r, s.source i = some r → r.port = p →
        r.state ≠ .calling ∧ r.state ≠ .called ∧ r.state ≠ .cancelling ∧ r.state ≠ .inbound
    (drained → s.drainPort p = (s.setPort p { s.port p with mode := .closed }).post (.portClosed p)) ∧
    (¬ drained → s.drainPort p = s)) ∧
  (∀ (s : State) (fuel : Nat),
    let open_ : Prop := s.inputs.supplyReady = true ∧ s.supply.pass = none ∧ s.creditsInUse < 4
    let cancels (i : Slot) (r : Source) : Prop := s.source i = some r ∧ r.state = .called ∧ ¬ Unmarked r
    let eligible (p : Port) : Prop := s.bench = .running ∧ s.inputs.supplyReady = true ∧ (s.port p).mode = .isOpen ∧
      (s.reader (.port p)).status = .ok ∧ (s.reader .scanner).status = .ok ∧
      s.committedCount p < s.config.pipelineDepth
    let fits (p : Port) (i : Slot) : Prop := ∃ r, s.source i = some r ∧ r.state = .queued ∧
      ((s.station (portStation p)).attendance = .attended ∨ r.tote.cls = .ambient)
    let claims (p : Port) (i : Slot) : Prop := eligible p ∧
      ∃ before after, (s.port p).queue = before ++ i :: after ∧ fits p i ∧ ∀ j ∈ before, ¬ fits p j
    (¬ open_ → s.grants (fuel + 1) = s) ∧
    (open_ → (∀ i r, ¬ cancels i r) → (∀ p i, ¬ claims p i) → s.grants (fuel + 1) = s) ∧
    (∀ i r, open_ → cancels i r → (∀ j y, cancels j y → i ≤ j) →
      s.grants (fuel + 1) = ((s.putSource i { r with
        state := .cancelling, answerWindow := some s.config.answerWindow, cancelHeld := false }).transmit
          (.cancel (r.tag i))).grants fuel) ∧
    (∀ p i r, open_ → (∀ j y, ¬ cancels j y) → claims p i → s.source i = some r →
      (∀ q j, claims q j → p - (s.rotation + 1) ≤ q - (s.rotation + 1)) →
      let called : Source :=
        { r with visit := r.visit + 1, state := .calling, answerWindow := some s.config.answerWindow }
      s.grants (fuel + 1) = (({ s.putSource i called with rotation := p } : State).transmit
        (.call (called.tag i) r.tote.code p r.tote.cls)).grants fuel)) ∧
  (∀ s : State,
    let t := s.settle
    (t.inputs.supplyReady = false ∨ t.supply.pass ≠ none ∨ 4 ≤ t.creditsInUse ∨
      (t.cancelClaim = none ∧ ∀ p, t.callClaim p = none)) ∧
    t.inputs = s.inputs ∧ t.bench = s.bench ∧ t.config = s.config ∧ t.allocPtr = s.allocPtr ∧
    t.dupFilter = s.dupFilter ∧ t.link = s.link ∧ (∀ c, t.reader c = s.reader c) ∧
    t.supply.receiver = s.supply.receiver ∧ t.supply.staleCount = s.supply.staleCount ∧
    t.supply.badCount = s.supply.badCount ∧ t.supply.pass = s.supply.pass ∧
    ∀ i, (∀ r, s.source i = some r → r.state ≠ .queued ∧ (r.state = .called → Unmarked r) ∧
        (r.state = .ready → r.passThrough ≠ none)) → t.record i = s.record i)

/-! ### The laws that hold in every safe state -/

/-- Every law of a safe state holds after a hardware reset. -/
def Obligations.TheResetStateIsSafe : Prop := Safe State.reset

/-- The laws of the ports and the stations are kept by every step: occupancy plus reservation at most 3 (R94), a fault cause
exactly while FAULTED (R145), the hold-mode flag by the hold status, no presentation while HELD, and the attendance window
only with a presentation (R126, R129, R131). Where the roster views keep their law: a head in the state its stop gives it and
the records behind it LANED (R93, R97); a station's one PRESENTED record its presentation and the head of its working port's
lane list (R111); and no current line in any other state (R114). -/
def Obligations.PortsAndStationsKeepTheirLaws : Prop :=
  ∀ s t : State, Follows s t →
    ((∀ p, LaneLaw (s.port p)) → ∀ p, LaneLaw (t.port p)) ∧
    ((∀ p, CauseLaw (s.port p)) → ∀ p, CauseLaw (t.port p)) ∧
    ((∀ st, StationLaw (s.station st)) → ∀ st, StationLaw (t.station st)) ∧
    (ViewLaw s → ListedLaw s → StopLaw s → PresentationLaw s → StopLaw t ∧ PresentationLaw t)

/-- The laws of the Record Table are kept along every run: codes legal and unique (R2), no put position held by two live
orders (R7), divert attempts, backoff, recycle count, lines and exposure within their bounds (R8, R86, R133), at most 4
credits in use (R41), at most 10 records in a roster (R29); an OPEN line targets a live BOUND order of its record's station
and a BLOCKED line a MISSING one, lines not CANCELLED have different targets, and a quantity is 1 to 99 (R7 to R9); a
RETURNING record has no OPEN or BLOCKED line (R6). -/
def Obligations.TheRecordTableKeepsItsLaws : Prop :=
  ∀ s t : State, Runs s t →
    (CodeLaw s → CodeLaw t) ∧
    (PositionLaw s → PositionLaw t) ∧
    (s.creditsInUse ≤ 4 → t.creditsInUse ≤ 4) ∧
    ((∀ p, s.rosterSize p ≤ 10) → ∀ p, t.rosterSize p ≤ 10) ∧
    (LineLaw s → LineLaw t) ∧
    (ConfigLaw s.config → (∀ i x, s.record i = some x → RecordLaw s.config.divertLimit x) →
      ∀ i x, t.record i = some x → RecordLaw t.config.divertLimit x)

/-- The configuration stays within its valid values (R168), each reader channel within its window (R158, R162), and the
counts and the Notice Queue within theirs (R49, R50, R176, R178, R179), along every run. -/
def Obligations.ConfigurationReadersAndCountsKeepTheirLaws : Prop :=
  ∀ s t : State, Runs s t →
    (ConfigLaw s.config → ConfigLaw t.config ∧
      ((∀ c, ReaderLaw s.config.readerWindow (s.reader c)) → ∀ c, ReaderLaw t.config.readerWindow (t.reader c))) ∧
    (CountLaw s → CountLaw t)

/-- A live record keeps what its rule fixes for its life (R3, R4, R8, R9), until it is retired, through every command; and
every other command than a reset, a bench command or the placing of a response leaves the bench state and the configuration
as they are (R167, R168). -/
def Obligations.RecordsKeepWhatTheyHold : Prop :=
  ∀ (c : Instr) (s t : State), exec c s = .next t →
    (∀ i x, s.record i = some x → t.record i = none ∨ ∃ y, t.record i = some y ∧ RecordKeeps x y) ∧
    (benchCommand c = false → t.bench = s.bench ∧ t.config = s.config)

end VZ16
end

