-- ==== Sys2Proof/Laws/State.lean ====
section
/-! SUPPORT. The small lemmas of the state: each named update leaves each other field as it was, and what a read through
an update gives. -/

namespace Sys2Proof.Machine

/-! ### One lemma per field per update -/

@[simp] theorem State.setSlot_resetHeld (s : State) (i : Slot) (r : Option Record) : (s.setSlot i r).resetHeld = s.resetHeld := rfl

@[simp] theorem State.setSlot_inputs (s : State) (i : Slot) (r : Option Record) : (s.setSlot i r).inputs = s.inputs := rfl

@[simp] theorem State.setSlot_bench (s : State) (i : Slot) (r : Option Record) : (s.setSlot i r).bench = s.bench := rfl

@[simp] theorem State.setSlot_config (s : State) (i : Slot) (r : Option Record) : (s.setSlot i r).config = s.config := rfl

@[simp] theorem State.setSlot_allocPtr (s : State) (i : Slot) (r : Option Record) : (s.setSlot i r).allocPtr = s.allocPtr := rfl

@[simp] theorem State.setSlot_ports (s : State) (i : Slot) (r : Option Record) : (s.setSlot i r).ports = s.ports := rfl

@[simp] theorem State.setSlot_rotation (s : State) (i : Slot) (r : Option Record) : (s.setSlot i r).rotation = s.rotation := rfl

@[simp] theorem State.setSlot_supply (s : State) (i : Slot) (r : Option Record) : (s.setSlot i r).supply = s.supply := rfl

@[simp] theorem State.setSlot_dupFilter (s : State) (i : Slot) (r : Option Record) : (s.setSlot i r).dupFilter = s.dupFilter := rfl

@[simp] theorem State.setSlot_stationA (s : State) (i : Slot) (r : Option Record) : (s.setSlot i r).stationA = s.stationA := rfl

@[simp] theorem State.setSlot_stationB (s : State) (i : Slot) (r : Option Record) : (s.setSlot i r).stationB = s.stationB := rfl

@[simp] theorem State.setSlot_scannerReader (s : State) (i : Slot) (r : Option Record) : (s.setSlot i r).scannerReader = s.scannerReader := rfl

@[simp] theorem State.setSlot_portReaders (s : State) (i : Slot) (r : Option Record) : (s.setSlot i r).portReaders = s.portReaders := rfl

@[simp] theorem State.setSlot_link (s : State) (i : Slot) (r : Option Record) : (s.setSlot i r).link = s.link := rfl

@[simp] theorem State.setSlot_notices (s : State) (i : Slot) (r : Option Record) : (s.setSlot i r).notices = s.notices := rfl

@[simp] theorem State.setSlot_overflow (s : State) (i : Slot) (r : Option Record) : (s.setSlot i r).overflow = s.overflow := rfl

@[simp] theorem State.setSlot_draws (s : State) (i : Slot) (r : Option Record) : (s.setSlot i r).draws = s.draws := rfl

@[simp] theorem State.setSlot_meets (s : State) (i : Slot) (r : Option Record) : (s.setSlot i r).meets = s.meets := rfl

@[simp] theorem State.setSlot_pending (s : State) (i : Slot) (r : Option Record) : (s.setSlot i r).pending = s.pending := rfl

@[simp] theorem State.mapSlots_resetHeld (s : State) (f : Option Record → Option Record) : (s.mapSlots f).resetHeld = s.resetHeld := rfl

@[simp] theorem State.mapSlots_inputs (s : State) (f : Option Record → Option Record) : (s.mapSlots f).inputs = s.inputs := rfl

@[simp] theorem State.mapSlots_bench (s : State) (f : Option Record → Option Record) : (s.mapSlots f).bench = s.bench := rfl

@[simp] theorem State.mapSlots_config (s : State) (f : Option Record → Option Record) : (s.mapSlots f).config = s.config := rfl

@[simp] theorem State.mapSlots_allocPtr (s : State) (f : Option Record → Option Record) : (s.mapSlots f).allocPtr = s.allocPtr := rfl

@[simp] theorem State.mapSlots_ports (s : State) (f : Option Record → Option Record) : (s.mapSlots f).ports = s.ports := rfl

@[simp] theorem State.mapSlots_rotation (s : State) (f : Option Record → Option Record) : (s.mapSlots f).rotation = s.rotation := rfl

@[simp] theorem State.mapSlots_supply (s : State) (f : Option Record → Option Record) : (s.mapSlots f).supply = s.supply := rfl

@[simp] theorem State.mapSlots_dupFilter (s : State) (f : Option Record → Option Record) : (s.mapSlots f).dupFilter = s.dupFilter := rfl

@[simp] theorem State.mapSlots_stationA (s : State) (f : Option Record → Option Record) : (s.mapSlots f).stationA = s.stationA := rfl

@[simp] theorem State.mapSlots_stationB (s : State) (f : Option Record → Option Record) : (s.mapSlots f).stationB = s.stationB := rfl

@[simp] theorem State.mapSlots_scannerReader (s : State) (f : Option Record → Option Record) : (s.mapSlots f).scannerReader = s.scannerReader := rfl

@[simp] theorem State.mapSlots_portReaders (s : State) (f : Option Record → Option Record) : (s.mapSlots f).portReaders = s.portReaders := rfl

@[simp] theorem State.mapSlots_link (s : State) (f : Option Record → Option Record) : (s.mapSlots f).link = s.link := rfl

@[simp] theorem State.mapSlots_notices (s : State) (f : Option Record → Option Record) : (s.mapSlots f).notices = s.notices := rfl

@[simp] theorem State.mapSlots_overflow (s : State) (f : Option Record → Option Record) : (s.mapSlots f).overflow = s.overflow := rfl

@[simp] theorem State.mapSlots_draws (s : State) (f : Option Record → Option Record) : (s.mapSlots f).draws = s.draws := rfl

@[simp] theorem State.mapSlots_meets (s : State) (f : Option Record → Option Record) : (s.mapSlots f).meets = s.meets := rfl

@[simp] theorem State.mapSlots_pending (s : State) (f : Option Record → Option Record) : (s.mapSlots f).pending = s.pending := rfl

@[simp] theorem State.setPort_resetHeld (s : State) (p : Port) (r : PortRec) : (s.setPort p r).resetHeld = s.resetHeld := rfl

@[simp] theorem State.setPort_inputs (s : State) (p : Port) (r : PortRec) : (s.setPort p r).inputs = s.inputs := rfl

@[simp] theorem State.setPort_bench (s : State) (p : Port) (r : PortRec) : (s.setPort p r).bench = s.bench := rfl

@[simp] theorem State.setPort_config (s : State) (p : Port) (r : PortRec) : (s.setPort p r).config = s.config := rfl

@[simp] theorem State.setPort_slots (s : State) (p : Port) (r : PortRec) : (s.setPort p r).slots = s.slots := rfl

@[simp] theorem State.setPort_allocPtr (s : State) (p : Port) (r : PortRec) : (s.setPort p r).allocPtr = s.allocPtr := rfl

@[simp] theorem State.setPort_rotation (s : State) (p : Port) (r : PortRec) : (s.setPort p r).rotation = s.rotation := rfl

@[simp] theorem State.setPort_supply (s : State) (p : Port) (r : PortRec) : (s.setPort p r).supply = s.supply := rfl

@[simp] theorem State.setPort_dupFilter (s : State) (p : Port) (r : PortRec) : (s.setPort p r).dupFilter = s.dupFilter := rfl

@[simp] theorem State.setPort_stationA (s : State) (p : Port) (r : PortRec) : (s.setPort p r).stationA = s.stationA := rfl

@[simp] theorem State.setPort_stationB (s : State) (p : Port) (r : PortRec) : (s.setPort p r).stationB = s.stationB := rfl

@[simp] theorem State.setPort_scannerReader (s : State) (p : Port) (r : PortRec) : (s.setPort p r).scannerReader = s.scannerReader := rfl

@[simp] theorem State.setPort_portReaders (s : State) (p : Port) (r : PortRec) : (s.setPort p r).portReaders = s.portReaders := rfl

@[simp] theorem State.setPort_link (s : State) (p : Port) (r : PortRec) : (s.setPort p r).link = s.link := rfl

@[simp] theorem State.setPort_notices (s : State) (p : Port) (r : PortRec) : (s.setPort p r).notices = s.notices := rfl

@[simp] theorem State.setPort_overflow (s : State) (p : Port) (r : PortRec) : (s.setPort p r).overflow = s.overflow := rfl

@[simp] theorem State.setPort_draws (s : State) (p : Port) (r : PortRec) : (s.setPort p r).draws = s.draws := rfl

@[simp] theorem State.setPort_meets (s : State) (p : Port) (r : PortRec) : (s.setPort p r).meets = s.meets := rfl

@[simp] theorem State.setPort_pending (s : State) (p : Port) (r : PortRec) : (s.setPort p r).pending = s.pending := rfl

@[simp] theorem State.setStation_resetHeld (s : State) (st : Station) (r : StationRec) : (s.setStation st r).resetHeld = s.resetHeld := by cases st <;> rfl

@[simp] theorem State.setStation_inputs (s : State) (st : Station) (r : StationRec) : (s.setStation st r).inputs = s.inputs := by cases st <;> rfl

@[simp] theorem State.setStation_bench (s : State) (st : Station) (r : StationRec) : (s.setStation st r).bench = s.bench := by cases st <;> rfl

@[simp] theorem State.setStation_config (s : State) (st : Station) (r : StationRec) : (s.setStation st r).config = s.config := by cases st <;> rfl

@[simp] theorem State.setStation_slots (s : State) (st : Station) (r : StationRec) : (s.setStation st r).slots = s.slots := by cases st <;> rfl

@[simp] theorem State.setStation_allocPtr (s : State) (st : Station) (r : StationRec) : (s.setStation st r).allocPtr = s.allocPtr := by cases st <;> rfl

@[simp] theorem State.setStation_ports (s : State) (st : Station) (r : StationRec) : (s.setStation st r).ports = s.ports := by cases st <;> rfl

@[simp] theorem State.setStation_rotation (s : State) (st : Station) (r : StationRec) : (s.setStation st r).rotation = s.rotation := by cases st <;> rfl

@[simp] theorem State.setStation_supply (s : State) (st : Station) (r : StationRec) : (s.setStation st r).supply = s.supply := by cases st <;> rfl

@[simp] theorem State.setStation_dupFilter (s : State) (st : Station) (r : StationRec) : (s.setStation st r).dupFilter = s.dupFilter := by cases st <;> rfl

@[simp] theorem State.setStation_scannerReader (s : State) (st : Station) (r : StationRec) : (s.setStation st r).scannerReader = s.scannerReader := by cases st <;> rfl

@[simp] theorem State.setStation_portReaders (s : State) (st : Station) (r : StationRec) : (s.setStation st r).portReaders = s.portReaders := by cases st <;> rfl

@[simp] theorem State.setStation_link (s : State) (st : Station) (r : StationRec) : (s.setStation st r).link = s.link := by cases st <;> rfl

@[simp] theorem State.setStation_notices (s : State) (st : Station) (r : StationRec) : (s.setStation st r).notices = s.notices := by cases st <;> rfl

@[simp] theorem State.setStation_overflow (s : State) (st : Station) (r : StationRec) : (s.setStation st r).overflow = s.overflow := by cases st <;> rfl

@[simp] theorem State.setStation_draws (s : State) (st : Station) (r : StationRec) : (s.setStation st r).draws = s.draws := by cases st <;> rfl

@[simp] theorem State.setStation_meets (s : State) (st : Station) (r : StationRec) : (s.setStation st r).meets = s.meets := by cases st <;> rfl

@[simp] theorem State.setStation_pending (s : State) (st : Station) (r : StationRec) : (s.setStation st r).pending = s.pending := by cases st <;> rfl

@[simp] theorem State.setReader_resetHeld (s : State) (c : Channel) (r : ReaderRec) : (s.setReader c r).resetHeld = s.resetHeld := by cases c <;> rfl

@[simp] theorem State.setReader_inputs (s : State) (c : Channel) (r : ReaderRec) : (s.setReader c r).inputs = s.inputs := by cases c <;> rfl

@[simp] theorem State.setReader_bench (s : State) (c : Channel) (r : ReaderRec) : (s.setReader c r).bench = s.bench := by cases c <;> rfl

@[simp] theorem State.setReader_config (s : State) (c : Channel) (r : ReaderRec) : (s.setReader c r).config = s.config := by cases c <;> rfl

@[simp] theorem State.setReader_slots (s : State) (c : Channel) (r : ReaderRec) : (s.setReader c r).slots = s.slots := by cases c <;> rfl

@[simp] theorem State.setReader_allocPtr (s : State) (c : Channel) (r : ReaderRec) : (s.setReader c r).allocPtr = s.allocPtr := by cases c <;> rfl

@[simp] theorem State.setReader_ports (s : State) (c : Channel) (r : ReaderRec) : (s.setReader c r).ports = s.ports := by cases c <;> rfl

@[simp] theorem State.setReader_rotation (s : State) (c : Channel) (r : ReaderRec) : (s.setReader c r).rotation = s.rotation := by cases c <;> rfl

@[simp] theorem State.setReader_supply (s : State) (c : Channel) (r : ReaderRec) : (s.setReader c r).supply = s.supply := by cases c <;> rfl

@[simp] theorem State.setReader_dupFilter (s : State) (c : Channel) (r : ReaderRec) : (s.setReader c r).dupFilter = s.dupFilter := by cases c <;> rfl

@[simp] theorem State.setReader_stationA (s : State) (c : Channel) (r : ReaderRec) : (s.setReader c r).stationA = s.stationA := by cases c <;> rfl

@[simp] theorem State.setReader_stationB (s : State) (c : Channel) (r : ReaderRec) : (s.setReader c r).stationB = s.stationB := by cases c <;> rfl

@[simp] theorem State.setReader_link (s : State) (c : Channel) (r : ReaderRec) : (s.setReader c r).link = s.link := by cases c <;> rfl

@[simp] theorem State.setReader_notices (s : State) (c : Channel) (r : ReaderRec) : (s.setReader c r).notices = s.notices := by cases c <;> rfl

@[simp] theorem State.setReader_overflow (s : State) (c : Channel) (r : ReaderRec) : (s.setReader c r).overflow = s.overflow := by cases c <;> rfl

@[simp] theorem State.setReader_draws (s : State) (c : Channel) (r : ReaderRec) : (s.setReader c r).draws = s.draws := by cases c <;> rfl

@[simp] theorem State.setReader_meets (s : State) (c : Channel) (r : ReaderRec) : (s.setReader c r).meets = s.meets := by cases c <;> rfl

@[simp] theorem State.setReader_pending (s : State) (c : Channel) (r : ReaderRec) : (s.setReader c r).pending = s.pending := by cases c <;> rfl

@[simp] theorem State.setInputs_resetHeld (s : State) (x : Inputs) : (s.setInputs x).resetHeld = s.resetHeld := rfl

@[simp] theorem State.setInputs_bench (s : State) (x : Inputs) : (s.setInputs x).bench = s.bench := rfl

@[simp] theorem State.setInputs_config (s : State) (x : Inputs) : (s.setInputs x).config = s.config := rfl

@[simp] theorem State.setInputs_slots (s : State) (x : Inputs) : (s.setInputs x).slots = s.slots := rfl

@[simp] theorem State.setInputs_allocPtr (s : State) (x : Inputs) : (s.setInputs x).allocPtr = s.allocPtr := rfl

@[simp] theorem State.setInputs_ports (s : State) (x : Inputs) : (s.setInputs x).ports = s.ports := rfl

@[simp] theorem State.setInputs_rotation (s : State) (x : Inputs) : (s.setInputs x).rotation = s.rotation := rfl

@[simp] theorem State.setInputs_supply (s : State) (x : Inputs) : (s.setInputs x).supply = s.supply := rfl

@[simp] theorem State.setInputs_dupFilter (s : State) (x : Inputs) : (s.setInputs x).dupFilter = s.dupFilter := rfl

@[simp] theorem State.setInputs_stationA (s : State) (x : Inputs) : (s.setInputs x).stationA = s.stationA := rfl

@[simp] theorem State.setInputs_stationB (s : State) (x : Inputs) : (s.setInputs x).stationB = s.stationB := rfl

@[simp] theorem State.setInputs_scannerReader (s : State) (x : Inputs) : (s.setInputs x).scannerReader = s.scannerReader := rfl

@[simp] theorem State.setInputs_portReaders (s : State) (x : Inputs) : (s.setInputs x).portReaders = s.portReaders := rfl

@[simp] theorem State.setInputs_link (s : State) (x : Inputs) : (s.setInputs x).link = s.link := rfl

@[simp] theorem State.setInputs_notices (s : State) (x : Inputs) : (s.setInputs x).notices = s.notices := rfl

@[simp] theorem State.setInputs_overflow (s : State) (x : Inputs) : (s.setInputs x).overflow = s.overflow := rfl

@[simp] theorem State.setInputs_draws (s : State) (x : Inputs) : (s.setInputs x).draws = s.draws := rfl

@[simp] theorem State.setInputs_meets (s : State) (x : Inputs) : (s.setInputs x).meets = s.meets := rfl

@[simp] theorem State.setInputs_pending (s : State) (x : Inputs) : (s.setInputs x).pending = s.pending := rfl

@[simp] theorem State.setSupply_resetHeld (s : State) (x : SupplyLink) : (s.setSupply x).resetHeld = s.resetHeld := rfl

@[simp] theorem State.setSupply_inputs (s : State) (x : SupplyLink) : (s.setSupply x).inputs = s.inputs := rfl

@[simp] theorem State.setSupply_bench (s : State) (x : SupplyLink) : (s.setSupply x).bench = s.bench := rfl

@[simp] theorem State.setSupply_config (s : State) (x : SupplyLink) : (s.setSupply x).config = s.config := rfl

@[simp] theorem State.setSupply_slots (s : State) (x : SupplyLink) : (s.setSupply x).slots = s.slots := rfl

@[simp] theorem State.setSupply_allocPtr (s : State) (x : SupplyLink) : (s.setSupply x).allocPtr = s.allocPtr := rfl

@[simp] theorem State.setSupply_ports (s : State) (x : SupplyLink) : (s.setSupply x).ports = s.ports := rfl

@[simp] theorem State.setSupply_rotation (s : State) (x : SupplyLink) : (s.setSupply x).rotation = s.rotation := rfl

@[simp] theorem State.setSupply_dupFilter (s : State) (x : SupplyLink) : (s.setSupply x).dupFilter = s.dupFilter := rfl

@[simp] theorem State.setSupply_stationA (s : State) (x : SupplyLink) : (s.setSupply x).stationA = s.stationA := rfl

@[simp] theorem State.setSupply_stationB (s : State) (x : SupplyLink) : (s.setSupply x).stationB = s.stationB := rfl

@[simp] theorem State.setSupply_scannerReader (s : State) (x : SupplyLink) : (s.setSupply x).scannerReader = s.scannerReader := rfl

@[simp] theorem State.setSupply_portReaders (s : State) (x : SupplyLink) : (s.setSupply x).portReaders = s.portReaders := rfl

@[simp] theorem State.setSupply_link (s : State) (x : SupplyLink) : (s.setSupply x).link = s.link := rfl

@[simp] theorem State.setSupply_notices (s : State) (x : SupplyLink) : (s.setSupply x).notices = s.notices := rfl

@[simp] theorem State.setSupply_overflow (s : State) (x : SupplyLink) : (s.setSupply x).overflow = s.overflow := rfl

@[simp] theorem State.setSupply_draws (s : State) (x : SupplyLink) : (s.setSupply x).draws = s.draws := rfl

@[simp] theorem State.setSupply_meets (s : State) (x : SupplyLink) : (s.setSupply x).meets = s.meets := rfl

@[simp] theorem State.setSupply_pending (s : State) (x : SupplyLink) : (s.setSupply x).pending = s.pending := rfl

@[simp] theorem State.setLink_resetHeld (s : State) (x : CommandLink) : (s.setLink x).resetHeld = s.resetHeld := rfl

@[simp] theorem State.setLink_inputs (s : State) (x : CommandLink) : (s.setLink x).inputs = s.inputs := rfl

@[simp] theorem State.setLink_bench (s : State) (x : CommandLink) : (s.setLink x).bench = s.bench := rfl

@[simp] theorem State.setLink_config (s : State) (x : CommandLink) : (s.setLink x).config = s.config := rfl

@[simp] theorem State.setLink_slots (s : State) (x : CommandLink) : (s.setLink x).slots = s.slots := rfl

@[simp] theorem State.setLink_allocPtr (s : State) (x : CommandLink) : (s.setLink x).allocPtr = s.allocPtr := rfl

@[simp] theorem State.setLink_ports (s : State) (x : CommandLink) : (s.setLink x).ports = s.ports := rfl

@[simp] theorem State.setLink_rotation (s : State) (x : CommandLink) : (s.setLink x).rotation = s.rotation := rfl

@[simp] theorem State.setLink_supply (s : State) (x : CommandLink) : (s.setLink x).supply = s.supply := rfl

@[simp] theorem State.setLink_dupFilter (s : State) (x : CommandLink) : (s.setLink x).dupFilter = s.dupFilter := rfl

@[simp] theorem State.setLink_stationA (s : State) (x : CommandLink) : (s.setLink x).stationA = s.stationA := rfl

@[simp] theorem State.setLink_stationB (s : State) (x : CommandLink) : (s.setLink x).stationB = s.stationB := rfl

@[simp] theorem State.setLink_scannerReader (s : State) (x : CommandLink) : (s.setLink x).scannerReader = s.scannerReader := rfl

@[simp] theorem State.setLink_portReaders (s : State) (x : CommandLink) : (s.setLink x).portReaders = s.portReaders := rfl

@[simp] theorem State.setLink_notices (s : State) (x : CommandLink) : (s.setLink x).notices = s.notices := rfl

@[simp] theorem State.setLink_overflow (s : State) (x : CommandLink) : (s.setLink x).overflow = s.overflow := rfl

@[simp] theorem State.setLink_draws (s : State) (x : CommandLink) : (s.setLink x).draws = s.draws := rfl

@[simp] theorem State.setLink_meets (s : State) (x : CommandLink) : (s.setLink x).meets = s.meets := rfl

@[simp] theorem State.setLink_pending (s : State) (x : CommandLink) : (s.setLink x).pending = s.pending := rfl

@[simp] theorem State.post_resetHeld (s : State) (n : Notice) : (s.post n).resetHeld = s.resetHeld := by unfold State.post; split <;> rfl

@[simp] theorem State.post_inputs (s : State) (n : Notice) : (s.post n).inputs = s.inputs := by unfold State.post; split <;> rfl

@[simp] theorem State.post_bench (s : State) (n : Notice) : (s.post n).bench = s.bench := by unfold State.post; split <;> rfl

@[simp] theorem State.post_config (s : State) (n : Notice) : (s.post n).config = s.config := by unfold State.post; split <;> rfl

@[simp] theorem State.post_slots (s : State) (n : Notice) : (s.post n).slots = s.slots := by unfold State.post; split <;> rfl

@[simp] theorem State.post_allocPtr (s : State) (n : Notice) : (s.post n).allocPtr = s.allocPtr := by unfold State.post; split <;> rfl

@[simp] theorem State.post_ports (s : State) (n : Notice) : (s.post n).ports = s.ports := by unfold State.post; split <;> rfl

@[simp] theorem State.post_rotation (s : State) (n : Notice) : (s.post n).rotation = s.rotation := by unfold State.post; split <;> rfl

@[simp] theorem State.post_supply (s : State) (n : Notice) : (s.post n).supply = s.supply := by unfold State.post; split <;> rfl

@[simp] theorem State.post_dupFilter (s : State) (n : Notice) : (s.post n).dupFilter = s.dupFilter := by unfold State.post; split <;> rfl

@[simp] theorem State.post_stationA (s : State) (n : Notice) : (s.post n).stationA = s.stationA := by unfold State.post; split <;> rfl

@[simp] theorem State.post_stationB (s : State) (n : Notice) : (s.post n).stationB = s.stationB := by unfold State.post; split <;> rfl

@[simp] theorem State.post_scannerReader (s : State) (n : Notice) : (s.post n).scannerReader = s.scannerReader := by unfold State.post; split <;> rfl

@[simp] theorem State.post_portReaders (s : State) (n : Notice) : (s.post n).portReaders = s.portReaders := by unfold State.post; split <;> rfl

@[simp] theorem State.post_link (s : State) (n : Notice) : (s.post n).link = s.link := by unfold State.post; split <;> rfl

@[simp] theorem State.post_draws (s : State) (n : Notice) : (s.post n).draws = s.draws := by unfold State.post; split <;> rfl

@[simp] theorem State.post_meets (s : State) (n : Notice) : (s.post n).meets = s.meets := by unfold State.post; split <;> rfl

@[simp] theorem State.post_pending (s : State) (n : Notice) : (s.post n).pending = s.pending := by unfold State.post; split <;> rfl

@[simp] theorem State.setInputs_inputs (s : State) (x : Inputs) : (s.setInputs x).inputs = x := rfl

@[simp] theorem State.setSupply_supply (s : State) (x : SupplyLink) : (s.setSupply x).supply = x := rfl

@[simp] theorem State.setLink_link (s : State) (x : CommandLink) : (s.setLink x).link = x := rfl

/-! ### Reads through an update of something else -/

@[simp] theorem State.port_setSlot (s : State) (i : Slot) (r : Option Record) (q : Port) : (s.setSlot i r).port q = s.port q := rfl

@[simp] theorem State.station_setSlot (s : State) (i : Slot) (r : Option Record) (z : Station) : (s.setSlot i r).station z = s.station z := by cases z <;> rfl

@[simp] theorem State.reader_setSlot (s : State) (i : Slot) (r : Option Record) (d : Channel) : (s.setSlot i r).reader d = s.reader d := by cases d <;> rfl

@[simp] theorem State.port_mapSlots (s : State) (f : Option Record → Option Record) (q : Port) : (s.mapSlots f).port q = s.port q := rfl

@[simp] theorem State.station_mapSlots (s : State) (f : Option Record → Option Record) (z : Station) : (s.mapSlots f).station z = s.station z := by cases z <;> rfl

@[simp] theorem State.reader_mapSlots (s : State) (f : Option Record → Option Record) (d : Channel) : (s.mapSlots f).reader d = s.reader d := by cases d <;> rfl

@[simp] theorem State.record_setPort (s : State) (p : Port) (r : PortRec) (j : Slot) : (s.setPort p r).record j = s.record j := rfl

@[simp] theorem State.source_setPort (s : State) (p : Port) (r : PortRec) (j : Slot) : (s.setPort p r).source j = s.source j := rfl

@[simp] theorem State.order_setPort (s : State) (p : Port) (r : PortRec) (j : Slot) : (s.setPort p r).order j = s.order j := rfl

@[simp] theorem State.station_setPort (s : State) (p : Port) (r : PortRec) (z : Station) : (s.setPort p r).station z = s.station z := by cases z <;> rfl

@[simp] theorem State.reader_setPort (s : State) (p : Port) (r : PortRec) (d : Channel) : (s.setPort p r).reader d = s.reader d := by cases d <;> rfl

@[simp] theorem State.record_setStation (s : State) (st : Station) (r : StationRec) (j : Slot) : (s.setStation st r).record j = s.record j := by cases st <;> rfl

@[simp] theorem State.source_setStation (s : State) (st : Station) (r : StationRec) (j : Slot) : (s.setStation st r).source j = s.source j := by simp [State.source]

@[simp] theorem State.order_setStation (s : State) (st : Station) (r : StationRec) (j : Slot) : (s.setStation st r).order j = s.order j := by simp [State.order]

@[simp] theorem State.port_setStation (s : State) (st : Station) (r : StationRec) (q : Port) : (s.setStation st r).port q = s.port q := by cases st <;> rfl

@[simp] theorem State.reader_setStation (s : State) (st : Station) (r : StationRec) (d : Channel) : (s.setStation st r).reader d = s.reader d := by cases d <;> simp [State.reader]

@[simp] theorem State.record_setReader (s : State) (c : Channel) (r : ReaderRec) (j : Slot) : (s.setReader c r).record j = s.record j := by cases c <;> rfl

@[simp] theorem State.source_setReader (s : State) (c : Channel) (r : ReaderRec) (j : Slot) : (s.setReader c r).source j = s.source j := by simp [State.source]

@[simp] theorem State.order_setReader (s : State) (c : Channel) (r : ReaderRec) (j : Slot) : (s.setReader c r).order j = s.order j := by simp [State.order]

@[simp] theorem State.port_setReader (s : State) (c : Channel) (r : ReaderRec) (q : Port) : (s.setReader c r).port q = s.port q := by cases c <;> rfl

@[simp] theorem State.station_setReader (s : State) (c : Channel) (r : ReaderRec) (z : Station) : (s.setReader c r).station z = s.station z := by cases z <;> simp [State.station]

@[simp] theorem State.record_setInputs (s : State) (x : Inputs) (j : Slot) : (s.setInputs x).record j = s.record j := rfl

@[simp] theorem State.source_setInputs (s : State) (x : Inputs) (j : Slot) : (s.setInputs x).source j = s.source j := rfl

@[simp] theorem State.order_setInputs (s : State) (x : Inputs) (j : Slot) : (s.setInputs x).order j = s.order j := rfl

@[simp] theorem State.port_setInputs (s : State) (x : Inputs) (q : Port) : (s.setInputs x).port q = s.port q := rfl

@[simp] theorem State.station_setInputs (s : State) (x : Inputs) (z : Station) : (s.setInputs x).station z = s.station z := by cases z <;> rfl

@[simp] theorem State.reader_setInputs (s : State) (x : Inputs) (d : Channel) : (s.setInputs x).reader d = s.reader d := by cases d <;> rfl

@[simp] theorem State.record_setSupply (s : State) (x : SupplyLink) (j : Slot) : (s.setSupply x).record j = s.record j := rfl

@[simp] theorem State.source_setSupply (s : State) (x : SupplyLink) (j : Slot) : (s.setSupply x).source j = s.source j := rfl

@[simp] theorem State.order_setSupply (s : State) (x : SupplyLink) (j : Slot) : (s.setSupply x).order j = s.order j := rfl

@[simp] theorem State.port_setSupply (s : State) (x : SupplyLink) (q : Port) : (s.setSupply x).port q = s.port q := rfl

@[simp] theorem State.station_setSupply (s : State) (x : SupplyLink) (z : Station) : (s.setSupply x).station z = s.station z := by cases z <;> rfl

@[simp] theorem State.reader_setSupply (s : State) (x : SupplyLink) (d : Channel) : (s.setSupply x).reader d = s.reader d := by cases d <;> rfl

@[simp] theorem State.record_setLink (s : State) (x : CommandLink) (j : Slot) : (s.setLink x).record j = s.record j := rfl

@[simp] theorem State.source_setLink (s : State) (x : CommandLink) (j : Slot) : (s.setLink x).source j = s.source j := rfl

@[simp] theorem State.order_setLink (s : State) (x : CommandLink) (j : Slot) : (s.setLink x).order j = s.order j := rfl

@[simp] theorem State.port_setLink (s : State) (x : CommandLink) (q : Port) : (s.setLink x).port q = s.port q := rfl

@[simp] theorem State.station_setLink (s : State) (x : CommandLink) (z : Station) : (s.setLink x).station z = s.station z := by cases z <;> rfl

@[simp] theorem State.reader_setLink (s : State) (x : CommandLink) (d : Channel) : (s.setLink x).reader d = s.reader d := by cases d <;> rfl

@[simp] theorem State.record_post (s : State) (n : Notice) (j : Slot) : (s.post n).record j = s.record j := by unfold State.post; split <;> rfl

@[simp] theorem State.source_post (s : State) (n : Notice) (j : Slot) : (s.post n).source j = s.source j := by simp [State.source]

@[simp] theorem State.order_post (s : State) (n : Notice) (j : Slot) : (s.post n).order j = s.order j := by simp [State.order]

@[simp] theorem State.port_post (s : State) (n : Notice) (q : Port) : (s.post n).port q = s.port q := by unfold State.post; split <;> rfl

@[simp] theorem State.station_post (s : State) (n : Notice) (z : Station) : (s.post n).station z = s.station z := by cases z <;> simp [State.station]

@[simp] theorem State.reader_post (s : State) (n : Notice) (d : Channel) : (s.post n).reader d = s.reader d := by cases d <;> simp [State.reader]

/-! ### Reads of what an update wrote -/

theorem State.record_setSlot (s : State) (i j : Slot) (r : Option Record) :
    (s.setSlot i r).record j = if i = j then r else s.record j := by
  unfold State.record State.setSlot
  simp only [Vector.getElem_set]
  by_cases h : i = j
  · subst h; simp
  · have : i.val ≠ j.val := fun e => h (Fin.ext e)
    simp [h, this]

@[simp] theorem State.record_setSlot_self (s : State) (i : Slot) (r : Option Record) : (s.setSlot i r).record i = r := by
  simp [State.record_setSlot]

theorem State.record_setSlot_of_ne (s : State) {i j : Slot} (h : i ≠ j) (r : Option Record) :
    (s.setSlot i r).record j = s.record j := by
  simp [State.record_setSlot, h]

theorem State.source_eq_some {s : State} {i : Slot} {r : Source} :
    s.source i = some r ↔ s.record i = some (.source r) := by
  unfold State.source
  split
  · next h => simp [h]
  · next h => constructor
              · intro e; cases e
              · intro e; exact absurd e (h r)

theorem State.order_eq_some {s : State} {i : Slot} {r : Order} :
    s.order i = some r ↔ s.record i = some (.order r) := by
  unfold State.order
  split
  · next h => simp [h]
  · next h => constructor
              · intro e; cases e
              · intro e; exact absurd e (h r)

@[simp] theorem State.source_putSource_self (s : State) (i : Slot) (r : Source) : (s.putSource i r).source i = some r := by
  simp [State.source_eq_some, State.putSource]

theorem State.source_putSource_of_ne (s : State) {i j : Slot} (h : i ≠ j) (r : Source) :
    (s.putSource i r).source j = s.source j := by
  unfold State.source State.putSource
  rw [State.record_setSlot_of_ne s h]

theorem State.modifySource_of_some {s : State} {i : Slot} {r : Source} (h : s.source i = some r) (f : Source → Source) :
    s.modifySource i f = s.putSource i (f r) := by
  unfold State.modifySource; rw [h]

theorem State.modifySource_of_none {s : State} {i : Slot} (h : s.source i = none) (f : Source → Source) :
    s.modifySource i f = s := by
  unfold State.modifySource; rw [h]

theorem State.record_mapSlots (s : State) (f : Option Record → Option Record) (i : Slot) :
    (s.mapSlots f).record i = f (s.record i) := by
  unfold State.record State.mapSlots
  simp [Vector.getElem_mk]

theorem State.port_setPort (s : State) (p q : Port) (r : PortRec) :
    (s.setPort p r).port q = if p = q then r else s.port q := by
  unfold State.port State.setPort
  simp only [Vector.getElem_set]
  by_cases h : p = q
  · subst h; simp
  · have : p.val ≠ q.val := fun e => h (Fin.ext e)
    simp [h, this]

@[simp] theorem State.port_setPort_self (s : State) (p : Port) (r : PortRec) : (s.setPort p r).port p = r := by
  simp [State.port_setPort]

theorem State.port_setPort_of_ne (s : State) {p q : Port} (h : p ≠ q) (r : PortRec) :
    (s.setPort p r).port q = s.port q := by
  simp [State.port_setPort, h]

@[simp] theorem State.port_modifyPort_self (s : State) (p : Port) (f : PortRec → PortRec) :
    (s.modifyPort p f).port p = f (s.port p) := by
  simp [State.modifyPort]

theorem State.port_modifyPort_of_ne (s : State) {p q : Port} (h : p ≠ q) (f : PortRec → PortRec) :
    (s.modifyPort p f).port q = s.port q := by
  simp [State.modifyPort, State.port_setPort_of_ne s h]

@[simp] theorem State.station_setStation_self (s : State) (st : Station) (r : StationRec) :
    (s.setStation st r).station st = r := by
  cases st <;> rfl

theorem State.station_setStation_of_ne (s : State) {st z : Station} (h : st ≠ z) (r : StationRec) :
    (s.setStation st r).station z = s.station z := by
  cases st <;> cases z <;> first | rfl | exact absurd rfl h

@[simp] theorem State.station_modifyStation_self (s : State) (st : Station) (f : StationRec → StationRec) :
    (s.modifyStation st f).station st = f (s.station st) := by
  simp [State.modifyStation]

@[simp] theorem State.reader_setReader_self (s : State) (c : Channel) (r : ReaderRec) :
    (s.setReader c r).reader c = r := by
  cases c <;> simp [State.reader, State.setReader]

theorem State.reader_setReader_of_ne (s : State) {c d : Channel} (h : c ≠ d) (r : ReaderRec) :
    (s.setReader c r).reader d = s.reader d := by
  cases c with
  | scanner => cases d with
    | scanner => exact absurd rfl h
    | port q => rfl
  | port p => cases d with
    | scanner => rfl
    | port q =>
      have hpq : p.val ≠ q.val := fun e => h (by rw [Fin.ext e])
      simp [State.reader, State.setReader, hpq]

/-- What a posting does (R179): the newest place while there is room, else a count that saturates. -/
theorem State.post_spec (s : State) (n : Notice) :
    (s.notices.length < 32 → (s.post n).notices = s.notices ++ [n] ∧ (s.post n).overflow = s.overflow) ∧
    (32 ≤ s.notices.length → (s.post n).notices = s.notices ∧ (s.post n).overflow = saturate 255 s.overflow) := by
  unfold State.post
  constructor
  · intro h; rw [if_pos h]; exact ⟨rfl, rfl⟩
  · intro h; rw [if_neg (by simpa [Config.noticeLimit] using h)]; exact ⟨rfl, rfl⟩

end Sys2Proof.Machine
end

