-- ==== Sys2Proof/Laws/Changes.lean ====
section
/-! SUPPORT. What a step can do, said once: `Atom` lists the single changes an event is made of, each with what it keeps of
the laws of the spec, `Reach` their runs, and `Change` adds the changes of the bench as a whole. Every invariant is then
proved of each of them once (Laws/Reach.lean shows that every command is such a run). -/

namespace Sys2Proof.Machine

/-! ### What a change keeps -/

/-- A line keeps its target and quantity, and its state or, where it is OPEN or BLOCKED, takes a final one (R8, R9). -/
structure LineSettles (l m : Line) : Prop where
  target : m.target = l.target
  quantity : m.quantity = l.quantity
  state : m.state = l.state ∨ l.pending = true ∧ m.pending = false

/-- What a change keeps of a list of lines: every line at its index, no line more. -/
structure LinesSettle (ls ms : List Line) : Prop where
  line : ∀ (k : Nat) (l : Line), ls[k]? = some l → ∃ m, ms[k]? = some m ∧ LineSettles l m
  length : ms.length = ls.length

/-- The state of a line fits that of its target (R7, R9): OPEN a BOUND order, BLOCKED a MISSING one. -/
structure LineFits (st : OrderState) (l : Line) : Prop where
  onBound : l.state = .isOpen → st = .bound
  onMissing : l.state = .blocked → st = .missing

/-- A list of lines that a record of a station may hold (R8, R9): the law of the pick lines, for one record. -/
structure LinesServed (s : State) (st : Station) (ls : List Line) : Prop where
  served : ∀ l ∈ ls, l.pending = true →
    ∃ o, s.order l.target = some o ∧ positionStation o.position = st ∧ LineFits o.state l
  distinct : ∀ (j k : Nat) l m, ls[j]? = some l → ls[k]? = some m → l.state ≠ .cancelled → m.state ≠ .cancelled →
    l.target = m.target → j = k
  quantity : ∀ l ∈ ls, 1 ≤ l.quantity ∧ l.quantity ≤ 99

/-- No OPEN or BLOCKED line targets a slot. -/
def Unserved (s : State) (o : Slot) : Prop :=
  ∀ i r, s.source i = some r → ∀ l ∈ r.lines, l.pending = true → l.target ≠ o

/-- What a change keeps of a source record, its credit apart (R4 to R6, R86). -/
structure SourceKeeps (limit : Nat) (r q : Source) : Prop where
  tote : ToteKeeps r.tote q.tote
  port : q.port = r.port
  withdraw : r.withdraw = true → q.withdraw = true
  attempts : r.divertAttempts ≤ limit → q.divertAttempts ≤ limit
  backoff : r.backoff ≤ 15 → q.backoff ≤ 15
  recycle : r.recycleCount ≤ 2 → q.recycleCount ≤ 2
  lines : LinesSettle r.lines q.lines
  home : q.state = .returning → r.state = .returning ∨ ∀ l ∈ q.lines, l.pending = false

/-- What a change keeps of a slot that does not become FREE or taken by it: no credit is gained. -/
inductive SlotKeeps (limit : Nat) : Option Record → Option Record → Prop where
  | free : SlotKeeps limit none none
  | source {r q : Source} : SourceKeeps limit r q → (q.holdsCredit = true → r.holdsCredit = true) →
      SlotKeeps limit (some (.source r)) (some (.source q))
  | order {r q : Order} : ToteKeeps r.tote q.tote → q.position = r.position → q.state = r.state →
      SlotKeeps limit (some (.order r)) (some (.order q))

/-- What a change keeps of a port. -/
structure PortKeeps (q q' : PortRec) : Prop where
  lane : LaneLaw q → LaneLaw q'
  cause : CauseLaw q → CauseLaw q'
  queue : q.queue.Nodup → q'.queue.Nodup

/-- What a creation makes (R2, R12, R15, R29): a code no live record holds and that a record may hold, a legal exposure,
for a source record a roster with room, no credit, fresh counts and lines it may hold, and for an order record a free put
position (R7). -/
structure Fresh (s : State) (x : Record) : Prop where
  unheld : s.findCode x.tote.code = none
  legal : recordCode x.tote.code = true
  exposure : x.tote.exposure ≤ 65535
  source : ∀ r, x = .source r → r.holdsCredit = false ∧ s.rosterSize r.port < 10 ∧ r.divertAttempts = 0 ∧
    r.backoff = 0 ∧ r.recycleCount = 0 ∧ r.lines.length ≤ 8 ∧ r.state = .queued ∧
    LinesServed s (portStation r.port) r.lines
  position : ∀ o, x = .order o → s.orderAt o.position = none

/-! ### The changes -/

/-- The single changes an event is made of. None changes the bench state, the configuration, the reset hold or the
queue. -/
inductive Atom : State → State → Prop where
  | inputs (s : State) (x : Inputs) : Atom s (s.setInputs x)
  | slot (s : State) (i : Slot) (o : Option Record) : SlotKeeps s.config.divertLimit (s.record i) o → Atom s (s.setSlot i o)
  | slots (s : State) (f : Option Record → Option Record) : (∀ o, SlotKeeps s.config.divertLimit o (f o)) →
      Atom s (s.mapSlots f)
  | credit (s : State) (i : Slot) (r q : Source) : s.source i = some r → SourceKeeps s.config.divertLimit r q →
      s.creditsInUse < 4 → Atom s (s.putSource i q)
  | retire (s : State) (i : Slot) : s.order i = none ∨ Unserved s i → Atom s (s.setSlot i none)
  | moveOrder (s : State) (o : Slot) (r q : Order) (test : Line → Bool) (dest : LineState) : s.order o = some r →
      ToteKeeps r.tote q.tote → q.position = r.position → (∀ l, test l = true → l.pending = true) →
      (∀ l, LineFits r.state l → LineFits q.state (if test l = true then { l with state := dest } else l)) →
      Atom s ((s.putOrder o q).moveLinesFor o test dest)
  | amend (s : State) (i : Slot) (r : Source) (ls : List Line) : s.source i = some r → r.state ≠ .returning →
      LinesKeep r.lines ls → (LinesServed s (portStation r.port) r.lines → LinesServed s (portStation r.port) ls) →
      Atom s (s.putSource i { r with lines := ls })
  | port (s : State) (p : Port) (q : PortRec) : PortKeeps (s.port p) q → Atom s (s.setPort p q)
  | rotation (s : State) (p : Port) : Atom s { s with rotation := p }
  | supply (s : State) (x : SupplyLink) : (s.supply.staleCount ≤ 65535 → x.staleCount ≤ 65535) →
      (s.supply.badCount ≤ 65535 → x.badCount ≤ 65535) → Atom s (s.setSupply x)
  | filter (s : State) (f : Option FilterEntry) : Atom s { s with dupFilter := f }
  | station (s : State) (st : Station) (q : StationRec) : (StationLaw (s.station st) → StationLaw q) →
      Atom s (s.setStation st q)
  | reader (s : State) (c : Channel) (q : ReaderRec) :
      (0 < s.config.readerWindow → ReaderLaw s.config.readerWindow (s.reader c) → ReaderLaw s.config.readerWindow q) →
      Atom s (s.setReader c q)
  | link (s : State) (x : CommandLink) : (s.link.discardCount ≤ 65535 → x.discardCount ≤ 65535) → Atom s (s.setLink x)
  | post (s : State) (n : Notice) : Atom s (s.post n)
  | give (s : State) (k : Nat) : Atom s { s with notices := s.notices.drop k, overflow := 0 }
  | draw (s : State) : Atom s { s with draws := s.draws + 1 }
  | meets (s : State) (x : Option Nat) : Atom s { s with meets := x }

/-- Runs of single changes. -/
abbrev Reach : State → State → Prop := Relation.ReflTransGen Atom

/-- The changes of the machine: the single ones, the creation of a record (R1), and those of the bench as a whole (R167). -/
inductive Change : State → State → Prop where
  | atom {s t : State} : Atom s t → Change s t
  | create (s : State) (i : Slot) (x : Record) : s.record i = none → Fresh s x → Change s (s.create i x)
  | run (s : State) : s.bench = .configured ∨ s.bench = .halted → Change s s.run
  | halt (s : State) : s.bench = .running → Change s { s with bench := .halted }
  | reconfigure (s : State) (a : ConfigArgs) : s.bench ≠ .running → configFirstBad a = none →
      Change s (s.reconfigured (configurationOf a))
  | clear (s : State) : s.bench = .configured ∨ s.bench = .halted → Change s s.emptied

/-- Runs of changes. -/
abbrev Changes : State → State → Prop := Relation.ReflTransGen Change

/-- What a command does: a run of changes, or a hardware reset and a run of changes after it. -/
def Event (s t : State) : Prop := Changes s t ∨ ∃ held, Changes (s.afterReset held) t

theorem Reach.refl (s : State) : Reach s s := Relation.ReflTransGen.refl

theorem Reach.one {s t : State} (h : Atom s t) : Reach s t := Relation.ReflTransGen.single h

/-- Two runs, the later one named first. -/
theorem Reach.after {s t u : State} (later : Reach t u) (earlier : Reach s t) : Reach s u :=
  Relation.ReflTransGen.trans earlier later

theorem Reach.changes {s t : State} (h : Reach s t) : Changes s t := by
  induction h with
  | refl => exact .refl
  | tail _ h ih => exact ih.tail (.atom h)

/-- A run of single changes followed, for each element of a list, by one more. -/
theorem Reach.foldl {α : Type} (f : State → α → State) (h : ∀ s a, Reach s (f s a)) (l : List α) :
    ∀ s, Reach s (l.foldl f s) := by
  induction l with
  | nil => intro s; exact .refl s
  | cons a l ih => intro s; exact (h s a).trans (ih (f s a))

/-- A property that every single change keeps, a run keeps. -/
theorem Reach.keeps {P : State → Prop} (h : ∀ s t, Atom s t → P s → P t) {s t : State} (hr : Reach s t) (hs : P s) : P t := by
  induction hr with
  | refl => exact hs
  | tail _ ha ih => exact h _ _ ha ih

/-- A property that every change keeps, a run keeps. -/
theorem Changes.keeps {P : State → Prop} (h : ∀ s t, Change s t → P s → P t) {s t : State} (hr : Changes s t) (hs : P s) :
    P t := by
  induction hr with
  | refl => exact hs
  | tail _ ha ih => exact h _ _ ha ih

/-- A property that every change keeps and a hardware reset gives, every event keeps. -/
theorem Event.keeps {P : State → Prop} (h : ∀ s t, Change s t → P s → P t) (hr : ∀ (s : State) (held : Bool), P (s.afterReset held))
    {s t : State} (he : Event s t) (hs : P s) : P t := by
  rcases he with he | ⟨held, he⟩
  · exact Changes.keeps h he hs
  · exact Changes.keeps h he (hr s held)

/-! ### What no change touches -/

theorem Atom.bench {s t : State} (h : Atom s t) : t.bench = s.bench := by cases h <;> first | rfl | simp

theorem Atom.config {s t : State} (h : Atom s t) : t.config = s.config := by cases h <;> first | rfl | simp

theorem Atom.resetHeld {s t : State} (h : Atom s t) : t.resetHeld = s.resetHeld := by
  cases h <;> first | rfl | simp

theorem Atom.pending {s t : State} (h : Atom s t) : t.pending = s.pending := by
  cases h <;> first | rfl | simp

theorem Reach.bench {s t : State} (h : Reach s t) : t.bench = s.bench :=
  h.keeps (P := fun u => u.bench = s.bench) (fun _ _ ha hb => ha.bench.trans hb) rfl

theorem Reach.config {s t : State} (h : Reach s t) : t.config = s.config :=
  h.keeps (P := fun u => u.config = s.config) (fun _ _ ha hb => ha.config.trans hb) rfl

theorem Change.resetHeld {s t : State} (h : Change s t) : t.resetHeld = s.resetHeld := by
  cases h with
  | atom h => exact h.resetHeld
  | create i x _ _ => rfl
  | run _ => rfl
  | halt _ => rfl
  | reconfigure a _ _ => unfold State.reconfigured; split <;> rfl
  | clear _ => rfl

theorem Change.pending {s t : State} (h : Change s t) : t.pending = s.pending := by
  cases h with
  | atom h => exact h.pending
  | create i x _ _ => rfl
  | run _ => rfl
  | halt _ => rfl
  | reconfigure a _ _ => unfold State.reconfigured; split <;> rfl
  | clear _ => rfl

theorem Changes.resetHeld {s t : State} (h : Changes s t) : t.resetHeld = s.resetHeld :=
  h.keeps (P := fun u => u.resetHeld = s.resetHeld) (fun _ _ ha hb => ha.resetHeld.trans hb) rfl

theorem Changes.pending {s t : State} (h : Changes s t) : t.pending = s.pending :=
  h.keeps (P := fun u => u.pending = s.pending) (fun _ _ ha hb => ha.pending.trans hb) rfl

/-! ### Keeping, for the changes the operations make -/

theorem ToteKeeps.refl (t : Tote) : ToteKeeps t t := ⟨rfl, rfl, le_refl _, id, id, id⟩

theorem ToteKeeps.of_running (t : Tote) (b : Bool) : ToteKeeps t { t with running := b } :=
  ⟨rfl, rfl, le_refl _, id, id, id⟩

theorem LineSettles.refl (l : Line) : LineSettles l l := ⟨rfl, rfl, .inl rfl⟩

theorem LineSettles.trans {a b c : Line} (h : LineSettles a b) (g : LineSettles b c) : LineSettles a c := by
  refine ⟨g.target.trans h.target, g.quantity.trans h.quantity, ?_⟩
  rcases g.state with e | ⟨hb, hc⟩
  · rcases h.state with e' | ⟨ha, hb⟩
    · exact .inl (e.trans e')
    · exact .inr ⟨ha, by simpa [Line.pending, e] using hb⟩
  · rcases h.state with e' | ⟨_, hb'⟩
    · exact .inr ⟨by simpa [Line.pending, e'] using hb, hc⟩
    · rw [hb'] at hb; cases hb

/-- An OPEN or BLOCKED line of a pending state moves to a final one. -/
theorem LineSettles.final {l : Line} (hl : l.pending = true) {dest : LineState}
    (hd : ({ l with state := dest } : Line).pending = false) : LineSettles l { l with state := dest } :=
  ⟨rfl, rfl, .inr ⟨hl, hd⟩⟩

theorem LinesSettle.refl (ls : List Line) : LinesSettle ls ls := ⟨fun _ l h => ⟨l, h, .refl l⟩, rfl⟩

theorem LinesSettle.trans {a b c : List Line} (h : LinesSettle a b) (g : LinesSettle b c) : LinesSettle a c := by
  refine ⟨fun k l hl => ?_, g.length.trans h.length⟩
  obtain ⟨m, hm, h1⟩ := h.line k l hl
  obtain ⟨n, hn, h2⟩ := g.line k m hm
  exact ⟨n, hn, h1.trans h2⟩

/-- The line that a line of the new list comes from. -/
theorem LinesSettle.back {ls ms : List Line} (h : LinesSettle ls ms) {k : Nat} {m : Line} (hm : ms[k]? = some m) :
    ∃ l, ls[k]? = some l ∧ LineSettles l m := by
  have hk : k < ls.length := h.length ▸ (List.getElem?_eq_some_iff.mp hm).1
  obtain ⟨n, hn, hs⟩ := h.line k _ (List.getElem?_eq_getElem hk)
  rw [hm] at hn
  cases hn
  exact ⟨_, List.getElem?_eq_getElem hk, hs⟩

/-- What settles lines keeps them. -/
theorem LinesSettle.keep {ls ms : List Line} (h : LinesSettle ls ms) : LinesKeep ls ms := by
  refine ⟨fun k l hl => ?_, fun hl => h.length ▸ hl⟩
  obtain ⟨m, hm, hs⟩ := h.line k l hl
  refine ⟨m, hm, hs.target, hs.quantity, fun hp => ?_⟩
  rcases hs.state with e | ⟨e, _⟩
  · exact e
  · rw [hp] at e; cases e

theorem LinesSettle.map (f : Line → Line) (hf : ∀ l, LineSettles l (f l)) (ls : List Line) : LinesSettle ls (ls.map f) :=
  ⟨fun k l h => ⟨f l, by simp [h], hf l⟩, by simp⟩

theorem moveLines_settle (test : Line → Bool) (ht : ∀ l, test l = true → l.pending = true) (dest : LineState)
    (hd : ∀ l : Line, ({ l with state := dest } : Line).pending = false) (ls : List Line) :
    LinesSettle ls (moveLines test dest ls) := by
  refine LinesSettle.map _ (fun l => ?_) ls
  by_cases h : test l = true
  · rw [if_pos h]; exact .final (ht l h) (hd l)
  · rw [if_neg h]; exact .refl l

theorem setLine_settle (ls : List Line) (k : Nat) (dest : LineState)
    (hd : ∀ l : Line, ({ l with state := dest } : Line).pending = false) : LinesSettle ls (setLine ls k dest) := by
  refine ⟨fun j l h => ?_, by simp [setLine]⟩
  unfold setLine
  rw [List.getElem?_modify]
  by_cases hk : k = j
  · simp only [hk, if_true, h]
    by_cases hp : l.pending = true
    · exact ⟨_, by simp only [Option.map_eq_map, Option.map_some, hp, if_true], .final hp (hd l)⟩
    · exact ⟨l, by simp [hp], .refl l⟩
  · exact ⟨l, by simp [hk, h], .refl l⟩

theorem LinesKeep.refl (ls : List Line) : LinesKeep ls ls := (LinesSettle.refl ls).keep

theorem LinesKeep.trans {a b c : List Line} (h : LinesKeep a b) (g : LinesKeep b c) : LinesKeep a c := by
  refine ⟨fun k l hl => ?_, fun hl => g.length (h.length hl)⟩
  obtain ⟨m, hm, ht, hq, hs⟩ := h.line k l hl
  obtain ⟨n, hn, ht', hq', hs'⟩ := g.line k m hm
  refine ⟨n, hn, ht'.trans ht, hq'.trans hq, fun hp => ?_⟩
  have e := hs hp
  rw [hs' (by simpa [Line.pending, e] using hp), e]

theorem LinesKeep.append (ls ms : List Line) (h : ls.length ≤ 8 → (ls ++ ms).length ≤ 8) : LinesKeep ls (ls ++ ms) := by
  refine ⟨fun k l hl => ⟨l, ?_, rfl, rfl, fun _ => rfl⟩, h⟩
  rw [List.getElem?_append_left (by rcases List.getElem?_eq_some_iff.mp hl with ⟨hk, _⟩; exact hk)]
  exact hl

theorem resolveLines_settle (r : Source) (dest : LineState)
    (hd : ∀ l : Line, ({ l with state := dest } : Line).pending = false) :
    LinesSettle r.lines (r.resolveLines dest).lines := moveLines_settle _ (fun _ h => h) _ hd _

/-- Resolved lines are in final states. -/
theorem resolveLines_final (r : Source) (dest : LineState)
    (hd : ∀ l : Line, ({ l with state := dest } : Line).pending = false) :
    ∀ l ∈ (r.resolveLines dest).lines, l.pending = false := by
  intro l hl
  simp only [Source.resolveLines, moveLines, List.mem_map] at hl
  obtain ⟨m, _, rfl⟩ := hl
  by_cases h : m.pending = true
  · rw [if_pos h]; exact hd m
  · rw [if_neg h]; simpa using h

theorem deferCurrent_settle (r : Source) : LinesSettle r.lines r.deferCurrent := by
  unfold Source.deferCurrent
  split
  · exact setLine_settle _ _ _ (fun _ => rfl)
  · exact .refl _

theorem deferOthers_settle (r : Source) : LinesSettle r.lines r.deferOthers := by
  refine ⟨fun k l h => ?_, by simp [Source.deferOthers]⟩
  simp only [Source.deferOthers, List.getElem?_mapIdx, h, Option.map_some, Option.some.injEq, exists_eq_left']
  split
  · next hc =>
    have hp : l.pending = true := by
      simp only [Bool.and_eq_true] at hc
      exact hc.1
    exact .final hp rfl
  · exact .refl l

theorem cancelNamed_settle (cancels : List Byte) : ∀ ls, LinesSettle ls (cancelNamed cancels ls) := by
  induction cancels with
  | nil => intro ls; exact .refl ls
  | cons k rest ih => intro ls; exact (setLine_settle ls k.toNat .cancelled (fun _ => rfl)).trans (ih _)

theorem SourceKeeps.refl {limit : Nat} (r : Source) : SourceKeeps limit r r :=
  ⟨.refl _, rfl, id, id, id, id, .refl _, .inl⟩

/-- A change that leaves the fields the laws speak of. -/
theorem SourceKeeps.same {limit : Nat} {r q : Source} (ht : ToteKeeps r.tote q.tote) (hp : q.port = r.port)
    (hw : r.withdraw = true → q.withdraw = true) (ha : q.divertAttempts = r.divertAttempts) (hb : q.backoff = r.backoff)
    (hr : q.recycleCount = r.recycleCount) (hl : LinesSettle r.lines q.lines)
    (hh : q.state = .returning → r.state = .returning ∨ ∀ l ∈ q.lines, l.pending = false) : SourceKeeps limit r q :=
  ⟨ht, hp, hw, fun h => ha ▸ h, fun h => hb ▸ h, fun h => hr ▸ h, hl, hh⟩

theorem SourceKeeps.trans {limit : Nat} {a b c : Source} (h : SourceKeeps limit a b) (g : SourceKeeps limit b c) :
    SourceKeeps limit a c where
  tote := ⟨g.tote.code.trans h.tote.code, g.tote.cls.trans h.tote.cls, h.tote.exposure.trans g.tote.exposure,
    fun x => g.tote.capped (h.tote.capped x), fun x => g.tote.warned (h.tote.warned x),
    fun x => g.tote.expired (h.tote.expired x)⟩
  port := g.port.trans h.port
  withdraw x := g.withdraw (h.withdraw x)
  attempts x := g.attempts (h.attempts x)
  backoff x := g.backoff (h.backoff x)
  recycle x := g.recycle (h.recycle x)
  lines := h.lines.trans g.lines
  home e := by
    rcases g.home e with e' | e'
    · rcases h.home e' with e'' | e''
      · exact .inl e''
      · refine .inr (fun m hm => ?_)
        obtain ⟨k, hk, rfl⟩ := List.mem_iff_getElem.mp hm
        obtain ⟨l, hl, hs⟩ := g.lines.back (List.getElem?_eq_getElem hk)
        have := e'' l (List.mem_of_getElem? hl)
        rcases hs.state with x | ⟨x, _⟩
        · simpa [Line.pending, x] using this
        · rw [this] at x; cases x
    · exact .inr e'

theorem SlotKeeps.refl {limit : Nat} : ∀ o : Option Record, SlotKeeps limit o o
  | none => .free
  | some (.source r) => .source (.refl r) id
  | some (.order r) => .order (.refl r.tote) rfl rfl

theorem PortKeeps.refl (q : PortRec) : PortKeeps q q := ⟨id, id, id⟩

/-- A change that leaves the port state and cause, lengthens no lane list, sets no arm and lists no slot twice. -/
theorem PortKeeps.same {q q' : PortRec} (hl : q'.lane.length ≤ q.lane.length) (ha : q'.arm = q.arm ∨ q'.arm = none)
    (hm : q'.mode = q.mode) (hc : q'.cause = q.cause)
    (hq : q.queue.Nodup → q'.queue.Nodup) : PortKeeps q q' := by
  refine ⟨fun h => ?_, fun h => by unfold CauseLaw at *; rw [hm, hc]; exact h, hq⟩
  unfold LaneLaw PortRec.reservation at *
  rcases ha with ha | ha
  · rw [ha]; omega
  · rw [ha]; simp; omega

/-! ### Queue views list a slot once (R31) -/

theorem withoutSlot_nodup {i : Slot} {q : List Slot} (h : q.Nodup) : (withoutSlot i q).Nodup := h.filter _

theorem not_mem_withoutSlot (i : Slot) (q : List Slot) : i ∉ withoutSlot i q := by simp [withoutSlot]

theorem queueHead_nodup {i : Slot} {q : List Slot} (h : q.Nodup) : (i :: withoutSlot i q).Nodup :=
  List.nodup_cons.mpr ⟨not_mem_withoutSlot i q, withoutSlot_nodup h⟩

theorem queueTail_nodup {i : Slot} {q : List Slot} (h : q.Nodup) : (withoutSlot i q ++ [i]).Nodup := by
  refine List.Nodup.append (withoutSlot_nodup h) (List.nodup_singleton i) ?_
  simpa using not_mem_withoutSlot i q

theorem insertAhead_nodup {test : Slot → Bool} {i : Slot} : ∀ {q : List Slot}, i ∉ q → q.Nodup →
    (insertAhead test i q).Nodup := by
  have mem : ∀ (q : List Slot) j, j ∈ insertAhead test i q → j = i ∨ j ∈ q := by
    intro q
    induction q with
    | nil => intro j hj; simpa [insertAhead] using hj
    | cons a q ih =>
      intro j hj
      unfold insertAhead at hj
      split at hj
      · simpa using hj
      · rcases List.mem_cons.mp hj with rfl | hj
        · exact .inr (List.mem_cons_self ..)
        · exact (ih j hj).imp_right (List.mem_cons_of_mem _)
  intro q
  induction q with
  | nil => intro _ _; exact List.nodup_singleton i
  | cons a q ih =>
    intro hi h
    unfold insertAhead
    split
    · exact List.nodup_cons.mpr ⟨hi, h⟩
    · simp only [List.mem_cons, not_or] at hi
      obtain ⟨ha, hq⟩ := List.nodup_cons.mp h
      exact List.nodup_cons.mpr ⟨fun hm => (mem q a hm).elim (fun e => hi.1 e.symm) ha, ih hi.2 hq⟩

theorem queueAhead_nodup {test : Slot → Bool} {i : Slot} {q : List Slot} (h : q.Nodup) :
    (insertAhead test i (withoutSlot i q)).Nodup := insertAhead_nodup (not_mem_withoutSlot i q) (withoutSlot_nodup h)

end Sys2Proof.Machine
end

