-- ==== Sys2Proof/Laws/Lines.lean ====
section
/-! SUPPORT. The law of the pick lines (R6 to R9): a creation and an amendment make lines that a record may hold, and every
single change and every change keeps the law (`Atom.lineLaw`, `Change.lineLaw`). -/

namespace Sys2Proof.Machine

/-! ### The law, record by record -/

theorem LineFits.of_final {l : Line} (h : l.pending = false) (st : OrderState) : LineFits st l :=
  ⟨fun e => by simp [Line.pending, e] at h, fun e => by simp [Line.pending, e] at h⟩

theorem lineLaw_iff {s : State} : LineLaw s ↔ ∀ i r, s.source i = some r →
    LinesServed s (portStation r.port) r.lines ∧ (r.state = .returning → ∀ l ∈ r.lines, l.pending = false) := by
  constructor
  · intro h i r hr
    refine ⟨⟨fun l hl hp => ?_, fun j k l m => h.distinct i r j k l m hr, fun l => h.quantity i r l hr⟩,
      fun e l => h.home i r l hr e⟩
    obtain ⟨o, ho, hs, hb, hm⟩ := h.served i r l hr hl hp
    exact ⟨o, ho, hs, hb, hm⟩
  · intro h
    refine ⟨fun i r l hr hl hp => ?_, fun i r j k l m hr => (h i r hr).1.distinct j k l m,
      fun i r l hr => (h i r hr).1.quantity l, fun i r l hr e => (h i r hr).2 e l⟩
    obtain ⟨o, ho, hs, hf⟩ := (h i r hr).1.served l hl hp
    exact ⟨o, ho, hs, hf.onBound, hf.onMissing⟩

/-- The law reads the slots alone. -/
theorem LinesServed.of_order {s t : State} {st : Station} {ls : List Line} (h : LinesServed s st ls)
    (ho : ∀ i o, s.order i = some o → t.order i = some o) : LinesServed t st ls := by
  refine ⟨fun l hl hp => ?_, h.distinct, h.quantity⟩
  obtain ⟨o, e, hs, hf⟩ := h.served l hl hp
  exact ⟨o, ho _ _ e, hs, hf⟩

theorem LineLaw.of_record {s t : State} (h : LineLaw s) (he : ∀ i, t.record i = s.record i) : LineLaw t := by
  refine lineLaw_iff.mpr (fun i r hr => ?_)
  have hs : s.source i = some r := by rw [State.source_eq_some] at *; rw [← he, hr]
  obtain ⟨h1, h2⟩ := lineLaw_iff.mp h i r hs
  refine ⟨h1.of_order (fun j o ho => ?_), h2⟩
  rw [State.order_eq_some] at *
  rw [he, ho]

/-! ### A change that moves lines -/

/-- Where a line of a record comes from: a line at its index, with its target and quantity, CANCELLED if that is, and OPEN or
BLOCKED only if that is and if the target fits. -/
structure LineFrom (s t : State) (st : Station) (l m : Line) : Prop where
  target : m.target = l.target
  quantity : m.quantity = l.quantity
  cancelled : l.state = .cancelled → m.state = .cancelled
  pending : m.pending = true → l.pending = true
  fits : m.pending = true → ∀ o, s.order l.target = some o → positionStation o.position = st → LineFits o.state l →
    ∃ o', t.order l.target = some o' ∧ positionStation o'.position = st ∧ LineFits o'.state m

/-- Lines that come from lines a record may hold, it may hold. -/
theorem LinesServed.moved {s t : State} {st : Station} {ls ms : List Line} (h : LinesServed s st ls)
    (hm : ∀ (k : Nat) m, ms[k]? = some m → ∃ l, ls[k]? = some l ∧ LineFrom s t st l m) : LinesServed t st ms := by
  have back : ∀ m ∈ ms, ∃ l ∈ ls, LineFrom s t st l m := by
    intro m hmem
    obtain ⟨k, hk, rfl⟩ := List.mem_iff_getElem.mp hmem
    obtain ⟨l, e, hf⟩ := hm k _ (List.getElem?_eq_getElem hk)
    exact ⟨l, List.mem_of_getElem? e, hf⟩
  refine ⟨fun m hmem hpend => ?_, fun j k l m hj hk nl nm he => ?_, fun m hmem => ?_⟩
  · obtain ⟨l, hlm, hf⟩ := back m hmem
    obtain ⟨o, ho, hs, hfit⟩ := h.served l hlm (hf.pending hpend)
    obtain ⟨o', ho', hs', hfit'⟩ := hf.fits hpend o ho hs hfit
    exact ⟨o', by rw [hf.target]; exact ho', hs', hfit'⟩
  · obtain ⟨a, ha, fa⟩ := hm j l hj
    obtain ⟨b, hb, fb⟩ := hm k m hk
    refine h.distinct j k a b ha hb (fun x => nl (fa.cancelled x)) (fun x => nm (fb.cancelled x)) ?_
    rw [← fa.target, ← fb.target, he]
  · obtain ⟨l, hlm, hf⟩ := back m hmem
    rw [hf.quantity]
    exact h.quantity l hlm

/-- A change that makes no line and sends no record home with lines pending keeps the law. -/
theorem LineLaw.moved {s t : State} (h : LineLaw s)
    (hm : ∀ i q, t.source i = some q → ∃ r, s.source i = some r ∧ q.port = r.port ∧
      (∀ (k : Nat) m, q.lines[k]? = some m → ∃ l, r.lines[k]? = some l ∧ LineFrom s t (portStation r.port) l m) ∧
      (q.state = .returning → r.state = .returning ∨ ∀ l ∈ q.lines, l.pending = false)) : LineLaw t := by
  refine lineLaw_iff.mpr (fun i q hq => ?_)
  obtain ⟨r, hr, hp, hl, hh⟩ := hm i q hq
  obtain ⟨h1, h2⟩ := lineLaw_iff.mp h i r hr
  refine ⟨hp ▸ h1.moved hl, fun e m hmem => ?_⟩
  rcases hh e with x | x
  · obtain ⟨k, hk, rfl⟩ := List.mem_iff_getElem.mp hmem
    obtain ⟨l, e', hf⟩ := hl k _ (List.getElem?_eq_getElem hk)
    have := h2 x l (List.mem_of_getElem? e')
    by_contra hc
    rw [Bool.not_eq_false] at hc
    rw [hf.pending hc] at this
    cases this
  · exact x m hmem

/-- A settled line comes from the line at its index, if its target stands as it did. -/
theorem LineSettles.moved {s t : State} {st : Station} {l m : Line} (h : LineSettles l m)
    (ho : m.pending = true → ∀ o, s.order l.target = some o →
      ∃ o', t.order l.target = some o' ∧ o'.position = o.position ∧ o'.state = o.state) : LineFrom s t st l m := by
  have same : m.pending = true → m.state = l.state := by
    intro hp
    rcases h.state with e | ⟨_, e⟩
    · exact e
    · rw [e] at hp; cases hp
  refine ⟨h.target, h.quantity, fun e => ?_, fun hp => ?_, fun hp o e hs hf => ?_⟩
  · rcases h.state with x | ⟨x, _⟩
    · rw [x, e]
    · simp [Line.pending, e] at x
  · have e := same hp
    simpa [Line.pending, e] using hp
  · obtain ⟨o', e', e1, e2⟩ := ho hp o e
    have e := same hp
    exact ⟨o', e', e1 ▸ hs, fun x => e2 ▸ hf.onBound (e ▸ x), fun x => e2 ▸ hf.onMissing (e ▸ x)⟩

/-- Settled lines of a record, it may hold. -/
theorem LinesServed.settle {s : State} {st : Station} {ls ms : List Line} (h : LinesServed s st ls)
    (hm : LinesSettle ls ms) : LinesServed s st ms :=
  h.moved (fun _ _ e => (hm.back e).imp (fun _ hl => ⟨hl.1, hl.2.moved (fun _ o ho => ⟨o, ho, rfl, rfl⟩)⟩))

/-! ### New lines (R13, R16) -/

theorem slotByte_of_slotField {b : Byte} {i : Slot} (h : slotField b = some i) : slotByte i = b := by
  unfold slotField at h
  split at h
  · cases h
    exact BitVec.eq_of_toNat_eq (by simp [slotByte, byteOf])
  · cases h

theorem slotByte_inj {i j : Slot} (h : slotByte i = slotByte j) : i = j := by
  have := congrArg BitVec.toNat h
  simp only [slotByte, byteOf, BitVec.toNat_ofNat] at this
  have hi := i.isLt
  have hj := j.isLt
  exact Fin.ext (by omega)

/-- Lines made for a record: each of a live order of the station, its state by the order's, none of a target taken or made
twice. -/
structure NewLines (s : State) (st : Station) (taken : List Byte) (ls : List Line) : Prop where
  each : ∀ l ∈ ls, (∃ o, s.order l.target = some o ∧ positionStation o.position = st ∧ LineFits o.state l) ∧
    1 ≤ l.quantity ∧ l.quantity ≤ 99 ∧ slotByte l.target ∉ taken
  once : (ls.map (fun l => l.target)).Nodup

/-- Lines of which none is rejected (R13, R16). -/
theorem newLines_of_rejections {s : State} {st : Station} : ∀ (adds : List LineArg) (taken : List Byte),
    (s.rejections st taken adds).contains true = false → NewLines s st taken (adds.filterMap (s.newLine st)) := by
  intro adds
  induction adds with
  | nil => intro taken _; exact ⟨(fun _ h => nomatch h), List.nodup_nil⟩
  | cons a rest ih =>
    intro taken h
    simp only [State.rejections, List.contains_cons, Bool.or_eq_false_iff] at h
    obtain ⟨h1, h2⟩ := h
    have hrej : s.lineRejected st taken a = false := by simpa using h1
    simp only [State.lineRejected, Bool.or_eq_false_iff, Bool.not_eq_false', within, Bool.and_eq_true,
      decide_eq_true_eq] at hrej
    obtain ⟨⟨ht, hq⟩, hc⟩ := hrej
    obtain ⟨each, once⟩ := ih _ h2
    cases e : s.lineTarget st a with
    | none => rw [e] at ht; cases ht
    | some x =>
      obtain ⟨i, r⟩ := x
      have hnew : s.newLine st a =
          some { target := i, quantity := a.quantity.toNat, state := if r.state = .missing then .blocked else .isOpen } := by
        simp [State.newLine, e]
      have hline : slotByte i = a.target ∧ s.order i = some r ∧ positionStation r.position = st ∧ r.state ≠ .expired := by
        unfold State.lineTarget at e
        split at e
        · cases e
        · next hf =>
          split at e
          · cases e
          · next hr =>
            split at e
            · next hs => cases e; exact ⟨slotByte_of_slotField hf, hr, hs.1, hs.2⟩
            · cases e
      obtain ⟨hb, ho, hs, hx⟩ := hline
      rw [List.filterMap_cons_some hnew]
      refine ⟨fun l hl => ?_, ?_⟩
      · rcases List.mem_cons.mp hl with rfl | hl
        · refine ⟨⟨r, ho, hs, fun e' => ?_, fun e' => ?_⟩, hq.1, hq.2, ?_⟩
          · by_cases hm : r.state = .missing
            · simp [hm] at e'
            · cases hst : r.state <;> simp_all
          · by_cases hm : r.state = .missing
            · exact hm
            · simp [hm] at e'
          · rw [hb]; simpa using hc
        · obtain ⟨h1, h2, h3, h4⟩ := each l hl
          exact ⟨h1, h2, h3, fun hm => h4 (List.mem_append_left _ hm)⟩
      · simp only [List.map_cons, List.nodup_cons, List.mem_map, not_exists, not_and]
        refine ⟨fun l hl e' => ?_, once⟩
        refine (each l hl).2.2.2 ?_
        rw [e', hb]
        simp

theorem NewLines.state {s : State} {st : Station} {taken : List Byte} {ls : List Line} (h : NewLines s st taken ls) :
    LinesServed s st ls where
  served l hl _ := (h.each l hl).1
  distinct j k l m hj hk _ _ he := by
    refine (List.getElem?_inj ?_ h.once).mp ?_
    · simpa using (List.getElem?_eq_some_iff.mp hj).1
    · simp [hj, hk, he]
  quantity l hl := ⟨(h.each l hl).2.1, (h.each l hl).2.2.1⟩

/-- New lines behind lines a record holds, apart from the targets these take. -/
theorem LinesServed.append {s : State} {st : Station} {ls ms : List Line} (h : LinesServed s st ls)
    (hm : NewLines s st (liveTargets ls) ms) : LinesServed s st (ls ++ ms) := by
  have apart : ∀ l ∈ ls, ∀ m ∈ ms, l.state ≠ .cancelled → l.target ≠ m.target := by
    intro l hl m hmm hc e
    refine (hm.each m hmm).2.2.2 ?_
    rw [← e]
    exact List.mem_map.mpr ⟨l, List.mem_filter.mpr ⟨hl, by simpa using hc⟩, rfl⟩
  refine ⟨fun l hl hp => ?_, fun j k l m hj hk nl nm he => ?_, fun l hl => ?_⟩
  · rcases List.mem_append.mp hl with hl | hl
    · exact h.served l hl hp
    · exact hm.state.served l hl hp
  · by_cases hjl : j < ls.length <;> by_cases hkl : k < ls.length
    · rw [List.getElem?_append_left hjl] at hj
      rw [List.getElem?_append_left hkl] at hk
      exact h.distinct j k l m hj hk nl nm he
    · rw [List.getElem?_append_left hjl] at hj
      rw [List.getElem?_append_right (by omega)] at hk
      exact absurd he (apart l (List.mem_of_getElem? hj) m (List.mem_of_getElem? hk) nl)
    · rw [List.getElem?_append_right (by omega)] at hj
      rw [List.getElem?_append_left hkl] at hk
      exact absurd he.symm (apart m (List.mem_of_getElem? hk) l (List.mem_of_getElem? hj) nm)
    · rw [List.getElem?_append_right (by omega)] at hj hk
      have := hm.state.distinct _ _ l m hj hk nl nm he
      omega
  · rcases List.mem_append.mp hl with hl | hl
    · exact h.quantity l hl
    · exact hm.state.quantity l hl

/-! ### No pending line targets an order (R21) -/

theorem Unserved.of_source {s t : State} {o : Slot} (h : Unserved s o) (he : ∀ i, t.source i = s.source i) : Unserved t o :=
  fun i r hr => h i r (he i ▸ hr)

/-- A source record whose pending lines it held before. -/
theorem Unserved.putSource {s : State} {o : Slot} (h : Unserved s o) {i : Slot} {r q : Source} (hr : s.source i = some r)
    (hq : ∀ l ∈ q.lines, l.pending = true → l ∈ r.lines) : Unserved (s.putSource i q) o := by
  intro j x hx l hl hp
  by_cases hj : i = j
  · subst hj
    rw [State.source_putSource_self] at hx
    cases hx
    exact h i r hr l (hq l hl hp) hp
  · rw [State.source_putSource_of_ne s hj] at hx
    exact h j x hx l hl hp

theorem Unserved.modifySource {s : State} {o : Slot} (h : Unserved s o) (i : Slot) {f : Source → Source}
    (hf : ∀ r, (f r).lines = r.lines) : Unserved (s.modifySource i f) o := by
  cases e : s.source i with
  | none => rw [State.modifySource_of_none e]; exact h
  | some r =>
    rw [State.modifySource_of_some e]
    exact h.putSource e (fun l hl _ => by rw [hf] at hl; exact hl)

theorem Unserved.endPresentation {s : State} {o : Slot} (h : Unserved s o) (st : Station) :
    Unserved (s.endPresentation st) o := by
  unfold State.endPresentation
  split
  · exact h
  · next i _ =>
    have ended := (h.modifySource i (f := fun r => { r with current := none }) (fun _ => rfl)).of_source
      (t := (s.modifySource i (fun r => { r with current := none })).modifyStation st
        (fun r => { r with presentation := none, window := none })) (fun j => by simp [State.modifyStation])
    simp only
    split <;> first | exact ended | exact ended.of_source (fun j => by simp [State.enterHeld, State.modifyStation])

theorem Unserved.openStop {s : State} {o : Slot} (h : Unserved s o) (p : Port) : Unserved (s.openStop p) o := by
  have opened : Unserved (s.modifyPort p (fun r =>
      { r with stop := .openSeated, exitWindow := some Config.exitWindow })) o := h.of_source (fun _ => rfl)
  unfold State.openStop
  simp only
  split
  · have released := opened.modifySource ‹_› (f := fun r => { r with state := .releasing }) (fun _ => rfl)
    unfold State.endPresentationOf
    split
    · exact released.endPresentation _
    · exact released
  · exact opened

theorem Unserved.refreshLine {s : State} {o : Slot} (h : Unserved s o) (st : Station) : Unserved (s.refreshLine st) o := by
  unfold State.refreshLine
  split
  · split
    · exact h
    · unfold State.chooseLine
      split
      · exact h
      · split
        · exact h
        · next r hr =>
          split
          · exact h.putSource hr (fun _ hl _ => hl)
          · unfold State.releasePresented
            rw [hr]
            refine Unserved.openStop (h.putSource hr (fun l hl hp => ?_)) _
            simp only [moveLines, List.mem_map] at hl
            obtain ⟨m, hm, rfl⟩ := hl
            split at hp
            · cases hp
            · next hb => rw [if_neg hb]; exact hm
  · exact h

/-- Once its pending lines are ORPHANED, none targets an order. -/
theorem unserved_moveLinesFor (s : State) (o : Slot) : Unserved (s.moveLinesFor o Line.pending .orphaned) o := by
  intro i r hr l hl hp e
  rw [State.source_eq_some, State.moveLinesFor, State.record_mapSlots] at hr
  split at hr
  · cases hr
    simp only [moveLines, List.mem_map] at hl
    obtain ⟨m, _, rfl⟩ := hl
    split at hp
    · cases hp
    · next hb => rw [if_neg hb] at e; exact hb (by simp [hp, e])
  · next hn => exact hn r hr

theorem SlotKeeps.of_order {limit : Nat} {o : Order} {x : Option Record} (h : SlotKeeps limit (some (.order o)) x) :
    ∃ q, x = some (.order q) ∧ q.position = o.position ∧ q.state = o.state := by
  cases h with
  | order _ hp hs => exact ⟨_, rfl, hp, hs⟩

theorem SlotKeeps.to_source {limit : Nat} {q : Source} {x : Option Record} (h : SlotKeeps limit x (some (.source q))) :
    ∃ r, x = some (.source r) ∧ SourceKeeps limit r q := by
  cases h with
  | source hk _ => exact ⟨_, rfl, hk⟩

/-- A change that keeps every source record and leaves every order its position and state keeps the law. -/
theorem LineLaw.kept {s t : State} {limit : Nat} (h : LineLaw s)
    (hs : ∀ i q, t.source i = some q → ∃ r, s.source i = some r ∧ SourceKeeps limit r q)
    (ho : ∀ i o, s.order i = some o → ∃ q, t.order i = some q ∧ q.position = o.position ∧ q.state = o.state) :
    LineLaw t := by
  refine h.moved (fun i q hq => ?_)
  obtain ⟨r, hr, hk⟩ := hs i q hq
  refine ⟨r, hr, hk.port, fun k m hm => ?_, hk.home⟩
  obtain ⟨l, hl, hset⟩ := hk.lines.back hm
  exact ⟨l, hl, hset.moved (fun _ => ho l.target)⟩

/-- The same, slot by slot. -/
theorem LineLaw.slots {s t : State} {limit : Nat} (h : LineLaw s) (hk : ∀ i, SlotKeeps limit (s.record i) (t.record i)) :
    LineLaw t := by
  refine h.kept (limit := limit) (fun i q hq => ?_) (fun i o ho => ?_)
  · obtain ⟨r, e, hr⟩ := (State.source_eq_some.mp hq ▸ hk i).to_source
    exact ⟨r, State.source_eq_some.mpr e, hr⟩
  · obtain ⟨q, e, hq⟩ := (State.order_eq_some.mp ho ▸ hk i).of_order
    exact ⟨q, State.order_eq_some.mpr e, hq⟩

/-! ### Every change keeps the law -/

theorem State.source_setSlot_of_ne (s : State) {i j : Slot} (h : i ≠ j) (x : Option Record) :
    (s.setSlot i x).source j = s.source j := by
  unfold State.source
  rw [State.record_setSlot_of_ne s h]

theorem State.order_setSlot_of_ne (s : State) {i j : Slot} (h : i ≠ j) (x : Option Record) :
    (s.setSlot i x).order j = s.order j := by
  unfold State.order
  rw [State.record_setSlot_of_ne s h]

/-- A slot is one kind of record. -/
theorem State.order_of_source {s : State} {i : Slot} {r : Source} (h : s.source i = some r) : s.order i = none := by
  rw [State.order, State.source_eq_some.mp h]

theorem LineLaw.retire {s : State} (h : LineLaw s) {i : Slot} (hi : s.order i = none ∨ Unserved s i) :
    LineLaw (s.setSlot i none) := by
  refine h.moved (fun j q hq => ?_)
  have hj : i ≠ j := by
    rintro rfl
    simp [State.source] at hq
  rw [State.source_setSlot_of_ne s hj] at hq
  refine ⟨q, hq, rfl, fun k m hm => ⟨m, hm, (LineSettles.refl m).moved (fun hp o ho => ⟨o, ?_, rfl, rfl⟩)⟩, .inl⟩
  rw [State.order_setSlot_of_ne, ho]
  rintro rfl
  rcases hi with hi | hi
  · rw [hi] at ho; cases ho
  · exact hi j q hq m (List.mem_of_getElem? hm) hp rfl

theorem LineLaw.moveOrder {s : State} (h : LineLaw s) {o : Slot} {r q : Order} {test : Line → Bool} {dest : LineState}
    (hr : s.order o = some r) (hp : q.position = r.position) (ht : ∀ l, test l = true → l.pending = true)
    (hf : ∀ l, LineFits r.state l → LineFits q.state (if test l = true then { l with state := dest } else l)) :
    LineLaw ((s.putOrder o q).moveLinesFor o test dest) := by
  have record : ∀ j, ((s.putOrder o q).moveLinesFor o test dest).record j = match (s.putOrder o q).record j with
      | some (.source r) => some (.source
          { r with lines := moveLines (fun l => test l && decide (l.target = o)) dest r.lines })
      | other => other := fun j => State.record_mapSlots _ _ j
  have order : ∀ j p, (s.putOrder o q).order j = some p → ((s.putOrder o q).moveLinesFor o test dest).order j = some p := by
    intro j p hj
    rw [State.order_eq_some] at *
    rw [record, hj]
  refine h.moved (fun j x hx => ?_)
  have hne : o ≠ j := by
    rintro rfl
    rw [State.source_eq_some, record, State.putOrder, State.record_setSlot_self] at hx
    cases hx
  have hx' := State.source_eq_some.mp hx
  rw [record, State.putOrder, State.record_setSlot_of_ne s hne] at hx'
  cases e : s.record j with
  | none => rw [e] at hx'; cases hx'
  | some y =>
    rw [e] at hx'
    cases y with
    | order _ => cases hx'
    | source y =>
      cases hx'
      refine ⟨y, State.source_eq_some.mpr e, rfl, fun k m hm => ?_, .inl⟩
      simp only [moveLines, List.getElem?_map, Option.map_eq_some_iff] at hm
      obtain ⟨l, hl, rfl⟩ := hm
      refine ⟨l, hl, ?_⟩
      by_cases hto : l.target = o
      · simp only [show decide (l.target = o) = true from decide_eq_true hto, Bool.and_true]
        refine ⟨?_, ?_, fun hc => ?_, fun hm => ?_, fun _ p hpo hs hfit => ?_⟩
        · split <;> rfl
        · split <;> rfl
        · have : test l = false := by
            by_contra hc'
            have := ht l (by simpa using hc')
            simp [Line.pending, hc] at this
          simp [this, hc]
        · by_cases hc : test l = true
          · exact ht l hc
          · rw [if_neg hc] at hm; exact hm
        · rw [hto, hr] at hpo
          cases hpo
          refine ⟨q, order _ _ ?_, hp ▸ hs, hf l hfit⟩
          rw [hto, State.order_eq_some, State.putOrder, State.record_setSlot_self]
      · simp only [hto, decide_false, Bool.and_false]
        refine (LineSettles.refl l).moved (fun _ p hpo => ⟨p, order _ _ ?_, rfl, rfl⟩)
        rw [State.putOrder, State.order_setSlot_of_ne s (fun e => hto e.symm), hpo]

/-- A source record that may hold its lines, where no order stood. -/
theorem LineLaw.putSource {s : State} (h : LineLaw s) {i : Slot} {q : Source} (hi : s.order i = none)
    (hq : LinesServed s (portStation q.port) q.lines) (hh : q.state = .returning → ∀ l ∈ q.lines, l.pending = false) :
    LineLaw (s.putSource i q) := by
  have order : ∀ j o, s.order j = some o → (s.putSource i q).order j = some o := by
    intro j o ho
    rw [State.putSource, State.order_setSlot_of_ne, ho]
    rintro rfl
    rw [hi] at ho; cases ho
  refine lineLaw_iff.mpr (fun j r hr => ?_)
  by_cases hj : i = j
  · subst hj
    rw [State.source_putSource_self] at hr
    cases hr
    exact ⟨hq.of_order order, hh⟩
  · rw [State.source_putSource_of_ne s hj] at hr
    obtain ⟨h1, h2⟩ := lineLaw_iff.mp h j r hr
    exact ⟨h1.of_order order, h2⟩

/-- An order record where none was. -/
theorem LineLaw.putOrder {s : State} (h : LineLaw s) {i : Slot} {o : Order} (hi : s.record i = none) :
    LineLaw (s.putOrder i o) := by
  refine lineLaw_iff.mpr (fun j r hr => ?_)
  have hj : i ≠ j := by
    rintro rfl
    rw [State.source_eq_some, State.putOrder, State.record_setSlot_self] at hr
    cases hr
  rw [State.putOrder, State.source_setSlot_of_ne s hj] at hr
  obtain ⟨h1, h2⟩ := lineLaw_iff.mp h j r hr
  refine ⟨h1.of_order (fun k x hk => ?_), h2⟩
  rw [State.putOrder, State.order_setSlot_of_ne, hk]
  rintro rfl
  rw [State.order, hi] at hk
  cases hk

theorem Atom.lineLaw {s t : State} (h : Atom s t) (hl : LineLaw s) : LineLaw t := by
  cases h with
  | slot i o hk =>
    refine hl.slots (limit := s.config.divertLimit) (fun j => ?_)
    rw [State.record_setSlot]
    split
    · next e => exact e ▸ hk
    · exact .refl _
  | slots f hk =>
    refine hl.slots (limit := s.config.divertLimit) (fun j => ?_)
    rw [State.record_mapSlots]
    exact hk _
  | credit i r q hr hk _ =>
    refine hl.kept (limit := s.config.divertLimit) (fun j x hx => ?_) (fun j o ho => ⟨o, ?_, rfl, rfl⟩)
    · by_cases hj : i = j
      · subst hj
        rw [State.source_putSource_self] at hx
        cases hx
        exact ⟨r, hr, hk⟩
      · rw [State.source_putSource_of_ne s hj] at hx
        exact ⟨x, hx, .refl x⟩
    · rw [State.putSource, State.order_setSlot_of_ne, ho]
      rintro rfl
      rw [State.order_of_source hr] at ho
      cases ho
  | retire i hi => exact hl.retire hi
  | moveOrder o r q test dest hr _ hp ht hf => exact hl.moveOrder hr hp ht hf
  | amend i r ls hr hs _ ha =>
    exact hl.putSource (State.order_of_source hr) (ha (lineLaw_iff.mp hl i r hr).1) (fun e => absurd e hs)
  | _ => exact hl.of_record (fun _ => by first | rfl | simp)

theorem lineLaw_of_free {s : State} (h : ∀ i, s.record i = none) : LineLaw s := by
  refine lineLaw_iff.mpr (fun i r hr => ?_)
  rw [State.source_eq_some, h] at hr
  cases hr

theorem record_reset (i : Slot) : State.reset.record i = none := by
  unfold State.record State.reset
  simp

/-- The law after a hardware reset: every slot is FREE. -/
theorem lineLaw_afterReset (s : State) (held : Bool) : LineLaw (s.afterReset held) :=
  lineLaw_of_free (fun i => record_reset i)

theorem Change.lineLaw {s t : State} (h : Change s t) (hl : LineLaw s) : LineLaw t := by
  cases h with
  | atom h => exact h.lineLaw hl
  | create i x hi hf =>
    cases x with
    | source r =>
      obtain ⟨_, _, _, _, _, _, hq, hr⟩ := hf.source r rfl
      have := hl.putSource (i := i) (q := r) (by rw [State.order, hi]) hr (fun e => by rw [hq] at e; cases e)
      exact this.of_record (fun _ => rfl)
    | order o => exact (hl.putOrder (o := o) hi).of_record (fun _ => rfl)
  | run _ => exact hl.of_record (fun _ => rfl)
  | halt _ => exact hl.of_record (fun _ => rfl)
  | reconfigure a _ _ =>
    have held : LineLaw (({ s with config := configurationOf a, bench := s.bench.afterConfigure } : State).mapSlots
        (limitAttempts (configurationOf a).divertLimit)) := by
      refine hl.slots (limit := (configurationOf a).divertLimit) (fun j => ?_)
      rw [State.record_mapSlots]
      show SlotKeeps _ (s.record j) (limitAttempts _ (s.record j))
      match s.record j with
      | none => exact .free
      | some (.order _) => exact .refl _
      | some (.source r) => exact .source ⟨.refl _, rfl, id, fun _ => Nat.min_le_right _ _, id, id, .refl _, .inl⟩ id
    unfold State.reconfigured
    split
    · exact held
    · exact held.of_record (fun _ => rfl)
  | clear _ => exact lineLaw_of_free (fun _ => record_reset _)

end Sys2Proof.Machine
end

