-- ==== Sys2Proof/Laws/Reach.lean ====
section
/-! SUPPORT. Every operation of the machine is a run of single changes (`Reach`), and every command an event
(`exec_next`): the lemmas to cite in place of unfolding an operation. -/

namespace Sys2Proof.Machine

/-! ### The ways to change one thing -/

theorem reach_putSource {s : State} {i : Slot} {r q : Source} (h : s.source i = some r)
    (hk : SourceKeeps s.config.divertLimit r q) (hc : q.holdsCredit = true → r.holdsCredit = true) :
    Reach s (s.putSource i q) := by
  exact Reach.one (Atom.slot s i _ (by rw [State.source_eq_some.mp h]; exact .source hk hc))

/-- A write of a source record that leaves the fields the laws speak of and ends in a state without a credit. -/
theorem reach_state {s : State} {i : Slot} {r q : Source} (h : s.source i = some r) (ht : ToteKeeps r.tote q.tote)
    (hp : q.port = r.port) (hw : r.withdraw = true → q.withdraw = true) (ha : q.divertAttempts = r.divertAttempts)
    (hb : q.backoff = r.backoff) (hr : q.recycleCount = r.recycleCount) (hl : LinesSettle r.lines q.lines)
    (hc : q.holdsCredit = true → r.holdsCredit = true)
    (hh : q.state = .returning → r.state = .returning ∨ ∀ l ∈ q.lines, l.pending = false) :
    Reach s (s.putSource i q) :=
  reach_putSource h (.same ht hp hw ha hb hr hl hh) hc

theorem reach_putOrder {s : State} {i : Slot} {r q : Order} (h : s.order i = some r) (ht : ToteKeeps r.tote q.tote)
    (hp : q.position = r.position) (hs : q.state = r.state) : Reach s (s.putOrder i q) := by
  refine Reach.one (Atom.slot s i _ ?_)
  rw [State.order_eq_some.mp h]
  exact .order ht hp hs

theorem reach_modifySource {s : State} {i : Slot} {f : Source → Source}
    (h : ∀ r, SourceKeeps s.config.divertLimit r (f r) ∧ ((f r).holdsCredit = true → r.holdsCredit = true)) :
    Reach s (s.modifySource i f) := by
  cases e : s.source i with
  | none => rw [State.modifySource_of_none e]
  | some r => rw [State.modifySource_of_some e]; exact reach_putSource e (h r).1 (h r).2

theorem reach_modifyPort {s : State} {p : Port} {f : PortRec → PortRec} (h : ∀ q, PortKeeps q (f q)) :
    Reach s (s.modifyPort p f) :=
  Reach.one (Atom.port s p _ (h _))

theorem reach_setPort {s : State} {p : Port} {q : PortRec} (h : PortKeeps (s.port p) q) : Reach s (s.setPort p q) :=
  Reach.one (Atom.port s p _ h)

theorem reach_modifyStation {s : State} {st : Station} {f : StationRec → StationRec}
    (h : StationLaw (s.station st) → StationLaw (f (s.station st))) : Reach s (s.modifyStation st f) :=
  Reach.one (Atom.station s st _ h)

theorem reach_post (s : State) (n : Notice) : Reach s (s.post n) := Reach.one (Atom.post s n)

theorem reach_postIf (s : State) (o : Option Notice) : Reach s (s.postIf o) := by
  cases o with
  | none => exact .refl s
  | some n => exact reach_post s n

theorem reach_setInputs (s : State) (x : Inputs) : Reach s (s.setInputs x) := Reach.one (Atom.inputs s x)

theorem saturate_le {most n : Nat} (h : n ≤ most) : saturate most n ≤ most := by
  unfold saturate; split <;> omega

theorem le_saturate (most n : Nat) : n ≤ saturate most n := by
  unfold saturate; split <;> omega

/-! ### Operations over the state (Ops) -/

theorem reach_transmit (s : State) (m : Message) : Reach s (s.transmit m) := by
  unfold State.transmit
  split <;> exact Reach.one (Atom.supply s _ id id)

theorem reach_sendReturn (s : State) (i : Slot) : Reach s (s.sendReturn i) := by
  unfold State.sendReturn
  split
  · exact .refl s
  · next r h =>
    split
    · exact .after (reach_transmit _ _) (reach_state h (.refl _) rfl id rfl rfl rfl (.refl _) id .inl)
    · exact reach_state h (.refl _) rfl id rfl rfl rfl (.refl _) id .inl

theorem reach_sendCancel (s : State) (i : Slot) : Reach s (s.sendCancel i) := by
  unfold State.sendCancel
  split
  · exact .refl s
  · next r h =>
    split
    · exact .after (reach_transmit _ _) (reach_state h (.refl _) rfl id rfl rfl rfl (.refl _) id .inl)
    · exact reach_state h (.refl _) rfl id rfl rfl rfl (.refl _) id .inl

theorem reach_unqueue (s : State) (p : Port) (i : Slot) : Reach s (s.unqueue p i) :=
  reach_modifyPort (fun _ => .same (le_refl _) (.inl rfl) rfl rfl withoutSlot_nodup)

theorem reach_queueHead (s : State) (p : Port) (i : Slot) : Reach s (s.queueHead p i) :=
  reach_modifyPort (fun _ => .same (le_refl _) (.inl rfl) rfl rfl queueHead_nodup)

theorem reach_queueTail (s : State) (p : Port) (i : Slot) : Reach s (s.queueTail p i) :=
  reach_modifyPort (fun _ => .same (le_refl _) (.inl rfl) rfl rfl queueTail_nodup)

theorem reach_queueAhead (s : State) (p : Port) (i : Slot) : Reach s (s.queueAhead p i) :=
  reach_modifyPort (fun _ => .same (le_refl _) (.inl rfl) rfl rfl queueAhead_nodup)

theorem reach_clearArm (s : State) (p : Port) : Reach s (s.clearArm p) :=
  reach_modifyPort (fun _ => .same (le_refl _) (.inr rfl) rfl rfl id)

theorem reach_dropArmOf (s : State) (p : Port) (i : Slot) : Reach s (s.dropArmOf p i) := by
  refine reach_modifyPort (fun q => ?_)
  split
  · exact .same (le_refl _) (.inr rfl) rfl rfl id
  · exact .refl q

/-- A port is armed only when it accepts (R84, R94). -/
theorem reach_armDivert {s : State} {p : Port} (h : (s.port p).accepts = true) (item : ArmItem) :
    Reach s (s.armDivert p item) := by
  refine Reach.one (Atom.port s p _ ⟨fun _ => ?_, id, id⟩)
  unfold PortRec.accepts PortRec.reservation at h
  unfold LaneLaw PortRec.reservation
  simp only [Bool.and_eq_true, decide_eq_true_eq, Option.isNone_iff_eq_none] at h
  obtain ⟨⟨_, h3⟩, hn⟩ := h
  rw [hn] at h3
  simp at h3 ⊢
  omega

theorem reach_enterReturning (s : State) (i : Slot) (cause : LeavingCause) : Reach s (s.enterReturning i cause) := by
  unfold State.enterReturning
  split
  · exact .refl s
  · next r h =>
    refine .after (reach_sendReturn _ _) (.after (reach_dropArmOf _ _ _) (.after (reach_unqueue _ _ _) ?_))
    exact reach_state h (.refl _) rfl id rfl rfl rfl (resolveLines_settle r _ (fun _ => rfl)) (fun hc => nomatch hc)
      (fun _ => .inr (resolveLines_final r _ (fun _ => rfl)))

theorem reach_retireSource (s : State) (i : Slot) (cause : RetireCause) : Reach s (s.retireSource i cause) := by
  unfold State.retireSource
  split
  · exact .refl s
  · next r h =>
    refine .after (Reach.one (Atom.retire _ i (.inl ?_))) (.after (reach_post _ _) (.after (reach_dropArmOf _ _ _) ?_))
    · have : ((s.modifyPort r.port (fun q =>
          { q with queue := withoutSlot i q.queue, lane := q.lane.filter (fun e => decide (e ≠ .slot i)) })).dropArmOf
          r.port i).order i = none := by
        show s.order i = none
        rw [State.order, State.source_eq_some.mp h]
      simpa using this
    · exact reach_modifyPort (fun q => .same (List.length_filter_le _ _) (.inl rfl) rfl rfl withoutSlot_nodup)

/-- An order that no pending line targets is retired (R25). -/
theorem reach_retireOrder {s : State} {i : Slot} (h : Unserved s i) (cause : RetireCause) (n : Nat) :
    Reach s (s.retireOrder i cause n) := by
  unfold State.retireOrder
  split
  · exact .refl s
  · refine .after (Reach.one (Atom.retire _ i (.inr (fun j r hj => h j r ?_)))) (reach_post _ _)
    simpa using hj

theorem reach_moveLinesFor (s : State) (o : Slot) (test : Line → Bool) (ht : ∀ l, test l = true → l.pending = true)
    (dest : LineState) (hd : ∀ l : Line, ({ l with state := dest } : Line).pending = false) :
    Reach s (s.moveLinesFor o test dest) := by
  refine Reach.one (Atom.slots s _ (fun x => ?_))
  match x with
  | none => exact .free
  | some (.order r) => exact .order (.refl _) rfl rfl
  | some (.source r) =>
    refine .source (.same (.refl _) rfl id rfl rfl rfl (moveLines_settle _ (fun l hl => ?_) _ hd _) .inl) id
    exact ht l (by simpa using (Bool.and_eq_true _ _ ▸ hl).1)

/-- A write at a collision (R86): new attempts within the limit and a backoff within 15. -/
theorem reach_attempts {s : State} {i : Slot} {r q : Source} (h : s.source i = some r) (ht : q.tote = r.tote)
    (hp : q.port = r.port) (hw : q.withdraw = r.withdraw)
    (ha : r.divertAttempts ≤ s.config.divertLimit → q.divertAttempts ≤ s.config.divertLimit) (hb : q.backoff ≤ 15)
    (hr : r.recycleCount ≤ 2 → q.recycleCount ≤ 2) (hl : LinesSettle r.lines q.lines)
    (hc : q.holdsCredit = true → r.holdsCredit = true)
    (hh : q.state = .returning → r.state = .returning ∨ ∀ l ∈ q.lines, l.pending = false) :
    Reach s (s.putSource i q) :=
  reach_putSource h ⟨ht ▸ .refl _, hp, fun x => hw ▸ x, ha, fun _ => hb, hr, hl, hh⟩ hc

theorem reach_exhaust (s : State) (i : Slot) (attempts : Nat)
    (ha : ∀ r, s.source i = some r → r.divertAttempts ≤ s.config.divertLimit → attempts ≤ s.config.divertLimit) :
    Reach s (s.exhaust i attempts) := by
  unfold State.exhaust
  split
  · exact .refl s
  · next r h =>
    split
    · next hlt =>
      refine .after (reach_post _ _) (.after (reach_sendReturn _ _) (.after (reach_dropArmOf _ _ _) ?_))
      exact reach_attempts h rfl rfl rfl (ha r h) (Nat.zero_le _) (fun _ => hlt) (.refl _) (fun hc => nomatch hc) (fun e => nomatch e)
    · refine .after (reach_post _ _) (.after (reach_enterReturning _ _ _) ?_)
      exact reach_attempts h rfl rfl rfl (ha r h) (Nat.zero_le _) id (.refl _) id .inl

theorem backoff_le (n attempts : Nat) : n % backoffRange attempts ≤ 15 := by
  have h1 : backoffRange attempts ≤ 2 ^ 4 := Nat.pow_le_pow_right (by decide) (Nat.min_le_right _ _)
  have h0 : 0 < backoffRange attempts := Nat.pow_pos (by decide)
  have := Nat.mod_lt n h0
  omega

theorem attemptsAfter_le {r : Source} {limit : Nat} (h : r.divertAttempts ≤ limit) : r.attemptsAfter limit ≤ limit := by
  unfold Source.attemptsAfter; split <;> omega

theorem reach_collide (s : State) (i : Slot) : Reach s (s.collide i) := by
  unfold State.collide
  split
  · exact .refl s
  · next r h =>
    split
    · split
      · next hlt =>
        refine .after (Reach.one (Atom.draw _)) ?_
        exact reach_attempts h rfl rfl rfl (fun _ => Nat.le_of_lt hlt) (backoff_le _ _) id (.refl _) id .inl
      · refine reach_exhaust s i _ (fun q hq hle => ?_)
        rw [h] at hq; cases hq
        exact attemptsAfter_le hle
    · exact .refl s

theorem reach_withdrawArm (s : State) (p : Port) : Reach s (s.withdrawArm p) := by
  unfold State.withdrawArm
  split
  · exact .refl s
  · split
    · exact .after (reach_collide _ _) (reach_clearArm _ _)
    · exact reach_clearArm _ _

end Sys2Proof.Machine
end

