-- ==== Sys2Proof/Laws/ReachBench.lean ====
section
/-! SUPPORT. The operations of the stop, the stations, the planner, the arbiter and the Exposure Monitor are runs of single
changes. -/

namespace Sys2Proof.Machine

/-! ### A record moves to a state without a credit -/

theorem keeps_plain {limit : Nat} {r q : Source} (ht : q.tote = r.tote) (hp : q.port = r.port)
    (hw : q.withdraw = r.withdraw) (ha : q.divertAttempts = r.divertAttempts) (hb : q.backoff = r.backoff)
    (hr : q.recycleCount = r.recycleCount) (hl : q.lines = r.lines)
    (hh : q.state = .returning → r.state = .returning ∨ ∀ l ∈ q.lines, l.pending = false) : SourceKeeps limit r q :=
  .same (ht ▸ .refl _) hp (fun x => hw ▸ x) ha hb hr (hl ▸ .refl _) hh

/-! ### Stop -/

theorem reach_enterHeld {s : State} {st : Station} (h : (s.station st).presentation = none) (d : HeldDetail) :
    Reach s (s.enterHeld st d) := by
  refine .after (reach_post _ _) (reach_modifyStation (fun law => ?_))
  exact ⟨fun _ => ⟨rfl, h⟩, (fun e => nomatch e), (fun e => nomatch e), fun _ _ => rfl, law.window⟩

theorem reach_enterRunning (s : State) (st : Station) : Reach s (s.enterRunning st) :=
  reach_modifyStation (fun law =>
    ⟨(fun e => nomatch e), fun _ => rfl, fun _ => rfl, (fun _ e => nomatch e), law.window⟩)

theorem reach_endPresentation (s : State) (st : Station) : Reach s (s.endPresentation st) := by
  unfold State.endPresentation
  split
  · exact .refl s
  · next i _ =>
    have ended : Reach s ((s.modifySource i (fun r => { r with current := none })).modifyStation st
        (fun r => { r with presentation := none, window := none })) := by
      refine .after (reach_modifyStation (fun law => ?_))
        (reach_modifySource (fun r => ⟨keeps_plain rfl rfl rfl rfl rfl rfl rfl .inl, id⟩))
      exact ⟨fun e => ⟨(law.held e).1, rfl⟩, law.running, law.pending, law.step, (fun e => nomatch e)⟩
    simp only
    split
    · exact .after (reach_enterHeld (by simp) _) ended
    · exact .after (reach_enterHeld (by simp) _) ended
    all_goals exact ended

theorem reach_endPresentationOf (s : State) (p : Port) (i : Slot) : Reach s (s.endPresentationOf p i) := by
  unfold State.endPresentationOf
  split
  · exact reach_endPresentation _ _
  · exact .refl s

theorem reach_openStop (s : State) (p : Port) : Reach s (s.openStop p) := by
  have opened : Reach s (s.modifyPort p (fun r => { r with stop := .openSeated, exitWindow := some Config.exitWindow })) :=
    reach_modifyPort (fun _ => .same (le_refl _) (.inl rfl) rfl rfl id)
  unfold State.openStop
  simp only
  split
  · refine .after (reach_endPresentationOf _ _ _) (.after (reach_modifySource (fun r => ?_)) opened)
    exact ⟨keeps_plain rfl rfl rfl rfl rfl rfl rfl (fun e => nomatch e), (fun hc => nomatch hc)⟩
  · exact opened

theorem reach_seatHead (s : State) (p : Port) : Reach s (s.seatHead p) := by
  have reading : Reach s (s.modifyPort p (fun r =>
      { r.startRead .first with lane := if r.lane.isEmpty then [.unidentified] else r.lane })) := by
    refine reach_modifyPort (fun q => ⟨fun h => ?_, id, id⟩)
    unfold LaneLaw PortRec.reservation at *
    by_cases he : q.lane.isEmpty = true
    · simp only [he, if_true, List.length_singleton]; split <;> omega
    · simp only [he]; exact h
  unfold State.seatHead
  simp only
  split
  · exact .after (reach_modifySource (fun r => ⟨keeps_plain rfl rfl rfl rfl rfl rfl rfl (fun e => nomatch e), (fun hc => nomatch hc)⟩)) reading
  · exact reading

theorem reach_passHead (s : State) (p : Port) : Reach s (s.passHead p) := by
  unfold State.passHead
  split
  · split
    · split
      · exact reach_openStop _ _
      · exact .refl s
    · exact .refl s
  · exact .refl s

theorem reach_exitResult (s : State) (e : LaneEntry) : Reach s (s.exitResult e) := by
  unfold State.exitResult
  split
  · split
    · exact .refl s
    · next r h =>
      split
      · exact reach_enterReturning _ _ _
      · exact reach_enterReturning _ _ _
      · exact reach_enterReturning _ _ _
      · split
        · exact .after (reach_enterReturning _ _ _)
            (reach_putSource h (keeps_plain rfl rfl rfl rfl rfl rfl rfl .inl) id)
        · exact .after (reach_collide _ _) (.after (reach_queueHead _ _ _)
            (reach_putSource h (keeps_plain rfl rfl rfl rfl rfl rfl rfl (fun e => nomatch e)) (fun hc => nomatch hc)))
  · split
    · exact reach_collide _ _
    · exact .refl s
  all_goals exact .refl s

theorem reach_takeExit (s : State) (p : Port) : Reach s (s.takeExit p) := by
  unfold State.takeExit
  split
  · exact .refl s
  · next head rest hl =>
    have moved : Reach s (s.modifyPort p (fun r =>
        { r with lane := rest, stop := (s.port p).stop.afterExit.1, exitWindow := none })) := by
      refine reach_setPort (.same ?_ (.inl rfl) rfl rfl id)
      rw [hl]; exact Nat.le_succ _
    simp only
    refine .after (reach_exitResult _ _) ?_
    split
    · exact .after (reach_seatHead _ _) moved
    · exact moved

theorem reach_makeMissing (s : State) (i : Slot) (d : LostDetail) : Reach s (s.makeMissing i d) := by
  unfold State.makeMissing
  split
  · exact .refl s
  · next r h =>
    exact .after (reach_post _ _) (.after (reach_endPresentationOf _ _ _)
      (reach_putSource h (keeps_plain rfl rfl rfl rfl rfl rfl rfl (fun e => nomatch e)) (fun hc => nomatch hc)))

theorem reach_loseEntry (s : State) (d : LostDetail) (e : LaneEntry) : Reach s (s.loseEntry d e) := by
  unfold State.loseEntry
  split
  · split
    · exact .refl s
    · split
      · exact .after (reach_retireSource _ _ _) (reach_endPresentationOf _ _ _)
      · exact reach_makeMissing _ _ _
  all_goals exact .refl s

theorem reach_loseHead (s : State) (p : Port) (after : Stop) (d : LostDetail) : Reach s (s.loseHead p after d) := by
  unfold State.loseHead
  split
  · exact reach_modifyPort (fun _ => .same (le_refl _) (.inl rfl) rfl rfl id)
  · next head rest hl =>
    refine .after (reach_loseEntry _ _ _) (reach_setPort (.same ?_ (.inl rfl) rfl rfl id))
    rw [hl]; exact Nat.le_succ _

theorem replaceUnidentified_length (i : Slot) :
    ∀ (ls ms : List LaneEntry), replaceUnidentified i ls = some ms → ms.length = ls.length := by
  intro ls
  induction ls with
  | nil => intro ms h; cases h
  | cons e rest ih =>
    intro ms h
    cases e with
    | unidentified => simp only [replaceUnidentified, Option.some.injEq] at h; subst h; rfl
    | slot j =>
      simp only [replaceUnidentified, Option.map_eq_some_iff] at h
      obtain ⟨a, ha, rfl⟩ := h
      simp [ih a ha]
    | foreign reason c =>
      simp only [replaceUnidentified, Option.map_eq_some_iff] at h
      obtain ⟨a, ha, rfl⟩ := h
      simp [ih a ha]

theorem reach_leaveLane (s : State) (i : Slot) : Reach s (s.leaveLane i) := by
  unfold State.leaveLane
  split
  · exact .refl s
  · next r h =>
    split
    · exact reach_enterReturning _ _ _
    · exact .after (reach_collide _ _) (.after (reach_queueHead _ _ _)
        (reach_putSource h (keeps_plain rfl rfl rfl rfl rfl rfl rfl (fun e => nomatch e)) (fun hc => nomatch hc)))

/-- A new lane list of the same length. -/
theorem reach_relane {s : State} {p : Port} {lane : List LaneEntry} (h : lane.length = (s.port p).lane.length) :
    Reach s (s.modifyPort p (fun r => { r with lane := lane })) :=
  reach_setPort (.same (le_of_eq h) (.inl rfl) rfl rfl id)

theorem reach_displaceHead (s : State) (p : Port) (head : LaneEntry) : Reach s (s.displaceHead p head) := by
  unfold State.displaceHead
  split
  · exact .refl s
  · next i rest hl =>
    split
    · next behind hb =>
      refine .after (reach_modifySource (fun r => ⟨keeps_plain rfl rfl rfl rfl rfl rfl rfl (fun e => nomatch e), (fun hc => nomatch hc)⟩))
        (reach_relane ?_)
      rw [hl]; simp [replaceUnidentified_length i _ _ hb]
    · exact .after (reach_leaveLane _ _) (reach_relane (by rw [hl]; rfl))
  · next e rest _ hl => exact reach_relane (by rw [hl]; rfl)

theorem reach_demote (s : State) (p : Port) : Reach s (s.demote p) := by
  unfold State.demote
  split
  · split
    · next r h =>
      split
      · refine .after (reach_passHead _ _) (.after (reach_endPresentationOf _ _ _) ?_)
        exact reach_state h (.refl _) rfl id rfl rfl rfl (deferCurrent_settle r) (fun hc => nomatch hc) (fun e => nomatch e)
      · exact .refl s
    · exact .refl s
  · exact .refl s

theorem reach_markFault (s : State) (p : Port) (c : FaultCause) : Reach s (s.markFault p c) := by
  refine .after (reach_post _ _) (reach_modifyPort (fun q => ?_))
  by_cases h : q.mode = .faulted
  · simp only [h, if_true]; exact .refl q
  · simp only [h, if_false]
    exact ⟨id, fun _ => ⟨fun _ => rfl, fun _ => rfl⟩, id⟩

theorem reach_raiseFault (s : State) (p : Port) (c : FaultCause) : Reach s (s.raiseFault p c) :=
  .after (reach_demote _ _) (reach_markFault _ _ _)

theorem reach_clearVerifyFailed (s : State) (e : LaneEntry) : Reach s (s.clearVerifyFailed e) := by
  unfold State.clearVerifyFailed
  split
  · refine reach_modifySource (fun r => ?_)
    split
    · exact ⟨keeps_plain rfl rfl rfl rfl rfl rfl rfl .inl, id⟩
    · exact ⟨.refl r, id⟩
  all_goals exact .refl s

theorem reach_takeLocalControl (s : State) (p : Port) : Reach s (s.takeLocalControl p) := by
  refine .after (reach_markFault _ _ _) (.after (Reach.foldl _ (fun t e => ?_) _ _) ?_)
  · exact .after (reach_loseEntry _ _ _) (reach_clearVerifyFailed _ _)
  · exact .after (reach_modifyPort (fun q => .same (Nat.zero_le _) (.inl rfl) rfl rfl id)) (reach_withdrawArm _ _)

theorem reach_endUnconfirmed (s : State) (p : Port) : Reach s (s.endUnconfirmed p) := by
  unfold State.endUnconfirmed
  split
  · exact .refl s
  · next a _ =>
    have ended : Reach s ((s.modifyPort p (fun r => { r with arm := none, unconfirmed := (s.port p).unconfirmed + 1 })).postIf
        (s.unconfirmedNotice p ((s.port p).unconfirmed + 1) a.item)) :=
      .after (reach_postIf _ _) (reach_modifyPort (fun _ => .same (le_refl _) (.inr rfl) rfl rfl id))
    simp only
    split <;> (try refine .after (reach_raiseFault _ _ _) ?_) <;> split
    all_goals first | exact .after (reach_collide _ _) ended | exact ended

/-! ### Work -/

theorem reach_releasePresented (s : State) (i : Slot) : Reach s (s.releasePresented i) := by
  unfold State.releasePresented
  split
  · exact .refl s
  · next r h =>
    refine .after (reach_openStop _ _) (reach_state h (.refl _) rfl id rfl rfl rfl (moveLines_settle _ ?_ _ (fun _ => rfl) _) id .inl)
    intro l hl
    simp only [decide_eq_true_eq] at hl
    simp [Line.pending, hl]

theorem reach_chooseLine (s : State) (st : Station) : Reach s (s.chooseLine st) := by
  unfold State.chooseLine
  split
  · exact .refl s
  · split
    · exact .refl s
    · next r h =>
      split
      · exact reach_putSource h (keeps_plain rfl rfl rfl rfl rfl rfl rfl .inl) id
      · exact reach_releasePresented _ _

theorem reach_refreshLine (s : State) (st : Station) : Reach s (s.refreshLine st) := by
  unfold State.refreshLine
  split
  · split
    · exact .refl s
    · exact reach_chooseLine _ _
  · exact .refl s

/-- A presentation is made only where the hold status selects (R112, R113). -/
theorem reach_present {s : State} {st : Station} (h : (s.station st).hold.selects = true) (p : Port) (i : Slot) :
    Reach s (s.present st p i) := by
  unfold State.present
  refine .after (reach_chooseLine _ _) (.after (reach_modifyStation (fun law => ?_))
    (reach_modifySource (fun r => ⟨keeps_plain rfl rfl rfl rfl rfl rfl rfl (fun e => nomatch e), (fun hc => nomatch hc)⟩)))
  have e : ((s.modifySource i (fun r => { r with state := .presented })).station st).hold = (s.station st).hold := by
    cases hs : s.source i with
    | none => rw [State.modifySource_of_none hs]
    | some r => rw [State.modifySource_of_some hs]; rfl
  rw [← e] at h
  revert law h
  generalize (s.modifySource i (fun r => { r with state := .presented })).station st = q
  intro h law
  cases hh : q.hold with
  | running =>
    exact ⟨fun x => (by simp [HoldStatus.onPresent] at x), fun _ => law.running hh,
      fun x => (by simp [HoldStatus.onPresent] at x), fun _ x => (by simp [HoldStatus.onPresent] at x), fun _ => rfl⟩
  | holdPending => rw [hh] at h; cases h
  | held => rw [hh] at h; cases h
  | step u =>
    exact ⟨fun x => (by simp [HoldStatus.onPresent] at x), fun x => (by simp [HoldStatus.onPresent] at x),
      fun x => (by simp [HoldStatus.onPresent] at x), fun _ _ => law.step u hh, fun _ => rfl⟩

theorem reach_selectHead (st : Station) : ∀ (fuel : Nat) (s : State), Reach s (s.selectHead st fuel) := by
  intro fuel
  induction fuel with
  | zero => intro s; exact .refl s
  | succ fuel ih =>
    intro s
    unfold State.selectHead
    split
    · next h =>
      split
      · exact .after (ih _) (reach_present h.2 _ _)
      · exact .refl s
    · exact .refl s

theorem reach_select (s : State) (st : Station) : Reach s (s.select st) := reach_selectHead st 3 s

theorem reach_drainPort (s : State) (p : Port) : Reach s (s.drainPort p) := by
  unfold State.drainPort
  split
  · next h =>
    refine .after (reach_post _ _) (reach_setPort ⟨id, fun law => ?_, id⟩)
    unfold CauseLaw at *
    rw [h.1] at law
    simpa using law
  · exact .refl s

theorem reach_grantCancel {s : State} (h : s.creditsInUse < 4) (i : Slot) : Reach s (s.grantCancel i) := by
  refine .after (reach_sendCancel _ _) ?_
  cases e : s.source i with
  | none => rw [State.modifySource_of_none e]
  | some r =>
    rw [State.modifySource_of_some e]
    exact Reach.one (Atom.credit s i r _ e (keeps_plain rfl rfl rfl rfl rfl rfl rfl (fun e => nomatch e)) h)

theorem reach_grantCall {s : State} (h : s.creditsInUse < 4) (p : Port) (i : Slot) : Reach s (s.grantCall p i) := by
  unfold State.grantCall
  split
  · exact .refl s
  · next r e =>
    refine .after (reach_transmit _ _) (.after (Reach.one (Atom.rotation _ p)) ?_)
    exact Reach.one (Atom.credit s i r _ e (keeps_plain rfl rfl rfl rfl rfl rfl rfl (fun e => nomatch e)) h)

/-- When the arbiter may grant (R41, R62, R67). -/
theorem mayGrant_iff {s : State} :
    s.mayGrant = true ↔ s.inputs.supplyReady = true ∧ s.supply.pass = none ∧ s.creditsInUse < 4 := by
  simp [State.mayGrant, Config.creditLimit, and_assoc]

theorem reach_grants : ∀ (fuel : Nat) (s : State), Reach s (s.grants fuel) := by
  intro fuel
  induction fuel with
  | zero => intro s; exact .refl s
  | succ fuel ih =>
    intro s
    unfold State.grants
    split
    · next h =>
      split
      · exact .after (ih _) (reach_grantCancel (mayGrant_iff.mp h).2.2 _)
      · split
        · exact .after (ih _) (reach_grantCall (mayGrant_iff.mp h).2.2 _ _)
        · exact .refl s
    · exact .refl s

theorem reach_arbitrate (s : State) : Reach s s.arbitrate := reach_grants _ s

theorem reach_selectAndDrain (s : State) : Reach s s.selectAndDrain :=
  .after (Reach.foldl _ reach_drainPort _ _) (.after (reach_select _ _) (reach_select _ _))

theorem reach_settle (s : State) : Reach s s.settle := .after (reach_arbitrate _) (reach_selectAndDrain s)

theorem reach_endSighted (s : State) (p : Port) : Reach s (s.endSighted p) :=
  .after (reach_selectAndDrain _) (reach_endUnconfirmed s p)

/-! ### Exposure -/

/-- A change of a record's common fields that keeps them. -/
theorem reach_modifyTote {s : State} {i : Slot} {f : Tote → Tote} (h : ∀ t, ToteKeeps t (f t)) :
    Reach s (s.modifyTote i f) := by
  unfold State.modifyTote
  split
  · next r e =>
    refine Reach.one (Atom.slot s i _ ?_)
    rw [e]
    cases r with
    | source r => exact .source (.same (h _) rfl id rfl rfl rfl (.refl _) .inl) id
    | order r => exact .order (h _) rfl rfl
  · exact .refl s

theorem reach_warnRecord (s : State) (i : Slot) : Reach s (s.warnRecord i) := by
  unfold State.warnRecord
  split
  · exact .refl s
  · split
    · exact .refl s
    · split
      · exact .after (reach_post _ _) (reach_modifyTote (fun t => ⟨rfl, rfl, le_refl _, id, fun _ => rfl, id⟩))
      · exact .refl s

theorem reach_expireSource (s : State) (i : Slot) : Reach s (s.expireSource i) := by
  unfold State.expireSource
  split
  · exact .refl s
  · next r h =>
    split
    · exact reach_retireSource _ _ _
    · exact .refl s
    · exact .refl s
    · exact reach_putSource h (keeps_plain rfl rfl rfl rfl rfl rfl rfl .inl) id
    · exact reach_enterReturning _ _ _
    · exact reach_state h (.refl _) rfl id rfl rfl rfl (resolveLines_settle r _ (fun _ => rfl)) id .inl
    · exact reach_state h (.refl _) rfl id rfl rfl rfl (resolveLines_settle r _ (fun _ => rfl)) id .inl
    · exact .after (reach_passHead _ _) (reach_state h (.refl _) rfl id rfl rfl rfl (resolveLines_settle r _ (fun _ => rfl)) id .inl)
    · have deferred := reach_state (q := { r with lines := r.deferOthers, passThrough := some r.expiredReason })
        h (.refl _) rfl id rfl rfl rfl (deferOthers_settle r) id .inl
      simp only
      split
      · exact .after (reach_releasePresented _ _) deferred
      · exact deferred
    · exact .refl s
    · exact .refl s
    · exact reach_state h (.refl _) rfl id rfl rfl rfl (resolveLines_settle r _ (fun _ => rfl)) id .inl
    · exact reach_state h (.refl _) rfl id rfl rfl rfl (resolveLines_settle r _ (fun _ => rfl)) id .inl

/-- A change of an order's state together with its lines: the lines that move fit the new state, and the others too. -/
theorem reach_moveOrder {s : State} {o : Slot} {r q : Order} (h : s.order o = some r) (ht : ToteKeeps r.tote q.tote)
    (hp : q.position = r.position) {test : Line → Bool} {dest : LineState} (hl : ∀ l, test l = true → l.pending = true)
    (hf : ∀ l, LineFits r.state l → LineFits q.state (if test l = true then { l with state := dest } else l)) :
    Reach s ((s.putOrder o q).moveLinesFor o test dest) := Reach.one (Atom.moveOrder s o r q test dest h ht hp hl hf)

theorem reach_expireOrder (s : State) (i : Slot) : Reach s (s.expireOrder i) := by
  unfold State.expireOrder
  split
  · exact .refl s
  · next r h =>
    refine .after (reach_refreshLine _ _) (.after (reach_refreshLine _ _)
      (reach_moveOrder (q := { r with state := .expired }) h (.refl _) rfl (fun _ hl => hl) (fun l _ => ?_)))
    split
    · exact ⟨(fun e => nomatch e), (fun e => nomatch e)⟩
    · next hp => exact ⟨fun e => absurd (by simp [Line.pending, e]) hp, fun e => absurd (by simp [Line.pending, e]) hp⟩

theorem reach_expireRecord (s : State) (i : Slot) : Reach s (s.expireRecord i) := by
  unfold State.expireRecord
  split
  · exact .refl s
  · next r e =>
    split
    · exact .refl s
    · split
      · have marked : ∀ n, Reach s ((s.modifyTote i (fun t => { t with expired := true })).post n) := fun n =>
          .after (reach_post _ _) (reach_modifyTote (fun t => ⟨rfl, rfl, le_refl _, id, id, fun _ => rfl⟩))
        simp only
        split
        · exact .after (reach_expireSource _ _) (marked _)
        · exact .after (reach_expireOrder _ _) (marked _)
      · exact .refl s

theorem reach_examine (s : State) (i : Slot) : Reach s (s.examine i) :=
  .after (reach_expireRecord _ _) (reach_warnRecord _ _)

theorem tick_keeps (t : Tote) : ToteKeeps t t.tick := by
  unfold Tote.tick
  split
  · exact ⟨rfl, rfl, le_saturate _ _, saturate_le, id, id⟩
  · exact .refl t

end Sys2Proof.Machine
end

