-- ==== Sys2Proof/Laws/ReachEvents.lean ====
section
/-! SUPPORT. The events of the loop, the lanes, the supply link, the readers, the stations and the order totes are runs of
single changes. -/

namespace Sys2Proof.Machine

/-! ### Loop -/

theorem giveBack_keeps {limit : Nat} (r : Source) : SourceKeeps limit r r.giveBack :=
  .same (.of_running _ _) rfl id rfl rfl rfl (.refl _) .inl

theorem reach_adopt (s : State) (i : Slot) : Reach s (s.adopt i) :=
  reach_modifySource (fun _ => ⟨.same (.of_running _ _) rfl id rfl rfl rfl (.refl _) (fun e => nomatch e), (fun hc => nomatch hc)⟩)

theorem reach_unidentify (s : State) (p : Port) (i : Slot) : Reach s (s.unidentify p i) :=
  reach_modifyPort (fun q => by dsimp only; split <;> exact .same (by simp) (.inl rfl) rfl rfl id)

theorem reach_sendHome (s : State) (i : Slot) : Reach s (s.sendHome i) := by
  unfold State.sendHome
  split
  · exact .refl s
  · next r h =>
    exact .after (reach_enterReturning _ _ _) (.after (reach_endPresentationOf _ _ _) (.after (reach_unidentify _ _ _)
      (reach_putSource h (giveBack_keeps r) id)))

theorem reach_sightLane (s : State) (i : Slot) : Reach s (s.sightLane i) := by
  unfold State.sightLane
  split
  · exact .refl s
  · next r h =>
    have corrected : Reach s (((s.unidentify r.port i).endPresentationOf r.port i).modifySource i
        (fun q => { q with state := .inbound, current := none })) :=
      .after (reach_modifySource (fun r => ⟨keeps_plain rfl rfl rfl rfl rfl rfl rfl (fun e => nomatch e), (fun hc => nomatch hc)⟩))
        (.after (reach_endPresentationOf _ _ _) (reach_unidentify _ _ _))
    simp only
    refine .after (reach_queueHead _ _ _) ?_
    split
    · exact .after (reach_post _ _) corrected
    · exact corrected

theorem reach_sightMissing (s : State) (i : Slot) : Reach s (s.sightMissing i) := by
  unfold State.sightMissing
  split
  · exact .refl s
  · next r h =>
    exact .after (reach_post _ _) (.after (reach_queueHead _ _ _)
      (reach_state h (.of_running _ _) rfl id rfl rfl rfl (.refl _) (fun hc => nomatch hc) (fun e => nomatch e)))

theorem reach_sightInbound (s : State) (i : Slot) (p : Port) : Reach s (s.sightInbound i p) := by
  unfold State.sightInbound
  split
  · exact reach_endSighted _ _
  · exact .refl s

theorem reach_sightSource (s : State) (i : Slot) : Reach s (s.sightSource i) := by
  unfold State.sightSource
  split
  · exact .refl s
  · split <;> (try split) <;>
      first
      | exact .refl s
      | exact reach_adopt _ _
      | exact reach_sendHome _ _
      | exact reach_sightInbound _ _ _
      | exact reach_sightLane _ _
      | exact reach_takeExit _ _
      | exact reach_sightMissing _ _

theorem reach_divertDecision (s : State) (i : Slot) : Reach s (s.divertDecision i) := by
  unfold State.divertDecision
  split
  · exact .refl s
  · next r h =>
    split
    · split
      · exact .refl s
      · split
        · refine reach_putSource h ⟨.refl _, rfl, id, id, fun hb => ?_, id, .refl _, .inl⟩ id
          exact Nat.le_trans (Nat.sub_le _ _) hb
        · split
          · next ha => exact reach_armDivert ha _
          · exact reach_collide _ _
    · exact .refl s

theorem capturePort_accepts {s : State} {c : Option Port} {p : Port} (h : s.capturePort c = some p) :
    (s.port p).accepts = true := by
  unfold State.capturePort at h
  split at h
  · split at h
    · next hc => cases h; exact hc.2
    · cases h
  · cases h

theorem reach_armForeign (s : State) (c : Option Port) (reason : ForeignReason) (code : Code) :
    Reach s (s.armForeign (s.capturePort c) reason code) := by
  unfold State.armForeign
  split
  · next p h => exact reach_armDivert (capturePort_accepts h) _
  · exact .refl s

theorem reach_sightUnknown (s : State) (c : Code) : Reach s (s.sightUnknown c) := by
  unfold State.sightUnknown
  split
  · exact .after (reach_post _ _) (reach_armForeign _ _ _ _)
  · exact .refl s

theorem reach_endForeignArm (c : Code) (s : State) (p : Port) : Reach s (State.endForeignArm c s p) := by
  unfold State.endForeignArm
  split
  · split
    · exact reach_endSighted _ _
    · exact .refl s
  · exact .refl s

theorem reach_identify (s : State) (c : Code) : Reach s (s.identify c) := by
  unfold State.identify
  split
  · exact reach_armForeign _ _ _ _
  · split
    · exact reach_sightUnknown _ _
    · split
      · exact .after (reach_divertDecision _ _) (reach_sightSource _ _)
      · exact reach_post _ _

theorem reach_scannerRead (s : State) (c : Code) (time : Nat) : Reach s (s.scannerRead c time) := by
  unfold State.scannerRead
  split
  · simp only
    split
    · exact Reach.one (Atom.filter s _)
    · exact .after (reach_identify _ _) (.after (Reach.foldl _ (reach_endForeignArm c) _ _) (Reach.one (Atom.filter s _)))
  · exact .refl s

/-! ### Lane -/

theorem reach_setStop (s : State) (p : Port) (stop : Stop) : Reach s (s.setStop p stop) :=
  reach_modifyPort (fun _ => .same (le_refl _) (.inl rfl) rfl rfl id)

theorem reach_makeReady (s : State) (p : Port) (i : Slot) : Reach s (s.makeReady p i) :=
  .after (reach_passHead _ _) (.after (reach_modifyPort (fun _ => .same (le_refl _) (.inl rfl) rfl rfl id))
    (reach_modifySource (fun _ => ⟨keeps_plain rfl rfl rfl rfl rfl rfl rfl (fun e => nomatch e), (fun hc => nomatch hc)⟩)))

theorem exchangeHead_length (i : Slot) (ls : List LaneEntry) : (exchangeHead i ls).length = ls.length := by
  cases ls <;> simp [exchangeHead]

theorem reach_verifyInLane (s : State) (p : Port) (i : Slot) : Reach s (s.verifyInLane p i) := by
  unfold State.verifyInLane
  split
  · exact reach_makeReady _ _ _
  · refine .after (reach_makeReady _ _ _) (.after (reach_modifyPort (fun q =>
      .same (le_of_eq (exchangeHead_length i q.lane)) (.inl rfl) rfl rfl id)) ?_)
    unfold State.stepBack
    split
    · exact reach_modifySource (fun _ => ⟨keeps_plain rfl rfl rfl rfl rfl rfl rfl (fun e => nomatch e), (fun hc => nomatch hc)⟩)
    · exact .refl s

theorem foundAtStop_keeps {limit : Nat} (r : Source) : SourceKeeps limit r { r.foundAtStop with state := .ready } := by
  unfold Source.foundAtStop
  simp only
  split
  · exact .same (.of_running _ _) rfl id rfl rfl rfl (resolveLines_settle r _ (fun _ => rfl)) (fun e => nomatch e)
  · exact .same (.of_running _ _) rfl id rfl rfl rfl (.refl _) (fun e => nomatch e)

theorem reach_verifyFound {s : State} {i : Slot} {r : Source} (h : s.source i = some r) (p : Port) :
    Reach s (s.verifyFound p i r) := by
  have taken : Reach s ((((s.putSource i { r.foundAtStop with state := .ready }).unqueue p i).dropArmOf p i).displaceHead p
      (.slot i)) :=
    .after (reach_displaceHead _ _ _) (.after (reach_dropArmOf _ _ _) (.after (reach_unqueue _ _ _)
      (reach_putSource h (foundAtStop_keeps r) (fun hc => nomatch hc))))
  unfold State.verifyFound
  simp only
  refine .after (reach_makeReady _ _ _) ?_
  split
  · exact .after (reach_post _ _) taken
  · exact taken

theorem reach_foreignHead (s : State) (p : Port) (reason : ForeignReason) (c : Code) :
    Reach s (s.foreignHead p reason c) := reach_displaceHead _ _ _

theorem reach_verifyOwn {s : State} {i : Slot} {r : Source} (h : s.source i = some r) (p : Port) :
    Reach s (s.verifyOwn p i r) := by
  unfold State.verifyOwn
  split <;>
    first
    | exact reach_verifyInLane _ _ _
    | exact reach_verifyFound h _
    | exact .after (reach_openStop _ _) (reach_foreignHead _ _ _ _)

theorem reach_verify (s : State) (p : Port) (c : Code) : Reach s (s.verify p c) := by
  unfold State.verify
  split
  · unfold State.verifyService
    simp only
    split
    · exact .after (reach_setStop _ _ _) (reach_foreignHead _ _ _ _)
    · exact .after (reach_openStop _ _) (reach_foreignHead _ _ _ _)
  · have stray : ∀ o, Reach s (s.verifyStray p c o) := by
      intro o
      unfold State.verifyStray
      split
      · exact .after (reach_setStop _ _ _) (.after (reach_post _ _) (reach_foreignHead _ _ _ _))
      · exact .after (reach_openStop _ _) (.after (reach_post _ _) (reach_foreignHead _ _ _ _))
    split
    · exact stray _
    · split
      · exact stray _
      · next r h =>
        split
        · exact reach_verifyOwn h _
        · exact .after (reach_openStop _ _) (.after (reach_post _ _) (.after (reach_foreignHead _ _ _ _)
            (reach_sightSource _ _)))

theorem reach_failHead (s : State) (p : Port) : Reach s (s.failHead p) := by
  unfold State.failHead
  split
  · refine reach_modifySource (fun r => ?_)
    split
    · exact ⟨keeps_plain rfl rfl rfl rfl rfl rfl rfl .inl, id⟩
    · exact ⟨.refl r, id⟩
  · exact .refl _

theorem reach_failedRead (s : State) (p : Port) (a : Attempt) : Reach s (s.failedRead p a) := by
  unfold State.failedRead
  split
  · exact reach_modifyPort (fun _ => .same (le_refl _) (.inl rfl) rfl rfl id)
  · exact .after (reach_openStop _ _) (.after (reach_failHead _ _) (reach_post _ _))

theorem reach_laneFrame (s : State) (p : Port) (f : FrameClass) : Reach s (s.laneFrame p f) := by
  unfold State.laneFrame
  split
  · split
    · split
      · exact reach_verify _ _ _
      all_goals exact reach_failedRead _ _ _
    · exact .refl s
  all_goals exact .refl s

theorem reach_consumeArm {s : State} {p : Port} {a : Arm} (h : (s.port p).arm = some a) :
    Reach s (s.consumeArm p a.item) := by
  have entered : Reach s (s.modifyPort p (fun q =>
      { q with lane := q.lane ++ [a.item.entry], arm := none, unconfirmed := 0 })) := by
    refine Reach.one (Atom.port s p _ ⟨fun law => ?_, id, id⟩)
    unfold LaneLaw PortRec.reservation at *
    rw [h] at law
    simp at law ⊢
    omega
  unfold State.consumeArm
  simp only
  split
  · exact .after (reach_unqueue _ _ _) (.after (reach_modifySource (fun _ =>
      ⟨keeps_plain rfl rfl rfl rfl rfl rfl rfl (fun e => nomatch e), (fun hc => nomatch hc)⟩)) entered)
  · exact entered

theorem reach_takeEntry (s : State) (p : Port) : Reach s (s.takeEntry p) := by
  unfold State.takeEntry
  split
  · next hl =>
    split
    · next a h => exact reach_consumeArm h
    · next h =>
      refine Reach.one (Atom.port s p _ ⟨fun _ => ?_, id, id⟩)
      unfold LaneLaw PortRec.reservation
      simp [h]
      omega
  · exact .after (reach_raiseFault _ _ _) (reach_withdrawArm _ _)

theorem reach_takeSeatOn (s : State) (p : Port) : Reach s (s.takeSeatOn p) := by
  unfold State.takeSeatOn
  split <;> first | exact reach_seatHead _ _ | exact reach_setStop _ _ _ | exact .refl s

theorem reach_takeSeatOff (s : State) (p : Port) : Reach s (s.takeSeatOff p) := by
  unfold State.takeSeatOff
  split <;> first | exact reach_setStop _ _ _ | exact reach_loseHead _ _ _ _ | exact .refl s

theorem reach_takeExitEvent (s : State) (p : Port) : Reach s (s.takeExitEvent p) := by
  unfold State.takeExitEvent
  split <;> first | exact reach_takeExit _ _ | exact reach_loseHead _ _ _ _ | exact .refl s

theorem reach_seatWaiting (s : State) (p : Port) : Reach s (s.seatWaiting p) := by
  unfold State.seatWaiting
  split
  · exact reach_seatHead _ _
  · exact .refl s

/-! ### Supply -/

theorem reach_stale (s : State) : Reach s s.stale := Reach.one (Atom.supply s _ saturate_le id)

theorem reach_endFailedCall {s : State} {i : Slot} {r : Source} (h : s.source i = some r) :
    Reach s (s.endFailedCall i r) := by
  unfold State.endFailedCall
  split
  · exact reach_retireSource _ _ _
  · exact .after (reach_queueTail _ _ _)
      (reach_putSource h (keeps_plain rfl rfl rfl rfl rfl rfl rfl (fun e => nomatch e)) (fun hc => nomatch hc))

theorem reach_takeRelease {s : State} {i : Slot} {r : Source} (h : s.source i = some r) :
    Reach s (s.takeRelease i r) := by
  unfold State.takeRelease
  split
  · exact .after (reach_enterReturning _ _ _) (reach_putSource h (giveBack_keeps r) id)
  · exact reach_state h (.of_running _ _) rfl id rfl rfl rfl (.refl _) (fun hc => nomatch hc) (fun e => nomatch e)

theorem reach_acceptCall {s : State} {i : Slot} {r : Source} (h : s.source i = some r) (hc : r.state = .calling) :
    Reach s (s.acceptCall i r) := by
  have credit : r.holdsCredit = true := by simp [Source.holdsCredit, hc]
  unfold State.acceptCall
  split
  · exact .after (reach_sendCancel _ _) (reach_putSource h (keeps_plain rfl rfl rfl rfl rfl rfl rfl (fun e => nomatch e)) (fun _ => credit))
  · exact reach_putSource h (keeps_plain rfl rfl rfl rfl rfl rfl rfl (fun e => nomatch e)) (fun hc => nomatch hc)

theorem reach_refuseCall {s : State} {i : Slot} {r : Source} (h : s.source i = some r) (reason : RefuseReason) :
    Reach s (s.refuseCall i r reason) := by
  unfold State.refuseCall
  split
  · exact reach_endFailedCall h
  · exact reach_endFailedCall h
  · exact reach_retireSource _ _ _

theorem reach_resolveCancel {s : State} {i : Slot} {r : Source} (h : s.source i = some r) (o : CancelOutcome) :
    Reach s (s.resolveCancel i r o) := by
  unfold State.resolveCancel
  split
  · exact reach_endFailedCall h
  · exact reach_endFailedCall h
  · exact reach_takeRelease h

theorem reach_takeHome {s : State} {i : Slot} {r : Source} (h : s.source i = some r) : Reach s (s.takeHome i r) := by
  have back : ∀ q : Source, q = { r with
      state := .queued, divertAttempts := 0, backoff := 0, returnOwed := false,
      tote := { r.tote with running := false } } → Reach s (s.putSource i q) := by
    rintro q rfl
    exact reach_putSource h ⟨.of_running _ _, rfl, id, fun _ => Nat.zero_le _, fun _ => Nat.zero_le _, id, .refl _,
      (fun e => nomatch e)⟩
      (fun hc => nomatch hc)
  unfold State.takeHome
  split
  · exact reach_retireSource _ _ _
  · split
    · exact reach_retireSource _ _ _
    · split
      · exact reach_retireSource _ _ _
      · simp only
        split
        · exact .after (reach_queueAhead _ _ _) (back _ rfl)
        · exact .after (reach_queueTail _ _ _) (back _ rfl)

theorem fitting_some {s : State} {tag : Byte} {fits : Source → Bool} {r : Source} (h : s.fitting tag fits = some r) :
    s.source (tagSlot tag) = some r ∧ r.visit = tagVisit tag ∧ fits r = true := by
  unfold State.fitting at h
  split at h
  · next q hq =>
    split at h
    · next hc => cases h; exact ⟨hq, hc⟩
    · cases h
  · cases h

theorem reach_answer (s : State) (tag : Byte) (fits : Source → Bool) (act : State → Slot → Source → State)
    (h : ∀ r, s.source (tagSlot tag) = some r → fits r = true → Reach s (act s (tagSlot tag) r)) :
    Reach s (s.answer tag fits act) := by
  unfold State.answer
  split
  · next r hr =>
    obtain ⟨h1, _, h3⟩ := fitting_some hr
    exact .after (reach_settle _) (h r h1 h3)
  · exact reach_stale s

theorem reach_takeMessage (s : State) (m : DispatcherMessage) : Reach s (s.takeMessage m) := by
  cases m with
  | accepted tag =>
    exact reach_answer s tag Source.fitsAnswer State.acceptCall
      (fun r h hf => reach_acceptCall h (by simpa [Source.fitsAnswer] using hf))
  | refused tag reason =>
    exact reach_answer s tag Source.fitsAnswer (fun t i r => t.refuseCall i r reason)
      (fun r h _ => reach_refuseCall h reason)
  | released tag =>
    exact reach_answer s tag Source.fitsReleased State.takeRelease (fun r h _ => reach_takeRelease h)
  | cancelResult tag outcome =>
    exact reach_answer s tag Source.fitsCancelResult (fun t i r => t.resolveCancel i r outcome)
      (fun r h _ => reach_resolveCancel h outcome)
  | taken tag =>
    exact reach_answer s tag Source.fitsTaken State.takeHome (fun r h _ => reach_takeHome h)

theorem reach_setReceiver (s : State) (x : SupplyReceiver) : Reach s (s.setReceiver x) :=
  Reach.one (Atom.supply s _ id id)

theorem reach_badSupply (s : State) : Reach s s.badSupply := by
  unfold State.badSupply
  exact Reach.one (Atom.supply s _ (fun h => h) (fun h => saturate_le h))

theorem reach_takeSupplyByte (s : State) (b : SerialByte) : Reach s (s.takeSupplyByte b) := by
  unfold State.takeSupplyByte
  simp only
  split
  · exact reach_setReceiver _ _
  · exact reach_badSupply _
  · exact .after (reach_takeMessage _ _) (reach_setReceiver _ _)

theorem reach_takeSupplyBytes (s : State) (bs : List SerialByte) : Reach s (s.takeSupplyBytes bs) :=
  Reach.foldl _ reach_takeSupplyByte _ _

theorem reach_supplyGap (s : State) : Reach s s.supplyGap := by
  unfold State.supplyGap
  split
  · exact reach_badSupply _
  · exact .refl s

theorem reach_expireCallWindow (s : State) (i : Slot) : Reach s (s.expireCallWindow i) := by
  unfold State.expireCallWindow
  split
  · exact .refl s
  · next r h =>
    split
    · next hc =>
      exact .after (reach_settle _) (.after (reach_sendCancel _ _)
        (reach_putSource h (keeps_plain rfl rfl rfl rfl rfl rfl rfl (fun e => nomatch e)) (fun _ => by simp [Source.holdsCredit, hc.1])))
    · exact .refl s

theorem reach_expireCancelWindow (s : State) (i : Slot) : Reach s (s.expireCancelWindow i) := by
  unfold State.expireCancelWindow
  split
  · exact .refl s
  · next r h =>
    split
    · refine .after (reach_settle _) (.after ?_ (reach_endFailedCall h))
      unfold State.courtesyReturn
      split
      · split
        · exact reach_transmit _ _
        · exact .refl _
      · exact .refl _
    · exact .refl s

theorem reach_setPass (s : State) (x : Option Nat) : Reach s (s.setPass x) := Reach.one (Atom.supply s _ id id)

theorem reach_producePass (s : State) (f : PassFrame) : Reach s (s.producePass f) := by
  cases f with
  | cancel i => exact reach_sendCancel s i
  | giveHome i => exact .after (reach_setPass _ _) (reach_sendReturn s i)

theorem reach_endPass (s : State) : Reach s s.endPass := .after (reach_settle _) (reach_setPass s none)

theorem reach_beginPass (s : State) : Reach s s.beginPass := by
  have begun : Reach s (({ s with meets := none } : State).setPass (some 0)) :=
    .after (reach_setPass _ _) (Reach.one (Atom.meets s none))
  unfold State.beginPass
  dsimp only
  split
  · exact .after (reach_endPass _) (.after (Reach.foldl _ reach_producePass _ _) begun)
  · exact .after (Reach.foldl _ reach_producePass _ _) begun

/-! ### Readers -/

theorem reach_setReceiverOf {s : State} {c : Channel} {x : ReaderReceiver}
    (h : ∀ bs, x = .receiving bs → bs.length ≤ 5) :
    Reach s (s.modifyReader c (fun r => { r with receiver := x })) :=
  Reach.one (Atom.reader s c _ (fun _ law => ⟨h, law.bad, law.frames⟩))

theorem reach_countFrame (s : State) (c : Channel) (bad : Bool) : Reach s (s.countFrame c bad) := by
  have hb : bad.toNat ≤ 1 := by cases bad <;> decide
  unfold State.countFrame
  simp only
  split
  · unfold State.closeWindow
    simp only
    refine .after (reach_postIf _ _) (Reach.one (Atom.reader s c _ (fun hw law => ?_)))
    exact ⟨law.bytes, le_refl _, hw⟩
  · next hlt =>
    refine Reach.one (Atom.reader s c _ (fun _ law => ⟨law.bytes, ?_, ?_⟩))
    · have := law.bad
      simp only [ReaderRec.counted]
      omega
    · omega

theorem reach_handOn (s : State) (c : Channel) (f : FrameClass) (time : Nat) : Reach s (s.handOn c f time) := by
  unfold State.handOn
  split
  · split
    · exact reach_scannerRead _ _ _
    all_goals exact .refl s
  · exact reach_laneFrame _ _ _

theorem reach_completeFrame (s : State) (c : Channel) (bytes : List Byte) (time : Nat) :
    Reach s (s.completeFrame c bytes time) :=
  .after (reach_settle _) (.after (reach_countFrame _ _ _) (.after (reach_settle _) (.after (reach_handOn _ _ _ _)
    (reach_setReceiverOf (fun _ h => nomatch h)))))

theorem reach_takeReaderByte (c : Channel) (time : Nat) (s : State) (b : Byte) :
    Reach s (State.takeReaderByte c time s b) := by
  unfold State.takeReaderByte
  split
  · exact .refl s
  · exact .refl s
  · simp only
    split
    · next hl => exact reach_setReceiverOf (fun bs e => by cases e; omega)
    · exact reach_completeFrame _ _ _ _

theorem reach_discardFrame {s : State} {c : Channel} {x : ReaderReceiver}
    (h : ∀ bs, x = .receiving bs → bs.length ≤ 5) : Reach s (s.discardFrame c x) :=
  .after (reach_settle _) (.after (reach_countFrame _ _ _) (reach_setReceiverOf h))

/-! ### Stations and order totes -/

theorem reach_pickerInput (s : State) (st : Station) : Reach s (s.pickerInput st) :=
  reach_modifyStation (fun law => ⟨law.held, law.running, law.pending, law.step, law.window⟩)

theorem reach_expireAttendance (s : State) (st : Station) : Reach s (s.expireAttendance st) := by
  unfold State.expireAttendance
  simp only
  split
  · exact .refl s
  · split
    · exact .after (reach_postIf _ _) (Reach.one (Atom.station s st _ (fun law =>
        ⟨law.held, law.running, law.pending, law.step, (fun e => nomatch e)⟩)))
    · exact Reach.one (Atom.station s st _ (fun law =>
        ⟨law.held, law.running, law.pending, law.step, (fun e => nomatch e)⟩))

theorem reach_resolveCurrent (s : State) (st : Station) (dest : LineState)
    (hd : ∀ l : Line, ({ l with state := dest } : Line).pending = false) : Reach s (s.resolveCurrent st dest) := by
  unfold State.resolveCurrent
  split
  · exact .refl s
  · split
    · exact .refl s
    · next r h =>
      split
      · exact .refl s
      · exact .after (reach_chooseLine _ _) (reach_state h (.refl _) rfl id rfl rfl rfl (setLine_settle _ _ _ hd) id .inl)

theorem reach_pressPut (s : State) (u : Position) : Reach s (s.pressPut u) := by
  unfold State.pressPut
  simp only
  split
  · exact reach_resolveCurrent _ _ _ (fun _ => rfl)
  · exact reach_post _ _

theorem reach_holdSet (s : State) (st : Station) : Reach s (s.holdSet st) := by
  unfold State.holdSet
  split
  · next hr =>
    split
    · next hp => exact reach_enterHeld hp _
    · exact reach_modifyStation (fun law =>
        ⟨(fun e => nomatch e), (fun e => nomatch e), fun _ => law.running hr, (fun _ e => nomatch e), law.window⟩)
  all_goals exact .refl s

theorem reach_holdClear (s : State) (st : Station) : Reach s (s.holdClear st) := by
  unfold State.holdClear
  split
  · exact reach_enterRunning _ _
  all_goals exact .refl s

theorem reach_followRequest (s : State) (st : Station) (b : Bool) : Reach s (s.followRequest st b) := by
  unfold State.followRequest
  split
  · exact reach_holdSet _ _
  · exact reach_holdClear _ _
  all_goals exact .refl s

theorem reach_setCommandFlag (s : State) (st : Station) (f : Bool) : Reach s (s.setCommandFlag st f) :=
  .after (reach_followRequest _ _ _) (reach_modifyStation (fun law =>
    ⟨law.held, law.running, law.pending, law.step, law.window⟩))

theorem reach_resume (s : State) (st : Station) : Reach s (s.resume st) := by
  unfold State.resume
  split
  · next hh =>
    split
    · exact reach_modifyStation (fun law =>
        ⟨(fun e => nomatch e), (fun e => nomatch e), (fun e => nomatch e), fun _ _ => (law.held hh).1, law.window⟩)
    · exact reach_enterRunning _ _
  all_goals exact .refl s

theorem isIn_pending {st : LineState} (h : st = .isOpen ∨ st = .blocked) (l : Line) (hl : Line.isIn st l = true) :
    l.pending = true := by
  simp only [Line.isIn, decide_eq_true_eq] at hl
  rcases h with rfl | rfl <;> simp [Line.pending, hl]

theorem reach_orderGone (s : State) (u : Position) : Reach s (s.orderGone u) := by
  unfold State.orderGone
  split
  · exact .refl s
  · split
    · exact .refl s
    · next r h =>
      split
      · next hb =>
        refine .after (reach_settle _) (.after (reach_refreshLine _ _) (.after (reach_refreshLine _ _)
          (.after (reach_post _ _) (reach_moveOrder (q := { r with state := .missing }) h (.refl _) rfl
            (isIn_pending (.inl rfl)) (fun l hf => ?_)))))
        rw [hb] at hf
        split
        · exact ⟨(fun e => nomatch e), fun _ => rfl⟩
        · next hp => exact ⟨fun e => absurd (by simp [Line.isIn, e]) hp, fun _ => rfl⟩
      · exact .refl s

theorem reach_orderBack (s : State) (u : Position) : Reach s (s.orderBack u) := by
  unfold State.orderBack
  split
  · exact .refl s
  · split
    · exact .refl s
    · next r h =>
      split
      · refine .after (reach_settle _) (.after (reach_post _ _)
          (reach_moveOrder (q := { r with state := .bound }) h (.refl _) rfl (isIn_pending (.inr rfl)) (fun l _ => ?_)))
        split
        · exact ⟨fun _ => rfl, (fun e => nomatch e)⟩
        · next hp => exact ⟨fun _ => rfl, fun e => absurd (by simp [Line.isIn, e]) hp⟩
      · exact .refl s

end Sys2Proof.Machine
end

