-- ==== Sys2Proof/Laws/ReachCommands.lean ====
section
/-! SUPPORT. The requests and the whole commands as runs of changes: `act_changes`, `exec_next` (every command answers a
next state, which its changes reach) and `step_event`. -/

namespace Sys2Proof.Machine

/-! ### Record commands -/

/-- A run whose later part is a run of single changes. -/
theorem Changes.after {s t u : State} (later : Reach t u) (earlier : Changes s t) : Changes s u :=
  earlier.trans later.changes

/-- A reply in a state stands in that state. -/
theorem reach_reply {s t : State} (h : Reach s t) (status : Status) (result : List Byte) :
    Reach s (t.reply status result).state := h

theorem changes_reply {s t : State} (h : Changes s t) (status : Status) (result : List Byte) :
    Changes s (t.reply status result).state := h

theorem reach_refuse (s : State) (status : Status) : Reach s (s.refuse status).state := .refl s

theorem reach_replyPort {s t : State} (h : Reach s t) (p : Port) : Reach s (t.replyPort p).state := h

theorem changes_replyBench {s t : State} (h : Changes s t) : Changes s t.replyBench.state := h

theorem reach_whenConfigured {s : State} {x : Reply} (h : Reach s x.state) : Reach s (s.whenConfigured x).state := by
  unfold State.whenConfigured
  split
  · exact .refl s
  · exact h

theorem changes_whenConfigured {s : State} {x : Reply} (h : Changes s x.state) : Changes s (s.whenConfigured x).state := by
  unfold State.whenConfigured
  split
  · exact .refl
  · exact h

theorem placement_room {s : State} {st : Station} {p : Port} (h : s.placement st = some p) : s.rosterSize p < 10 := by
  have room : ∀ q, s.hasRoom q = true → s.rosterSize q < 10 := by
    intro q hq
    simp only [State.hasRoom, Bool.and_eq_true, decide_eq_true_eq] at hq
    exact hq.2
  simp only [State.placement] at h
  split at h
  · next hl =>
    split at h
    · next hr =>
      cases h
      exact room _ (Bool.and_eq_true _ _ ▸ hr).1
    · cases h; exact room _ hl
  · split at h
    · next hr => cases h; exact room _ hr
    · cases h

theorem placement_station {s : State} {st : Station} {p : Port} (h : s.placement st = some p) : portStation p = st := by
  have side : ∀ x, portStation (stationPort st x) = st := by intro x; cases st <;> cases x <;> rfl
  simp only [State.placement] at h
  split at h
  · split at h <;> (cases h; exact side _)
  · split at h
    · cases h; exact side _
    · cases h

theorem nextFree_free {s : State} {i : Slot} (h : s.nextFree = some i) : s.record i = none := by
  have := List.find?_some h
  simpa using this

theorem newSource_fresh {s : State} {code : Code} (hc : recordCode code = true) (hu : (s.findCode code).isSome ≠ true)
    (cls : ToteClass) {exposure : Nat} (he : exposure ≤ 65535) (st : Station) {p : Port} (hp : s.rosterSize p < 10)
    {lines : List LineArg} (hl : lines.length ≤ 8) (hst : portStation p = st)
    (hr : (s.rejections st [] lines).contains true = false) :
    Fresh s (.source (s.newSource code cls exposure st p lines)) := by
  refine ⟨show s.findCode code = none by simpa using hu, hc, he, fun r hr => ?_, fun _ h => nomatch h⟩
  cases hr
  exact ⟨rfl, hp, rfl, rfl, rfl, (List.length_filterMap_le _ _).trans hl, rfl,
    hst ▸ (newLines_of_rejections lines [] hr).state⟩

theorem newOrder_fresh {s : State} {code : Code} (hc : recordCode code = true) (hu : (s.findCode code).isSome ≠ true)
    (cls : ToteClass) {exposure : Nat} (he : exposure ≤ 65535) {u : Position}
    (hp : (s.orderAt u).isSome ≠ true) : Fresh s (.order (s.newOrder code cls exposure u)) :=
  ⟨show s.findCode code = none by simpa using hu, hc, he, fun _ h => (nomatch h),
    fun o h => by cases h; show s.orderAt u = none; simpa using hp⟩

theorem changes_admitSource {s : State} {i : Slot} {p : Port} {r : Source} (hi : s.record i = none)
    (hf : Fresh s (.source r)) : Changes s (s.admitSource i p r).state := by
  unfold State.admitSource
  refine changes_reply (.after (reach_settle _) (.after ?_ (.single (Change.create s i _ hi hf)))) _ _
  split
  · exact reach_queueAhead _ _ _
  · exact reach_queueTail _ _ _

theorem changes_cmdSubmitSource (code : Code) (cls : Byte) (exposure : BitVec 16) (station : Byte) (lines : List LineArg)
    (s : State) : Changes s (cmdSubmitSource code cls exposure station lines s).state := by
  unfold cmdSubmitSource
  refine changes_whenConfigured ?_
  split
  · next c st _ _ =>
    split
    · next h =>
      simp only [Bool.and_eq_true, within, decide_eq_true_eq] at h
      unfold State.submitChecked
      split
      · exact .refl
      · next hu =>
        split
        · exact .refl
        · split
          · exact .refl
          · next i hi =>
            split
            · split
              · exact .refl
              · next p hp =>
                dsimp only
                split
                · exact .refl
                · next hn =>
                  refine changes_admitSource (nextFree_free hi) (newSource_fresh h.1 hu c ?_ st (placement_room hp) h.2.2
                    (placement_station hp) (Bool.eq_false_iff.mpr hn))
                  have := exposure.isLt
                  omega
            · exact .refl
    · exact .refl
  · exact .refl

theorem changes_cmdBindOrder (code : Code) (cls : Byte) (exposure : BitVec 16) (position : Byte) (s : State) :
    Changes s (cmdBindOrder code cls exposure position s).state := by
  unfold cmdBindOrder
  refine changes_whenConfigured ?_
  split
  · next c u _ _ =>
    split
    · next h =>
      unfold State.bindChecked
      split
      · exact .refl
      · next hu =>
        split
        · exact .refl
        · split
          · exact .refl
          · next i hi =>
            split
            · exact .refl
            · next hp =>
              split
              · refine changes_reply (.single (Change.create s i _ (nextFree_free hi) (newOrder_fresh h hu c ?_ hp))) _ _
                have := exposure.isLt
                omega
              · exact .refl
    · exact .refl
  · exact .refl

theorem reach_onSource {s : State} {slot : Byte} {f : Slot → Source → Reply}
    (h : ∀ i r, s.source i = some r → Reach s (f i r).state) : Reach s (s.onSource slot f).state := by
  unfold State.onSource
  refine reach_whenConfigured ?_
  split
  · exact .refl s
  · split
    · exact .refl s
    · exact .refl s
    · next r hr => exact h _ r (State.source_eq_some.mpr hr)

theorem cancelNamed_length (cancels : List Byte) (ls : List Line) : (cancelNamed cancels ls).length = ls.length := by
  unfold cancelNamed
  induction cancels generalizing ls with
  | nil => rfl
  | cons k rest ih => simp only [List.foldl_cons]; rw [ih]; simp [setLine]

theorem reach_amendRecord {s : State} {i : Slot} {r : Source} (h : s.source i = some r) (cancels : List Byte)
    (adds : List LineArg) : Reach s (s.amendRecord i r cancels adds).state := by
  unfold State.amendRecord
  split
  · exact .refl s
  · split
    · exact .refl s
    · next hb =>
      split
      · exact .refl s
      · dsimp only
        split
        · exact .refl s
        · next hn =>
          have total : r.lines.length + adds.length ≤ 8 := by
            simp only [Source.amendBad, Bool.or_eq_true, decide_eq_true_eq, not_or] at hb
            have := hb.2
            simp only [Config.lineLimit] at this
            omega
          have live : r.state ≠ .returning := by
            intro e
            exact ‹¬ r.leavingNow = true› (by simp [Source.leavingNow, e])
          refine reach_reply (.one (Atom.amend s i r (cancelNamed cancels r.lines ++
            adds.filterMap (s.newLine (portStation r.port))) h live ?_ (fun law => ?_))) _ _
          swap
          · exact (law.settle (cancelNamed_settle cancels r.lines)).append
              (newLines_of_rejections adds _ (Bool.eq_false_iff.mpr hn))
          refine (cancelNamed_settle cancels r.lines).keep.trans (.append _ _ (fun _ => ?_))
          rw [List.length_append, cancelNamed_length]
          have := List.length_filterMap_le (s.newLine (portStation r.port)) adds
          omega

theorem withdrawn_keeps {limit : Nat} (r : Source) : SourceKeeps limit r r.withdrawn :=
  .same (.refl _) rfl (fun _ => rfl) rfl rfl rfl (resolveLines_settle _ _ (fun _ => rfl)) .inl

/-- A withdrawn record, with changes of the fields no law speaks of. -/
theorem reach_withdrawn {s : State} {i : Slot} {r q : Source} (h : s.source i = some r) (ht : q.tote = r.tote)
    (hp : q.port = r.port) (hw : q.withdraw = true) (ha : q.divertAttempts = r.divertAttempts)
    (hb : q.backoff = r.backoff) (hr : q.recycleCount = r.recycleCount)
    (hl : q.lines = (r.resolveLines .cancelled).lines) (hs : q.state = r.state) : Reach s (s.putSource i q) := by
  refine reach_state h (by rw [ht]; exact .refl _) hp (fun _ => hw) ha hb hr
    (by rw [hl]; exact resolveLines_settle _ _ (fun _ => rfl)) ?_ (fun e => .inl (hs ▸ e))
  intro hq
  simpa [Source.holdsCredit, hs] using hq

theorem reach_withdrawByState {s : State} {i : Slot} {r : Source} (h : s.source i = some r) :
    Reach s (s.withdrawByState i r) := by
  unfold State.withdrawByState
  split
  · exact .after (reach_retireSource _ _ _) (reach_withdrawn h rfl rfl rfl rfl rfl rfl rfl rfl)
  · exact reach_withdrawn h rfl rfl rfl rfl rfl rfl rfl rfl
  · exact reach_withdrawn h rfl rfl rfl rfl rfl rfl rfl rfl
  · exact reach_withdrawn h rfl rfl rfl rfl rfl rfl rfl rfl
  · exact .after (reach_enterReturning _ _ _) (reach_withdrawn h rfl rfl rfl rfl rfl rfl rfl rfl)
  · exact reach_withdrawn h rfl rfl rfl rfl rfl rfl rfl rfl
  · exact reach_withdrawn h rfl rfl rfl rfl rfl rfl rfl rfl
  · exact .after (reach_passHead _ _) (reach_withdrawn h rfl rfl rfl rfl rfl rfl rfl rfl)
  · exact .after (reach_openStop _ _) (reach_withdrawn h rfl rfl rfl rfl rfl rfl rfl rfl)
  · exact .after (reach_retireSource _ _ _) (reach_withdrawn h rfl rfl rfl rfl rfl rfl rfl rfl)
  · exact reach_withdrawn h rfl rfl rfl rfl rfl rfl rfl rfl
  · exact .refl s
  · exact .refl s

theorem reach_withdrawExpired (s : State) (i : Slot) (r : Source) : Reach s (s.withdrawExpired i r) := by
  unfold State.withdrawExpired
  split <;> first | exact reach_retireSource _ _ _ | exact .refl s

theorem reach_withdrawRecord {s : State} {i : Slot} {r : Source} (h : s.source i = some r) :
    Reach s (s.withdrawRecord i r).state := by
  unfold State.withdrawRecord
  split
  · exact .refl s
  · split
    · exact reach_reply (.after (reach_settle _) (reach_withdrawExpired s i r)) _ _
    · split
      · exact .refl s
      · exact reach_reply (.after (reach_settle _) (reach_withdrawByState h)) _ _

theorem reach_cmdAmendLines (slot : Byte) (cancels : List Byte) (adds : List LineArg) (s : State) :
    Reach s (cmdAmendLines slot cancels adds s).state := reach_onSource (fun _ _ h => reach_amendRecord h cancels adds)

theorem reach_cmdWithdraw (slot : Byte) (s : State) : Reach s (cmdWithdraw slot s).state :=
  reach_onSource (fun _ _ h => reach_withdrawRecord h)

theorem reach_closeRecord (s : State) (i : Slot) : Reach s (s.closeRecord i) := by
  unfold State.closeRecord
  have none := ((unserved_moveLinesFor s i).refreshLine .a).refreshLine .b
  exact .after (reach_settle _) (.after (reach_retireOrder none _ _) (.after (reach_refreshLine _ _)
    (.after (reach_refreshLine _ _) (reach_moveLinesFor s i _ (fun _ h => h) _ (fun _ => rfl)))))

theorem reach_cmdCloseOrder (slot force : Byte) (s : State) : Reach s (cmdCloseOrder slot force s).state := by
  unfold cmdCloseOrder
  refine reach_whenConfigured ?_
  split
  · split
    · exact .refl s
    · exact .refl s
    · split
      · exact .refl s
      · exact reach_reply (reach_closeRecord s _) _ _
  · exact .refl s

theorem cmdReadRecord_state (slot : Byte) (s : State) : (cmdReadRecord slot s).state = s := by
  unfold cmdReadRecord
  split
  · rfl
  · split <;> rfl

theorem cmdFindTote_state (code : Code) (s : State) : (cmdFindTote code s).state = s := by
  unfold cmdFindTote
  split
  · split
    · rfl
    · split <;> rfl
  · rfl

/-! ### Port commands -/

theorem reach_portCommand {s : State} {port : Byte} {f : Port → Reply} (h : ∀ p, Reach s (f p).state) :
    Reach s (s.portCommand port f).state := by
  unfold State.portCommand
  refine reach_whenConfigured ?_
  split
  · exact .refl s
  · exact h _

theorem reach_setMode {s : State} {p : Port} {m : PortMode} (h : (s.port p).mode ≠ .faulted) (hm : m ≠ .faulted) :
    Reach s (s.setMode p m) := by
  refine Reach.one (Atom.port s p _ ⟨id, fun hc => ?_, id⟩)
  unfold CauseLaw at *
  simpa [h, hm] using hc

theorem reach_startRead (s : State) (p : Port) (a : Attempt) : Reach s (s.modifyPort p (fun q => q.startRead a)) :=
  reach_modifyPort (fun _ => .same (le_refl _) (.inl rfl) rfl rfl id)

theorem reach_restartChain (s : State) (p : Port) : Reach s (s.restartChain p) := by
  unfold State.restartChain
  split
  · dsimp only
    split
    · split
      · next r hr =>
        refine .after (reach_endPresentationOf _ _ _) (.after (t := s.modifyPort p (fun q => q.startRead .first)) ?_ (reach_startRead s p _))
        refine reach_state (r := r) (by simpa [State.modifyPort] using hr) (.refl _) rfl id rfl rfl rfl
          (deferCurrent_settle r) (fun hc => nomatch hc) (fun e => nomatch e)
      · exact reach_startRead s p _
    · exact reach_startRead s p _
  · exact .refl s

theorem reach_openPort (s : State) (p : Port) : Reach s (s.openPort p).state := by
  unfold State.openPort
  split
  · next h => exact reach_replyPort (.after (reach_settle _) (.after (reach_restartChain _ _)
      (reach_setMode (by simp [h]) (by simp)))) p
  · next h => exact reach_replyPort (.after (reach_settle _) (.after (reach_restartChain _ _)
      (reach_setMode (by simp [h]) (by simp)))) p
  · exact .refl s
  · exact .refl s

theorem reach_closePort (s : State) (p : Port) : Reach s (s.closePort p).state := by
  unfold State.closePort
  split
  · next h => exact reach_replyPort (.after (reach_settle _) (reach_setMode (by simp [h]) (by simp))) p
  · exact .refl s
  · exact .refl s
  · exact .refl s

theorem reach_ackFault (s : State) (p : Port) : Reach s (s.ackFault p).state := by
  unfold State.ackFault
  split
  · exact .refl s
  · split
    · refine reach_replyPort (reach_setPort (q := { s.port p with mode := .closed, cause := none, unconfirmed := 0 })
        ⟨id, fun _ => ?_, id⟩) p
      simp [CauseLaw]
    · exact .refl s

theorem reach_cmdOpenPort (port : Byte) (s : State) : Reach s (cmdOpenPort port s).state :=
  reach_portCommand (fun p => reach_openPort s p)

theorem reach_cmdClosePort (port : Byte) (s : State) : Reach s (cmdClosePort port s).state :=
  reach_portCommand (fun p => reach_closePort s p)

theorem reach_cmdAckFault (port : Byte) (s : State) : Reach s (cmdAckFault port s).state :=
  reach_portCommand (fun p => reach_ackFault s p)

theorem cmdListPort_state (port : Byte) (s : State) : (cmdListPort port s).state = s := by
  unfold cmdListPort
  split <;> rfl

theorem reach_cmdReleaseService (port : Byte) (s : State) : Reach s (cmdReleaseService port s).state := by
  unfold cmdReleaseService
  split
  · exact .refl s
  · split
    · exact reach_reply (.after (reach_settle _) (reach_openStop s _)) _ _
    · exact .refl s

/-! ### Station and notice commands -/

theorem reach_stationCommand {s : State} {station : Byte} {f : State → Station → State} (h : ∀ st, Reach s (f s st)) :
    Reach s (s.stationCommand station f).state := by
  unfold State.stationCommand
  split
  · exact .refl s
  · exact reach_reply (.after (reach_settle _) (h _)) _ _

theorem reach_cmdHoldStation (station : Byte) (s : State) : Reach s (cmdHoldStation station s).state :=
  reach_stationCommand (fun st => reach_setCommandFlag s st true)

theorem reach_cmdReleaseHold (station : Byte) (s : State) : Reach s (cmdReleaseHold station s).state :=
  reach_stationCommand (fun st => reach_setCommandFlag s st false)

theorem reach_cmdResumeStation (station : Byte) (s : State) : Reach s (cmdResumeStation station s).state :=
  reach_stationCommand (fun st => reach_resume s st)

theorem reach_cmdReadNotices (most : Byte) (s : State) : Reach s (cmdReadNotices most s).state := by
  unfold cmdReadNotices
  split
  · exact reach_reply (.one (Atom.give s _)) _ _
  · exact .refl s

/-! ### Bench commands -/

theorem reach_readPause (s : State) (st : Station) : Reach s (s.readPause st) := by
  unfold State.readPause
  split
  · exact reach_holdSet s st
  · exact .refl s

theorem reach_readLocal (s : State) (p : Port) : Reach s (s.readLocal p) := by
  unfold State.readLocal
  split
  · exact reach_takeLocalControl s p
  · exact .refl s

theorem reach_readLevels (s : State) : Reach s s.readLevels :=
  .after (reach_settle _) (.after (Reach.foldl _ reach_readLocal _ _) (.after (reach_readPause _ _) (reach_readPause s _)))

theorem reach_examineWhole (s : State) (i : Slot) : Reach s (s.examineWhole i) := by
  unfold State.examineWhole
  split
  · exact .refl s
  · split
    · exact .refl s
    · exact .after (reach_settle _) (reach_examine s i)

theorem changes_cmdConfigure (args : ConfigArgs) (s : State) : Changes s (cmdConfigure args s).state := by
  unfold cmdConfigure
  split
  · exact .refl
  · next hr =>
    split
    · exact .refl
    · next hb =>
      refine changes_replyBench (.after (Reach.foldl _ reach_examineWhole _ _) ?_)
      exact .single (.reconfigure s args hr hb)

theorem changes_cmdStart (s : State) : Changes s (cmdStart s).state := by
  unfold cmdStart
  split
  · exact .refl
  · exact .refl
  · next h => exact changes_replyBench (.after (reach_settle _) (.after (Reach.foldl _ reach_seatWaiting _ _) (.single (.run s (.inl h)))))
  · next h => exact changes_replyBench (.after (reach_settle _) (.single (.run s (.inr h))))

theorem changes_cmdHalt (s : State) : Changes s (cmdHalt s).state := by
  unfold cmdHalt
  split
  · next h => exact changes_replyBench (.single (.halt s h))
  · exact .refl
  · exact .refl
  · exact .refl

theorem changes_cmdClearBench (s : State) : Changes s (cmdClearBench s).state := by
  unfold cmdClearBench
  split
  · exact .refl
  · exact .refl
  · next h => exact changes_replyBench (.after (reach_readLevels _) (.single (.clear s (.inl h))))
  · next h => exact changes_replyBench (.after (reach_readLevels _) (.single (.clear s (.inr h))))

/-! ### The command link -/

/-- A request that does not shape the bench is a run of single changes. -/
theorem act_reach (r : Request) (hr : shapingRequest r = false) (s : State) : Reach s (act r s).state := by
  cases r with
  | configure args => cases hr
  | start => cases hr
  | halt => cases hr
  | clearBench => cases hr
  | readConfig => exact .refl s
  | readStatus => exact .refl s
  | submitSource code cls exposure station lines => cases hr
  | bindOrder code cls exposure position => cases hr
  | amendLines slot cancels adds => exact reach_cmdAmendLines slot cancels adds s
  | withdraw slot => exact reach_cmdWithdraw slot s
  | closeOrder slot force => exact reach_cmdCloseOrder slot force s
  | readRecord slot => simp only [act, cmdReadRecord_state]; exact .refl s
  | findTote code => simp only [act, cmdFindTote_state]; exact .refl s
  | openPort port => exact reach_cmdOpenPort port s
  | closePort port => exact reach_cmdClosePort port s
  | ackFault port => exact reach_cmdAckFault port s
  | listPort port => simp only [act, cmdListPort_state]; exact .refl s
  | releaseService port => exact reach_cmdReleaseService port s
  | holdStation station => exact reach_cmdHoldStation station s
  | releaseHold station => exact reach_cmdReleaseHold station s
  | resumeStation station => exact reach_cmdResumeStation station s
  | readNotices most => exact reach_cmdReadNotices most s
  | readReaderStats => exact .refl s

theorem act_changes (r : Request) (s : State) : Changes s (act r s).state := by
  by_cases hr : shapingRequest r = false
  · exact (act_reach r hr s).changes
  · cases r with
    | configure args => exact changes_cmdConfigure args s
    | start => exact changes_cmdStart s
    | halt => exact changes_cmdHalt s
    | clearBench => exact changes_cmdClearBench s
    | submitSource code cls exposure station lines => exact changes_cmdSubmitSource code cls exposure station lines s
    | bindOrder code cls exposure position => exact changes_cmdBindOrder code cls exposure position s
    | _ => exact absurd rfl hr

theorem reach_setLink {s : State} {x : CommandLink} (h : x.discardCount = s.link.discardCount) : Reach s (s.setLink x) :=
  Reach.one (Atom.link s x (fun hc => h ▸ hc))

theorem reach_setWork (s : State) (w : Work) : Reach s (s.setWork w) := reach_setLink rfl

theorem reach_placeResponse (s : State) (r : Response) : Reach s (s.placeResponse r) := reach_setLink rfl

theorem reach_dropUnread (s : State) : Reach s s.dropUnread := reach_setLink rfl

theorem reach_discardRequest (s : State) : Reach s s.discardRequest := Reach.one (Atom.link s _ saturate_le)

theorem reach_endTransaction (s : State) (t : Transaction) (n : Nat) : Reach s (s.endTransaction t n) := reach_setLink rfl

theorem reach_takeFrame (s : State) (mosi : List Byte) : Reach s (s.takeFrame mosi) := by
  unfold State.takeFrame
  split
  · split
    · exact .after (reach_placeResponse _ _) (reach_dropUnread s)
    · exact .after (reach_setWork _ _) (reach_dropUnread s)
  · exact reach_discardRequest s
  · exact reach_discardRequest s

theorem changes_actOn (s : State) (r : Request) : Changes s (s.actOn r) :=
  .after (reach_setWork _ _) (act_changes r s)

theorem changes_takeRequest (s : State) (r : Request) : Changes s (s.takeRequest r) := by
  unfold State.takeRequest
  split
  · exact (reach_dropUnread s).changes.trans (changes_actOn _ r)
  · split
    · exact changes_actOn s r
    · exact (reach_discardRequest s).changes
  · exact (Reach.after (reach_dropUnread _) (reach_placeResponse s _)).changes.trans (changes_actOn _ r)

/-! ### Every command -/

theorem reach_whenLive {s : State} {f : State → State} (h : Reach s (f s)) : Reach s (s.whenLive f) := by
  unfold State.whenLive
  split
  · exact .refl s
  · exact h

theorem reach_idle (s : State) : Reach s s.idle := by
  refine reach_whenLive ?_
  split
  · exact .refl s
  · split
    · split
      · exact reach_endPass s
      · exact reach_producePass s _
    · exact .refl s

/-- What acts on a record that counts reaches what it reaches there. -/
theorem reach_whenCounting {s t : State} {i : Slot} (h : Reach s t) : Reach s (if s.counting i then t else s) := by
  split
  · exact h
  · exact .refl s

theorem changes_whenLive {s : State} {f : State → State} (h : Changes s (f s)) : Changes s (s.whenLive f) := by
  unfold State.whenLive
  split
  · exact .refl
  · exact h

theorem reach_takeRequest (s : State) (r : Request) (hr : shapingRequest r = false) : Reach s (s.takeRequest r) := by
  unfold State.takeRequest State.actOn
  split
  · exact .after (reach_setWork _ _) (.after (act_reach r hr _) (reach_dropUnread s))
  · split
    · exact .after (reach_setWork _ _) (act_reach r hr s)
    · exact reach_discardRequest s
  · exact .after (reach_setWork _ _) (.after (act_reach r hr _) (.after (reach_dropUnread _) (reach_placeResponse s _)))

theorem reach_request {r : Request} (hr : shapingRequest r = false) (s : State) :
    Reach s (s.whenLive (fun s => s.takeRequest r)) := reach_whenLive (reach_takeRequest s r hr)

theorem reach_message (s : State) (m : DispatcherMessage) :
    Reach s (s.whenLive (fun s => (s.setReceiver .hunting).takeMessage m)) :=
  reach_whenLive (.after (reach_takeMessage _ _) (reach_setReceiver s _))

/-- A plain command answers a next state that a run of single changes reaches. -/
theorem exec_plain (c : Instr) (hc : plainCommand c = true) (s : State) : ∃ t, exec c s = .next t ∧ Reach s t := by
  cases c with
  | hardwareReset held => cases hc
  | resetNRelease => cases hc
  | configure args => cases hc
  | start => cases hc
  | halt => cases hc
  | clearBench => cases hc
  | responsePlaced => cases hc
  | csNFall =>
    refine ⟨_, rfl, reach_whenLive ?_⟩
    split
    · exact .refl s
    · exact reach_setLink rfl
  | csNRise mosi =>
    refine ⟨_, rfl, reach_whenLive ?_⟩
    split
    · exact .refl s
    · dsimp only
      split
      · exact .after (reach_takeFrame _ _) (reach_endTransaction s _ _)
      · exact reach_endTransaction s _ _
  | readConfig => exact ⟨_, rfl, reach_request rfl s⟩
  | readStatus => exact ⟨_, rfl, reach_request rfl s⟩
  | submitSource code cls exposure station lines => cases hc
  | bindOrder code cls exposure position => cases hc
  | amendLines slot cancels adds => exact ⟨_, rfl, reach_request rfl s⟩
  | withdraw slot => exact ⟨_, rfl, reach_request rfl s⟩
  | closeOrder slot force => exact ⟨_, rfl, reach_request rfl s⟩
  | readRecord slot => exact ⟨_, rfl, reach_request rfl s⟩
  | findTote code => exact ⟨_, rfl, reach_request rfl s⟩
  | openPort port => exact ⟨_, rfl, reach_request rfl s⟩
  | closePort port => exact ⟨_, rfl, reach_request rfl s⟩
  | ackFault port => exact ⟨_, rfl, reach_request rfl s⟩
  | listPort port => exact ⟨_, rfl, reach_request rfl s⟩
  | releaseService port => exact ⟨_, rfl, reach_request rfl s⟩
  | holdStation station => exact ⟨_, rfl, reach_request rfl s⟩
  | releaseHold station => exact ⟨_, rfl, reach_request rfl s⟩
  | resumeStation station => exact ⟨_, rfl, reach_request rfl s⟩
  | readNotices most => exact ⟨_, rfl, reach_request rfl s⟩
  | readReaderStats => exact ⟨_, rfl, reach_request rfl s⟩
  | supplyReadyRise =>
    refine ⟨_, rfl, .after (reach_whenLive ?_) (reach_setInputs s _)⟩
    split
    · exact .refl _
    · exact reach_beginPass _
  | supplyReadyFall => exact ⟨_, rfl, reach_setInputs s _⟩
  | accepted tag => exact ⟨_, rfl, reach_message s _⟩
  | refused tag reason => exact ⟨_, rfl, reach_message s _⟩
  | released tag => exact ⟨_, rfl, reach_message s _⟩
  | cancelResult tag outcome => exact ⟨_, rfl, reach_message s _⟩
  | taken tag => exact ⟨_, rfl, reach_message s _⟩
  | badSupplyFrame bytes => exact ⟨_, rfl, reach_whenLive (reach_takeSupplyBytes s bytes)⟩
  | supplyIdleGapTimeout bytes =>
    exact ⟨_, rfl, reach_whenLive (.after (reach_supplyGap _) (reach_takeSupplyBytes s bytes))⟩
  | callWindowExpiry i => exact ⟨_, rfl, reach_whenLive (reach_expireCallWindow s i)⟩
  | cancelWindowExpiry i => exact ⟨_, rfl, reach_whenLive (reach_expireCancelWindow s i)⟩
  | readerMarker c =>
    refine ⟨_, rfl, reach_whenLive ?_⟩
    split
    · exact reach_discardFrame (by simp)
    · exact reach_setReceiverOf (by simp)
    · exact reach_setReceiverOf (by simp)
  | readerRuntTimeout c =>
    refine ⟨_, rfl, reach_whenLive ?_⟩
    split
    · exact reach_discardFrame (by simp)
    · exact .refl s
    · exact .refl s
  | readerFrame c bytes time => exact ⟨_, rfl, reach_whenLive (Reach.foldl _ (reach_takeReaderByte c time) bytes s)⟩
  | confirmWindowExpiry p => exact ⟨_, rfl, reach_whenLive (.after (reach_settle _) (reach_endUnconfirmed s p))⟩
  | entryEvent p =>
    refine ⟨_, rfl, reach_whenLive ?_⟩
    split
    · exact .after (reach_settle _) (reach_takeEntry s p)
    · exact .refl s
  | seatOn p =>
    refine ⟨_, rfl, .after (reach_whenLive ?_) (reach_setInputs s _)⟩
    split
    · exact .after (reach_settle _) (reach_takeSeatOn _ p)
    · exact .refl _
  | seatOff p =>
    refine ⟨_, rfl, .after (reach_whenLive ?_) (reach_setInputs s _)⟩
    split
    · exact .after (reach_settle _) (reach_takeSeatOff _ p)
    · exact .refl _
  | readWindowExpiry p =>
    refine ⟨_, rfl, reach_whenLive ?_⟩
    split
    · exact .after (reach_settle _) (reach_failedRead s p _)
    all_goals exact .refl s
  | readerExitEvent p =>
    refine ⟨_, rfl, reach_whenLive ?_⟩
    split
    · exact .after (reach_settle _) (reach_takeExitEvent s p)
    · exact .refl s
  | exitWindowExpiry p =>
    refine ⟨_, rfl, reach_whenLive ?_⟩
    split
    · exact .after (reach_settle _) (.after (reach_raiseFault _ p _)
        (reach_modifyPort (fun _ => .same (le_refl _) (.inl rfl) rfl rfl id)))
    · exact .refl s
  | localControlAssert p =>
    refine ⟨_, rfl, .after (reach_whenLive ?_) (reach_setInputs s _)⟩
    split
    · exact .refl _
    · exact .after (reach_settle _) (reach_takeLocalControl _ p)
  | localControlDeassert p =>
    refine ⟨_, rfl, .after (reach_whenLive ?_) (reach_setInputs s _)⟩
    split
    · exact .after (reach_settle _) (reach_seatWaiting _ p)
    · exact .refl _
  | presenceOff u =>
    refine ⟨_, rfl, .after (reach_whenLive ?_) (reach_setInputs s _)⟩
    split
    · exact reach_orderGone _ u
    · exact .refl _
  | presenceOn u =>
    refine ⟨_, rfl, .after (reach_whenLive ?_) (reach_setInputs s _)⟩
    split
    · exact .refl _
    · exact reach_orderBack _ u
  | putButton u =>
    refine ⟨_, rfl, reach_whenLive ?_⟩
    refine .after (reach_settle _) (.after ?_ (reach_pickerInput s (positionStation u)))
    split
    · exact reach_pressPut _ u
    · exact .refl _
  | shortButton st =>
    refine ⟨_, rfl, reach_whenLive ?_⟩
    refine .after (reach_settle _) (.after ?_ (reach_pickerInput s st))
    split
    · exact reach_resolveCurrent _ st _ (fun _ => rfl)
    · exact .refl _
  | pauseSwitchChange st =>
    refine ⟨_, rfl, .after (reach_whenLive ?_) ?_⟩
    · exact .after (reach_settle _) (.after (reach_followRequest _ st _) (reach_pickerInput _ st))
    · cases st <;> exact reach_setInputs s _
  | attendanceWindowExpiry st => exact ⟨_, rfl, reach_whenLive (.after (reach_settle _) (reach_expireAttendance s st))⟩
  | exposureTick i => exact ⟨_, rfl, reach_whenLive (reach_modifyTote tick_keeps)⟩
  | warnThresholdReached i => exact ⟨_, rfl, reach_whenLive (reach_whenCounting (reach_warnRecord s i))⟩
  | budgetReached i => exact ⟨_, rfl, reach_whenLive (reach_whenCounting (.after (reach_settle _) (reach_examine s i)))⟩
  | readerStopBitError c =>
    refine ⟨_, rfl, reach_whenLive ?_⟩
    split
    · exact reach_discardFrame (by simp)
    · exact .refl s
    · exact .refl s
  | supplyFrameTransmitted => exact ⟨_, rfl, reach_whenLive (Reach.one (Atom.supply s _ id id))⟩

/-- Every command answers a next state, and is an event. -/
theorem exec_next (c : Instr) (s : State) : ∃ t, exec c s = .next t ∧ Event s t := by
  by_cases hc : plainCommand c = true
  · obtain ⟨t, ht, h⟩ := exec_plain c hc s
    exact ⟨t, ht, .inl h.changes⟩
  · cases c with
    | hardwareReset held =>
      refine ⟨_, rfl, ?_⟩
      split
      · exact .inr ⟨true, .refl⟩
      · exact .inr ⟨false, (reach_readLevels _).changes⟩
    | resetNRelease =>
      refine ⟨_, rfl, ?_⟩
      split
      · exact .inr ⟨false, (reach_readLevels _).changes⟩
      · exact .inl .refl
    | configure args => exact ⟨_, rfl, .inl (changes_whenLive (changes_takeRequest s _))⟩
    | start => exact ⟨_, rfl, .inl (changes_whenLive (changes_takeRequest s _))⟩
    | halt => exact ⟨_, rfl, .inl (changes_whenLive (changes_takeRequest s _))⟩
    | clearBench => exact ⟨_, rfl, .inl (changes_whenLive (changes_takeRequest s _))⟩
    | submitSource code cls exposure station lines => exact ⟨_, rfl, .inl (changes_whenLive (changes_takeRequest s _))⟩
    | bindOrder code cls exposure position => exact ⟨_, rfl, .inl (changes_whenLive (changes_takeRequest s _))⟩
    | responsePlaced =>
      refine ⟨_, rfl, .inl (changes_whenLive ?_)⟩
      split
      · exact .refl
      · exact .after (reach_placeResponse _ _) (act_changes _ s)
      · exact (reach_placeResponse s _).changes
    | _ => exact absurd rfl hc

/-- A step is an event, the command it takes leaving the queue, or the block's own going on with nothing waiting. -/
theorem step_event {s t : State} (h : step s = .next t) :
    (s.pending = [] ∧ Reach s t) ∨ ∃ c rest, s.pending = c :: rest ∧ Event { s with pending := rest } t := by
  unfold step at h
  split at h
  · next hp => cases h; exact .inl ⟨hp, reach_idle s⟩
  · next c rest hp =>
    obtain ⟨u, hu, hr⟩ := exec_next c { s with pending := rest }
    rw [hu] at h
    cases h
    exact .inr ⟨c, rest, hp, hr⟩

end Sys2Proof.Machine
end

