-- ==== Sys2Proof/Laws/Kept.lean ====
section
/-! SUPPORT. The law of the pick lines and that of the queue views' order, kept by every event and by every step. -/

namespace Sys2Proof.Machine

/-- A change of no port keeps the order law. -/
theorem QueueOrderLaw.of_port {s t : State} (h : QueueOrderLaw s) (he : ∀ p, t.port p = s.port p) : QueueOrderLaw t :=
  fun p => by rw [he]; exact h p

/-- The order law where every queue view is empty. -/
theorem queueOrder_reset {s : State} (h : s.ports = State.reset.ports) : QueueOrderLaw s := by
  intro p
  have : (s.port p).queue = [] := by
    unfold State.port State.reset at *
    simp [h, PortRec.reset]
  rw [this]
  exact List.nodup_nil

theorem Atom.queueOrder {s t : State} (h : Atom s t) (hq : QueueOrderLaw s) : QueueOrderLaw t := by
  cases h with
  | port p q hk =>
    intro x
    by_cases e : p = x
    · subst e; rw [State.port_setPort_self]; exact hk.queue (hq p)
    · rw [State.port_setPort_of_ne s e]; exact hq x
  | _ => exact hq.of_port (fun _ => by first | rfl | simp)

theorem Change.queueOrder {s t : State} (h : Change s t) (hq : QueueOrderLaw s) : QueueOrderLaw t := by
  cases h with
  | atom h => exact h.queueOrder hq
  | reconfigure a _ _ => exact hq.of_port (fun _ => by unfold State.reconfigured; split <;> rfl)
  | clear _ => exact queueOrder_reset rfl
  | _ => exact hq.of_port (fun _ => rfl)

/-- Every event keeps the order law of the queue views (R31). -/
theorem Event.queueOrder {s t : State} (h : Event s t) (hq : QueueOrderLaw s) : QueueOrderLaw t :=
  h.keeps (fun _ _ hc => hc.queueOrder) (fun _ _ => queueOrder_reset rfl) hq

/-- Every event keeps the law of the pick lines (R6 to R9). -/
theorem Event.lineLaw {s t : State} (h : Event s t) (hl : LineLaw s) : LineLaw t :=
  h.keeps (fun _ _ hc => hc.lineLaw) lineLaw_afterReset hl

/-- What every single change and every event keeps, and the queue of waiting commands leaves, a step keeps. -/
theorem step_keeps {P : State → Prop} (ha : ∀ s t, Atom s t → P s → P t) (he : ∀ s t, Event s t → P s → P t)
    (hp : ∀ (s : State) (rest : List Instr), P s → P { s with pending := rest }) {s t : State} (h : step s = .next t)
    (hs : P s) : P t := by
  rcases step_event h with ⟨_, hr⟩ | ⟨c, rest, _, hr⟩
  · exact hr.keeps ha hs
  · exact he _ _ hr (hp s rest hs)

theorem step_queueOrder {s t : State} (h : step s = .next t) (hq : QueueOrderLaw s) : QueueOrderLaw t :=
  step_keeps (fun _ _ hc => hc.queueOrder) (fun _ _ hc => hc.queueOrder) (fun _ _ hs => hs.of_port (fun _ => rfl)) h hq

theorem step_lineLaw {s t : State} (h : step s = .next t) (hl : LineLaw s) : LineLaw t :=
  step_keeps (fun _ _ hc => hc.lineLaw) (fun _ _ hc => hc.lineLaw) (fun _ _ hs => hs.of_record (fun _ => rfl)) h hl

end Sys2Proof.Machine
end

