-- ==== Sys2Proof/Laws/Requests.lean ====
section
/-! SUPPORT. What taking a request row gives: the request acts in the state `ActsIn` names. The lemmas to cite in place of
unfolding a request row. -/

namespace Sys2Proof.Machine

/-- A request row is its request taken, while RESET_N is not held. -/
theorem exec_requestRow (r : Request) (s : State) :
    exec (requestRow r) s = .next (s.whenLive (fun s => s.takeRequest r)) := by
  cases r <;> rfl

/-- A request row whose request acts in `t`. -/
theorem exec_acts {r : Request} {s t : State} (h : ActsIn r s t) : exec (requestRow r) s = .next (t.actOn r) := by
  rw [exec_requestRow]
  obtain ⟨hl, ⟨hw, rfl⟩ | ⟨hw, rfl⟩⟩ := h
  · simp [State.whenLive, State.takeRequest, hl, hw]
  · simp [State.whenLive, State.takeRequest, hl, hw]

/-- The state a request acts in differs from the one its row is taken in by the response buffer alone. -/
theorem ActsIn.eq {r : Request} {s t : State} (h : ActsIn r s t) : t = s.setLink t.link := by
  obtain ⟨_, ⟨_, rfl⟩ | ⟨_, rfl⟩⟩ := h
  · rfl
  · rfl

/-- Acting, said with the response its command gives. -/
theorem State.actOn_eq {t : State} {r : Request} {u : State} {status : Status} {result : List Byte}
    (h : act r t = u.reply status result) : t.actOn r = u.answered status result := by
  unfold State.actOn
  rw [h]
  rfl

/-- What a request row answers, from what its command gives in the state it acts in. -/
theorem exec_answers {r : Request} {s t u : State} {status : Status} {result : List Byte} (h : ActsIn r s t)
    (e : act r t = u.reply status result) : exec (requestRow r) s = .next (u.answered status result) := by
  rw [exec_acts h, State.actOn_eq e]

@[simp] theorem State.dropUnread_record (s : State) (i : Slot) : s.dropUnread.record i = s.record i := rfl

@[simp] theorem State.dropUnread_source (s : State) (i : Slot) : s.dropUnread.source i = s.source i := rfl

@[simp] theorem State.dropUnread_port (s : State) (p : Port) : s.dropUnread.port p = s.port p := rfl

@[simp] theorem State.dropUnread_bench (s : State) : s.dropUnread.bench = s.bench := rfl

@[simp] theorem State.dropUnread_config (s : State) : s.dropUnread.config = s.config := rfl

@[simp] theorem State.reply_state (s : State) (status : Status) (result : List Byte) : (s.reply status result).state = s :=
  rfl

@[simp] theorem State.reply_response (s : State) (status : Status) (result : List Byte) :
    (s.reply status result).response = { status := status, result := result } := rfl

end Sys2Proof.Machine
end

