-- ==== Sys2Proof/Laws/Settle.lean ====
section
/-! SUPPORT. What the end of an event leaves alone: the frame of selection, of the drain test and of the arbiter, and when
each of them does nothing. The lemmas to cite in place of unfolding `State.settle`. -/

namespace Sys2Proof.Machine

/-- What the end of an event never changes, and the records of the slots in `keep`. -/
structure FrameBut (keep : Slot → Prop) (s t : State) : Prop where
  resetHeld : t.resetHeld = s.resetHeld
  inputs : t.inputs = s.inputs
  bench : t.bench = s.bench
  config : t.config = s.config
  allocPtr : t.allocPtr = s.allocPtr
  dupFilter : t.dupFilter = s.dupFilter
  reader : ∀ c, t.reader c = s.reader c
  link : t.link = s.link
  draws : t.draws = s.draws
  pending : t.pending = s.pending
  receiver : t.supply.receiver = s.supply.receiver
  stale : t.supply.staleCount = s.supply.staleCount
  bad : t.supply.badCount = s.supply.badCount
  pass : t.supply.pass = s.supply.pass
  meets : t.meets = s.meets
  record : ∀ j, keep j → t.record j = s.record j
  mode : ∀ p, (s.port p).mode ≠ .closing → (t.port p).mode = (s.port p).mode

theorem FrameBut.refl (keep : Slot → Prop) (s : State) : FrameBut keep s s :=
  ⟨rfl, rfl, rfl, rfl, rfl, rfl, fun _ => rfl, rfl, rfl, rfl, rfl, rfl, rfl, rfl, rfl, fun _ _ => rfl, fun _ _ => rfl⟩

/-- Two frames, the later one named first. -/
theorem FrameBut.after {keep : Slot → Prop} {s t u : State} (g : FrameBut keep t u) (h : FrameBut keep s t) :
    FrameBut keep s u where
  resetHeld := g.resetHeld.trans h.resetHeld
  inputs := g.inputs.trans h.inputs
  bench := g.bench.trans h.bench
  config := g.config.trans h.config
  allocPtr := g.allocPtr.trans h.allocPtr
  dupFilter := g.dupFilter.trans h.dupFilter
  reader c := (g.reader c).trans (h.reader c)
  link := g.link.trans h.link
  draws := g.draws.trans h.draws
  pending := g.pending.trans h.pending
  receiver := g.receiver.trans h.receiver
  stale := g.stale.trans h.stale
  bad := g.bad.trans h.bad
  pass := g.pass.trans h.pass
  meets := g.meets.trans h.meets
  record j hj := (g.record j hj).trans (h.record j hj)
  mode p hp := (g.mode p (by rw [h.mode p hp]; exact hp)).trans (h.mode p hp)

/-! ### The frames of the updates -/

theorem frame_putSource {keep : Slot → Prop} (s : State) {i : Slot} (h : ¬ keep i) (r : Source) :
    FrameBut keep s (s.putSource i r) where
  resetHeld := rfl
  inputs := rfl
  bench := rfl
  config := rfl
  allocPtr := rfl
  dupFilter := rfl
  reader c := by simp [State.putSource]
  link := rfl
  draws := rfl
  pending := rfl
  receiver := rfl
  stale := rfl
  bad := rfl
  pass := rfl
  meets := rfl
  record j hj := State.record_setSlot_of_ne s (fun e : i = j => h (by rw [e]; exact hj)) _
  mode p _ := rfl

theorem frame_modifySource {keep : Slot → Prop} (s : State) {i : Slot} (h : ¬ keep i) (f : Source → Source) :
    FrameBut keep s (s.modifySource i f) := by
  cases e : s.source i with
  | none => rw [State.modifySource_of_none e]; exact .refl _ s
  | some r => rw [State.modifySource_of_some e]; exact frame_putSource s h _

theorem frame_setPort {keep : Slot → Prop} (s : State) (p : Port) {q : PortRec}
    (h : q.mode = (s.port p).mode ∨ (s.port p).mode = .closing) : FrameBut keep s (s.setPort p q) := by
  refine ⟨rfl, rfl, rfl, rfl, rfl, rfl, fun c => by simp, rfl, rfl, rfl, rfl, rfl, rfl, rfl, rfl, fun _ _ => rfl, fun r hr => ?_⟩
  rw [State.port_setPort]
  split
  · next e =>
    subst e
    rcases h with h | h
    · exact h
    · exact absurd h hr
  · rfl

theorem frame_modifyPort {keep : Slot → Prop} (s : State) (p : Port) {f : PortRec → PortRec}
    (h : ∀ q, (f q).mode = q.mode) : FrameBut keep s (s.modifyPort p f) := frame_setPort s p (.inl (h _))

theorem frame_modifyStation {keep : Slot → Prop} (s : State) (st : Station) (f : StationRec → StationRec) :
    FrameBut keep s (s.modifyStation st f) := by
  unfold State.modifyStation
  constructor <;> simp

theorem frame_post {keep : Slot → Prop} (s : State) (n : Notice) : FrameBut keep s (s.post n) := by
  constructor <;> simp

theorem frame_transmit {keep : Slot → Prop} (s : State) (m : Message) : FrameBut keep s (s.transmit m) := by
  unfold State.transmit
  split <;> constructor <;> simp

/-! ### The frames of the operations -/

theorem frame_enterHeld {keep : Slot → Prop} (s : State) (st : Station) (d : HeldDetail) :
    FrameBut keep s (s.enterHeld st d) := (frame_post _ _).after (frame_modifyStation s st _)

theorem frame_endPresentation {keep : Slot → Prop} {s : State} {st : Station}
    (h : ∀ i, (s.station st).presentation = some i → ¬ keep i) : FrameBut keep s (s.endPresentation st) := by
  unfold State.endPresentation
  split
  · exact .refl _ s
  · next i hi =>
    have ended := (frame_modifyStation (keep := keep) (s.modifySource i (fun r => { r with current := none })) st
      (fun r => { r with presentation := none, window := none })).after (frame_modifySource s (h i hi) _)
    dsimp only
    split
    · exact (frame_enterHeld _ _ _).after ended
    · exact (frame_enterHeld _ _ _).after ended
    · exact ended
    · exact ended
    · exact ended

theorem frame_endPresentationOf {keep : Slot → Prop} (s : State) (p : Port) {i : Slot} (h : ¬ keep i) :
    FrameBut keep s (s.endPresentationOf p i) := by
  unfold State.endPresentationOf
  split
  · next hp => exact frame_endPresentation (fun j hj => by rw [hp] at hj; cases hj; exact h)
  · exact .refl _ s

theorem frame_openStop {keep : Slot → Prop} {s : State} {p : Port}
    (h : ∀ i, (s.port p).lane.head? = some (.slot i) → ¬ keep i) : FrameBut keep s (s.openStop p) := by
  unfold State.openStop
  dsimp only
  split
  · next i _ hl =>
    have hi : ¬ keep i := h i (by simp [hl])
    exact (frame_endPresentationOf _ _ hi).after ((frame_modifySource _ hi _).after (frame_modifyPort s p (fun _ => rfl)))
  · exact frame_modifyPort s p (fun _ => rfl)

theorem frame_releasePresented {keep : Slot → Prop} {s : State} {i : Slot} (hi : ¬ keep i)
    (h : ∀ r j, s.source i = some r → (s.port r.port).lane.head? = some (.slot j) → ¬ keep j) :
    FrameBut keep s (s.releasePresented i) := by
  unfold State.releasePresented
  split
  · exact .refl _ s
  · next r hr => exact (frame_openStop (fun j hj => h r j hr (by simpa [State.putSource] using hj))).after (frame_putSource s hi _)

/-- What a port offers (R93, R112): its head, a READY record of its own without a pass-through reason. -/
theorem offers_some {s : State} {p : Port} {i : Slot} (h : s.offers p = some i) :
    ((s.port p).mode = .isOpen ∨ (s.port p).mode = .closing) ∧ (s.port p).lane.head? = some (.slot i) ∧
      ∃ r, s.source i = some r ∧ r.state = .ready ∧ r.passThrough = none ∧ r.port = p := by
  unfold State.offers at h
  split at h
  · next hm =>
    split at h
    · next j rest hl =>
      split at h
      · next r hr =>
        split at h
        · next hc =>
          cases h
          exact ⟨hm, by simp [hl], r, hr, hc⟩
        · cases h
      · cases h
    · cases h
  · cases h

theorem selectedPort_some {s : State} {st : Station} {p : Port} {i : Slot} (h : s.selectedPort st = some (p, i)) :
    s.offers p = some i := by
  unfold State.selectedPort at h
  dsimp only at h
  split at h
  · next j hj => cases h; exact hj
  · cases e : s.offers (stationPort st (s.station st).side) with
    | none => rw [e] at h; cases h
    | some j => rw [e] at h; cases h; exact e

theorem frame_chooseLine {keep : Slot → Prop} {s : State} {st : Station} {i : Slot} {r : Source}
    (hp : (s.station st).presentation = some i) (hr : s.source i = some r)
    (hl : (s.port r.port).lane.head? = some (.slot i)) (hi : ¬ keep i) : FrameBut keep s (s.chooseLine st) := by
  unfold State.chooseLine
  rw [hp]
  dsimp only
  rw [hr]
  dsimp only
  split
  · exact frame_putSource s hi _
  · refine frame_releasePresented hi (fun q j hq hj => ?_)
    rw [hr] at hq
    cases hq
    rw [hl] at hj
    cases hj
    exact hi

theorem frame_present {keep : Slot → Prop} {s : State} {st : Station} {p : Port} {i : Slot} (h : s.offers p = some i)
    (hi : ¬ keep i) : FrameBut keep s (s.present st p i) := by
  obtain ⟨_, hl, r, hr, _, _, hp⟩ := offers_some h
  unfold State.present
  have first := (frame_modifyStation (keep := keep) (s.modifySource i (fun r => { r with state := .presented })) st
    (fun r => { r with
      presentation := some i, workingPort := some p, side := portSide p, hold := r.hold.onPresent,
      window := some (10 * s.config.attendanceWindow) })).after (frame_modifySource s hi _)
  refine (frame_chooseLine (i := i) (r := { r with state := .presented }) ?_ ?_ ?_ hi).after first
  · simp
  · rw [State.modifySource_of_some hr]
    simp [State.modifyStation]
  · rw [State.modifySource_of_some hr]
    simp [State.modifyStation, State.putSource, hp, hl]

/-- The record is one that selection may present (R112). -/
def Selectable (s : State) (i : Slot) : Prop := ∃ r, s.source i = some r ∧ r.state = .ready ∧ r.passThrough = none

/-- Selection leaves alone every record but the READY ones without a pass-through reason. -/
theorem frame_selectHead (st : Station) {keep : Slot → Prop} :
    ∀ (fuel : Nat) (s : State), (∀ i, keep i → ¬ Selectable s i) → FrameBut keep s (s.selectHead st fuel) := by
  intro fuel
  induction fuel with
  | zero => intro s _; exact .refl _ s
  | succ n ih =>
    intro s h
    unfold State.selectHead
    split
    · split
      · next p i hp =>
        have ho := selectedPort_some hp
        obtain ⟨_, _, r, hr, h1, h2, _⟩ := offers_some ho
        have hi : ¬ keep i := fun hk => h i hk ⟨r, hr, h1, h2⟩
        have first := frame_present (st := st) ho hi
        refine (ih _ (fun j hj hs => ?_)).after first
        obtain ⟨q, hq, hq'⟩ := hs
        exact h j hj ⟨q, by rw [State.source_eq_some] at hq ⊢; rw [← first.record j hj]; exact hq, hq'⟩
      · exact .refl _ s
    · exact .refl _ s

theorem frame_drainPort {keep : Slot → Prop} (s : State) (p : Port) : FrameBut keep s (s.drainPort p) := by
  unfold State.drainPort
  split
  · next h => exact (frame_post _ _).after (frame_setPort s p (.inr h.1))
  · exact .refl _ s

theorem frame_foldl {keep : Slot → Prop} {α : Type} (f : State → α → State) (h : ∀ s a, FrameBut keep s (f s a))
    (l : List α) : ∀ s, FrameBut keep s (l.foldl f s) := by
  induction l with
  | nil => intro s; exact .refl _ s
  | cons a l ih => intro s; exact (ih _).after (h s a)

theorem frame_sendCancel {keep : Slot → Prop} (s : State) {i : Slot} (hi : ¬ keep i) : FrameBut keep s (s.sendCancel i) := by
  unfold State.sendCancel
  split
  · exact .refl _ s
  · split
    · exact (frame_transmit _ _).after (frame_putSource s hi _)
    · exact frame_putSource s hi _

theorem frame_grantCancel {keep : Slot → Prop} (s : State) {i : Slot} (hi : ¬ keep i) :
    FrameBut keep s (s.grantCancel i) := (frame_sendCancel _ hi).after (frame_modifySource s hi _)

theorem frame_rotation {keep : Slot → Prop} (s : State) (p : Port) : FrameBut keep s { s with rotation := p } :=
  ⟨rfl, rfl, rfl, rfl, rfl, rfl, fun c => by cases c <;> rfl, rfl, rfl, rfl, rfl, rfl, rfl, rfl, rfl, fun _ _ => rfl,
    fun _ _ => rfl⟩

theorem frame_grantCall {keep : Slot → Prop} (s : State) (p : Port) {i : Slot} (hi : ¬ keep i) :
    FrameBut keep s (s.grantCall p i) := by
  unfold State.grantCall
  split
  · exact .refl _ s
  · exact (frame_transmit _ _).after ((frame_rotation _ _).after (frame_putSource s hi _))

/-- The record is one the arbiter may grant (R38, R40). -/
def Grantable (s : State) (i : Slot) : Prop := ∃ r, s.source i = some r ∧ (r.state = .queued ∨ r.cancelClaim = true)

theorem cancelClaim_some {s : State} {i : Slot} (h : s.cancelClaim = some i) :
    ∃ r, s.source i = some r ∧ r.cancelClaim = true := by
  have := List.find?_some h
  split at this
  · next r hr => exact ⟨r, hr, this⟩
  · cases this

theorem callClaim_some {s : State} {p : Port} {i : Slot} (h : s.callClaim p = some i) :
    s.eligible p = true ∧ ∃ r, s.source i = some r ∧ r.state = .queued ∧ s.fitsAttendance p r = true := by
  unfold State.callClaim at h
  split at h
  · next he =>
    have := List.find?_some h
    split at this
    · next r hr =>
      simp only [Bool.and_eq_true, decide_eq_true_eq] at this
      exact ⟨he, r, hr, this⟩
    · cases this
  · cases h

theorem nextCall_some {s : State} {p : Port} {i : Slot} (h : s.nextCall = some (p, i)) : s.callClaim p = some i := by
  obtain ⟨q, _, hq⟩ := List.exists_of_findSome?_eq_some h
  cases e : s.callClaim q with
  | none => rw [e] at hq; cases hq
  | some j => rw [e] at hq; cases hq; exact e

/-- The arbiter leaves alone every record but the QUEUED ones and those with a cancel claim. -/
theorem frame_grants {keep : Slot → Prop} :
    ∀ (fuel : Nat) (s : State), (∀ i, keep i → ¬ Grantable s i) → FrameBut keep s (s.grants fuel) := by
  intro fuel
  induction fuel with
  | zero => intro s _; exact .refl _ s
  | succ n ih =>
    intro s h
    have next : ∀ t, FrameBut keep s t → FrameBut keep s (t.grants n) := by
      intro t ht
      refine (ih t (fun j hj hg => ?_)).after ht
      obtain ⟨q, hq, hq'⟩ := hg
      exact h j hj ⟨q, by rw [State.source_eq_some] at hq ⊢; rw [← ht.record j hj]; exact hq, hq'⟩
    unfold State.grants
    split
    · split
      · next i hi =>
        obtain ⟨r, hr, hc⟩ := cancelClaim_some hi
        exact next _ (frame_grantCancel s (fun hk => h i hk ⟨r, hr, .inr hc⟩))
      · split
        · next p i hi =>
          obtain ⟨_, r, hr, hq, _⟩ := callClaim_some (nextCall_some hi)
          exact next _ (frame_grantCall s p (fun hk => h i hk ⟨r, hr, .inl hq⟩))
        · exact .refl _ s
    · exact .refl _ s

/-- The end of an event leaves the state of a port as it is, but for a CLOSING port. -/
theorem settle_mode {s : State} {p : Port} (h : (s.port p).mode ≠ .closing) : (s.settle.port p).mode = (s.port p).mode := by
  have no : ∀ (t : State) (i : Slot), (fun _ => False) i → ¬ Selectable t i := fun _ _ hk => hk.elim
  have no' : ∀ (t : State) (i : Slot), (fun _ => False) i → ¬ Grantable t i := fun _ _ hk => hk.elim
  have all := ((frame_grants 4 _ (no' _)).after (frame_foldl _ frame_drainPort allPorts _)).after
    ((frame_selectHead .b 3 _ (no _)).after (frame_selectHead .a 3 s (no s)))
  exact all.mode p h

/-! ### When the end of an event does nothing -/

theorem selectHead_rests {s : State} {st : Station} (h : (s.station st).presentation ≠ none ∨
    (s.station st).hold.selects = false ∨ s.selectedPort st = none) : ∀ fuel, s.selectHead st fuel = s := by
  intro fuel
  cases fuel with
  | zero => rfl
  | succ n =>
    unfold State.selectHead
    rcases h with h | h | h
    · rw [if_neg (fun hc => h hc.1)]
    · rw [if_neg (fun hc => by rw [h] at hc; exact absurd hc.2 (by simp))]
    · rw [h]; split <;> rfl

theorem drainPort_rests {s : State} {p : Port} (h : (s.port p).mode ≠ .closing ∨ s.drained p = false) :
    s.drainPort p = s := by
  unfold State.drainPort
  rcases h with h | h
  · rw [if_neg (fun hc => h hc.1)]
  · rw [if_neg (fun hc => by rw [h] at hc; exact absurd hc.2 (by simp))]

theorem grants_rests {s : State} (h : s.mayGrant = false ∨ (s.cancelClaim = none ∧ s.nextCall = none)) : ∀ fuel, s.grants fuel = s := by
  intro fuel
  cases fuel with
  | zero => rfl
  | succ n =>
    unfold State.grants
    rcases h with h | ⟨h, g⟩
    · rw [if_neg (by simp [h])]
    · rw [h, g]; split <;> rfl

end Sys2Proof.Machine
end

