-- ==== Sys2Proof/Laws/Rows.lean ====
section
/-! SUPPORT. The words of the statements beside the operations of the model: updates that meet, look-ups in the Record Table,
what a port offers and accepts, lines resolved, and what a dispatcher message's row gives. The lemmas to cite in place of
unfolding a look-up or a message row. -/

namespace Sys2Proof.Machine

/-! ### Updates that meet -/

@[simp] theorem State.putSource_putSource (s : State) (i : Slot) (a b : Source) :
    (s.putSource i a).putSource i b = s.putSource i b := by
  simp [State.putSource, State.setSlot]

@[simp] theorem State.setPort_setPort (s : State) (p : Port) (a b : PortRec) :
    (s.setPort p a).setPort p b = s.setPort p b := by
  simp [State.setPort]

@[simp] theorem State.setStation_setStation (s : State) (st : Station) (a b : StationRec) :
    (s.setStation st a).setStation st b = s.setStation st b := by
  cases st <;> rfl

@[simp] theorem State.setPort_self (s : State) (p : Port) : s.setPort p (s.port p) = s := by
  simp [State.setPort, State.port]

theorem State.putSource_self {s : State} {i : Slot} {r : Source} (h : s.source i = some r) : s.putSource i r = s := by
  rw [State.source_eq_some] at h
  have e : s.slots[i.val] = some (.source r) := h
  unfold State.putSource State.setSlot
  rw [← e]
  simp

/-- A port's and a slot's updates commute. -/
theorem State.setPort_putSource (s : State) (i : Slot) (r : Source) (p : Port) (q : PortRec) :
    (s.setPort p q).putSource i r = (s.putSource i r).setPort p q := rfl

@[simp] theorem State.port_putSource (s : State) (i : Slot) (r : Source) (p : Port) : (s.putSource i r).port p = s.port p :=
  rfl

@[simp] theorem State.station_putSource (s : State) (i : Slot) (r : Source) (st : Station) :
    (s.putSource i r).station st = s.station st := by
  cases st <;> rfl

@[simp] theorem State.inputs_putSource (s : State) (i : Slot) (r : Source) : (s.putSource i r).inputs = s.inputs := rfl

@[simp] theorem State.bench_putSource (s : State) (i : Slot) (r : Source) : (s.putSource i r).bench = s.bench := rfl

@[simp] theorem State.config_putSource (s : State) (i : Slot) (r : Source) : (s.putSource i r).config = s.config := rfl

/-! ### Look-ups -/

theorem following_iff {s : State} : s.following = true ↔ s.bench = .running ∨ s.bench = .halted := by
  unfold State.following
  cases s.bench <;> simp

theorem following_of_not {s : State} (h : ¬ (s.bench = .running ∨ s.bench = .halted)) : s.following = false := by
  rw [← following_iff] at h
  simpa using h

/-- The slot found for a code that one live record holds. -/
theorem findCode_of_unique {s : State} {i : Slot} {x : Record} {c : Code} (h : s.record i = some x)
    (hc : x.tote.code = c) (hu : ∀ j y, s.record j = some y → y.tote.code = c → j = i) : s.findCode c = some i := by
  unfold State.findCode
  cases e : allSlots.find? (fun i => match s.record i with
    | some r => decide (r.tote.code = c)
    | none => false) with
  | none =>
    have := List.find?_eq_none.1 e i (by simp [allSlots])
    simp [h, hc] at this
  | some j =>
    have := List.find?_some e
    cases e2 : s.record j with
    | none => rw [e2] at this; cases this
    | some y => rw [e2] at this; simp only [decide_eq_true_eq] at this; rw [hu j y e2 this]

theorem findCode_none {s : State} {c : Code} (h : ∀ i x, s.record i = some x → x.tote.code ≠ c) : s.findCode c = none := by
  unfold State.findCode
  rw [List.find?_eq_none]
  intro j _
  cases e2 : s.record j with
  | none => simp
  | some y => simpa using h j y e2

/-- The order found at a put position that one order record holds. -/
theorem orderAt_of_unique {s : State} {u : Position} {o : Slot} {x : Order} (h : s.order o = some x) (hp : x.position = u)
    (hu : ∀ j y, s.order j = some y → y.position = u → j = o) : s.orderAt u = some o := by
  unfold State.orderAt
  cases e : allSlots.find? (fun i => match s.order i with
    | some r => decide (r.position = u)
    | none => false) with
  | none =>
    have := List.find?_eq_none.1 e o (by simp [allSlots])
    simp [h, hp] at this
  | some j =>
    have := List.find?_some e
    cases e2 : s.order j with
    | none => rw [e2] at this; cases this
    | some y => rw [e2] at this; simp only [decide_eq_true_eq] at this; rw [hu j y e2 this]

theorem orderAt_none {s : State} {u : Position} (h : ∀ o x, s.order o = some x → x.position ≠ u) : s.orderAt u = none := by
  unfold State.orderAt
  rw [List.find?_eq_none]
  intro j _
  cases e2 : s.order j with
  | none => simp
  | some y => simpa using h j y e2

/-! ### The words of the statements -/

theorem unmarked_iff {r : Source} : Unmarked r ↔ r.marked = false := by simp [Unmarked, Source.marked]

theorem accepts_iff {q : PortRec} : Accepts q ↔ q.accepts = true := by
  unfold Accepts PortRec.accepts PortRec.reservation
  cases h : q.arm <;> simp

theorem resolved_eq (dest : LineState) (ls : List Line) : resolved dest ls = moveLines Line.pending dest ls := by
  unfold resolved moveLines
  congr 1
  funext l
  cases l with
  | mk target quantity state => cases state <;> simp [Line.pending]

theorem setLine_eq {ls : List Line} {k : Nat} {l : Line} (h : ls[k]? = some l) (ho : l.state = .isOpen)
    (dest : LineState) : setLine ls k dest = ls.set k { l with state := dest } := by
  unfold setLine
  rw [List.modify_eq_set_getElem?, h]
  simp [Line.pending, ho]

/-- What a port offers (R112). -/
theorem offers_iff {s : State} {p : Port} {i : Slot} : s.offers p = some i ↔
    ((s.port p).mode = .isOpen ∨ (s.port p).mode = .closing) ∧ (s.port p).lane.head? = some (.slot i) ∧
    ∃ r, s.source i = some r ∧ r.state = .ready ∧ r.passThrough = none ∧ r.port = p := by
  unfold State.offers
  split
  · next h =>
    simp only [h, true_and]
    cases e : (s.port p).lane with
    | nil => simp
    | cons a b =>
      cases a with
      | slot j =>
        simp only [List.head?_cons, Option.some.injEq, LaneEntry.slot.injEq]
        cases e2 : s.source j with
        | none =>
          simp only [reduceCtorEq, false_iff, not_and]
          rintro rfl
          simp [e2]
        | some r =>
          by_cases h2 : r.state = .ready ∧ r.passThrough = none ∧ r.port = p
          · simp only [h2, and_self, if_true, Option.some.injEq]
            exact ⟨fun e3 => ⟨e3, r, by rw [← e3]; exact e2, h2⟩, fun e3 => e3.1⟩
          · simp only [h2, if_false, reduceCtorEq, false_iff, not_and]
            rintro rfl ⟨x, hx, h3⟩
            rw [e2] at hx
            cases hx
            exact h2 h3
      | unidentified => simp
      | foreign reason c => simp
  · next h => simp [h]

/-! ### The rows of the dispatcher's messages -/

/-- A message that names a record in a state it fits acts on that record. -/
theorem message_fits {s : State} (hl : s.resetHeld = false) {tag : Byte} {i : Slot} {r : Source}
    (hs : s.source i = some r) (hn : Names tag i r) {fits : Source → Bool} (act : State → Slot → Source → State)
    (hf : fits r = true) :
    s.whenLive (fun s => (s.setReceiver .hunting).answer tag fits act) = (act s.betweenFrames i r).settle := by
  have h1 : tagSlot tag = i := by
    apply Fin.ext
    simp only [tagSlot]
    unfold Names Source.tag at hn
    have := r.visit.isLt
    omega
  have h2 : tagVisit tag = r.visit := by
    apply Fin.ext
    simp only [tagVisit]
    unfold Names Source.tag at hn
    have := r.visit.isLt
    omega
  have h3 : (s.setReceiver .hunting).fitting tag fits = some r := by
    unfold State.fitting State.setReceiver
    rw [h1, State.source_setSupply, hs]
    simp [h2, hf]
  have e : s.setReceiver .hunting = s.betweenFrames := rfl
  rw [e] at h3
  unfold State.whenLive
  simp only [hl, State.answer, Bool.false_eq_true, if_false, e, h3, h1]

/-- A message that names no such record is stale. -/
theorem message_stale {s : State} (hl : s.resetHeld = false) (tag : Byte) (fits : Source → Bool)
    (act : State → Slot → Source → State)
    (h : ¬ ∃ i r, s.source i = some r ∧ Names tag i r ∧ fits r = true) :
    s.whenLive (fun s => (s.setReceiver .hunting).answer tag fits act) = s.betweenFrames.stale := by
  have h3 : (s.setReceiver .hunting).fitting tag fits = none := by
    unfold State.fitting State.setReceiver
    rw [State.source_setSupply]
    cases e : s.source (tagSlot tag) with
    | none => rfl
    | some r =>
      simp only
      rw [if_neg]
      rintro ⟨hv, hf⟩
      refine h ⟨_, r, e, ?_, hf⟩
      unfold Names Source.tag
      rw [hv]
      simp only [tagSlot, tagVisit]
      omega
  have e : s.setReceiver .hunting = s.betweenFrames := rfl
  rw [e] at h3
  unfold State.whenLive
  simp only [hl, State.answer, Bool.false_eq_true, if_false, e, h3]

end Sys2Proof.Machine
end

