-- ==== Sys2Proof/Laws/Views.lean ====
section
/-! SUPPORT. The law of the roster views (`ViewLaw`), operation by operation: what an operation does not touch of it
(`SameView`), the single changes that keep it, and one lemma `view_<operation>` for each operation that moves a record. -/

namespace Sys2Proof.Machine

/-! ### The law over what it speaks of -/

/-- The groups of source states that the law of the views tells apart. -/
inductive Group where
  | lane
  | inbound
  | queue
  | neither
  deriving DecidableEq, Repr

/-- The group of a source state. -/
def SourceState.group : SourceState → Group
  | .queued => .queue
  | .calling => .queue
  | .called => .queue
  | .cancelling => .queue
  | .inbound => .inbound
  | .laned => .lane
  | .atStop => .lane
  | .ready => .lane
  | .presented => .lane
  | .releasing => .lane
  | .returning => .neither
  | .recycling => .queue
  | .missing => .neither

theorem inLane_iff (st : SourceState) : st.inLane = true ↔ st.group = .lane := by cases st <;> decide

theorem inQueue_iff (st : SourceState) : st.inQueue = true ↔ (st.group = .inbound ∨ st.group = .queue) := by
  cases st <;> decide

theorem inbound_iff (st : SourceState) : st = .inbound ↔ st.group = .inbound := by cases st <;> decide

/-- What the law says of a source record: its port and its group. -/
def Source.stand (r : Source) : Port × Group := (r.port, r.state.group)

/-- The port and the group of the source record of a slot. -/
def State.who (s : State) (i : Slot) : Option (Port × Group) := (s.source i).map Source.stand

/-- What the law reads of a port. -/
structure View where
  lane : List LaneEntry
  queue : List Slot
  arm : Option ArmItem

def PortRec.view (q : PortRec) : View := { lane := q.lane, queue := q.queue, arm := q.arm.map Arm.item }

/-- The law at one port. -/
structure PortLaw (who : Slot → Option (Port × Group)) (p : Port) (v : View) : Prop where
  lane : ∀ i, LaneEntry.slot i ∈ v.lane → who i = some (p, .lane)
  once : ∀ i, v.lane.count (.slot i) ≤ 1
  queue : ∀ i, i ∈ v.queue ↔ (who i = some (p, .inbound) ∨ who i = some (p, .queue))
  arm : ∀ i, v.arm = some (.slot i) → who i = some (p, .inbound)

theorem who_iff {s : State} {i : Slot} {p : Port} {g : Group} :
    s.who i = some (p, g) ↔ ∃ r, s.source i = some r ∧ r.port = p ∧ r.state.group = g := by
  simp [State.who, Source.stand, Prod.ext_iff]

theorem who_some {s : State} {i : Slot} {r : Source} (h : s.source i = some r) : s.who i = some r.stand := by
  simp [State.who, h]

/-- The law of the views is the law at each port. -/
theorem viewLaw_iff {s : State} : ViewLaw s ↔ ∀ p, PortLaw s.who p (s.port p).view := by
  constructor
  · intro h p
    refine ⟨fun i hi => ?_, h.once p, fun i => ?_, fun i hi => ?_⟩
    · obtain ⟨r, hr, hp, hl⟩ := h.lane p i hi
      exact who_iff.mpr ⟨r, hr, hp, (inLane_iff _).mp hl⟩
    · refine (h.queue p i).trans ?_
      constructor
      · rintro ⟨r, hr, hp, hq⟩
        rcases (inQueue_iff _).mp hq with hq | hq
        · exact .inl (who_iff.mpr ⟨r, hr, hp, hq⟩)
        · exact .inr (who_iff.mpr ⟨r, hr, hp, hq⟩)
      · rintro (hw | hw) <;> obtain ⟨r, hr, hp, hg⟩ := who_iff.mp hw
        · exact ⟨r, hr, hp, (inQueue_iff _).mpr (.inl hg)⟩
        · exact ⟨r, hr, hp, (inQueue_iff _).mpr (.inr hg)⟩
    · obtain ⟨r, hr, hp, hl⟩ := h.arm p i hi
      exact who_iff.mpr ⟨r, hr, hp, (inbound_iff _).mp hl⟩
  · intro h
    refine ⟨fun p i hi => ?_, fun p => (h p).once, fun p i => ?_, fun p i hi => ?_⟩
    · obtain ⟨r, hr, hp, hl⟩ := who_iff.mp ((h p).lane i hi)
      exact ⟨r, hr, hp, (inLane_iff _).mpr hl⟩
    · refine ((h p).queue i).trans ?_
      constructor
      · rintro (hw | hw) <;> obtain ⟨r, hr, hp, hg⟩ := who_iff.mp hw
        · exact ⟨r, hr, hp, (inQueue_iff _).mpr (.inl hg)⟩
        · exact ⟨r, hr, hp, (inQueue_iff _).mpr (.inr hg)⟩
      · rintro ⟨r, hr, hp, hq⟩
        rcases (inQueue_iff _).mp hq with hq | hq
        · exact .inl (who_iff.mpr ⟨r, hr, hp, hq⟩)
        · exact .inr (who_iff.mpr ⟨r, hr, hp, hq⟩)
    · obtain ⟨r, hr, hp, hl⟩ := who_iff.mp ((h p).arm i hi)
      exact ⟨r, hr, hp, (inbound_iff _).mpr hl⟩

/-! ### What leaves the law untouched -/

/-- Two states that the law cannot tell apart. -/
structure SameView (s t : State) : Prop where
  who : ∀ i, t.who i = s.who i
  view : ∀ p, (t.port p).view = (s.port p).view

theorem SameView.refl (s : State) : SameView s s := ⟨fun _ => rfl, fun _ => rfl⟩

/-- Two changes, the later one named first. -/
theorem SameView.after {s t u : State} (g : SameView t u) (h : SameView s t) : SameView s u :=
  ⟨fun i => (g.who i).trans (h.who i), fun p => (g.view p).trans (h.view p)⟩

theorem SameView.law {s t : State} (h : SameView s t) (hs : ViewLaw s) : ViewLaw t := by
  rw [viewLaw_iff] at *
  have hw : t.who = s.who := funext h.who
  intro p
  rw [hw, h.view p]
  exact hs p

/-- A change that touches neither the slots nor the ports. -/
theorem SameView.of {s t : State} (hs : t.slots = s.slots) (hp : t.ports = s.ports) : SameView s t := by
  refine ⟨fun i => ?_, fun p => ?_⟩
  · unfold State.who State.source State.record; rw [hs]
  · unfold State.port; rw [hp]

theorem SameView.foldl {α : Type} (f : State → α → State) (h : ∀ s a, SameView s (f s a)) (l : List α) :
    ∀ s, SameView s (l.foldl f s) := by
  induction l with
  | nil => intro s; exact .refl s
  | cons a l ih => intro s; exact (ih _).after (h s a)

theorem view_foldl {α : Type} (f : State → α → State) (h : ∀ s a, ViewLaw s → ViewLaw (f s a)) (l : List α) :
    ∀ s, ViewLaw s → ViewLaw (l.foldl f s) := by
  induction l with
  | nil => intro s hs; exact hs
  | cons a l ih => intro s hs; exact ih _ (h s a hs)

theorem who_putSource (s : State) (i j : Slot) (q : Source) :
    (s.putSource i q).who j = if i = j then some q.stand else s.who j := by
  unfold State.who
  by_cases h : i = j
  · subst h; simp
  · rw [State.source_putSource_of_ne s h, if_neg h]

/-- A write of a record that keeps its port and its group. -/
theorem same_putSource {s : State} {i : Slot} {r q : Source} (h : s.source i = some r) (hp : q.port = r.port)
    (hg : q.state.group = r.state.group) : SameView s (s.putSource i q) := by
  refine ⟨fun j => ?_, fun _ => rfl⟩
  rw [who_putSource]
  split
  · next e => subst e; rw [who_some h]; simp [Source.stand, hp, hg]
  · rfl

theorem same_modifySource {s : State} {i : Slot} {f : Source → Source}
    (h : ∀ r, s.source i = some r → (f r).port = r.port ∧ (f r).state.group = r.state.group) :
    SameView s (s.modifySource i f) := by
  cases e : s.source i with
  | none => rw [State.modifySource_of_none e]; exact .refl s
  | some r => rw [State.modifySource_of_some e]; exact same_putSource e (h r e).1 (h r e).2

theorem same_setPort {s : State} {p : Port} {q : PortRec} (h : q.view = (s.port p).view) : SameView s (s.setPort p q) := by
  refine ⟨fun _ => rfl, fun x => ?_⟩
  rw [State.port_setPort]
  split
  · next e => subst e; exact h
  · rfl

theorem same_modifyPort {s : State} {p : Port} {f : PortRec → PortRec} (h : (f (s.port p)).view = (s.port p).view) :
    SameView s (s.modifyPort p f) := same_setPort h

theorem same_setStation (s : State) (st : Station) (q : StationRec) : SameView s (s.setStation st q) := by
  cases st <;> exact .of rfl rfl

theorem same_setReader (s : State) (c : Channel) (q : ReaderRec) : SameView s (s.setReader c q) := by
  cases c <;> exact .of rfl rfl

theorem same_post (s : State) (n : Notice) : SameView s (s.post n) := by
  unfold State.post; split <;> exact .of rfl rfl

theorem same_postIf (s : State) (n : Option Notice) : SameView s (s.postIf n) := by
  cases n with
  | none => exact .refl s
  | some n => exact same_post s n

theorem same_transmit (s : State) (m : Message) : SameView s (s.transmit m) := by
  unfold State.transmit; split <;> exact .of rfl rfl

theorem same_sendReturn (s : State) (i : Slot) : SameView s (s.sendReturn i) := by
  unfold State.sendReturn
  split
  · exact .refl s
  · next h =>
    split
    · exact (same_transmit _ _).after (same_putSource h rfl rfl)
    · exact same_putSource h rfl rfl

theorem same_sendCancel (s : State) (i : Slot) : SameView s (s.sendCancel i) := by
  unfold State.sendCancel
  split
  · exact .refl s
  · next h =>
    split
    · exact (same_transmit _ _).after (same_putSource h rfl rfl)
    · exact same_putSource h rfl rfl

theorem same_mapSlots (s : State) {f : Option Record → Option Record}
    (h : ∀ o, (match f o with
      | some (.source r) => some r.stand
      | _ => none) = match o with
      | some (.source r) => some r.stand
      | _ => none) : SameView s (s.mapSlots f) := by
  refine ⟨fun i => ?_, fun _ => rfl⟩
  have e : ∀ t : State, t.who i = match t.record i with
      | some (.source r) => some r.stand
      | _ => none := by
    intro t
    unfold State.who State.source
    cases t.record i with
    | none => rfl
    | some x => cases x <;> rfl
  rw [e, e, State.record_mapSlots]
  exact h _

theorem same_moveLinesFor (s : State) (o : Slot) (test : Line → Bool) (dest : LineState) :
    SameView s (s.moveLinesFor o test dest) := by
  refine same_mapSlots s (fun x => ?_)
  match x with
  | none => rfl
  | some (.order r) => rfl
  | some (.source r) => rfl

theorem same_setSlot {s : State} {i : Slot} {x : Option Record} (h : (match x with
      | some (.source r) => some r.stand
      | _ => none) = s.who i) : SameView s (s.setSlot i x) := by
  refine ⟨fun j => ?_, fun _ => rfl⟩
  by_cases e : i = j
  · subst e
    rw [← h]
    unfold State.who State.source
    rw [State.record_setSlot_self]
    cases x with
    | none => rfl
    | some x => cases x <;> rfl
  · unfold State.who State.source
    rw [State.record_setSlot_of_ne s e]

theorem who_of_not_source {s : State} {i : Slot} (h : ∀ r, s.record i ≠ some (.source r)) : s.who i = none := by
  unfold State.who State.source
  split
  · next r hr => exact absurd hr (h r)
  · rfl

theorem same_putOrder {s : State} {i : Slot} {o q : Order} (h : s.order i = some o) : SameView s (s.putOrder i q) := by
  refine same_setSlot ?_
  rw [who_of_not_source (fun r hr => ?_)]
  rw [State.order_eq_some.mp h] at hr
  cases hr

theorem same_modifyTote (s : State) (i : Slot) (f : Tote → Tote) : SameView s (s.modifyTote i f) := by
  unfold State.modifyTote
  split
  · next r h =>
    refine same_setSlot ?_
    cases r with
    | source r => rw [who_some (State.source_eq_some.mpr h)]; rfl
    | order o =>
      rw [who_of_not_source (fun q hq => ?_)]
      · rfl
      · rw [h] at hq; cases hq
  · exact .refl s

/-! ### The single changes that keep the law -/

/-- A slot and its port change together: every other slot and every other port are as they were. -/
theorem ViewLaw.change {s t : State} {i : Slot} {p : Port} (hs : ViewLaw s)
    (before : ∀ q g, s.who i = some (q, g) → q = p) (after : ∀ q g, t.who i = some (q, g) → q = p)
    (others : ∀ j, j ≠ i → t.who j = s.who j) (ports : ∀ q, q ≠ p → (t.port q).view = (s.port q).view)
    (law : PortLaw t.who p (t.port p).view) : ViewLaw t := by
  rw [viewLaw_iff] at *
  intro q
  by_cases hq : q = p
  · subst hq; exact law
  · rw [ports q hq]
    have no : ∀ g, s.who i ≠ some (q, g) := fun g h => hq (before q g h)
    have no' : ∀ g, t.who i ≠ some (q, g) := fun g h => hq (after q g h)
    refine ⟨fun j hj => ?_, (hs q).once, fun j => ?_, fun j hj => ?_⟩
    · have h := (hs q).lane j hj
      rw [others j (fun e => no _ (e ▸ h))]; exact h
    · by_cases e : j = i
      · subst e
        refine ((hs q).queue j).trans ?_
        simp [no, no']
      · rw [others j e]; exact (hs q).queue j
    · have h := (hs q).arm j hj
      rw [others j (fun e => no _ (e ▸ h))]; exact h

/-- A slot is listed in no lane list. -/
def Unlaned (s : State) (i : Slot) : Prop := ∀ p, LaneEntry.slot i ∉ (s.port p).lane

theorem ViewLaw.unlaned {s : State} (hs : ViewLaw s) {i : Slot} {r : Source} (h : s.source i = some r)
    (hg : r.state.group ≠ .lane) : Unlaned s i := by
  intro p hp
  have := (viewLaw_iff.mp hs p).lane i hp
  rw [who_some h] at this
  exact hg (by simpa [Source.stand] using congrArg (fun x => x.map Prod.snd) this)

theorem SameView.unlaned {s t : State} (h : SameView s t) {i : Slot} (hu : Unlaned s i) : Unlaned t i := by
  intro p hp
  have e : (t.port p).lane = (s.port p).lane := congrArg View.lane (h.view p)
  rw [e] at hp
  exact hu p hp

/-- The record of a slot in no lane changes, its queue view and arm following. -/
theorem ViewLaw.move {s : State} {i : Slot} {r q : Source} {x : PortRec} (hs : ViewLaw s) (h : s.source i = some r)
    (hu : Unlaned s i) (hp : q.port = r.port) (hl : x.lane = (s.port r.port).lane)
    (hq : ∀ j, j ∈ x.queue ↔ if j = i then q.state.group = .inbound ∨ q.state.group = .queue
      else j ∈ (s.port r.port).queue)
    (ha : ∀ j, x.arm.map Arm.item = some (.slot j) →
      (j ≠ i ∨ q.state.group = .inbound) ∧ (s.port r.port).arm.map Arm.item = some (.slot j)) :
    ViewLaw ((s.putSource i q).setPort r.port x) := by
  have hw := fun j => who_putSource s i j q
  have base := viewLaw_iff.mp hs r.port
  refine hs.change (i := i) (p := r.port) ?_ ?_ ?_ ?_ ?_
  · intro p g e; rw [who_some h] at e; cases e; rfl
  · intro p g e
    have : (s.putSource i q).who i = some (p, g) := e
    rw [hw i, if_pos rfl] at this; cases this; exact hp
  · intro j hj
    exact (hw j).trans (if_neg (Ne.symm hj))
  · intro p hne
    rw [State.port_setPort_of_ne _ (Ne.symm hne)]; rfl
  · rw [State.port_setPort_self]
    have hwho : ((s.putSource i q).setPort r.port x).who = (s.putSource i q).who := rfl
    rw [hwho]
    refine ⟨fun j hj => ?_, fun j => ?_, fun j => ?_, fun j hj => ?_⟩
    · have hj' : LaneEntry.slot j ∈ x.lane := hj
      rw [hl] at hj'
      have hne : ¬i = j := by intro e; subst e; exact hu _ hj'
      rw [hw j, if_neg hne]
      exact base.lane j hj'
    · show x.lane.count _ ≤ 1
      rw [hl]; exact base.once j
    · refine (hq j).trans ?_
      rw [hw j]
      by_cases e : j = i
      · subst e; simp [Source.stand, hp]
      · rw [if_neg e, if_neg (Ne.symm e)]; exact base.queue j
    · obtain ⟨hne, harm⟩ := ha j hj
      have hold := base.arm j harm
      rw [hw j]
      split
      · next e =>
        subst e
        rcases hne with hne | hg
        · exact absurd rfl hne
        · simp [Source.stand, hp, hg]
      · exact hold

/-- A port's lane list changes, entries going or slots of its lane states standing in it once. -/
theorem ViewLaw.relane {s : State} {p : Port} {x : PortRec} (hs : ViewLaw s)
    (hl : ∀ i, LaneEntry.slot i ∈ x.lane → s.who i = some (p, .lane)) (ho : ∀ i, x.lane.count (.slot i) ≤ 1)
    (hq : x.queue = (s.port p).queue) (ha : x.arm.map Arm.item = (s.port p).arm.map Arm.item ∨ ∀ i, x.arm.map Arm.item ≠ some (.slot i)) :
    ViewLaw (s.setPort p x) := by
  rw [viewLaw_iff] at *
  intro q
  rw [State.port_setPort]
  split
  · next e =>
    subst e
    refine ⟨hl, ho, fun i => ?_, fun i hi => ?_⟩
    · show i ∈ x.queue ↔ _
      rw [hq]; exact (hs p).queue i
    · have hi' : x.arm.map Arm.item = some (.slot i) := hi
      rcases ha with ha | ha
      · rw [ha] at hi'; exact (hs p).arm i hi'
      · exact absurd hi' (ha i)
  · exact hs q

theorem SameView.symm {s t : State} (h : SameView s t) : SameView t s := ⟨fun i => (h.who i).symm, fun p => (h.view p).symm⟩

theorem SameView.putSource {s t : State} (h : SameView s t) (i : Slot) (q : Source) :
    SameView (s.putSource i q) (t.putSource i q) :=
  ⟨fun j => by rw [who_putSource, who_putSource, h.who j], h.view⟩

theorem SameView.modifyPort {s t : State} (h : SameView s t) (p : Port) {f : PortRec → PortRec}
    (hf : ∀ x y : PortRec, x.view = y.view → (f x).view = (f y).view) : SameView (s.modifyPort p f) (t.modifyPort p f) := by
  refine ⟨h.who, fun q => ?_⟩
  unfold State.modifyPort
  rw [State.port_setPort, State.port_setPort]
  split
  · exact hf _ _ (h.view p)
  · exact h.view q

/-! ### Reading the law by what stands -/

theorem ViewLaw.at {s : State} (hs : ViewLaw s) (p : Port) : PortLaw s.who p (s.port p).view := viewLaw_iff.mp hs p

/-- A slot of one port and group is armed nowhere but, INBOUND, at its port. -/
theorem ViewLaw.unarmed {s : State} (hs : ViewLaw s) {i : Slot} {p : Port} {g : Group} (h : s.who i = some (p, g))
    (hg : g ≠ .inbound) (q : Port) : (s.port q).arm.map Arm.item ≠ some (.slot i) := by
  intro ha
  have := (hs.at q).arm i ha
  rw [h] at this
  cases this
  exact hg rfl

theorem ViewLaw.unlaned_of_who {s : State} (hs : ViewLaw s) {i : Slot} {p : Port} {g : Group} (h : s.who i = some (p, g))
    (hg : g ≠ .lane) : Unlaned s i := by
  intro q hq
  have := (hs.at q).lane i hq
  rw [h] at this
  cases this
  exact hg rfl

/-- A slot without a source record is listed nowhere. -/
theorem ViewLaw.unlaned_of_none {s : State} (hs : ViewLaw s) {i : Slot} (h : s.source i = none) : Unlaned s i := by
  intro q hq
  have := (hs.at q).lane i hq
  simp [State.who, h] at this

/-- A write of a record that keeps its port: its group may become the lane's, or its slot is in no lane; it stays in its queue
view or out of it; and it stays INBOUND or is armed nowhere. -/
theorem ViewLaw.put {s : State} {i : Slot} {r q : Source} (hs : ViewLaw s) (h : s.source i = some r) (hp : q.port = r.port)
    (hl : q.state.group = .lane ∨ Unlaned s i)
    (hq : (q.state.group = .inbound ∨ q.state.group = .queue) ↔ (r.state.group = .inbound ∨ r.state.group = .queue))
    (ha : q.state.group = .inbound ∨ ∀ p, (s.port p).arm.map Arm.item ≠ some (.slot i)) :
    ViewLaw (s.putSource i q) := by
  rw [viewLaw_iff] at *
  intro p
  have hw := fun j => who_putSource s i j q
  have old := hs p
  refine ⟨fun j hj => ?_, old.once, fun j => ?_, fun j hj => ?_⟩
  · rw [hw j]
    split
    · next e =>
      subst e
      have hj' := old.lane i hj
      rw [who_some h] at hj'
      rcases hl with hl | hl
      · have e : r.port = p := by simpa [Source.stand] using congrArg (Option.map Prod.fst) hj'
        simp [Source.stand, hp, hl, e]
      · exact absurd hj (hl p)
    · exact old.lane j hj
  · refine (old.queue j).trans ?_
    rw [hw j]
    split
    · next e =>
      subst e
      rw [who_some h]
      simp only [Source.stand, hp, Option.some.injEq, Prod.mk.injEq, ← and_or_left, hq]
    · exact Iff.rfl
  · rw [hw j]
    split
    · next e =>
      subst e
      have hj' := old.arm i hj
      rw [who_some h] at hj'
      rcases ha with ha | ha
      · have e : r.port = p := by simpa [Source.stand] using congrArg (Option.map Prod.fst) hj'
        simp [Source.stand, hp, ha, e]
      · exact absurd hj (ha p)
    · exact old.arm j hj

theorem ViewLaw.setPort {s : State} {p : Port} {x : PortRec} (hs : ViewLaw s) (hx : PortLaw s.who p x.view) :
    ViewLaw (s.setPort p x) := by
  rw [viewLaw_iff] at *
  intro q
  rw [State.port_setPort]
  split
  · next e => subst e; exact hx
  · exact hs q

/-- The slots that a change may give another port or group. -/
def OnlySlot (i : Slot) (s t : State) : Prop := ∀ j, j ≠ i → t.who j = s.who j

theorem OnlySlot.refl (i : Slot) (s : State) : OnlySlot i s s := fun _ _ => rfl

theorem OnlySlot.after {i : Slot} {s t u : State} (g : OnlySlot i t u) (h : OnlySlot i s t) : OnlySlot i s u :=
  fun j hj => (g j hj).trans (h j hj)

theorem SameView.only {s t : State} (h : SameView s t) (i : Slot) : OnlySlot i s t := fun j _ => h.who j

theorem only_putSource (s : State) (i : Slot) (q : Source) : OnlySlot i s (s.putSource i q) := by
  intro j hj
  rw [who_putSource, if_neg (Ne.symm hj)]

theorem only_setPort (s : State) (i : Slot) (p : Port) (x : PortRec) : OnlySlot i s (s.setPort p x) := fun _ _ => rfl

theorem only_modifyPort (s : State) (i : Slot) (p : Port) (f : PortRec → PortRec) : OnlySlot i s (s.modifyPort p f) :=
  fun _ _ => rfl

/-! ### Operations over the state -/

theorem mem_withoutSlot {i j : Slot} {q : List Slot} : j ∈ withoutSlot i q ↔ j ≠ i ∧ j ∈ q := by
  simp [withoutSlot, and_comm]

theorem mem_insertAhead {test : Slot → Bool} {i j : Slot} {q : List Slot} : j ∈ insertAhead test i q ↔ j = i ∨ j ∈ q := by
  induction q with
  | nil => simp [insertAhead]
  | cons k q ih =>
    unfold insertAhead
    split
    · simp
    · simp only [List.mem_cons, ih]
      tauto

/-- The record of a slot in no lane changes with its port, whatever the law does not see coming between. -/
theorem ViewLaw.moved {s t : State} {i : Slot} {r q : Source} {f : PortRec → PortRec} (hs : ViewLaw s)
    (h : s.source i = some r) (hu : Unlaned s i) (hp : q.port = r.port) (ht : SameView (s.putSource i q) t)
    (hf : ∀ x y : PortRec, x.view = y.view → (f x).view = (f y).view)
    (hl : (f (s.port r.port)).lane = (s.port r.port).lane)
    (hq : ∀ j, j ∈ (f (s.port r.port)).queue ↔ if j = i then q.state.group = .inbound ∨ q.state.group = .queue
      else j ∈ (s.port r.port).queue)
    (ha : ∀ j, (f (s.port r.port)).arm.map Arm.item = some (.slot j) →
      (j ≠ i ∨ q.state.group = .inbound) ∧ (s.port r.port).arm.map Arm.item = some (.slot j)) :
    ViewLaw (t.modifyPort r.port f) :=
  (ht.modifyPort r.port hf).law (hs.move h hu hp hl hq ha)

/-- A port with a slot out of its queue view and its arm. -/
def PortRec.without (i : Slot) (q : PortRec) : PortRec :=
  { q with
    queue := withoutSlot i q.queue
    arm := if q.arm.map Arm.item = some (.slot i) then none else q.arm }

theorem dropArmOf_unqueue (s : State) (p : Port) (i : Slot) :
    (s.unqueue p i).dropArmOf p i = s.modifyPort p (PortRec.without i) := by
  unfold State.unqueue State.dropArmOf State.modifyPort
  rw [State.port_setPort_self, State.setPort_setPort]
  congr 1
  unfold PortRec.without
  split <;> simp_all

theorem without_view (i : Slot) (x y : PortRec) (h : x.view = y.view) : (x.without i).view = (y.without i).view := by
  unfold PortRec.view PortRec.without at *
  simp only [View.mk.injEq] at *
  obtain ⟨h1, h2, h3⟩ := h
  refine ⟨h1, by rw [h2], ?_⟩
  rw [h3]
  split <;> simp_all

theorem without_arm {i j : Slot} {q : PortRec} (h : (q.without i).arm.map Arm.item = some (.slot j)) :
    j ≠ i ∧ q.arm.map Arm.item = some (.slot j) := by
  unfold PortRec.without at h
  simp only at h
  split at h
  · cases h
  · next hn => exact ⟨fun e => hn (e ▸ h), h⟩

theorem view_enterReturning {s : State} {i : Slot} (hs : ViewLaw s) (hu : Unlaned s i) (cause : LeavingCause) :
    ViewLaw (s.enterReturning i cause) := by
  unfold State.enterReturning
  split
  · exact hs
  · next r h =>
    refine (same_sendReturn _ _).law ?_
    rw [dropArmOf_unqueue]
    refine hs.moved h hu ?_ (.refl _) (without_view i) rfl (fun j => ?_) (fun j hj => ?_)
    · rfl
    · show j ∈ withoutSlot i _ ↔ _
      rw [mem_withoutSlot]
      split <;> simp_all [SourceState.group]
    · exact ⟨.inl (without_arm hj).1, (without_arm hj).2⟩

theorem only_enterReturning (s : State) (i : Slot) (cause : LeavingCause) : OnlySlot i s (s.enterReturning i cause) := by
  unfold State.enterReturning
  split
  · exact .refl i s
  · exact .after ((same_sendReturn _ _).only i) (.after (only_modifyPort _ _ _ _) (.after (only_modifyPort _ _ _ _) (only_putSource _ _ _)))

theorem who_setSlot_none (s : State) (i j : Slot) : (s.setSlot i none).who j = if i = j then none else s.who j := by
  unfold State.who State.source
  by_cases e : i = j
  · subst e; rw [State.record_setSlot_self, if_pos rfl]; rfl
  · rw [State.record_setSlot_of_ne s e, if_neg e]

theorem only_retireSource (s : State) (i : Slot) (cause : RetireCause) : OnlySlot i s (s.retireSource i cause) := by
  unfold State.retireSource
  split
  · exact .refl i s
  · intro j hj
    rw [who_setSlot_none, if_neg (Ne.symm hj), (same_post _ _).who]
    rfl

/-- A port's place given up: the slot's entries, its queue view and its arm. -/
def PortRec.given (i : Slot) (q : PortRec) : PortRec :=
  { q.without i with lane := q.lane.filter (fun e => decide (e ≠ .slot i)) }

theorem dropArmOf_given (s : State) (p : Port) (i : Slot) :
    (s.modifyPort p (fun q =>
      { q with queue := withoutSlot i q.queue, lane := q.lane.filter (fun e => decide (e ≠ .slot i)) })).dropArmOf p i
      = s.modifyPort p (PortRec.given i) := by
  unfold State.dropArmOf State.modifyPort
  rw [State.port_setPort_self, State.setPort_setPort]
  congr 1
  unfold PortRec.given PortRec.without
  split <;> simp_all

theorem view_retireSource {s : State} (hs : ViewLaw s) (i : Slot) (cause : RetireCause) :
    ViewLaw (s.retireSource i cause) := by
  unfold State.retireSource
  split
  · exact hs
  · next r h =>
    simp only
    rw [dropArmOf_given]
    have old := hs.at r.port
    have hw := fun j => ((who_setSlot_none ((s.modifyPort r.port (PortRec.given i)).post
      (.retiredSource i r.tote.code r.port cause r.tote.exposure (r.resolveLines .deferred).outcomes)) i j).trans
      (by rw [(same_post _ _).who]; rfl : _ = if i = j then none else s.who j))
    have hport : ∀ q, (((s.modifyPort r.port (PortRec.given i)).post
      (.retiredSource i r.tote.code r.port cause r.tote.exposure (r.resolveLines .deferred).outcomes)).setSlot i none).port q
        = (s.modifyPort r.port (PortRec.given i)).port q := by
      intro q; rw [State.port_setSlot, State.port_post]
    refine hs.change (i := i) (p := r.port) ?_ ?_ ?_ ?_ ?_
    · intro p g e; rw [who_some h] at e; cases e; rfl
    · intro p g e; rw [hw, if_pos rfl] at e; cases e
    · intro j hj; rw [hw, if_neg (Ne.symm hj)]
    · intro q hq
      rw [hport, State.port_modifyPort_of_ne _ (Ne.symm hq)]
    · rw [hport, State.port_modifyPort_self, show (_ : Slot → Option (Port × Group)) = _ from funext hw]
      refine ⟨fun j hj => ?_, fun j => ?_, fun j => ?_, fun j hj => ?_⟩
      · have hj' : LaneEntry.slot j ∈ (s.port r.port).lane.filter (fun e => decide (e ≠ .slot i)) := hj
        simp only [List.mem_filter, decide_eq_true_eq, ne_eq, LaneEntry.slot.injEq] at hj'
        rw [if_neg (fun e => hj'.2 e.symm)]
        exact old.lane j hj'.1
      · exact (List.Sublist.count_le _ List.filter_sublist).trans (old.once j)
      · show j ∈ withoutSlot i _ ↔ _
        rw [mem_withoutSlot]
        by_cases e : i = j
        · subst e; simp
        · rw [if_neg e]
          exact ⟨fun x => (old.queue j).mp x.2, fun x => ⟨Ne.symm e, (old.queue j).mpr x⟩⟩
      · have := without_arm (q := s.port r.port) hj
        rw [if_neg (fun e => this.1 e.symm)]
        exact old.arm j this.2

theorem view_exhaust {s : State} {i : Slot} (hs : ViewLaw s) {r : Source} (h : s.source i = some r)
    (hi : r.state = .inbound) (n : Nat) : ViewLaw (s.exhaust i n) := by
  have hu : Unlaned s i := hs.unlaned h (by simp [hi, SourceState.group])
  unfold State.exhaust
  rw [h]
  simp only
  split
  · refine (same_post _ _).law ((same_sendReturn _ _).law ?_)
    refine hs.moved (f := fun x => if x.arm.map Arm.item = some (.slot i) then { x with arm := none } else x) h hu ?_ (.refl _)
      (fun x y hxy => ?_) ?_ (fun j => ?_) (fun j hj => ?_)
    · rfl
    · simp only [PortRec.view, View.mk.injEq] at *
      obtain ⟨h1, h2, h3⟩ := hxy
      rw [h3]
      split <;> simp_all
    · split <;> rfl
    · have hq := ((hs.at r.port).queue i).trans (by rw [who_some h])
      split <;> split <;> simp_all [PortRec.view, Source.stand, SourceState.group]
    · split at hj
      · cases hj
      · next hn => exact ⟨.inl (fun e => hn (e ▸ hj)), hj⟩
  · refine (same_post _ _).law (view_enterReturning ?_ ?_ _)
    · exact (same_putSource h (by rfl) (by rfl)).law hs
    · exact (same_putSource h (by rfl) (by rfl)).unlaned hu

theorem same_drawBackoff {s : State} {i : Slot} {r : Source} (h : s.source i = some r) (n : Nat) :
    SameView s (s.drawBackoff i r n) := by
  unfold State.drawBackoff
  exact .after (SameView.of (by rfl) (by rfl) : SameView (s.putSource i { r with
    divertAttempts := n, backoff := Config.backoffDraw s.draws % backoffRange n }) _) (same_putSource h rfl rfl)

theorem view_collide {s : State} (hs : ViewLaw s) (i : Slot) : ViewLaw (s.collide i) := by
  unfold State.collide
  split
  · exact hs
  · next r h =>
    split
    · next hi =>
      split
      · exact (same_drawBackoff h _).law hs
      · exact view_exhaust hs h hi _
    · exact hs

theorem only_dropArmOf (s : State) (p : Port) (i j : Slot) : OnlySlot j s (s.dropArmOf p i) := only_modifyPort _ _ _ _

theorem only_exhaust (s : State) (i : Slot) (n : Nat) : OnlySlot i s (s.exhaust i n) := by
  unfold State.exhaust
  split
  · exact .refl i s
  · split
    · exact .after ((same_post _ _).only i) (.after ((same_sendReturn _ _).only i) (.after (only_dropArmOf _ _ _ _) (only_putSource _ _ _)))
    · exact .after ((same_post _ _).only i) (.after (only_enterReturning _ _ _) (only_putSource _ _ _))

theorem only_collide (s : State) (i : Slot) : OnlySlot i s (s.collide i) := by
  unfold State.collide
  split
  · exact .refl i s
  · split
    · split
      · next h _ _ => exact (same_drawBackoff h _).only i
      · exact only_exhaust _ _ _
    · exact .refl i s

theorem view_clearArm {s : State} (hs : ViewLaw s) (p : Port) : ViewLaw (s.clearArm p) :=
  hs.setPort ⟨(hs.at p).lane, (hs.at p).once, (hs.at p).queue, fun _ h => by cases h⟩

theorem view_withdrawArm {s : State} (hs : ViewLaw s) (p : Port) : ViewLaw (s.withdrawArm p) := by
  unfold State.withdrawArm
  split
  · exact hs
  · split
    · exact view_collide (view_clearArm hs p) _
    · exact view_clearArm hs p

/-! ### Operations of the stop -/

theorem who_group {s : State} {i : Slot} {p : Port} {g : Group} (h : s.who i = some (p, g)) {r : Source}
    (hr : s.source i = some r) : r.port = p ∧ r.state.group = g := by
  obtain ⟨q, hq, h1, h2⟩ := who_iff.mp h
  rw [hr] at hq; cases hq
  exact ⟨h1, h2⟩

theorem ViewLaw.listed {s : State} (hs : ViewLaw s) {p : Port} {i : Slot} {l : List LaneEntry}
    (h : (s.port p).lane = .slot i :: l) : s.who i = some (p, .lane) :=
  (hs.at p).lane i (by show LaneEntry.slot i ∈ (s.port p).lane; rw [h]; exact .head _)

theorem port_modifySource (s : State) (i : Slot) (f : Source → Source) (p : Port) :
    (s.modifySource i f).port p = s.port p := by
  unfold State.modifySource
  split <;> rfl

/-- A write of a field the law does not see, or of another lane state in the lane. -/
theorem same_setState {s : State} {i : Slot} {p : Port} {f : Source → Source} (h : s.who i = some (p, .lane))
    (hf : ∀ r, (f r).port = r.port ∧ (f r).state.group = .lane) : SameView s (s.modifySource i f) :=
  same_modifySource (fun r hr => ⟨(hf r).1, (hf r).2.trans (who_group h hr).2.symm⟩)

theorem same_enterHeld (s : State) (st : Station) (d : HeldDetail) : SameView s (s.enterHeld st d) :=
  (same_post _ _).after (same_setStation _ _ _)

theorem same_endPresentation (s : State) (st : Station) : SameView s (s.endPresentation st) := by
  unfold State.endPresentation
  split
  · exact .refl s
  · next i _ =>
    have ended : SameView s ((s.modifySource i (fun r => { r with current := none })).modifyStation st
        (fun r => { r with presentation := none, window := none })) :=
      .after (same_setStation _ _ _) (same_modifySource (fun _ _ => ⟨rfl, rfl⟩))
    simp only
    split
    · exact (same_enterHeld _ _ _).after ended
    · exact (same_enterHeld _ _ _).after ended
    · exact ended
    · exact ended
    · exact ended

theorem same_endPresentationOf (s : State) (p : Port) (i : Slot) : SameView s (s.endPresentationOf p i) := by
  unfold State.endPresentationOf
  split
  · exact same_endPresentation _ _
  · exact .refl s

theorem same_openStop {s : State} (hs : ViewLaw s) (p : Port) : SameView s (s.openStop p) := by
  unfold State.openStop
  have opened : SameView s (s.modifyPort p (fun r =>
    { r with stop := .openSeated, exitWindow := some Config.exitWindow })) := same_modifyPort rfl
  simp only
  split
  · next i _ hl =>
    refine (same_endPresentationOf _ _ _).after
      ((same_setState (p := p) (f := fun r => { r with state := .releasing }) ?_ (fun r => ⟨rfl, rfl⟩)).after opened)
    rw [opened.who]; exact hs.listed hl
  · exact opened

theorem view_openStop {s : State} (hs : ViewLaw s) (p : Port) : ViewLaw (s.openStop p) := (same_openStop hs p).law hs

theorem same_passHead {s : State} (hs : ViewLaw s) (p : Port) : SameView s (s.passHead p) := by
  unfold State.passHead
  split
  · split
    · split
      · exact same_openStop hs p
      · exact .refl s
    · exact .refl s
  · exact .refl s

theorem view_passHead {s : State} (hs : ViewLaw s) (p : Port) : ViewLaw (s.passHead p) := (same_passHead hs p).law hs

theorem view_seatHead {s : State} (hs : ViewLaw s) (p : Port) : ViewLaw (s.seatHead p) := by
  unfold State.seatHead
  have old := hs.at p
  have reading : ViewLaw (s.modifyPort p (fun r =>
      { r.startRead .first with lane := if r.lane.isEmpty then [.unidentified] else r.lane })) := by
    refine hs.setPort ⟨?_, ?_, old.queue, old.arm⟩
    · intro i hi
      show s.who i = _
      simp only [PortRec.view] at hi
      split at hi
      · simp at hi
      · exact old.lane i hi
    · intro i
      simp only [PortRec.view]
      split
      · simp
      · exact old.once i
  simp only
  split
  · next i _ hl => exact (same_setState (p := p) (f := fun r => { r with state := .atStop }) (by show s.who i = _; exact hs.listed hl)
      (fun r => ⟨rfl, rfl⟩)).law reading
  · exact reading

theorem unlaned_seatHead {s : State} {p : Port} {i : Slot} (hu : Unlaned s i) : Unlaned (s.seatHead p) i := by
  have h : Unlaned (s.modifyPort p (fun r =>
      { r.startRead .first with lane := if r.lane.isEmpty then [.unidentified] else r.lane })) i := by
    intro q
    by_cases e : p = q
    · subst e
      rw [State.port_modifyPort_self]
      simp only
      split
      · simp
      · exact hu p
    · rw [State.port_modifyPort_of_ne _ e]; exact hu q
  unfold State.seatHead
  simp only
  split
  · intro q hq
    rw [port_modifySource] at hq
    exact h q hq
  · exact h

/-- The head leaves its lane list: the law stands, and a slot head is in no lane. -/
theorem ViewLaw.popHead {s : State} (hs : ViewLaw s) {p : Port} {head : LaneEntry} {rest : List LaneEntry}
    (hl : (s.port p).lane = head :: rest) {x : PortRec} (h1 : x.lane = rest) (h2 : x.queue = (s.port p).queue)
    (h3 : x.arm = (s.port p).arm) :
    ViewLaw (s.setPort p x) ∧ ∀ i, head = .slot i → Unlaned (s.setPort p x) i := by
  have old := hs.at p
  have hc := fun i => old.once i
  simp only [PortRec.view, hl, List.count_cons] at hc
  constructor
  · refine hs.setPort ⟨fun i hi => ?_, fun i => ?_, fun i => ?_, fun i hi => ?_⟩
    · refine old.lane i ?_
      simp only [PortRec.view, hl, h1] at hi ⊢
      exact .tail _ hi
    · simp only [PortRec.view, h1]; have := hc i; omega
    · simp only [PortRec.view, h2]; exact old.queue i
    · simp only [PortRec.view, h3] at hi; exact old.arm i hi
  · rintro i rfl q hq
    by_cases e : p = q
    · subst e
      rw [State.port_setPort_self, h1] at hq
      have := List.count_pos_iff.mpr hq
      have := hc i
      simp at this
      omega
    · rw [State.port_setPort_of_ne _ e] at hq
      have h1 := (hs.at q).lane i hq
      rw [hs.listed hl] at h1
      cases h1
      exact e rfl

/-- A record in no lane becomes INBOUND at the head of its queue view. -/
theorem view_found {s t : State} {i : Slot} {r q : Source} (hs : ViewLaw s) (h : s.source i = some r) (hu : Unlaned s i)
    (hp : q.port = r.port) (hg : q.state.group = .inbound) (ht : SameView (s.putSource i q) t) :
    ViewLaw (t.queueHead r.port i) := by
  refine hs.moved h hu hp ht (fun x y hxy => ?_) rfl (fun j => ?_) (fun j hj => ⟨.inr hg, hj⟩)
  · simp only [PortRec.view, View.mk.injEq] at *
    obtain ⟨h1, h2, h3⟩ := hxy
    exact ⟨h1, by rw [h2], h3⟩
  · simp only [List.mem_cons, mem_withoutSlot]
    split <;> simp_all

theorem view_exitResult {s : State} (hs : ViewLaw s) (e : LaneEntry) (hu : ∀ i, e = .slot i → Unlaned s i) :
    ViewLaw (s.exitResult e) := by
  unfold State.exitResult
  split
  · next i =>
    have hu := hu i rfl
    split
    · exact hs
    · next r h =>
      split
      · exact view_enterReturning hs hu _
      · exact view_enterReturning hs hu _
      · exact view_enterReturning hs hu _
      · split
        · have hv : SameView s (s.putSource i { r with passThrough := none }) := same_putSource h rfl rfl
          exact view_enterReturning (hv.law hs) (hv.unlaned hu) _
        · refine view_collide (view_found hs h hu ?_ ?_ (.refl _)) i <;> rfl
  · split
    · exact view_collide hs _
    · exact hs
  · exact hs
  · exact hs
  · exact hs
  · exact hs

theorem view_takeExit {s : State} (hs : ViewLaw s) (p : Port) : ViewLaw (s.takeExit p) := by
  unfold State.takeExit
  split
  · exact hs
  · next head rest hl =>
    obtain ⟨h1, h2⟩ := hs.popHead hl (x := { s.port p with
      lane := rest, stop := (s.port p).stop.afterExit.1, exitWindow := none }) rfl rfl rfl
    simp only
    split
    · exact view_exitResult (view_seatHead h1 p) head (fun i e => unlaned_seatHead (h2 i e))
    · exact view_exitResult h1 head h2

/-- An entry that has left its lane list, its record not yet dealt with. -/
def LeftLane (s : State) (p : Port) (e : LaneEntry) : Prop := ∀ i, e = .slot i → s.who i = some (p, .lane) ∧ Unlaned s i

theorem SameView.left {s t : State} (h : SameView s t) {p : Port} {e : LaneEntry} (hl : LeftLane s p e) : LeftLane t p e :=
  fun i hi => ⟨(h.who i).trans (hl i hi).1, h.unlaned (hl i hi).2⟩

theorem view_makeMissing {s : State} (hs : ViewLaw s) {p : Port} {i : Slot} (hl : LeftLane s p (.slot i)) (d : LostDetail) :
    ViewLaw (s.makeMissing i d) := by
  unfold State.makeMissing
  split
  · exact hs
  · next r h =>
    refine (same_post _ _).law ((same_endPresentationOf _ _ _).law ?_)
    have hw := (hl i rfl).1
    refine hs.put h ?_ (.inr (hl i rfl).2) ?_ (.inr (hs.unarmed hw (by decide)))
    · rfl
    · rw [(who_group hw h).2]
      show (SourceState.missing.group = .inbound ∨ SourceState.missing.group = .queue) ↔ _
      decide

theorem view_loseEntry {s : State} (hs : ViewLaw s) {p : Port} {e : LaneEntry} (hl : LeftLane s p e) (d : LostDetail) :
    ViewLaw (s.loseEntry d e) := by
  unfold State.loseEntry
  split
  · split
    · exact hs
    · split
      · exact view_retireSource ((same_endPresentationOf _ _ _).law hs) _ _
      · exact view_makeMissing hs hl _
  · exact hs
  · exact hs

theorem only_makeMissing (s : State) (i : Slot) (d : LostDetail) : OnlySlot i s (s.makeMissing i d) := by
  unfold State.makeMissing
  split
  · exact .refl i s
  · exact .after ((same_post _ _).only i) (.after ((same_endPresentationOf _ _ _).only i) (only_putSource _ _ _))

theorem only_loseEntry (s : State) (i : Slot) (d : LostDetail) : OnlySlot i s (s.loseEntry d (.slot i)) := by
  unfold State.loseEntry
  simp only
  split
  · exact .refl i s
  · split
    · exact .after (only_retireSource _ _ _) ((same_endPresentationOf _ _ _).only i)
    · exact only_makeMissing _ _ _

theorem view_loseHead {s : State} (hs : ViewLaw s) (p : Port) (after : Stop) (d : LostDetail) :
    ViewLaw (s.loseHead p after d) := by
  unfold State.loseHead
  split
  · exact (same_modifyPort rfl).law hs
  · next head rest hl =>
    obtain ⟨h1, h2⟩ := hs.popHead hl (x := { s.port p with lane := rest, stop := after }) rfl rfl rfl
    refine view_loseEntry (p := p) h1 (fun i e => ⟨?_, h2 i e⟩) d
    show s.who i = _
    exact hs.listed (l := rest) (by rw [hl, e])

/-- The lanes of a state list no slot that those of another do not. -/
def FewerListed (s t : State) : Prop := ∀ p i, LaneEntry.slot i ∈ (t.port p).lane → LaneEntry.slot i ∈ (s.port p).lane

theorem SameView.fewer {s t : State} (h : SameView s t) : FewerListed s t := by
  intro p i hi
  have e : (t.port p).lane = (s.port p).lane := congrArg View.lane (h.view p)
  rwa [e] at hi

theorem FewerListed.after {s t u : State} (g : FewerListed t u) (h : FewerListed s t) : FewerListed s u :=
  fun p i hi => h p i (g p i hi)

theorem FewerListed.unlaned {s t : State} (h : FewerListed s t) {i : Slot} (hu : Unlaned s i) : Unlaned t i :=
  fun p hp => hu p (h p i hp)

theorem fewer_retireSource (s : State) (i : Slot) (cause : RetireCause) : FewerListed s (s.retireSource i cause) := by
  unfold State.retireSource
  split
  · exact fun _ _ h => h
  · next r _ =>
    simp only
    rw [dropArmOf_given]
    intro p j hj
    rw [State.port_setSlot, State.port_post] at hj
    by_cases e : r.port = p
    · subst e
      rw [State.port_modifyPort_self] at hj
      exact List.mem_of_mem_filter hj
    · rw [State.port_modifyPort_of_ne _ e] at hj
      exact hj

theorem fewer_loseEntry (s : State) (d : LostDetail) (e : LaneEntry) : FewerListed s (s.loseEntry d e) := by
  unfold State.loseEntry
  split
  · split
    · exact fun _ _ h => h
    · split
      · exact (fewer_retireSource _ _ _).after (same_endPresentationOf _ _ _).fewer
      · unfold State.makeMissing
        split
        · exact fun _ _ h => h
        · exact (same_post _ _).fewer.after ((same_endPresentationOf _ _ _).fewer.after (fun _ _ h => h))
  · exact fun _ _ h => h
  · exact fun _ _ h => h

theorem same_clearVerifyFailed (s : State) (e : LaneEntry) : SameView s (s.clearVerifyFailed e) := by
  unfold State.clearVerifyFailed
  split
  · refine same_modifySource (fun r _ => ?_)
    split <;> exact ⟨rfl, rfl⟩
  · exact .refl s
  · exact .refl s

/-- The entries of a lane list already emptied, dealt with in turn. -/
theorem view_loseEntries (p : Port) (d : LostDetail) (l : List LaneEntry) : ∀ s : State, ViewLaw s →
    (∀ e ∈ l, LeftLane s p e) → (∀ i, l.count (.slot i) ≤ 1) →
    ViewLaw (l.foldl (fun t e => (t.clearVerifyFailed e).loseEntry d e) s) := by
  induction l with
  | nil => intro s hs _ _; exact hs
  | cons e l ih =>
    intro s hs hl hc
    have hv := same_clearVerifyFailed s e
    refine ih _ (view_loseEntry (hv.law hs) (hv.left (hl e (.head _))) d) (fun x hx j hj => ?_) (fun i => ?_)
    · subst hj
      have := hl _ (.tail _ hx) j rfl
      have hne : ∀ i, e = .slot i → j ≠ i := by
        rintro i rfl rfl
        have := hc j
        have := List.count_pos_iff.mpr hx
        simp only [List.count_cons_self] at *
        omega
      constructor
      · cases e with
        | slot i => rw [only_loseEntry _ i d j (hne i rfl), hv.who]; exact this.1
        | unidentified => exact (hv.who j).trans this.1
        | foreign reason c => exact (hv.who j).trans this.1
      · exact (fewer_loseEntry _ _ _).unlaned (hv.unlaned this.2)
    · exact (List.Sublist.count_le _ (List.sublist_cons_self e l)).trans (hc i)

theorem same_markFault (s : State) (p : Port) (cause : FaultCause) : SameView s (s.markFault p cause) := by
  unfold State.markFault
  refine (same_post _ _).after (same_modifyPort ?_)
  split <;> rfl

theorem view_takeLocalControl {s : State} (hs : ViewLaw s) (p : Port) : ViewLaw (s.takeLocalControl p) := by
  unfold State.takeLocalControl
  have hw := view_withdrawArm hs p
  have old := hw.at p
  refine (same_markFault _ _ _).law (view_loseEntries p .override _ _ ?_ (fun e he i hi => ⟨?_, fun q hq => ?_⟩) old.once)
  · exact hw.setPort ⟨fun _ h => (nomatch h), fun _ => Nat.zero_le 1, old.queue, old.arm⟩
  · subst hi
    exact old.lane i he
  · subst hi
    by_cases e : p = q
    · subst e
      rw [State.port_modifyPort_self] at hq
      cases hq
    · rw [State.port_modifyPort_of_ne _ e] at hq
      have h1 := (hw.at q).lane i hq
      rw [old.lane i he] at h1
      cases h1
      exact e rfl

theorem same_demote {s : State} (hs : ViewLaw s) (p : Port) : SameView s (s.demote p) := by
  unfold State.demote
  split
  · next i _ _ =>
    split
    · next r h =>
      split
      · next hp =>
        have hv : SameView s ((s.putSource i { r with state := .ready, current := none, lines := r.deferCurrent }).endPresentationOf p i) :=
          (same_endPresentationOf _ _ _).after (same_putSource h rfl (by simp [hp, SourceState.group]))
        exact (same_passHead (hv.law hs) p).after hv
      · exact .refl s
    · exact .refl s
  · exact .refl s

theorem same_raiseFault {s : State} (hs : ViewLaw s) (p : Port) (cause : FaultCause) : SameView s (s.raiseFault p cause) :=
  (same_demote ((same_markFault s p cause).law hs) p).after (same_markFault s p cause)

theorem view_raiseFault {s : State} (hs : ViewLaw s) (p : Port) (cause : FaultCause) : ViewLaw (s.raiseFault p cause) :=
  (same_raiseFault hs p cause).law hs

theorem view_endUnconfirmed {s : State} (hs : ViewLaw s) (p : Port) : ViewLaw (s.endUnconfirmed p) := by
  unfold State.endUnconfirmed
  split
  · exact hs
  · next a _ =>
    have old := hs.at p
    have ended : ViewLaw ((s.modifyPort p (fun r =>
        { r with arm := none, unconfirmed := (s.port p).unconfirmed + 1 })).postIf
          (s.unconfirmedNotice p ((s.port p).unconfirmed + 1) a.item)) := by
      refine (same_postIf _ _).law (hs.setPort ⟨old.lane, old.once, old.queue, fun _ h => by cases h⟩)
    have collided : ∀ x : ArmItem, ViewLaw (match x with
        | .slot i => ((s.modifyPort p (fun r =>
            { r with arm := none, unconfirmed := (s.port p).unconfirmed + 1 })).postIf
              (s.unconfirmedNotice p ((s.port p).unconfirmed + 1) a.item)).collide i
        | .foreign _ _ => (s.modifyPort p (fun r =>
            { r with arm := none, unconfirmed := (s.port p).unconfirmed + 1 })).postIf
              (s.unconfirmedNotice p ((s.port p).unconfirmed + 1) a.item)) := by
      intro x
      cases x with
      | slot i => exact view_collide ended i
      | foreign reason c => exact ended
    simp only
    split
    · exact view_raiseFault (collided a.item) p _
    · exact collided a.item

end Sys2Proof.Machine
end

