-- ==== Sys2Proof/Laws/ViewEvents.lean ====
section
/-! SUPPORT. The law of the roster views through displacement, the work at the end of an event, and every command:
`view_exec`. -/

namespace Sys2Proof.Machine

/-! ### Displacement -/

theorem only_modifySource (s : State) (i : Slot) (f : Source → Source) : OnlySlot i s (s.modifySource i f) := by
  unfold State.modifySource
  split
  · exact only_putSource _ _ _
  · exact .refl i s

/-- An UNIDENTIFIED entry becomes the slot: the list holds the slot once more, and any other as often. -/
theorem count_replaceUnidentified {i : Slot} (j : Slot) {l m : List LaneEntry} (h : replaceUnidentified i l = some m) :
    m.count (.slot j) = l.count (.slot j) + if j = i then 1 else 0 := by
  induction l generalizing m with
  | nil => cases h
  | cons e l ih =>
    cases e with
    | unidentified =>
      cases h
      by_cases hj : j = i
      · subst hj; simp
      · simp [hj, Ne.symm hj]
    | slot k =>
      simp only [replaceUnidentified, Option.map_eq_some_iff] at h
      obtain ⟨n, hn, rfl⟩ := h
      simp only [List.count_cons, ih hn]
      omega
    | foreign reason c =>
      simp only [replaceUnidentified, Option.map_eq_some_iff] at h
      obtain ⟨n, hn, rfl⟩ := h
      simp only [List.count_cons, ih hn]
      omega

theorem view_leaveLane {s : State} (hs : ViewLaw s) {i : Slot} (hu : Unlaned s i) : ViewLaw (s.leaveLane i) := by
  unfold State.leaveLane
  split
  · exact hs
  · next r h =>
    split
    · exact view_enterReturning hs hu _
    · refine view_collide (view_found hs h hu ?_ ?_ (.refl _)) i <;> rfl

theorem only_leaveLane (s : State) (i : Slot) : OnlySlot i s (s.leaveLane i) := by
  unfold State.leaveLane
  split
  · exact .refl i s
  · split
    · exact only_enterReturning _ _ _
    · exact (only_collide _ _).after ((only_modifyPort _ _ _ _).after (only_putSource _ _ _))

/-- The lane list of a port, by how often it lists each slot. -/
theorem ViewLaw.setLane {s : State} {p : Port} {x : PortRec} (hs : ViewLaw s)
    (hc : ∀ i, 0 < x.lane.count (.slot i) → s.who i = some (p, .lane) ∧ x.lane.count (.slot i) ≤ 1)
    (hq : x.queue = (s.port p).queue) (ha : x.arm = (s.port p).arm) : ViewLaw (s.setPort p x) := by
  refine hs.setPort ⟨fun i hi => (hc i (List.count_pos_iff.mpr hi)).1, fun i => ?_, fun i => ?_, fun i hi => ?_⟩
  · rcases Nat.eq_zero_or_pos (x.lane.count (.slot i)) with h | h
    · show x.lane.count _ ≤ 1; omega
    · exact (hc i h).2
  · simp only [PortRec.view, hq]; exact (hs.at p).queue i
  · simp only [PortRec.view, ha] at hi; exact (hs.at p).arm i hi

/-- A new head, which is a record of the port in a lane state and in no lane, or no record, ahead of entries of the list. -/
theorem ViewLaw.newHead {s : State} (hs : ViewLaw s) {p : Port} {head : LaneEntry} (hh : LeftLane s p head)
    {l : List LaneEntry} (hc : ∀ i, l.count (.slot i) ≤ (s.port p).lane.count (.slot i)) :
    ViewLaw (s.setPort p { s.port p with lane := head :: l }) := by
  refine hs.setLane (fun i hi => ?_) rfl rfl
  have h0 := (hs.at p).once i
  have h1 := hc i
  simp only [PortRec.view] at h0
  simp only [List.count_cons] at hi ⊢
  by_cases e : head = .slot i
  · have h2 := List.count_eq_zero.mpr ((hh i e).2 p)
    exact ⟨(hh i e).1, by split <;> omega⟩
  · have e' : ¬ (head == LaneEntry.slot i) = true := by simpa using e
    rw [if_neg e'] at hi ⊢
    exact ⟨(hs.at p).lane i (List.count_pos_iff.mp (by simp only [PortRec.view]; omega)), by omega⟩

/-- The same head at a changed port: the slot that was the head is in no lane, if it is not listed behind. -/
theorem ViewLaw.unlaned_of_newHead {s : State} (hs : ViewLaw s) {p : Port} {i : Slot} {rest : List LaneEntry}
    (hl : (s.port p).lane = .slot i :: rest) {head : LaneEntry} (hh : LeftLane s p head) :
    Unlaned (s.setPort p { s.port p with lane := head :: rest }) i := by
  intro q hq
  by_cases e : p = q
  · subst e
    rw [State.port_setPort_self] at hq
    rcases List.mem_cons.mp hq with h | h
    · exact (hh i h.symm).2 p (by rw [hl]; exact .head _)
    · have h0 := (hs.at p).once i
      have := List.count_pos_iff.mpr h
      simp only [PortRec.view, hl, List.count_cons_self] at h0
      omega
  · rw [State.port_setPort_of_ne _ e] at hq
    have h1 := (hs.at q).lane i hq
    rw [hs.listed hl] at h1
    cases h1
    exact e rfl

theorem view_displaceHead {s : State} (hs : ViewLaw s) {p : Port} {head : LaneEntry} (hh : LeftLane s p head) :
    ViewLaw (s.displaceHead p head) := by
  unfold State.displaceHead
  split
  · exact hs
  · next i rest hl =>
    split
    · next behind hb =>
      have moved : ViewLaw (s.modifyPort p (fun r => { r with lane := head :: behind })) := by
        refine hs.newHead hh (fun k => ?_)
        rw [count_replaceUnidentified k hb, hl, List.count_cons]
        by_cases e : k = i
        · subst e; simp
        · simp [e]
      exact (same_setState (p := p) (f := fun r => { r with state := .laned }) (by show s.who i = _; exact hs.listed hl)
        (fun r => ⟨rfl, rfl⟩)).law moved
    · refine view_leaveLane (hs.newHead hh (fun k => ?_)) (hs.unlaned_of_newHead hl hh)
      rw [hl, List.count_cons]; omega
  · next e rest _ hl =>
    refine hs.newHead hh (fun k => ?_)
    rw [hl, List.count_cons]; omega

/-- A displacement changes no other slot than the displaced head. -/
theorem who_displaceHead {s : State} {p : Port} {head : LaneEntry} {j : Slot} (hj : LaneEntry.slot j ∉ (s.port p).lane) :
    (s.displaceHead p head).who j = s.who j := by
  unfold State.displaceHead
  split
  · rfl
  · next i rest hl =>
    have hne : j ≠ i := by
      rintro rfl
      exact hj (by rw [hl]; exact .head _)
    split
    · rw [only_modifySource _ _ _ j hne]; rfl
    · rw [only_leaveLane _ _ j hne]; rfl
  · rfl

/-- An entry that names no record. -/
theorem leftLane_foreign (s : State) (p : Port) (reason : ForeignReason) (c : Code) : LeftLane s p (.foreign reason c) :=
  fun _ h => nomatch h

/-! ### The work at the end of an event -/

theorem same_releasePresented {s : State} (hs : ViewLaw s) (i : Slot) : SameView s (s.releasePresented i) := by
  unfold State.releasePresented
  split
  · exact .refl s
  · next r h =>
    have hv : SameView s (s.putSource i { r with
      current := none, lines := moveLines (fun l => decide (l.state = .blocked)) .deferred r.lines }) :=
      same_putSource h rfl rfl
    exact (same_openStop (hv.law hs) _).after hv

theorem same_chooseLine {s : State} (hs : ViewLaw s) (st : Station) : SameView s (s.chooseLine st) := by
  unfold State.chooseLine
  split
  · exact .refl s
  · split
    · exact .refl s
    · next h =>
      split
      · exact same_putSource h rfl rfl
      · exact same_releasePresented hs _

theorem same_refreshLine {s : State} (hs : ViewLaw s) (st : Station) : SameView s (s.refreshLine st) := by
  unfold State.refreshLine
  split
  · split
    · exact .refl s
    · exact same_chooseLine hs st
  · exact .refl s

theorem same_present {s : State} (hs : ViewLaw s) {st : Station} {p q : Port} {i : Slot} (h : s.who i = some (q, .lane)) :
    SameView s (s.present st p i) := by
  unfold State.present
  have hv : SameView s ((s.modifySource i (fun r => { r with state := .presented })).modifyStation st (fun r =>
    { r with
      presentation := some i, workingPort := some p, side := portSide p, hold := r.hold.onPresent,
      window := some (10 * s.config.attendanceWindow) })) :=
    (same_setStation _ _ _).after (same_setState (f := fun r => { r with state := .presented }) h (fun r => ⟨rfl, rfl⟩))
  exact (same_chooseLine (hv.law hs) st).after hv

theorem who_of_offers {s : State} {p : Port} {i : Slot} (h : s.offers p = some i) : s.who i = some (p, .lane) := by
  obtain ⟨_, _, r, hr, h1, _, h3⟩ := offers_iff.mp h
  exact who_iff.mpr ⟨r, hr, h3, by rw [h1]; rfl⟩

theorem same_selectHead (st : Station) (n : Nat) : ∀ {s : State}, ViewLaw s → SameView s (s.selectHead st n) := by
  induction n with
  | zero => intro s _; exact .refl s
  | succ n ih =>
    intro s hs
    unfold State.selectHead
    split
    · split
      · next p i hp =>
        have hw : ∃ q, s.who i = some (q, .lane) := by
          unfold State.selectedPort at hp
          simp only at hp
          split at hp
          · next j hj => cases hp; exact ⟨_, who_of_offers hj⟩
          · obtain ⟨j, hj, e⟩ := Option.map_eq_some_iff.mp hp
            cases e; exact ⟨_, who_of_offers hj⟩
        obtain ⟨q, hq⟩ := hw
        have hv := same_present hs (st := st) (p := p) hq
        exact (ih (hv.law hs)).after hv
      · exact .refl s
    · exact .refl s

theorem same_select {s : State} (hs : ViewLaw s) (st : Station) : SameView s (s.select st) := same_selectHead st 3 hs

theorem same_drainPort (s : State) (p : Port) : SameView s (s.drainPort p) := by
  unfold State.drainPort
  split
  · exact (same_post _ _).after (same_modifyPort rfl)
  · exact .refl s

theorem same_selectAndDrain {s : State} (hs : ViewLaw s) : SameView s s.selectAndDrain := by
  have ha := same_select hs .a
  exact (SameView.foldl _ same_drainPort _ _).after ((same_select (ha.law hs) .b).after ha)

theorem view_grantCancel {s : State} (hs : ViewLaw s) {i : Slot}
    (h : ∀ r, s.source i = some r → r.state.group = .queue) : ViewLaw (s.grantCancel i) := by
  unfold State.grantCancel
  exact ((same_sendCancel _ _).after (same_modifySource (f := fun r => { r with state := .cancelling })
    (fun r hr => ⟨rfl, (h r hr).symm⟩))).law hs

theorem view_grantCall {s : State} (hs : ViewLaw s) {i : Slot} (p : Port)
    (h : ∀ r, s.source i = some r → r.state.group = .queue) : ViewLaw (s.grantCall p i) := by
  unfold State.grantCall
  split
  · exact hs
  · next r hr =>
    refine SameView.law (s := s) ?_ hs
    refine (same_transmit _ _).after (.after (t := s.putSource i { r with
      visit := r.visit + 1, state := .calling, answerWindow := some s.config.answerWindow }) (.of ?_ ?_)
      (same_putSource hr rfl (h r hr).symm)) <;> rfl

theorem view_grants (n : Nat) : ∀ {s : State}, ViewLaw s → ViewLaw (s.grants n) := by
  induction n with
  | zero => intro s hs; exact hs
  | succ n ih =>
    intro s hs
    unfold State.grants
    split
    · split
      · next i hi =>
        refine ih (view_grantCancel hs (fun r hr => ?_))
        have := List.find?_some hi
        rw [hr] at this
        unfold Source.cancelClaim at this
        simp only [Bool.and_eq_true, decide_eq_true_eq] at this
        rw [this.1]; rfl
      · split
        · next p i hp =>
          refine ih (view_grantCall hs p (fun r hr => ?_))
          unfold State.nextCall at hp
          obtain ⟨q, _, hq⟩ := List.exists_of_findSome?_eq_some hp
          obtain ⟨j, hj, e⟩ := Option.map_eq_some_iff.mp hq
          cases e
          unfold State.callClaim at hj
          split at hj
          · have := List.find?_some hj
            rw [hr] at this
            simp only [Bool.and_eq_true, decide_eq_true_eq] at this
            rw [this.1]; rfl
          · cases hj
        · exact hs
    · exact hs

theorem view_settle {s : State} (hs : ViewLaw s) : ViewLaw s.settle := view_grants _ ((same_selectAndDrain hs).law hs)

theorem view_endSighted {s : State} (hs : ViewLaw s) (p : Port) : ViewLaw (s.endSighted p) := by
  have := view_endUnconfirmed hs p
  exact (same_selectAndDrain this).law this

/-! ### Exposure -/

theorem same_warnRecord (s : State) (i : Slot) : SameView s (s.warnRecord i) := by
  unfold State.warnRecord
  split
  · exact .refl s
  · split
    · exact .refl s
    · split
      · exact (same_post _ _).after (same_modifyTote _ _ _)
      · exact .refl s

theorem view_expireSource {s : State} (hs : ViewLaw s) (i : Slot) : ViewLaw (s.expireSource i) := by
  unfold State.expireSource
  split
  · exact hs
  · next r h =>
    split
    · exact view_retireSource hs _ _
    · exact hs
    · exact hs
    · exact (same_putSource h (by rfl) (by rfl)).law hs
    · next hi => exact view_enterReturning hs (hs.unlaned h (by simp [hi, SourceState.group])) _
    · exact (same_putSource h (by rfl) (by rfl)).law hs
    · exact (same_putSource h (by rfl) (by rfl)).law hs
    · exact view_passHead ((same_putSource h (by rfl) (by rfl)).law hs) _
    · have hv : SameView s (s.putSource i { r with lines := r.deferOthers, passThrough := some r.expiredReason }) :=
        same_putSource h rfl rfl
      simp only
      split
      · exact (same_releasePresented (hv.law hs) i).law (hv.law hs)
      · exact hv.law hs
    · exact hs
    · exact hs
    · exact (same_putSource h (by rfl) (by rfl)).law hs
    · exact (same_putSource h (by rfl) (by rfl)).law hs

theorem same_refreshLines {s t : State} (hs : ViewLaw s) (h : SameView s t) :
    SameView s ((t.refreshLine .a).refreshLine .b) := by
  have ht := h.law hs
  have ha := same_refreshLine ht .a
  exact (same_refreshLine (ha.law ht) .b).after (ha.after h)

theorem same_expireOrder {s : State} (hs : ViewLaw s) (i : Slot) : SameView s (s.expireOrder i) := by
  unfold State.expireOrder
  split
  · exact .refl s
  · next h => exact same_refreshLines hs ((same_moveLinesFor _ _ _ _).after (same_putOrder h))

theorem view_expireRecord {s : State} (hs : ViewLaw s) (i : Slot) : ViewLaw (s.expireRecord i) := by
  unfold State.expireRecord
  split
  · exact hs
  · split
    · exact hs
    · split
      · have marked := fun n => ((same_post (s.modifyTote i (fun t => { t with expired := true })) n).after
          (same_modifyTote _ _ _)).law hs
        split
        · exact view_expireSource (marked _) i
        · exact (same_expireOrder (marked _) i).law (marked _)
      · exact hs

theorem view_examine {s : State} (hs : ViewLaw s) (i : Slot) : ViewLaw (s.examine i) :=
  view_expireRecord ((same_warnRecord s i).law hs) i

/-! ### The loop -/

theorem view_adopt {s : State} (hs : ViewLaw s) {i : Slot} (h : ∀ r, s.source i = some r → r.state.group = .queue) :
    ViewLaw (s.adopt i) := by
  unfold State.adopt
  cases e : s.source i with
  | none => rw [State.modifySource_of_none e]; exact hs
  | some r =>
    rw [State.modifySource_of_some e]
    have hg := h r e
    refine hs.put e ?_ (.inr (hs.unlaned e (by rw [hg]; decide))) ?_ (.inl ?_)
    · rfl
    · rw [hg]; exact iff_of_true (.inl rfl) (.inr rfl)
    · rfl

/-- Slots of a lane list replaced by UNIDENTIFIED entries. -/
theorem count_unidentified (i j : Slot) (l : List LaneEntry) :
    (l.map (fun e => if e = .slot i then LaneEntry.unidentified else e)).count (.slot j)
      = if j = i then 0 else l.count (.slot j) := by
  induction l with
  | nil => simp
  | cons e l ih =>
    rw [List.map_cons, List.count_cons, List.count_cons, ih]
    by_cases h : e = .slot i
    · subst h
      by_cases hj : j = i
      · subst hj; simp
      · simp [hj, Ne.symm hj]
    · by_cases hj : j = i
      · subst hj; simp [h]
      · simp [h, hj]

theorem view_unidentify {s : State} (hs : ViewLaw s) (p : Port) (i : Slot) : ViewLaw (s.unidentify p i) := by
  refine hs.setLane (fun j hj => ?_) ?_ ?_
  · simp only [count_unidentified] at hj ⊢
    split at hj
    · omega
    · next hn =>
      rw [if_neg hn]
      exact ⟨(hs.at p).lane j (List.count_pos_iff.mp hj), (hs.at p).once j⟩
  · simp only; split <;> rfl
  · simp only; split <;> rfl

theorem unlaned_unidentify {s : State} (hs : ViewLaw s) {i : Slot} {r : Source} (h : s.source i = some r) :
    Unlaned (s.unidentify r.port i) i := by
  intro q hq
  unfold State.unidentify at hq
  by_cases e : r.port = q
  · subst e
    rw [State.port_modifyPort_self] at hq
    have := List.count_pos_iff.mpr hq
    simp only [count_unidentified] at this
    simp at this
  · rw [State.port_modifyPort_of_ne _ e] at hq
    have h1 := (hs.at q).lane i hq
    rw [who_some h] at h1
    exact e (by simpa [Source.stand] using congrArg (Option.map Prod.fst) h1)

theorem view_sendHome {s : State} (hs : ViewLaw s) (i : Slot) : ViewLaw (s.sendHome i) := by
  unfold State.sendHome
  split
  · exact hs
  · next r h =>
    have hv : SameView s (s.putSource i r.giveBack) := same_putSource h rfl rfl
    have hs' := hv.law hs
    have hu : Unlaned ((s.putSource i r.giveBack).unidentify r.port i) i :=
      unlaned_unidentify (r := r.giveBack) hs' (by simp)
    have he := same_endPresentationOf ((s.putSource i r.giveBack).unidentify r.port i) r.port i
    exact view_enterReturning (he.law (view_unidentify hs' _ _)) (he.unlaned hu) _

theorem view_sightLane {s : State} (hs : ViewLaw s) {i : Slot} (hg : ∀ r, s.source i = some r → r.state.group = .lane) :
    ViewLaw (s.sightLane i) := by
  unfold State.sightLane
  split
  · exact hs
  · next r h =>
    have he := same_endPresentationOf (s.unidentify r.port i) r.port i
    have hs' := he.law (view_unidentify hs r.port i)
    have hu := he.unlaned (unlaned_unidentify hs h)
    have hw : ((s.unidentify r.port i).endPresentationOf r.port i).who i = some (r.port, .lane) := by
      rw [he.who]
      show s.who i = _
      rw [who_some h, ← hg r h]
      rfl
    obtain ⟨q, hq, hp, _⟩ := who_iff.mp hw
    simp only
    rw [State.modifySource_of_some hq]
    have found : ∀ t, SameView (((s.unidentify r.port i).endPresentationOf r.port i).putSource i
        { q with state := .inbound, current := none }) t → ViewLaw (t.queueHead r.port i) := by
      intro t ht
      have hv := view_found (q := { q with state := .inbound, current := none }) hs' hq hu rfl rfl ht
      rwa [hp] at hv
    split
    · exact found _ (same_post _ _)
    · exact found _ (.refl _)

theorem view_sightMissing {s : State} (hs : ViewLaw s) {i : Slot} (hg : ∀ r, s.source i = some r → r.state.group = .neither) :
    ViewLaw (s.sightMissing i) := by
  unfold State.sightMissing
  split
  · exact hs
  · next r h =>
    refine (same_post _ _).law (view_found hs h (hs.unlaned h (by rw [hg r h]; decide)) ?_ ?_ (.refl _)) <;> rfl

theorem view_sightSource {s : State} (hs : ViewLaw s) (i : Slot) : ViewLaw (s.sightSource i) := by
  unfold State.sightSource
  split
  · exact hs
  · next r h =>
    have g : ∀ {x : Group}, r.state.group = x → ∀ q, s.source i = some q → q.state.group = x := by
      intro x hx q hq
      rw [h] at hq; cases hq; exact hx
    split <;> rename_i e
    · exact view_adopt hs (g (by rw [e]; rfl))
    · split
      · exact view_sendHome hs i
      · exact view_adopt hs (g (by rw [e]; rfl))
    · split
      · exact view_sendHome hs i
      · exact view_adopt hs (g (by rw [e]; rfl))
    · split
      · exact view_sendHome hs i
      · exact view_adopt hs (g (by rw [e]; rfl))
    · unfold State.sightInbound
      split
      · exact view_endSighted hs _
      · exact hs
    · split
      · exact view_sendHome hs i
      · exact view_sightLane hs (g (by rw [e]; rfl))
    · split
      · exact view_sendHome hs i
      · exact view_sightLane hs (g (by rw [e]; rfl))
    · split
      · exact view_sendHome hs i
      · exact view_sightLane hs (g (by rw [e]; rfl))
    · split
      · exact view_sendHome hs i
      · exact view_sightLane hs (g (by rw [e]; rfl))
    · exact view_takeExit hs _
    · exact hs
    · exact hs
    · split
      · exact view_sendHome hs i
      · exact view_sightMissing hs (g (by rw [e]; rfl))

theorem view_armForeign {s : State} (hs : ViewLaw s) (place : Option Port) (reason : ForeignReason) (c : Code) :
    ViewLaw (s.armForeign place reason c) := by
  unfold State.armForeign
  split
  · next p =>
    have old := hs.at p
    exact hs.setPort ⟨old.lane, old.once, old.queue, fun _ h => by cases h⟩
  · exact hs

theorem view_divertDecision {s : State} (hs : ViewLaw s) (i : Slot) : ViewLaw (s.divertDecision i) := by
  unfold State.divertDecision
  split
  · exact hs
  · next r h =>
    split
    · next hi =>
      split
      · exact hs
      · split
        · exact (same_putSource h (by rfl) (by rfl)).law hs
        · split
          · have old := hs.at r.port
            refine hs.setPort ⟨old.lane, old.once, old.queue, fun j hj => ?_⟩
            cases hj
            rw [who_some h, Source.stand, hi]
            rfl
          · exact view_collide hs i
    · exact hs

theorem view_endForeignArm (c : Code) {s : State} (hs : ViewLaw s) (p : Port) : ViewLaw (s.endForeignArm c p) := by
  unfold State.endForeignArm
  split
  · split
    · exact view_endSighted hs p
    · exact hs
  · exact hs

theorem view_identify {s : State} (hs : ViewLaw s) (c : Code) : ViewLaw (s.identify c) := by
  unfold State.identify
  split
  · exact view_armForeign hs _ _ _
  · split
    · unfold State.sightUnknown
      split
      · exact (same_post _ _).law (view_armForeign hs _ _ _)
      · exact hs
    · split
      · exact view_divertDecision (view_sightSource hs _) _
      · exact (same_post _ _).law hs

theorem view_scannerRead {s : State} (hs : ViewLaw s) (c : Code) (time : Nat) : ViewLaw (s.scannerRead c time) := by
  unfold State.scannerRead
  split
  · have noted : ViewLaw { s with dupFilter := some { code := c, time := time } } :=
      (SameView.of (by rfl) (by rfl) : SameView s _).law hs
    simp only
    split
    · exact noted
    · exact view_identify (view_foldl _ (fun s p hs => view_endForeignArm c hs p) _ _ noted) c
  · exact hs

/-! ### The lane -/

theorem view_makeReady {s : State} (hs : ViewLaw s) {p q : Port} {i : Slot} (h : s.who i = some (q, .lane)) :
    ViewLaw (s.makeReady p i) := by
  unfold State.makeReady
  refine view_passHead ?_ p
  exact ((same_modifyPort (by rfl)).after (same_setState (f := fun r => { r with state := .ready }) h (fun r => ⟨rfl, rfl⟩))).law hs

/-- The head and another slot's entry exchanged: no slot but that one is listed more often, and it is listed once. -/
theorem count_exchangeHead (i j : Slot) (head : LaneEntry) (rest : List LaneEntry) (hh : head ≠ .slot i)
    (hi : rest.count (.slot i) ≤ 1) :
    (exchangeHead i (head :: rest)).count (.slot j) = if j = i then 1 else
      if head = .slot j then rest.count (.slot j) + rest.count (.slot i) else rest.count (.slot j) := by
  have key : ∀ l : List LaneEntry, (l.map (fun e => if e = .slot i then head else e)).count (.slot j)
      = if j = i then 0 else if head = .slot j then l.count (.slot j) + l.count (.slot i) else l.count (.slot j) := by
    intro l
    induction l with
    | nil => simp
    | cons e l ih =>
      rw [List.map_cons, List.count_cons, ih]
      simp only [List.count_cons]
      by_cases hj : j = i
      · subst hj
        by_cases he : e = .slot j
        · subst he; simp [hh]
        · simp [he]
      · by_cases he : e = .slot i
        · subst he
          by_cases hk : head = .slot j
          · subst hk; simp [hj, Ne.symm hj]; omega
          · simp [hj, hk, Ne.symm hj]
        · by_cases hk : head = .slot j
          · subst hk; simp [hj, he]; omega
          · simp [hj, hk, he]
  unfold exchangeHead
  rw [List.count_cons, key rest]
  by_cases hj : j = i
  · subst hj; simp
  · simp [hj, Ne.symm hj]

theorem same_stepBack {s : State} (hs : ViewLaw s) (p : Port) : SameView s (s.stepBack (s.port p).lane.head?) := by
  unfold State.stepBack
  split
  · next j hj =>
    cases hl : (s.port p).lane with
    | nil => rw [hl] at hj; cases hj
    | cons e rest =>
      rw [hl] at hj
      cases hj
      exact same_setState (f := fun r => { r with state := .laned }) (hs.listed hl) (fun r => ⟨rfl, rfl⟩)
  · exact .refl s

theorem view_verifyInLane {s : State} (hs : ViewLaw s) {p : Port} {i : Slot} (h : s.who i = some (p, .lane)) :
    ViewLaw (s.verifyInLane p i) := by
  unfold State.verifyInLane
  split
  · exact view_makeReady hs h
  · next hn =>
    have hv := same_stepBack hs p
    have hs' := hv.law hs
    have swapped : ViewLaw ((s.stepBack (s.port p).lane.head?).modifyPort p
        (fun q => { q with lane := exchangeHead i q.lane })) := by
      unfold State.modifyPort
      refine hs'.setLane (fun j hj => ?_) rfl rfl
      have el : ((s.stepBack (s.port p).lane.head?).port p).lane = (s.port p).lane := congrArg View.lane (hv.view p)
      simp only [el] at hj ⊢
      rw [hv.who j]
      cases hl : (s.port p).lane with
      | nil => rw [hl] at hj; simp [exchangeHead] at hj
      | cons head rest =>
        rw [hl] at hn hj
        have hne : head ≠ .slot i := fun e => hn (by rw [e]; rfl)
        have hc := fun k => (hs.at p).once k
        simp only [PortRec.view, hl, List.count_cons] at hc
        have hi := hc i
        have hcj := hc j
        have hir : rest.count (.slot i) ≤ 1 := by omega
        rw [count_exchangeHead i j head rest hne hir] at hj ⊢
        by_cases hj' : j = i
        · subst hj'
          rw [if_pos rfl]
          exact ⟨h, le_refl 1⟩
        · rw [if_neg hj'] at hj ⊢
          by_cases hk : head = .slot j
          · rw [if_pos hk] at hj ⊢
            subst hk
            refine ⟨hs.listed hl, ?_⟩
            simp at hcj
            omega
          · rw [if_neg hk] at hj ⊢
            refine ⟨(hs.at p).lane j ?_, by omega⟩
            show LaneEntry.slot j ∈ (s.port p).lane
            rw [hl]
            exact .tail _ (List.count_pos_iff.mp hj)
    exact view_makeReady swapped ((hv.who i).trans h)

theorem view_verifyFound {s : State} (hs : ViewLaw s) {p : Port} {i : Slot} {r : Source} (h : s.source i = some r)
    (hp : r.port = p) (hg : r.state.group ≠ .lane) : ViewLaw (s.verifyFound p i r) := by
  subst hp
  have hu := hs.unlaned h hg
  unfold State.verifyFound
  rw [dropArmOf_unqueue]
  have hport : ({ r.foundAtStop with state := SourceState.ready } : Source).port = r.port := by
    unfold Source.foundAtStop
    simp only
    split <;> rfl
  have hs' : ViewLaw ((s.putSource i { r.foundAtStop with state := .ready }).modifyPort r.port (PortRec.without i)) := by
    refine hs.moved h hu hport (.refl _) (without_view i) rfl (fun j => ?_) (fun j hj => ?_)
    · show j ∈ withoutSlot i _ ↔ _
      rw [mem_withoutSlot]
      split <;> simp_all [SourceState.group]
    · exact ⟨.inl (without_arm hj).1, (without_arm hj).2⟩
  have hw : ((s.putSource i { r.foundAtStop with state := .ready }).modifyPort r.port (PortRec.without i)).who i
      = some (r.port, .lane) := by
    show (s.putSource i { r.foundAtStop with state := .ready }).who i = _
    rw [who_putSource, if_pos rfl, Source.stand, hport]
    rfl
  have hu' : Unlaned ((s.putSource i { r.foundAtStop with state := .ready }).modifyPort r.port (PortRec.without i)) i := by
    intro q hq
    by_cases e : r.port = q
    · subst e
      rw [State.port_modifyPort_self] at hq
      exact hu _ hq
    · rw [State.port_modifyPort_of_ne _ e] at hq
      exact hu _ hq
  have taken := view_displaceHead hs' (p := r.port) (head := .slot i) (fun k e => by cases e; exact ⟨hw, hu'⟩)
  have hw2 := (who_displaceHead (head := .slot i) (hu' r.port)).trans hw
  simp only
  split
  · exact view_makeReady ((same_post _ _).law taken) (((same_post _ _).who i).trans hw2)
  · exact view_makeReady taken hw2

theorem view_foreignHead {s : State} (hs : ViewLaw s) (p : Port) (reason : ForeignReason) (c : Code) :
    ViewLaw (s.foreignHead p reason c) := view_displaceHead hs (leftLane_foreign s p reason c)

theorem view_verifyOwn {s : State} (hs : ViewLaw s) {p : Port} {i : Slot} {r : Source} (h : s.source i = some r)
    (hp : r.port = p) : ViewLaw (s.verifyOwn p i r) := by
  have hw : ∀ {g : Group}, r.state.group = g → s.who i = some (p, g) := fun e => by
    rw [who_some h, Source.stand, hp, e]
  unfold State.verifyOwn
  split <;> rename_i e
  · exact view_verifyInLane hs (hw (by rw [e]; rfl))
  · exact view_verifyInLane hs (hw (by rw [e]; rfl))
  · exact view_verifyInLane hs (hw (by rw [e]; rfl))
  · exact view_verifyInLane hs (hw (by rw [e]; rfl))
  · exact view_verifyInLane hs (hw (by rw [e]; rfl))
  · exact view_verifyFound hs h hp (by rw [e]; decide)
  · exact view_verifyFound hs h hp (by rw [e]; decide)
  · exact view_verifyFound hs h hp (by rw [e]; decide)
  · exact view_verifyFound hs h hp (by rw [e]; decide)
  · exact view_verifyFound hs h hp (by rw [e]; decide)
  · exact view_verifyFound hs h hp (by rw [e]; decide)
  · exact view_openStop (view_foreignHead hs _ _ _) p
  · exact view_openStop (view_foreignHead hs _ _ _) p

theorem view_verify {s : State} (hs : ViewLaw s) (p : Port) (c : Code) : ViewLaw (s.verify p c) := by
  have stray : ∀ o, ViewLaw (s.verifyStray p c o) := by
    intro o
    unfold State.verifyStray
    split
    · exact (same_modifyPort (by rfl)).law ((same_post _ _).law (view_foreignHead hs _ _ _))
    · exact view_openStop ((same_post _ _).law (view_foreignHead hs _ _ _)) p
  unfold State.verify
  split
  · unfold State.verifyService
    simp only
    split
    · exact (same_modifyPort (by rfl)).law (view_foreignHead hs _ _ _)
    · exact view_openStop (view_foreignHead hs _ _ _) p
  · split
    · exact stray _
    · split
      · exact stray _
      · next h =>
        split
        · next hp => exact view_verifyOwn hs h hp
        · exact view_openStop ((same_post _ _).law (view_foreignHead (view_sightSource hs _) _ _ _)) p

theorem view_failedRead {s : State} (hs : ViewLaw s) (p : Port) (attempt : Attempt) : ViewLaw (s.failedRead p attempt) := by
  unfold State.failedRead
  split
  · exact (same_modifyPort (by rfl)).law hs
  · refine view_openStop (SameView.law (s := s) ?_ hs) p
    refine .after ?_ (same_post s (.verifyFailed (s.headName p) p))
    unfold State.failHead
    split
    · refine same_modifySource (fun r _ => ?_)
      split <;> exact ⟨rfl, rfl⟩
    · exact .refl _

theorem view_laneFrame {s : State} (hs : ViewLaw s) (p : Port) (f : FrameClass) : ViewLaw (s.laneFrame p f) := by
  unfold State.laneFrame
  split
  · split
    · split
      · exact view_verify hs p _
      · exact view_failedRead hs p _
      · exact view_failedRead hs p _
      · exact view_failedRead hs p _
      · exact view_failedRead hs p _
    · exact hs
  all_goals exact hs

/-- A new last entry, which is a record of the port in a lane state and in no lane, or no record. -/
theorem ViewLaw.addLast {s : State} (hs : ViewLaw s) {p : Port} {e : LaneEntry} (he : LeftLane s p e) :
    ViewLaw (s.modifyPort p (fun q => { q with lane := q.lane ++ [e] })) := by
  refine hs.setLane (fun i hi => ?_) rfl rfl
  have h0 := (hs.at p).once i
  simp only [PortRec.view] at h0
  simp only [List.count_append, List.count_singleton] at hi ⊢
  by_cases h : e = .slot i
  · have h2 := List.count_eq_zero.mpr ((he i h).2 p)
    exact ⟨(he i h).1, by split <;> omega⟩
  · have h' : ¬ (e == LaneEntry.slot i) = true := by simpa using h
    rw [if_neg h'] at hi ⊢
    exact ⟨(hs.at p).lane i (List.count_pos_iff.mp (by simp only [PortRec.view]; omega)), by omega⟩

theorem view_consumeArm {s : State} (hs : ViewLaw s) {p : Port} {a : Arm} (h : (s.port p).arm = some a) :
    ViewLaw (s.consumeArm p a.item) := by
  have old := hs.at p
  unfold State.consumeArm
  cases e : a.item with
  | foreign reason c =>
    refine hs.setPort ⟨fun i hi => ?_, fun i => ?_, old.queue, fun _ h => by cases h⟩
    · simp only [PortRec.view, ArmItem.entry, List.mem_append, List.mem_singleton, reduceCtorEq, or_false] at hi
      exact old.lane i hi
    · simp only [PortRec.view, ArmItem.entry, List.count_append]
      have := old.once i
      simpa [PortRec.view] using this
  | slot i =>
    have hw : s.who i = some (p, .inbound) := old.arm i (by simp [PortRec.view, h, e])
    obtain ⟨r, hr, hp, hg⟩ := who_iff.mp hw
    subst hp
    have hu := hs.unlaned hr (by rw [hg]; decide)
    -- the record out of its queue view and its arm, then listed
    have moved : ViewLaw ((s.putSource i { r with state := .laned }).modifyPort r.port (PortRec.without i)) := by
      refine hs.moved hr hu (by rfl) (.refl _) (without_view i) rfl (fun j => ?_) (fun j hj => ?_)
      · show j ∈ withoutSlot i _ ↔ _
        rw [mem_withoutSlot]
        split <;> simp_all [SourceState.group]
      · exact ⟨.inl (without_arm hj).1, (without_arm hj).2⟩
    have listed := moved.addLast (p := r.port) (e := .slot i) (fun k hk => by
      cases hk
      refine ⟨?_, fun q hq => hu q ?_⟩
      · show (s.putSource i { r with state := .laned }).who i = _
        rw [who_putSource, if_pos rfl]; rfl
      · by_cases hne : r.port = q
        · subst hne
          rw [State.port_modifyPort_self] at hq
          exact hq
        · rw [State.port_modifyPort_of_ne _ hne] at hq
          exact hq)
    simp only [ArmItem.entry]
    rw [State.modifySource_of_some (show State.source (s.modifyPort r.port _) i = some r from hr)]
    refine SameView.law ?_ listed
    refine ⟨fun j => rfl, fun q => ?_⟩
    unfold State.unqueue State.modifyPort
    simp only [State.setPort_putSource, State.setPort_setPort, State.port_setPort_self, State.port_putSource]
    by_cases hq : r.port = q
    · subst hq
      rw [State.port_setPort_self, State.port_setPort_self]
      simp [PortRec.view, PortRec.without, h, e]
    · rw [State.port_setPort_of_ne _ hq, State.port_setPort_of_ne _ hq]

theorem view_takeEntry {s : State} (hs : ViewLaw s) (p : Port) : ViewLaw (s.takeEntry p) := by
  unfold State.takeEntry
  split
  · split
    · next h => exact view_consumeArm hs h
    · exact hs.addLast (e := .unidentified) (fun _ hk => nomatch hk)
  · exact view_raiseFault (view_withdrawArm hs p) p _

theorem view_takeSeatOn {s : State} (hs : ViewLaw s) (p : Port) : ViewLaw (s.takeSeatOn p) := by
  unfold State.takeSeatOn
  split
  · exact view_seatHead hs p
  · exact (same_modifyPort (by rfl)).law hs
  all_goals exact hs

theorem view_takeSeatOff {s : State} (hs : ViewLaw s) (p : Port) : ViewLaw (s.takeSeatOff p) := by
  unfold State.takeSeatOff
  split
  · exact (same_modifyPort (by rfl)).law hs
  · exact (same_modifyPort (by rfl)).law hs
  · exact (same_modifyPort (by rfl)).law hs
  · exact view_loseHead hs p _ _
  · exact view_loseHead hs p _ _
  · exact view_loseHead hs p _ _
  · exact hs

theorem view_takeExitEvent {s : State} (hs : ViewLaw s) (p : Port) : ViewLaw (s.takeExitEvent p) := by
  unfold State.takeExitEvent
  split
  · exact view_takeExit hs p
  · exact view_takeExit hs p
  · exact view_loseHead hs p _ _
  · exact view_loseHead hs p _ _
  · exact view_loseHead hs p _ _
  · exact hs
  · exact hs

theorem view_seatWaiting {s : State} (hs : ViewLaw s) (p : Port) : ViewLaw (s.seatWaiting p) := by
  unfold State.seatWaiting
  split
  · exact view_seatHead hs p
  · exact hs

/-! ### The supply link -/

/-- A queued record goes to the tail of its queue view. -/
theorem view_queueTail {s : State} {i : Slot} {r q : Source} (hs : ViewLaw s) (h : s.source i = some r)
    (hg : r.state.group = .queue) (hp : q.port = r.port) (hq : q.state.group = .queue) :
    ViewLaw ((s.putSource i q).queueTail r.port i) := by
  refine hs.moved h (hs.unlaned h (by rw [hg]; decide)) hp (.refl _) (fun x y hxy => ?_) rfl (fun j => ?_)
    (fun j hj => ⟨.inl (fun e => ?_), hj⟩)
  · simp only [PortRec.view, View.mk.injEq] at *
    obtain ⟨h1, h2, h3⟩ := hxy
    exact ⟨h1, by rw [h2], h3⟩
  · simp only [List.mem_append, List.mem_singleton, mem_withoutSlot]
    split <;> simp_all
  · subst e
    exact hs.unarmed (who_some h) (by rw [hg]; decide) _ hj

/-- A queued record goes to the head of the QUEUED part of its queue view. -/
theorem view_queueAhead {s : State} {i : Slot} {r q : Source} (hs : ViewLaw s) (h : s.source i = some r)
    (hg : r.state.group = .queue) (hp : q.port = r.port) (hq : q.state.group = .queue) :
    ViewLaw ((s.putSource i q).queueAhead r.port i) := by
  refine hs.moved h (hs.unlaned h (by rw [hg]; decide)) hp (.refl _) (fun x y hxy => ?_) rfl (fun j => ?_)
    (fun j hj => ⟨.inl (fun e => ?_), hj⟩)
  · simp only [PortRec.view, View.mk.injEq] at *
    obtain ⟨h1, h2, h3⟩ := hxy
    exact ⟨h1, by rw [h2], h3⟩
  · simp only [mem_insertAhead, mem_withoutSlot]
    split <;> simp_all
  · subst e
    exact hs.unarmed (who_some h) (by rw [hg]; decide) _ hj

theorem view_endFailedCall {s : State} (hs : ViewLaw s) {i : Slot} {r : Source} (h : s.source i = some r)
    (hg : r.state.group = .queue) : ViewLaw (s.endFailedCall i r) := by
  unfold State.endFailedCall
  split
  · exact view_retireSource hs _ _
  · exact view_queueTail hs h hg rfl rfl

theorem view_takeRelease {s : State} (hs : ViewLaw s) {i : Slot} {r : Source} (h : s.source i = some r)
    (hg : r.state.group = .queue) : ViewLaw (s.takeRelease i r) := by
  have hu := hs.unlaned h (by rw [hg]; decide)
  unfold State.takeRelease
  split
  · have hv : SameView s (s.putSource i r.giveBack) := same_putSource h rfl rfl
    exact view_enterReturning (hv.law hs) (hv.unlaned hu) _
  · refine hs.put h ?_ (.inr hu) ?_ (.inl ?_)
    · rfl
    · rw [hg]; exact iff_of_true (.inl rfl) (.inr rfl)
    · rfl

theorem view_acceptCall {s : State} (hs : ViewLaw s) {i : Slot} {r : Source} (h : s.source i = some r)
    (hg : r.state.group = .queue) : ViewLaw (s.acceptCall i r) := by
  unfold State.acceptCall
  split
  · exact (same_sendCancel _ _).law ((same_putSource h (by rfl) (by rw [hg]; rfl)).law hs)
  · exact (same_putSource h (by rfl) (by rw [hg]; rfl)).law hs

theorem view_takeHome {s : State} (hs : ViewLaw s) {i : Slot} {r : Source} (h : s.source i = some r)
    (hf : r.fitsTaken = true) : ViewLaw (s.takeHome i r) := by
  unfold State.takeHome
  split
  · exact view_retireSource hs _ _
  · next hn =>
    have hg : r.state.group = .queue := by
      unfold Source.fitsTaken at hf
      simp only [Bool.or_eq_true, decide_eq_true_eq] at hf
      rw [hf.resolve_left hn]; rfl
    split
    · exact view_retireSource hs _ _
    · split
      · exact view_retireSource hs _ _
      · simp only
        split
        · exact view_queueAhead hs h hg rfl rfl
        · exact view_queueTail hs h hg rfl rfl

theorem view_answer {s : State} (hs : ViewLaw s) (tag : Byte) (fits : Source → Bool) (act : State → Slot → Source → State)
    (h : ∀ i r, s.source i = some r → fits r = true → ViewLaw (act s i r)) : ViewLaw (s.answer tag fits act) := by
  unfold State.answer
  split
  · next r hr =>
    refine view_settle ?_
    unfold State.fitting at hr
    split at hr
    · next q hq =>
      split at hr
      · next hc => cases hr; exact h _ _ hq hc.2
      · cases hr
    · cases hr
  · exact (SameView.of (by rfl) (by rfl) : SameView s _).law hs

theorem view_takeMessage {s : State} (hs : ViewLaw s) (m : DispatcherMessage) : ViewLaw (s.takeMessage m) := by
  have group : ∀ {r : Source}, (r.state = .calling ∨ r.state = .called ∨ r.state = .cancelling) → r.state.group = .queue := by
    rintro r (e | e | e) <;> rw [e] <;> rfl
  unfold State.takeMessage
  split
  · refine view_answer hs _ _ _ (fun i r h hf => view_acceptCall hs h (group (.inl ?_)))
    simpa [Source.fitsAnswer] using hf
  · refine view_answer hs _ _ _ (fun i r h hf => ?_)
    have hg : r.state.group = .queue := group (.inl (by simpa [Source.fitsAnswer] using hf))
    unfold State.refuseCall
    split
    · exact view_endFailedCall hs h hg
    · exact view_endFailedCall hs h hg
    · exact view_retireSource hs _ _
  · refine view_answer hs _ _ _ (fun i r h hf => view_takeRelease hs h (group ?_))
    unfold Source.fitsReleased at hf
    simp only [Bool.or_eq_true, decide_eq_true_eq] at hf
    exact hf.elim .inl (fun e => .inr (.inl e))
  · refine view_answer hs _ _ _ (fun i r h hf => ?_)
    have hg : r.state.group = .queue := group (by
      unfold Source.fitsCancelResult at hf
      simp only [Bool.and_eq_true, decide_eq_true_eq] at hf
      exact .inr (.inr hf.1))
    unfold State.resolveCancel
    split
    · exact view_endFailedCall hs h hg
    · exact view_endFailedCall hs h hg
    · exact view_takeRelease hs h hg
  · exact view_answer hs _ _ _ (fun i r h hf => view_takeHome hs h hf)

theorem same_setSupply (s : State) (x : SupplyLink) : SameView s (s.setSupply x) := .of rfl rfl

theorem view_takeSupplyByte {s : State} (hs : ViewLaw s) (b : SerialByte) : ViewLaw (s.takeSupplyByte b) := by
  unfold State.takeSupplyByte
  simp only
  split
  · exact (same_setSupply _ _).law hs
  · exact (same_setSupply _ _).law hs
  · exact view_takeMessage ((same_setSupply _ _).law hs) _

theorem view_takeSupplyBytes {s : State} (hs : ViewLaw s) (bs : List SerialByte) : ViewLaw (s.takeSupplyBytes bs) :=
  view_foldl _ (fun _ b h => view_takeSupplyByte h b) bs s hs

theorem view_expireCallWindow {s : State} (hs : ViewLaw s) (i : Slot) : ViewLaw (s.expireCallWindow i) := by
  unfold State.expireCallWindow
  split
  · exact hs
  · next h =>
    split
    · next hc =>
      exact view_settle ((same_sendCancel _ _).law ((same_putSource h (by rfl) (by rw [hc.1]; rfl)).law hs))
    · exact hs

theorem view_expireCancelWindow {s : State} (hs : ViewLaw s) (i : Slot) : ViewLaw (s.expireCancelWindow i) := by
  unfold State.expireCancelWindow
  split
  · exact hs
  · next r h =>
    split
    · next hc =>
      have he := view_endFailedCall hs h (by rw [hc.1]; rfl)
      refine view_settle ?_
      unfold State.courtesyReturn
      split
      · split
        · exact (same_transmit _ _).law he
        · exact he
      · exact he
    · exact hs

theorem same_producePass (s : State) (f : PassFrame) : SameView s (s.producePass f) := by
  unfold State.producePass
  split
  · exact same_sendCancel _ _
  · exact (same_setSupply _ _).after (same_sendReturn _ _)

theorem view_endPass {s : State} (hs : ViewLaw s) : ViewLaw s.endPass := view_settle ((same_setSupply _ _).law hs)

theorem view_beginPass {s : State} (hs : ViewLaw s) : ViewLaw s.beginPass := by
  have begun : SameView s (({ s with meets := none } : State).setPass (some 0)) := .of rfl rfl
  unfold State.beginPass
  simp only
  split
  · exact view_endPass (((SameView.foldl _ same_producePass _ _).after begun).law hs)
  · exact ((SameView.foldl _ same_producePass _ _).after begun).law hs

theorem view_whenLive {s : State} (hs : ViewLaw s) {f : State → State} (h : ViewLaw (f s)) : ViewLaw (s.whenLive f) := by
  unfold State.whenLive
  split
  · exact hs
  · exact h

theorem view_idle {s : State} (hs : ViewLaw s) : ViewLaw s.idle := by
  refine view_whenLive hs ?_
  split
  · exact hs
  · split
    · split
      · exact view_endPass hs
      · exact (same_producePass _ _).law hs
    · exact hs

/-! ### The readers -/

theorem same_countFrame (s : State) (c : Channel) (bad : Bool) : SameView s (s.countFrame c bad) := by
  unfold State.countFrame
  simp only
  split
  · exact (same_postIf _ _).after (same_setReader _ _ _)
  · exact same_setReader _ _ _

theorem view_completeFrame {s : State} (hs : ViewLaw s) (c : Channel) (bytes : List Byte) (time : Nat) :
    ViewLaw (s.completeFrame c bytes time) := by
  have hr : ViewLaw (s.modifyReader c (fun r => { r with receiver := .hunting })) := (same_setReader _ _ _).law hs
  unfold State.completeFrame
  refine view_settle ((same_countFrame _ _ _).law (view_settle ?_))
  unfold State.handOn
  split
  · split
    · exact view_scannerRead hr _ _
    all_goals exact hr
  · exact view_laneFrame hr _ _

theorem view_takeReaderByte {s : State} (hs : ViewLaw s) (c : Channel) (time : Nat) (b : Byte) :
    ViewLaw (s.takeReaderByte c time b) := by
  unfold State.takeReaderByte
  split
  · exact hs
  · exact hs
  · simp only
    split
    · exact (same_setReader _ _ _).law hs
    · exact view_completeFrame hs _ _ _

theorem view_discardFrame {s : State} (hs : ViewLaw s) (c : Channel) (after : ReaderReceiver) :
    ViewLaw (s.discardFrame c after) :=
  view_settle (((same_countFrame _ _ _).after (same_setReader _ _ _)).law hs)

/-! ### The stations -/

theorem same_pickerInput (s : State) (st : Station) : SameView s (s.pickerInput st) := same_setStation _ _ _

theorem same_expireAttendance (s : State) (st : Station) : SameView s (s.expireAttendance st) := by
  unfold State.expireAttendance
  simp only
  split
  · exact .refl s
  · split
    · exact (same_postIf _ _).after (same_setStation _ _ _)
    · exact same_setStation _ _ _

theorem same_resolveCurrent {s : State} (hs : ViewLaw s) (st : Station) (dest : LineState) :
    SameView s (s.resolveCurrent st dest) := by
  unfold State.resolveCurrent
  split
  · exact .refl s
  · split
    · exact .refl s
    · next r h =>
      split
      · exact .refl s
      · next k _ =>
        have hv : SameView s (s.putSource _ { r with lines := setLine r.lines k dest }) := same_putSource h rfl rfl
        exact (same_chooseLine (hv.law hs) st).after hv

theorem same_pressPut {s : State} (hs : ViewLaw s) (u : Position) : SameView s (s.pressPut u) := by
  unfold State.pressPut
  simp only
  split
  · exact same_resolveCurrent hs _ _
  · exact same_post _ _

theorem same_holdSet (s : State) (st : Station) : SameView s (s.holdSet st) := by
  unfold State.holdSet
  split
  · split
    · exact same_enterHeld _ _ _
    · exact same_setStation _ _ _
  all_goals exact .refl s

theorem same_holdClear (s : State) (st : Station) : SameView s (s.holdClear st) := by
  unfold State.holdClear
  split
  · exact same_setStation _ _ _
  all_goals exact .refl s

theorem same_followRequest (s : State) (st : Station) (before : Bool) : SameView s (s.followRequest st before) := by
  unfold State.followRequest
  split
  · exact same_holdSet _ _
  · exact same_holdClear _ _
  · exact .refl s
  · exact .refl s

theorem same_resume (s : State) (st : Station) : SameView s (s.resume st) := by
  unfold State.resume
  split
  · split
    · exact same_setStation _ _ _
    · exact same_setStation _ _ _
  all_goals exact .refl s

theorem view_orderGone {s : State} (hs : ViewLaw s) (u : Position) : ViewLaw (s.orderGone u) := by
  unfold State.orderGone
  split
  · exact hs
  · split
    · exact hs
    · next h =>
      split
      · exact view_settle ((same_refreshLines hs
          ((same_post _ _).after ((same_moveLinesFor _ _ _ _).after (same_putOrder h)))).law hs)
      · exact hs

theorem view_orderBack {s : State} (hs : ViewLaw s) (u : Position) : ViewLaw (s.orderBack u) := by
  unfold State.orderBack
  split
  · exact hs
  · split
    · exact hs
    · next h =>
      split
      · exact view_settle (((same_post _ _).after ((same_moveLinesFor _ _ _ _).after (same_putOrder h))).law hs)
      · exact hs

/-! ### The requests -/

/-- A reply in a state stands in that state. -/
theorem view_reply {t : State} (h : ViewLaw t) (status : Status) (result : List Byte) :
    ViewLaw (t.reply status result).state := h

theorem view_replyPort {t : State} (h : ViewLaw t) (p : Port) : ViewLaw (t.replyPort p).state := h

theorem view_replyBench {t : State} (h : ViewLaw t) : ViewLaw t.replyBench.state := h

theorem view_whenConfigured {s : State} (hs : ViewLaw s) {x : Reply} (h : ViewLaw x.state) :
    ViewLaw (s.whenConfigured x).state := by
  unfold State.whenConfigured
  split
  · exact hs
  · exact h

theorem view_onSource {s : State} (hs : ViewLaw s) (slot : Byte) {act : Slot → Source → Reply}
    (h : ∀ i r, s.source i = some r → ViewLaw (act i r).state) : ViewLaw (s.onSource slot act).state := by
  unfold State.onSource
  refine view_whenConfigured hs ?_
  split
  · exact hs
  · split
    · exact hs
    · exact hs
    · next hr => exact h _ _ (State.source_eq_some.mpr hr)

theorem view_amendRecord {s : State} (hs : ViewLaw s) {i : Slot} {r : Source} (h : s.source i = some r)
    (cancels : List Byte) (adds : List LineArg) : ViewLaw (s.amendRecord i r cancels adds).state := by
  unfold State.amendRecord
  split
  · exact hs
  · split
    · exact hs
    · split
      · exact hs
      · simp only
        split
        · exact hs
        · exact (same_putSource h (by rfl) (by rfl)).law hs

theorem view_withdrawByState {s : State} (hs : ViewLaw s) {i : Slot} {r : Source} (h : s.source i = some r) :
    ViewLaw (s.withdrawByState i r) := by
  have marked : SameView s (s.putSource i r.withdrawn) := same_putSource h rfl rfl
  unfold State.withdrawByState
  split <;> rename_i e
  · exact view_retireSource (marked.law hs) _ _
  · exact marked.law hs
  · exact marked.law hs
  · exact (same_putSource h (by rfl) (by rfl)).law hs
  · exact view_enterReturning (marked.law hs) (marked.unlaned (hs.unlaned h (by rw [e]; decide))) _
  · exact (same_putSource h (by rfl) (by rfl)).law hs
  · exact (same_putSource h (by rfl) (by rfl)).law hs
  · exact view_passHead ((same_putSource h (by rfl) (by rfl)).law hs) _
  · exact view_openStop ((same_putSource h (by rfl) (by rfl)).law hs) _
  · exact view_retireSource (marked.law hs) _ _
  · exact (same_putSource h (by rfl) (by rfl)).law hs
  · exact hs
  · exact hs

theorem view_withdrawRecord {s : State} (hs : ViewLaw s) {i : Slot} {r : Source} (h : s.source i = some r) :
    ViewLaw (s.withdrawRecord i r).state := by
  unfold State.withdrawRecord
  split
  · exact hs
  · split
    · refine view_reply (view_settle ?_) _ _
      unfold State.withdrawExpired
      split
      · exact view_retireSource hs _ _
      · exact view_retireSource hs _ _
      · exact hs
    · split
      · exact hs
      · exact view_reply (view_settle (view_withdrawByState hs h)) _ _

theorem same_retireOrder (s : State) (i : Slot) (cause : RetireCause) (n : Nat) : SameView s (s.retireOrder i cause n) := by
  unfold State.retireOrder
  split
  · exact .refl s
  · next r h =>
    refine (same_setSlot ?_).after (same_post _ _)
    rw [(same_post _ _).who, who_of_not_source (fun q hq => ?_)]
    rw [State.order_eq_some.mp h] at hq
    cases hq

theorem view_closeRecord {s : State} (hs : ViewLaw s) (i : Slot) : ViewLaw (s.closeRecord i) := by
  unfold State.closeRecord
  exact view_settle (((same_retireOrder _ _ _ _).after (same_refreshLines hs (same_moveLinesFor _ _ _ _))).law hs)

theorem view_cmdCloseOrder {s : State} (hs : ViewLaw s) (slot force : Byte) : ViewLaw (cmdCloseOrder slot force s).state := by
  unfold cmdCloseOrder
  refine view_whenConfigured hs ?_
  split
  · split
    · exact hs
    · exact hs
    · split
      · exact hs
      · exact view_reply (view_closeRecord hs _) _ _
  · exact hs

/-- A record created in a FREE slot and put in its port's queue view. -/
theorem view_createSource {s : State} (hs : ViewLaw s) {i : Slot} {r : Source} (h : s.record i = none)
    (hq : r.state.group = .queue) {f : PortRec → PortRec} (hl : ∀ q, (f q).lane = q.lane) (ha : ∀ q, (f q).arm = q.arm)
    (hf : ∀ j, j ∈ (f (s.port r.port)).queue ↔ j = i ∨ j ∈ (s.port r.port).queue) :
    ViewLaw ((s.create i (.source r)).modifyPort r.port f) := by
  have old := hs.at r.port
  have no : s.who i = none := who_of_not_source (fun q hq => by rw [h] at hq; cases hq)
  have hw : ∀ j, ((s.create i (.source r)).modifyPort r.port f).who j = if i = j then some r.stand else s.who j :=
    fun j => who_putSource s i j r
  refine hs.change (i := i) (p := r.port) ?_ ?_ ?_ ?_ ?_
  · intro p g e; rw [no] at e; cases e
  · intro p g e; rw [hw, if_pos rfl] at e; cases e; rfl
  · intro j hj; rw [hw, if_neg (Ne.symm hj)]
  · intro p hp; rw [State.port_modifyPort_of_ne _ (Ne.symm hp)]; rfl
  · rw [State.port_modifyPort_self]
    have e : (s.create i (.source r)).port r.port = s.port r.port := rfl
    rw [e]
    refine ⟨fun j hj => ?_, fun j => ?_, fun j => ?_, fun j hj => ?_⟩
    · simp only [PortRec.view, hl] at hj
      have := old.lane j hj
      rw [hw]
      split
      · next e => subst e; rw [no] at this; cases this
      · exact this
    · simp only [PortRec.view, hl]; exact old.once j
    · refine (hf j).trans ?_
      rw [hw]
      split
      · next e => subst e; simp [Source.stand, hq]
      · next e => exact ⟨fun x => (old.queue j).mp (x.resolve_left (Ne.symm e)), fun x => .inr ((old.queue j).mpr x)⟩
    · simp only [PortRec.view, ha] at hj
      have := old.arm j hj
      rw [hw]
      split
      · next e => subst e; rw [no] at this; cases this
      · exact this

theorem view_admitSource {s : State} (hs : ViewLaw s) {i : Slot} {r : Source} (h : s.record i = none)
    (hq : r.state.group = .queue) : ViewLaw (s.admitSource i r.port r).state := by
  have no : i ∉ (s.port r.port).queue := by
    intro hi
    have e : s.who i = none := who_of_not_source (fun q hq => by rw [h] at hq; cases hq)
    rcases ((hs.at r.port).queue i).mp hi with h | h <;> (rw [e] at h; cases h)
  unfold State.admitSource
  refine view_reply (view_settle ?_) _ _
  split
  · refine view_createSource hs h hq (fun _ => rfl) (fun _ => rfl) (fun j => ?_)
    simp only [mem_insertAhead, mem_withoutSlot]
    by_cases e : j = i <;> simp [e]
  · refine view_createSource hs h hq (fun _ => rfl) (fun _ => rfl) (fun j => ?_)
    simp only [List.mem_append, List.mem_singleton, mem_withoutSlot]
    by_cases e : j = i <;> simp [e]

theorem view_cmdSubmitSource {s : State} (hs : ViewLaw s) (code : Code) (cls : Byte) (exposure : BitVec 16) (station : Byte)
    (lines : List LineArg) : ViewLaw (cmdSubmitSource code cls exposure station lines s).state := by
  unfold cmdSubmitSource
  refine view_whenConfigured hs ?_
  split
  · split
    · unfold State.submitChecked
      split
      · exact hs
      · split
        · exact hs
        · split
          · exact hs
          · next hi =>
            split
            · split
              · exact hs
              · simp only
                split
                · exact hs
                · exact view_admitSource hs (r := s.newSource _ _ _ _ _ _) (nextFree_free hi) rfl
            · exact hs
    · exact hs
  · exact hs

theorem view_cmdBindOrder {s : State} (hs : ViewLaw s) (code : Code) (cls : Byte) (exposure : BitVec 16) (position : Byte) :
    ViewLaw (cmdBindOrder code cls exposure position s).state := by
  unfold cmdBindOrder
  refine view_whenConfigured hs ?_
  split
  · split
    · unfold State.bindChecked
      split
      · exact hs
      · split
        · exact hs
        · split
          · exact hs
          · next i hi =>
            split
            · exact hs
            · split
              · have e : s.who i = none := who_of_not_source (fun q hq => by rw [nextFree_free hi] at hq; cases hq)
                exact ((SameView.of (by rfl) (by rfl)).after
                  (same_setSlot (x := some (.order (s.newOrder _ _ _ _))) e.symm)).law hs
              · exact hs
    · exact hs
  · exact hs

theorem view_portCommand {s : State} (hs : ViewLaw s) (port : Byte) {act : Port → Reply}
    (h : ∀ p, ViewLaw (act p).state) : ViewLaw (s.portCommand port act).state := by
  unfold State.portCommand
  refine view_whenConfigured hs ?_
  split
  · exact hs
  · exact h _

theorem same_setMode (s : State) (p : Port) (m : PortMode) : SameView s (s.setMode p m) := same_modifyPort rfl

theorem same_restartChain {s : State} (hs : ViewLaw s) (p : Port) : SameView s (s.restartChain p) := by
  have reading : SameView s (s.modifyPort p (fun q => q.startRead .first)) := same_modifyPort rfl
  unfold State.restartChain
  split
  · simp only
    split
    · next i _ hl =>
      split
      · next r h =>
        refine (same_endPresentationOf _ _ _).after (.after (same_putSource (r := r) h ?_ ?_) reading)
        · rfl
        · rw [(who_group (hs.listed hl) h).2]; rfl
      · exact reading
    · exact reading
  · exact .refl s

theorem view_openPort {s : State} (hs : ViewLaw s) (p : Port) : ViewLaw (s.openPort p).state := by
  have opened := (same_setMode s p .isOpen).law hs
  have again := view_settle ((same_restartChain opened p).law opened)
  unfold State.openPort
  split
  · exact view_replyPort again p
  · exact view_replyPort again p
  · exact hs
  · exact hs

theorem view_closePort {s : State} (hs : ViewLaw s) (p : Port) : ViewLaw (s.closePort p).state := by
  unfold State.closePort
  split
  · exact view_replyPort (view_settle ((same_setMode s p .closing).law hs)) p
  all_goals exact hs

theorem view_ackFault {s : State} (hs : ViewLaw s) (p : Port) : ViewLaw (s.ackFault p).state := by
  unfold State.ackFault
  split
  · exact hs
  · split
    · refine view_replyPort (SameView.law (same_modifyPort ?_) hs) p
      rfl
    · exact hs

theorem view_stationCommand {s : State} (hs : ViewLaw s) (station : Byte) {act : State → Station → State}
    (h : ∀ st, SameView s (act s st)) : ViewLaw (s.stationCommand station act).state := by
  unfold State.stationCommand
  split
  · exact hs
  · exact view_reply (view_settle ((h _).law hs)) _ _

/-- A state whose table and ports are those after a reset. -/
theorem view_empty {s : State} (h : s.slots = State.reset.slots) (hp : s.ports = State.reset.ports) : ViewLaw s := by
  refine (SameView.of h hp).law ?_
  have no : ∀ i, State.reset.who i = none := by
    intro i
    refine who_of_not_source (fun r hr => ?_)
    have e : State.reset.record i = none := by
      show (Vector.replicate 64 none)[i.val] = none
      simp
    rw [e] at hr; cases hr
  have port : ∀ p, State.reset.port p = PortRec.reset := by
    intro p
    show (Vector.replicate 4 PortRec.reset)[p.val] = _
    simp
  rw [viewLaw_iff]
  intro p
  rw [port]
  refine ⟨fun _ h => (nomatch h), fun _ => Nat.zero_le 1, fun i => ?_, fun _ h => (nomatch h)⟩
  rw [no]
  simp [PortRec.view, PortRec.reset]

theorem view_readLevels {s : State} (hs : ViewLaw s) : ViewLaw s.readLevels := by
  have pause : ∀ t st, SameView t (t.readPause st) := by
    intro t st
    unfold State.readPause
    split
    · exact same_holdSet _ _
    · exact .refl t
  refine view_settle (view_foldl _ (fun t p ht => ?_) _ _ (((pause _ .b).after (pause s .a)).law hs))
  unfold State.readLocal
  split
  · exact view_takeLocalControl ht p
  · exact ht

theorem view_afterReset (s : State) (held : Bool) : ViewLaw (s.afterReset held) := view_empty rfl rfl

theorem same_reconfigured (s : State) (k : Configuration) : SameView s (s.reconfigured k) := by
  have limited : ∀ t : State, SameView t (t.mapSlots (limitAttempts k.divertLimit)) := by
    intro t
    refine same_mapSlots t (fun o => ?_)
    match o with
    | none => rfl
    | some (.order r) => rfl
    | some (.source r) => rfl
  have held : SameView s (({ s with config := k, bench := s.bench.afterConfigure } : State).mapSlots
      (limitAttempts k.divertLimit)) := (limited _).after (.of rfl rfl)
  unfold State.reconfigured
  simp only
  split
  · exact held
  · exact .after (.of (by rfl) (by rfl)) held

theorem view_applyConfig {s : State} (hs : ViewLaw s) (k : Configuration) : ViewLaw (s.applyConfig k) := by
  refine view_foldl _ (fun t i ht => ?_) _ _ ((same_reconfigured s k).law hs)
  unfold State.examineWhole
  split
  · exact ht
  · split
    · exact ht
    · exact view_settle (view_examine ht i)

theorem view_act (r : Request) {s : State} (hs : ViewLaw s) : ViewLaw (act r s).state := by
  have run : ViewLaw s.run := (SameView.of (by rfl) (by rfl) : SameView s _).law hs
  unfold act
  split
  · unfold cmdConfigure
    split
    · exact hs
    · split
      · exact hs
      · exact view_replyBench (view_applyConfig hs _)
  · unfold cmdStart
    split
    · exact hs
    · exact hs
    · exact view_replyBench (view_settle (view_foldl _ (fun t p ht => view_seatWaiting ht p) _ _ run))
    · exact view_replyBench (view_settle run)
  · unfold cmdHalt
    split
    · exact (SameView.of (by rfl) (by rfl) : SameView s _).law hs
    all_goals exact hs
  · unfold cmdClearBench
    split
    · exact hs
    · exact hs
    · exact view_replyBench (view_readLevels (view_empty rfl rfl))
    · exact view_replyBench (view_readLevels (view_empty rfl rfl))
  · exact hs
  · exact hs
  · exact view_cmdSubmitSource hs _ _ _ _ _
  · exact view_cmdBindOrder hs _ _ _ _
  · exact view_onSource hs _ (fun i r h => view_amendRecord hs h _ _)
  · exact view_onSource hs _ (fun i r h => view_withdrawRecord hs h)
  · exact view_cmdCloseOrder hs _ _
  · unfold cmdReadRecord
    split
    · exact hs
    · split <;> exact hs
  · unfold cmdFindTote
    split
    · split
      · exact hs
      · split <;> exact hs
    · exact hs
  · exact view_portCommand hs _ (view_openPort hs)
  · exact view_portCommand hs _ (view_closePort hs)
  · exact view_portCommand hs _ (view_ackFault hs)
  · unfold cmdListPort
    split <;> exact hs
  · unfold cmdReleaseService
    split
    · exact hs
    · split
      · exact view_reply (view_settle (view_openStop hs _)) _ _
      · exact hs
  · exact view_stationCommand hs _ (fun st => (same_followRequest _ _ _).after (same_setStation _ _ _))
  · exact view_stationCommand hs _ (fun st => (same_followRequest _ _ _).after (same_setStation _ _ _))
  · exact view_stationCommand hs _ (fun st => same_resume s st)
  · unfold cmdReadNotices
    split
    · exact (SameView.of (by rfl) (by rfl) : SameView s _).law hs
    · exact hs
  · exact hs

/-! ### The commands -/

theorem same_setLink (s : State) (x : CommandLink) : SameView s (s.setLink x) := .of rfl rfl

theorem same_setInputs (s : State) (x : Inputs) : SameView s (s.setInputs x) := .of rfl rfl

theorem view_takeRequest {s : State} (hs : ViewLaw s) (r : Request) : ViewLaw (s.takeRequest r) := by
  have on : ∀ {t : State}, ViewLaw t → ViewLaw (t.actOn r) := fun ht => (same_setLink _ _).law (view_act r ht)
  unfold State.takeRequest
  split
  · exact on ((same_setLink _ _).law hs)
  · split
    · exact on hs
    · exact (same_setLink _ _).law hs
  · exact on ((same_setLink _ _).law ((same_setLink _ _).law hs))

theorem view_takeFrame {s : State} (hs : ViewLaw s) (mosi : List Byte) : ViewLaw (s.takeFrame mosi) := by
  unfold State.takeFrame
  split
  · split
    · exact ((same_setLink _ _).after (same_setLink _ _)).law hs
    · exact ((same_setLink _ _).after (same_setLink _ _)).law hs
  · exact (same_setLink _ _).law hs
  · exact (same_setLink _ _).law hs

/-- Every command keeps the law of the views. -/
theorem view_exec {c : Instr} {s t : State} (hs : ViewLaw s) (h : exec c s = .next t) : ViewLaw t := by
  have request : ∀ r, ViewLaw (s.whenLive (fun s => s.takeRequest r)) := fun r => view_whenLive hs (view_takeRequest hs r)
  have line : ∀ (x : Inputs) (f : State → State), (∀ u, ViewLaw u → ViewLaw (f u)) → ViewLaw ((s.setInputs x).whenLive f) :=
    fun x f hf => view_whenLive ((same_setInputs s x).law hs) (hf _ ((same_setInputs s x).law hs))
  have message : ∀ m, ViewLaw (s.whenLive (fun s => (s.setReceiver .hunting).takeMessage m)) :=
    fun m => view_whenLive hs (view_takeMessage ((same_setSupply s _).law hs) m)
  have gap : ∀ {u : State}, ViewLaw u → ViewLaw u.supplyGap := by
    intro u hu
    unfold State.supplyGap
    split
    · exact (same_setSupply _ _).law hu
    · exact hu
  cases c with
  | hardwareReset held =>
    cases h
    split
    · exact view_afterReset s true
    · exact view_readLevels (view_afterReset s false)
  | resetNRelease =>
    cases h
    split
    · exact view_readLevels (view_afterReset s false)
    · exact hs
  | csNFall =>
    cases h
    refine view_whenLive hs ?_
    split
    · exact hs
    · exact (same_setLink _ _).law hs
  | csNRise mosi =>
    cases h
    refine view_whenLive hs ?_
    split
    · exact hs
    · simp only
      split
      · exact view_takeFrame ((same_setLink _ _).law hs) _
      · exact (same_setLink _ _).law hs
  | responsePlaced =>
    cases h
    refine view_whenLive hs ?_
    split
    · exact hs
    · exact (same_setLink _ _).law (view_act _ hs)
    · exact (same_setLink _ _).law hs
  | configure args => cases h; exact request _
  | start => cases h; exact request _
  | halt => cases h; exact request _
  | clearBench => cases h; exact request _
  | readConfig => cases h; exact request _
  | readStatus => cases h; exact request _
  | submitSource code cls exposure station lines => cases h; exact request _
  | bindOrder code cls exposure position => cases h; exact request _
  | amendLines slot cancels adds => cases h; exact request _
  | withdraw slot => cases h; exact request _
  | closeOrder slot force => cases h; exact request _
  | readRecord slot => cases h; exact request _
  | findTote code => cases h; exact request _
  | openPort port => cases h; exact request _
  | closePort port => cases h; exact request _
  | ackFault port => cases h; exact request _
  | listPort port => cases h; exact request _
  | releaseService port => cases h; exact request _
  | holdStation station => cases h; exact request _
  | releaseHold station => cases h; exact request _
  | resumeStation station => cases h; exact request _
  | readNotices most => cases h; exact request _
  | readReaderStats => cases h; exact request _
  | supplyReadyRise =>
    cases h
    refine line _ _ (fun u hu => ?_)
    split
    · exact hu
    · exact view_beginPass hu
  | supplyReadyFall => cases h; exact (same_setInputs _ _).law hs
  | accepted tag => cases h; exact message _
  | refused tag reason => cases h; exact message _
  | released tag => cases h; exact message _
  | cancelResult tag outcome => cases h; exact message _
  | taken tag => cases h; exact message _
  | badSupplyFrame bytes => cases h; exact view_whenLive hs (view_takeSupplyBytes hs _)
  | supplyIdleGapTimeout bytes => cases h; exact view_whenLive hs (gap (view_takeSupplyBytes hs _))
  | callWindowExpiry i => cases h; exact view_whenLive hs (view_expireCallWindow hs i)
  | cancelWindowExpiry i => cases h; exact view_whenLive hs (view_expireCancelWindow hs i)
  | readerMarker c =>
    cases h
    refine view_whenLive hs ?_
    split
    · exact view_discardFrame hs _ _
    · exact (same_setReader _ _ _).law hs
    · exact (same_setReader _ _ _).law hs
  | readerRuntTimeout c =>
    cases h
    refine view_whenLive hs ?_
    split
    · exact view_discardFrame hs _ _
    · exact hs
    · exact hs
  | readerStopBitError c =>
    cases h
    refine view_whenLive hs ?_
    split
    · exact view_discardFrame hs _ _
    · exact hs
    · exact hs
  | readerFrame c bytes time =>
    cases h
    exact view_whenLive hs (view_foldl _ (fun _ b hu => view_takeReaderByte hu c time b) bytes s hs)
  | confirmWindowExpiry p => cases h; exact view_whenLive hs (view_settle (view_endUnconfirmed hs p))
  | entryEvent p =>
    cases h
    refine view_whenLive hs ?_
    split
    · exact view_settle (view_takeEntry hs p)
    · exact hs
  | seatOn p =>
    cases h
    refine line _ _ (fun u hu => ?_)
    split
    · exact view_settle (view_takeSeatOn hu p)
    · exact hu
  | seatOff p =>
    cases h
    refine line _ _ (fun u hu => ?_)
    split
    · exact view_settle (view_takeSeatOff hu p)
    · exact hu
  | readWindowExpiry p =>
    cases h
    refine view_whenLive hs ?_
    split
    · exact view_settle (view_failedRead hs p _)
    all_goals exact hs
  | readerExitEvent p =>
    cases h
    refine view_whenLive hs ?_
    split
    · exact view_settle (view_takeExitEvent hs p)
    · exact hs
  | exitWindowExpiry p =>
    cases h
    refine view_whenLive hs ?_
    split
    · exact view_settle (view_raiseFault ((same_modifyPort (by rfl)).law hs) p _)
    · exact hs
  | localControlAssert p =>
    cases h
    refine line _ _ (fun u hu => ?_)
    split
    · exact hu
    · exact view_settle (view_takeLocalControl hu p)
  | localControlDeassert p =>
    cases h
    refine line _ _ (fun u hu => ?_)
    split
    · exact view_settle (view_seatWaiting hu p)
    · exact hu
  | presenceOff u =>
    cases h
    refine line _ _ (fun v hv => ?_)
    split
    · exact view_orderGone hv u
    · exact hv
  | presenceOn u =>
    cases h
    refine line _ _ (fun v hv => ?_)
    split
    · exact hv
    · exact view_orderBack hv u
  | putButton u =>
    cases h
    refine view_whenLive hs (view_settle ?_)
    have hv := (same_pickerInput s (positionStation u)).law hs
    split
    · exact (same_pressPut hv u).law hv
    · exact hv
  | shortButton st =>
    cases h
    refine view_whenLive hs (view_settle ?_)
    have hv := (same_pickerInput s st).law hs
    split
    · exact (same_resolveCurrent hv st _).law hv
    · exact hv
  | pauseSwitchChange st =>
    cases h
    have toggled : SameView s (s.togglePause st) := by cases st <;> exact same_setInputs _ _
    exact view_whenLive (toggled.law hs)
      (view_settle (((same_followRequest _ _ _).after ((same_pickerInput _ _).after toggled)).law hs))
  | attendanceWindowExpiry st => cases h; exact view_whenLive hs (view_settle ((same_expireAttendance s st).law hs))
  | exposureTick i => cases h; exact view_whenLive hs ((same_modifyTote _ _ _).law hs)
  | warnThresholdReached i =>
    cases h
    refine view_whenLive hs ?_
    split
    · exact (same_warnRecord s i).law hs
    · exact hs
  | budgetReached i =>
    cases h
    refine view_whenLive hs ?_
    split
    · exact view_settle (view_examine hs i)
    · exact hs
  | supplyFrameTransmitted => cases h; exact view_whenLive hs ((same_setSupply _ _).law hs)

end Sys2Proof.Machine
end

