-- ==== Sys2Proof/Laws/Scene.lean ====
section
/-! SUPPORT. What the laws of the lane lists, the stops and the presentations read of a state (`Scene`), their law over it
(`Scene.Law`), and the changes of a scene that keep the law: an entry taken from a lane list or put into one, a head in a
new state at a new stop, a record that leaves the lanes, a presentation that begins or ends. -/

namespace Sys2Proof.Machine

/-! ### The scene -/

/-- What the laws read of a record: its port and state while it is in a lane state, and whether it has a current line in
another state than PRESENTED. -/
structure Mark where
  spot : Option (Port × SourceState)
  stray : Bool

/-- The mark of a slot without a record in a lane. -/
def Mark.off : Mark := { spot := none, stray := false }

/-- The mark of a record in a lane state, without a current line that it may not have. -/
def Mark.on (p : Port) (st : SourceState) : Mark := { spot := some (p, st), stray := false }

/-- The mark of a source record. -/
def Source.mark (r : Source) : Mark where
  spot := if r.state.inLane then some (r.port, r.state) else none
  stray := decide (r.state ≠ .presented) && r.current.isSome

/-- What the laws of the lanes read of a state. -/
structure Scene where
  mark : Slot → Mark
  lane : Port → List LaneEntry
  stop : Port → Stop
  shown : Station → Option Slot
  working : Station → Option Port

theorem Scene.same {x y : Scene} (hm : ∀ i, x.mark i = y.mark i) (hl : ∀ p, x.lane p = y.lane p)
    (hv : ∀ p, x.stop p = y.stop p) (hs : ∀ st, x.shown st = y.shown st) (hw : ∀ st, x.working st = y.working st) : x = y := by
  cases x; cases y
  simp only [Scene.mk.injEq]
  exact ⟨funext hm, funext hl, funext hv, funext hs, funext hw⟩

/-- The mark of a slot. -/
def State.mark (s : State) (i : Slot) : Mark := (s.source i).elim .off Source.mark

/-- The scene of a state. -/
def State.scene (s : State) : Scene where
  mark := s.mark
  lane p := (s.port p).lane
  stop p := (s.port p).stop
  shown st := (s.station st).presentation
  working st := (s.station st).workingPort

def Scene.setMark (x : Scene) (i : Slot) (m : Mark) : Scene := { x with mark := fun j => if i = j then m else x.mark j }

def Scene.setLane (x : Scene) (p : Port) (l : List LaneEntry) : Scene :=
  { x with lane := fun q => if p = q then l else x.lane q }

def Scene.setStop (x : Scene) (p : Port) (v : Stop) : Scene := { x with stop := fun q => if p = q then v else x.stop q }

def Scene.setShown (x : Scene) (st : Station) (o : Option Slot) : Scene :=
  { x with shown := fun u => if st = u then o else x.shown u }

def Scene.setWorking (x : Scene) (st : Station) (o : Option Port) : Scene :=
  { x with working := fun u => if st = u then o else x.working u }

/-- The presentation of a slot ends, wherever it stands. -/
def Scene.hide (x : Scene) (i : Slot) : Scene := { x with shown := fun u => if x.shown u = some i then none else x.shown u }

/-! ### The law of a scene -/

/-- The head that a stop has (R93, R97). -/
def HeadFits (x : Scene) (p : Port) (v : Stop) : List LaneEntry → Prop
  | [] => v = .vacant ∨ v = .leaving
  | .slot i :: _ => ∃ st, (x.mark i).spot = some (p, st) ∧ v.heads st = true
  | .unidentified :: _ => v ≠ .verified ∧ v ≠ .holding
  | .foreign reason _ :: _ => v ≠ .verified ∧ (v = .holding → reason = .captured ∨ reason = .service)

/-- The law of a lane list (R30, R93, R97), beside entries that have left it and are not yet dealt with. -/
structure LaneFits (x : Scene) (loose : List LaneEntry) (p : Port) : Prop where
  head : HeadFits x p (x.stop p) (x.lane p)
  behind : ∀ i, LaneEntry.slot i ∈ (x.lane p).tail → (x.mark i).spot = some (p, .laned)
  once : ∀ i, (x.lane p).count (.slot i) ≤ 1
  listed : ∀ i st, (x.mark i).spot = some (p, st) → LaneEntry.slot i ∈ x.lane p ∨ LaneEntry.slot i ∈ loose
  clear : ∀ i, LaneEntry.slot i ∈ x.lane p → LaneEntry.slot i ∉ loose

/-- The law of a station's presentation (R111). -/
structure ShowFits (x : Scene) (st : Station) : Prop where
  shown : ∀ i, x.shown st = some i →
    ∃ p, (x.mark i).spot = some (p, .presented) ∧ portStation p = st ∧ x.working st = some p
  only : ∀ i p, (x.mark i).spot = some (p, .presented) → portStation p = st → x.shown st = some i

/-- The law of a scene, beside entries that have left their lane list and are not yet dealt with. -/
structure Scene.Law (x : Scene) (loose : List LaneEntry) : Prop where
  lanes : ∀ p, LaneFits x loose p
  shows : ∀ st, ShowFits x st
  straight : ∀ i, (x.mark i).stray = false

theorem LaneFits.spotted {x : Scene} {loose : List LaneEntry} {p : Port} (h : LaneFits x loose p) {i : Slot}
    (hi : LaneEntry.slot i ∈ x.lane p) : ∃ st, (x.mark i).spot = some (p, st) := by
  have hh := h.head
  cases hl : x.lane p with
  | nil => rw [hl] at hi; cases hi
  | cons e rest =>
    rw [hl] at hi hh
    rcases List.mem_cons.mp hi with rfl | hi
    · obtain ⟨st, hst, _⟩ := hh
      exact ⟨st, hst⟩
    · exact ⟨_, h.behind i (by rw [hl]; exact hi)⟩

theorem mark_spot {s : State} {i : Slot} {p : Port} {st : SourceState} :
    (s.mark i).spot = some (p, st) ↔ ∃ r, s.source i = some r ∧ r.port = p ∧ r.state = st ∧ st.inLane = true := by
  unfold State.mark Source.mark Mark.off
  cases h : s.source i with
  | none => simp
  | some r =>
    simp only [Option.elim_some, Option.some.injEq, exists_eq_left']
    split
    · simp_all
      intro _ e; rw [← e]; assumption
    · simp_all
      intro _ e; rw [← e]; assumption

/-- The law of a scene, in the words of the laws of a state. -/
theorem Scene.Law.of_laws {s : State} (hv : ViewLaw s) (hl : ListedLaw s) (ht : StopLaw s) (hp : PresentationLaw s) :
    s.scene.Law [] := by
  have atLane : ∀ p i, LaneEntry.slot i ∈ (s.port p).lane → ∃ r, s.source i = some r ∧ r.port = p ∧
      (s.mark i).spot = some (p, r.state) := by
    intro p i hi
    obtain ⟨r, hr, h1, h2⟩ := hv.lane p i hi
    exact ⟨r, hr, h1, mark_spot.mpr ⟨r, hr, h1, rfl, h2⟩⟩
  refine ⟨fun p => ⟨?_, ?_, hv.once p, ?_, fun _ _ h => nomatch h⟩, fun st => ⟨?_, ?_⟩, ?_⟩
  · show HeadFits s.scene p (s.port p).stop (s.port p).lane
    cases h : (s.port p).lane with
    | nil => exact ht.empty p h
    | cons e rest =>
      have nv : e = .unidentified ∨ (∃ a c, e = .foreign a c) → (s.port p).stop ≠ .verified := by
        rintro he hs
        obtain ⟨i, l, hi⟩ := ht.verified p hs
        rw [h] at hi
        cases hi
        rcases he with he | ⟨_, _, he⟩ <;> cases he
      cases e with
      | slot i =>
        obtain ⟨r, hr, _, hm⟩ := atLane p i (by rw [h]; exact .head _)
        exact ⟨r.state, hm, ht.head p i rest r h hr⟩
      | unidentified =>
        refine ⟨nv (.inl rfl), fun hs => ?_⟩
        obtain ⟨a, c, l, hi, _⟩ := ht.holding p hs
        rw [h] at hi; cases hi
      | foreign reason c =>
        refine ⟨nv (.inr ⟨_, _, rfl⟩), fun hs => ?_⟩
        obtain ⟨a, c, l, hi, ha⟩ := ht.holding p hs
        rw [h] at hi; cases hi
        exact ha
  · intro i hi
    have hi : LaneEntry.slot i ∈ (s.port p).lane.tail := hi
    cases h : (s.port p).lane with
    | nil => rw [h] at hi; cases hi
    | cons e rest =>
      rw [h] at hi
      obtain ⟨r, hr, _, hm⟩ := atLane p i (by rw [h]; exact .tail _ hi)
      rw [← ht.behind p e rest i r h hi hr]
      exact hm
  · intro i st hi
    obtain ⟨r, hr, h1, h2, h3⟩ := mark_spot.mp hi
    exact .inl (h1 ▸ hl i r hr (h2 ▸ h3))
  · intro i hi
    obtain ⟨r, rest, hr, h1, h2, h3, _⟩ := hp.shown st i hi
    exact ⟨r.port, mark_spot.mpr ⟨r, hr, rfl, h1, rfl⟩, h2, h3⟩
  · intro i p hi hst
    obtain ⟨r, hr, h1, h2, _⟩ := mark_spot.mp hi
    subst h1 hst
    exact hp.only i r hr h2
  · intro i
    show (s.mark i).stray = false
    unfold State.mark Source.mark Mark.off
    cases h : s.source i with
    | none => rfl
    | some r =>
      simp only [Option.elim_some]
      by_cases hr : r.state = .presented
      · simp [hr]
      · simp [hp.current i r h hr]

/-- The laws of a state, from that of its scene. -/
theorem Scene.Law.laws {s : State} (h : s.scene.Law []) : ListedLaw s ∧ StopLaw s ∧ PresentationLaw s := by
  have listed : ListedLaw s := by
    intro i r hr hl
    rcases (h.lanes r.port).listed i r.state (mark_spot.mpr ⟨r, hr, rfl, rfl, hl⟩) with hi | hi
    · exact hi
    · cases hi
  have stateOf : ∀ {i p st r}, (s.mark i).spot = some (p, st) → s.source i = some r → r.port = p ∧ r.state = st := by
    intro i p st r hm hr
    obtain ⟨q, hq, h1, h2, _⟩ := mark_spot.mp hm
    rw [hr] at hq; cases hq
    exact ⟨h1, h2⟩
  have head := fun p => (show HeadFits s.scene p (s.port p).stop (s.port p).lane from (h.lanes p).head)
  refine ⟨listed, ⟨?_, ?_, ?_, ?_, ?_⟩, ⟨?_, ?_, ?_⟩⟩
  · intro p i rest r hl hr
    have hh := head p
    rw [hl] at hh
    obtain ⟨st, hm, hst⟩ := hh
    rw [(stateOf hm hr).2]
    exact hst
  · intro p e rest i r hl hi hr
    exact (stateOf ((h.lanes p).behind i (by show _ ∈ (s.port p).lane.tail; rw [hl]; exact hi)) hr).2
  · intro p hl
    have hh := head p
    rw [hl] at hh
    exact hh
  · intro p hv
    have hh := head p
    rw [hv] at hh
    cases hl : (s.port p).lane with
    | nil => rw [hl] at hh; rcases hh with hh | hh <;> cases hh
    | cons e rest =>
      rw [hl] at hh
      cases e with
      | slot i => exact ⟨i, rest, rfl⟩
      | unidentified => exact absurd rfl hh.1
      | foreign reason c => exact absurd rfl hh.1
  · intro p hv
    have hh := head p
    rw [hv] at hh
    cases hl : (s.port p).lane with
    | nil => rw [hl] at hh; rcases hh with hh | hh <;> cases hh
    | cons e rest =>
      rw [hl] at hh
      cases e with
      | slot i => obtain ⟨_, _, hh⟩ := hh; cases hh
      | unidentified => exact absurd rfl hh.2
      | foreign reason c => exact ⟨reason, c, rest, rfl, hh.2 rfl⟩
  · intro st i hi
    obtain ⟨p, hm, hp, hw⟩ := (h.shows st).shown i hi
    obtain ⟨r, hr, h1, h2, h3⟩ := mark_spot.mp hm
    subst h1
    refine ⟨r, (s.port r.port).lane.tail, hr, h2, hp, hw, ?_⟩
    have hi := listed i r hr (h2 ▸ h3)
    cases hl : (s.port r.port).lane with
    | nil => rw [hl] at hi; cases hi
    | cons e rest =>
      rw [hl] at hi
      rcases List.mem_cons.mp hi with rfl | hi
      · rfl
      · have := (h.lanes r.port).behind i (by show _ ∈ (s.port r.port).lane.tail; rw [hl]; exact hi)
        have hm : (s.scene.mark i).spot = _ := hm
        rw [this] at hm
        cases hm
  · intro i r hr hst
    exact (h.shows (portStation r.port)).only i r.port (mark_spot.mpr ⟨r, hr, rfl, hst, rfl⟩) rfl
  · intro i r hr hst
    have hs : (s.mark i).stray = false := h.straight i
    unfold State.mark Source.mark at hs
    rw [hr] at hs
    simpa [hst] using hs

/-! ### The changes that keep the law -/

/-- A change at one port, of slots that stand there or nowhere, with what follows at its station. -/
theorem Scene.Law.change {x y : Scene} {l m : List LaneEntry} {p : Port} (h : x.Law l)
    (marks : ∀ i, y.mark i = x.mark i ∨
      ((∀ q st, (x.mark i).spot = some (q, st) → q = p) ∧ ∀ q st, (y.mark i).spot = some (q, st) → q = p))
    (lane : ∀ q, q ≠ p → y.lane q = x.lane q ∧ y.stop q = x.stop q)
    (loose : ∀ q, q ≠ p → ∀ i st, (x.mark i).spot = some (q, st) → (LaneEntry.slot i ∈ m ↔ LaneEntry.slot i ∈ l))
    (show_ : ∀ st, st ≠ portStation p → y.shown st = x.shown st ∧ y.working st = x.working st)
    (here : LaneFits y m p) (station : ShowFits y (portStation p)) (straight : ∀ i, (y.mark i).stray = false) : y.Law m := by
  have same : ∀ q, q ≠ p → ∀ i st, (y.mark i).spot = some (q, st) ↔ (x.mark i).spot = some (q, st) := by
    intro q hq i st
    rcases marks i with e | ⟨h1, h2⟩
    · rw [e]
    · exact ⟨fun e => absurd (h2 _ _ e) hq, fun e => absurd (h1 _ _ e) hq⟩
  refine ⟨fun q => ?_, fun st => ?_, straight⟩
  · by_cases hq : q = p
    · subst hq; exact here
    · obtain ⟨hl, ht⟩ := lane q hq
      have old := h.lanes q
      refine ⟨?_, fun i hi => ?_, fun i => by rw [hl]; exact old.once i, fun i st hi => ?_, fun i hi => ?_⟩
      · have hh := old.head
        rw [hl, ht]
        cases he : x.lane q with
        | nil => rw [he] at hh; exact hh
        | cons e rest =>
          rw [he] at hh
          cases e with
          | slot i =>
            obtain ⟨st, hm, hst⟩ := hh
            exact ⟨st, (same q hq i st).mpr hm, hst⟩
          | unidentified => exact hh
          | foreign reason c => exact hh
      · rw [hl] at hi
        exact (same q hq i _).mpr (old.behind i hi)
      · have hi := (same q hq i st).mp hi
        rw [hl]
        rcases old.listed i st hi with ho | ho
        · exact .inl ho
        · exact .inr ((loose q hq i st hi).mpr ho)
      · rw [hl] at hi
        obtain ⟨st, hst⟩ := old.spotted hi
        exact fun hm => old.clear i hi ((loose q hq i st hst).mp hm)
  · by_cases hst : st = portStation p
    · subst hst; exact station
    · obtain ⟨h1, h2⟩ := show_ st hst
      have old := h.shows st
      refine ⟨fun i hi => ?_, fun i q hi hq => ?_⟩
      · obtain ⟨q, hm, hq, hw⟩ := old.shown i (h1 ▸ hi)
        have hne : q ≠ p := by rintro rfl; exact hst hq.symm
        exact ⟨q, (same q hne i _).mpr hm, hq, h2 ▸ hw⟩
      · have hne : q ≠ p := by rintro rfl; exact hst hq.symm
        rw [h1]
        exact old.only i q ((same q hne i _).mp hi) hq

/-- At a stop without a seated head every record of the lane list is LANED. -/
theorem LaneFits.laned {x : Scene} {l : List LaneEntry} {p : Port} (h : LaneFits x l p)
    (hv : x.stop p = .vacant ∨ x.stop p = .leaving) {i : Slot} (hi : LaneEntry.slot i ∈ x.lane p) :
    (x.mark i).spot = some (p, .laned) := by
  have hh := h.head
  have hb := h.behind i
  cases hl : x.lane p with
  | nil => rw [hl] at hi; cases hi
  | cons e rest =>
    rw [hl] at hi hh hb
    rcases List.mem_cons.mp hi with rfl | hi
    · obtain ⟨st, hm, hst⟩ := hh
      rcases hv with hv | hv <;> rw [hv] at hst <;> simp [Stop.heads] at hst <;> rw [hm, hst]
    · exact hb hi

/-- A list of LANED records, and entries without one, at a stop without a seated head. -/
theorem headFits_laned {x : Scene} {p : Port} {v : Stop} (hv : v = .vacant ∨ v = .leaving) {l : List LaneEntry}
    (h : ∀ i, LaneEntry.slot i ∈ l → (x.mark i).spot = some (p, .laned)) : HeadFits x p v l := by
  cases l with
  | nil => exact hv
  | cons e rest =>
    cases e with
    | slot i => exact ⟨_, h i (.head _), by rcases hv with hv | hv <;> rw [hv] <;> rfl⟩
    | unidentified => rcases hv with hv | hv <;> rw [hv] <;> exact ⟨nofun, nofun⟩
    | foreign reason c => rcases hv with hv | hv <;> rw [hv] <;> exact ⟨nofun, nofun⟩

theorem HeadFits.congr {x y : Scene} {p : Port} {v : Stop} {l : List LaneEntry} (h : HeadFits x p v l)
    (hm : ∀ i, l.head? = some (.slot i) → (y.mark i).spot = (x.mark i).spot) : HeadFits y p v l := by
  cases l with
  | nil => exact h
  | cons e rest =>
    cases e with
    | slot i =>
      obtain ⟨st, h1, h2⟩ := h
      exact ⟨st, (hm i rfl).trans h1, h2⟩
    | unidentified => exact h
    | foreign reason c => exact h

/-- The station of a port sees what it saw, where its presentation and the marks of PRESENTED records are as they were. -/
theorem ShowFits.same {x y : Scene} {st : Station} (h : ShowFits x st) (h1 : y.shown st = x.shown st)
    (h2 : y.working st = x.working st)
    (h3 : ∀ i p, (y.mark i).spot = some (p, .presented) ↔ (x.mark i).spot = some (p, .presented)) : ShowFits y st := by
  refine ⟨fun i hi => ?_, fun i p hi hp => ?_⟩
  · obtain ⟨p, hm, hp, hw⟩ := h.shown i (h1 ▸ hi)
    exact ⟨p, (h3 i p).mpr hm, hp, h2 ▸ hw⟩
  · rw [h1]; exact h.only i p ((h3 i p).mp hi) hp

/-- A stop goes to a state that its head fits. -/
theorem Scene.Law.restop {x : Scene} {l : List LaneEntry} (h : x.Law l) (p : Port) {v : Stop}
    (hv : HeadFits x p v (x.lane p)) : (x.setStop p v).Law l := by
  have old := h.lanes p
  refine h.change (p := p) (fun _ => .inl rfl) (fun q hq => ⟨rfl, if_neg (Ne.symm hq)⟩) (fun _ _ _ _ _ => Iff.rfl)
    (fun _ _ => ⟨rfl, rfl⟩) ⟨?_, old.behind, old.once, old.listed, old.clear⟩ ⟨(h.shows _).shown, (h.shows _).only⟩ h.straight
  show HeadFits _ p (if p = p then v else x.stop p) (x.lane p)
  rw [if_pos rfl]
  exact hv

/-- The head leaves its lane list, the stop without a seated head. -/
theorem Scene.Law.pop {x : Scene} {l : List LaneEntry} (h : x.Law l) {p : Port} {e : LaneEntry} {rest : List LaneEntry}
    (hl : x.lane p = e :: rest) {v : Stop} (hv : v = .vacant ∨ v = .leaving) :
    ((x.setLane p rest).setStop p v).Law (e :: l) := by
  have old := h.lanes p
  have hb := old.behind
  have ho := old.once
  have hi := old.listed
  have hc := old.clear
  rw [hl] at hb ho hi hc
  have hlane : ((x.setLane p rest).setStop p v).lane p = rest := if_pos rfl
  have hstop : ((x.setLane p rest).setStop p v).stop p = v := if_pos rfl
  refine h.change (p := p) (fun _ => .inl rfl) (fun q hq => ⟨if_neg (Ne.symm hq), if_neg (Ne.symm hq)⟩)
    (fun q hq i st hs => ?_) (fun _ _ => ⟨rfl, rfl⟩) ⟨?_, ?_, ?_, ?_, ?_⟩ ⟨(h.shows _).shown, (h.shows _).only⟩ h.straight
  · refine ⟨fun hm => ?_, fun hm => .tail _ hm⟩
    rcases List.mem_cons.mp hm with rfl | hm
    · obtain ⟨st', hm⟩ := old.spotted (i := i) (by rw [hl]; exact .head _)
      rw [hs] at hm; cases hm
      exact absurd rfl hq
    · exact hm
  · rw [hlane, hstop]
    exact headFits_laned hv hb
  · rw [hlane]; exact fun i hi => hb i (List.mem_of_mem_tail hi)
  · rw [hlane]; exact fun i => (List.Sublist.count_le _ (List.sublist_cons_self e rest)).trans (ho i)
  · rw [hlane]
    intro i st him
    rcases hi i st him with hm | hm
    · rcases List.mem_cons.mp hm with rfl | hm
      · exact .inr (.head _)
      · exact .inl hm
    · exact .inr (.tail _ hm)
  · rw [hlane]
    intro i him hm
    rcases List.mem_cons.mp hm with rfl | hm
    · have := ho i
      have := List.count_pos_iff.mpr him
      simp only [List.count_cons_self] at *
      omega
    · exact hc i (.tail _ him) hm

/-- A lane list is emptied, the stop VACANT. -/
theorem Scene.Law.popAll {x : Scene} {l : List LaneEntry} (h : x.Law l) (p : Port) :
    ((x.setLane p []).setStop p .vacant).Law (x.lane p ++ l) := by
  have old := h.lanes p
  have hlane : ((x.setLane p []).setStop p .vacant).lane p = [] := if_pos rfl
  have hstop : ((x.setLane p []).setStop p .vacant).stop p = .vacant := if_pos rfl
  refine h.change (p := p) (fun _ => .inl rfl) (fun q hq => ⟨if_neg (Ne.symm hq), if_neg (Ne.symm hq)⟩)
    (fun q hq i st hi => ?_) (fun _ _ => ⟨rfl, rfl⟩) ⟨?_, ?_, ?_, ?_, ?_⟩ ⟨(h.shows _).shown, (h.shows _).only⟩ h.straight
  · refine ⟨fun hm => ?_, fun hm => List.mem_append_right _ hm⟩
    rcases List.mem_append.mp hm with hm | hm
    · obtain ⟨st', hm⟩ := old.spotted hm
      rw [hi] at hm; cases hm
      exact absurd rfl hq
    · exact hm
  · rw [hlane, hstop]; exact .inl rfl
  · rw [hlane]; exact fun i hi => nomatch hi
  · rw [hlane]; exact fun i => Nat.zero_le 1
  · rw [hlane]
    intro i st him
    rcases old.listed i st him with hm | hm
    · exact .inr (List.mem_append_left _ hm)
    · exact .inr (List.mem_append_right _ hm)
  · rw [hlane]; exact fun i hi => nomatch hi

/-- An entry that is in no list comes to the head of a lane list whose stop has no seated head, at a stop it fits. -/
theorem Scene.Law.push {x : Scene} {l : List LaneEntry} {e : LaneEntry} (h : x.Law (e :: l)) {p : Port}
    (hp : x.stop p = .vacant) (he : ∀ i, e = .slot i → LaneEntry.slot i ∉ l) {v : Stop} (hv : HeadFits x p v [e]) :
    ((x.setLane p (e :: x.lane p)).setStop p v).Law l := by
  have old := h.lanes p
  have hlane : ((x.setLane p (e :: x.lane p)).setStop p v).lane p = e :: x.lane p := if_pos rfl
  have hstop : ((x.setLane p (e :: x.lane p)).setStop p v).stop p = v := if_pos rfl
  have own : ∀ i, e = .slot i → ∃ st, (x.mark i).spot = some (p, st) := by
    rintro i rfl
    obtain ⟨st, hm, _⟩ := hv
    exact ⟨st, hm⟩
  refine h.change (p := p) (fun _ => .inl rfl) (fun q hq => ⟨if_neg (Ne.symm hq), if_neg (Ne.symm hq)⟩)
    (fun q hq i st hi => ?_) (fun _ _ => ⟨rfl, rfl⟩) ⟨?_, ?_, ?_, ?_, ?_⟩ ⟨(h.shows _).shown, (h.shows _).only⟩ h.straight
  · refine ⟨fun hm => .tail _ hm, fun hm => ?_⟩
    rcases List.mem_cons.mp hm with e' | hm
    · obtain ⟨st', hm⟩ := own i e'.symm
      rw [hi] at hm; cases hm
      exact absurd rfl hq
    · exact hm
  · rw [hlane, hstop]
    cases e with
    | slot i => exact hv
    | unidentified => exact hv
    | foreign reason c => exact hv
  · rw [hlane]; exact fun i hi => old.laned (.inl hp) hi
  · rw [hlane]
    intro i
    rw [List.count_cons]
    split
    · next h' =>
      have h' : e = .slot i := by simpa using h'
      have : (x.lane p).count (.slot i) = 0 := List.count_eq_zero.mpr (fun hi => old.clear i hi (h' ▸ .head _))
      omega
    · exact old.once i
  · rw [hlane]
    intro i st him
    rcases old.listed i st him with hm | hm
    · exact .inl (.tail _ hm)
    · rcases List.mem_cons.mp hm with e' | hm
      · exact .inl (e' ▸ .head _)
      · exact .inr hm
  · rw [hlane]
    intro i him hm
    rcases List.mem_cons.mp him with e' | him
    · exact he i e'.symm hm
    · exact old.clear i him (.tail _ hm)

/-- The head is dealt with at its stop: its record in another state, PRESENTED no more, the stop in one that the state fits. -/
theorem Scene.Law.restate {x : Scene} {l : List LaneEntry} (h : x.Law l) {p : Port} {i : Slot} {rest : List LaneEntry}
    (hl : x.lane p = .slot i :: rest) {st : SourceState} {v : Stop} (hv : v.heads st = true) (hst : st ≠ .presented) :
    (((x.setMark i (.on p st)).setStop p v).hide i).Law l := by
  have old := h.lanes p
  have hb := old.behind
  have ho := old.once
  have hi := old.listed
  rw [hl] at hb ho hi
  obtain ⟨st0, hm0⟩ := old.spotted (i := i) (by rw [hl]; exact .head _)
  have hmark : ∀ j, (((x.setMark i (.on p st)).setStop p v).hide i).mark j = if i = j then .on p st else x.mark j :=
    fun j => rfl
  have hstop : (((x.setMark i (.on p st)).setStop p v).hide i).stop p = v := if_pos rfl
  have hlane : ∀ q, (((x.setMark i (.on p st)).setStop p v).hide i).lane q = x.lane q := fun _ => rfl
  refine h.change (p := p) (fun j => ?_) (fun q hq => ⟨rfl, if_neg (Ne.symm hq)⟩) (fun _ _ _ _ _ => Iff.rfl)
    (fun u hu => ⟨?_, rfl⟩) ⟨?_, ?_, ?_, ?_, old.clear⟩ ⟨?_, ?_⟩ ?_
  · by_cases e : i = j
    · subst e
      refine .inr ⟨fun q _ hq => by rw [hm0] at hq; cases hq; rfl, fun q _ hq => ?_⟩
      rw [hmark, if_pos rfl] at hq; cases hq; rfl
    · rw [hmark, if_neg e]; exact .inl rfl
  · show (if x.shown u = some i then none else x.shown u) = x.shown u
    rw [if_neg]
    intro hs
    obtain ⟨q, hm, hq, _⟩ := (h.shows u).shown i hs
    rw [hm0] at hm; cases hm
    exact hu hq.symm
  · rw [hlane, hstop, hl]
    exact ⟨st, by rw [hmark, if_pos rfl]; rfl, hv⟩
  · rw [hlane, hl]
    intro j hj
    have hne : ¬ i = j := by
      rintro rfl
      have := ho i
      have := List.count_pos_iff.mpr hj
      simp only [List.count_cons_self, List.tail_cons] at *
      omega
    rw [hmark, if_neg hne]
    exact hb j hj
  · rw [hlane, hl]; exact ho
  · rw [hlane, hl]
    intro j st' hj
    rw [hmark] at hj
    split at hj
    · next e => subst e; exact .inl (.head _)
    · exact hi j st' hj
  · intro j hj
    have hj : (if x.shown (portStation p) = some i then none else x.shown (portStation p)) = some j := hj
    split at hj
    · cases hj
    · next hn =>
      obtain ⟨q, hm, hq⟩ := (h.shows _).shown j hj
      have hne : ¬ i = j := by rintro rfl; exact hn hj
      exact ⟨q, by rw [hmark, if_neg hne]; exact hm, hq⟩
  · intro j q hj hq
    rw [hmark] at hj
    split at hj
    · cases hj; exact absurd rfl hst
    · next hne =>
      have := (h.shows _).only j q hj hq
      show (if x.shown (portStation p) = some i then none else x.shown (portStation p)) = some j
      rw [if_neg, this]
      rw [this]
      rintro e; cases e; exact hne rfl
  · intro j
    rw [hmark]
    split
    · rfl
    · exact h.straight j

theorem Scene.setMark_self {x : Scene} {i : Slot} {m : Mark} (h : x.mark i = m) : x.setMark i m = x := by
  unfold Scene.setMark
  congr 1
  funext j
  split
  · next e => subst e; exact h.symm
  · rfl

theorem Scene.setMark_setMark (x : Scene) (i : Slot) (m n : Mark) : (x.setMark i m).setMark i n = x.setMark i n := by
  unfold Scene.setMark
  congr 1
  funext j
  by_cases e : i = j
  · simp only [if_pos e]
  · simp only [if_neg e]

theorem Scene.hide_self {x : Scene} {i : Slot} (h : ∀ st, x.shown st ≠ some i) : x.hide i = x := by
  unfold Scene.hide
  congr 1
  funext st
  rw [if_neg (h st)]

/-- A record without a spot is no presentation. -/
theorem Scene.Law.unshown {x : Scene} {l : List LaneEntry} (h : x.Law l) {i : Slot}
    (hi : ∀ p, (x.mark i).spot ≠ some (p, .presented)) (st : Station) : x.shown st ≠ some i := by
  intro hs
  obtain ⟨p, hm, _⟩ := (h.shows st).shown i hs
  exact hi p hm

/-- A record that has left its lane list leaves the lane states. -/
theorem Scene.Law.drop {x : Scene} {l : List LaneEntry} {i : Slot} (h : x.Law (.slot i :: l)) :
    ((x.setMark i .off).hide i).Law l := by
  have hmark : ∀ j, ((x.setMark i .off).hide i).mark j = if i = j then .off else x.mark j := fun j => rfl
  have clear : ∀ p, LaneEntry.slot i ∉ x.lane p := fun p hi => (h.lanes p).clear i hi (.head _)
  have other : ∀ {j p st}, (((x.setMark i .off).hide i).mark j).spot = some (p, st) → i ≠ j ∧ (x.mark j).spot = some (p, st) := by
    intro j p st hj
    rw [hmark] at hj
    split at hj
    · cases hj
    · next hne => exact ⟨hne, hj⟩
  refine ⟨fun p => ?_, fun st => ⟨fun j hj => ?_, fun j p hj hp => ?_⟩, fun j => ?_⟩
  · have old := h.lanes p
    have keep : ∀ j, LaneEntry.slot j ∈ x.lane p → (((x.setMark i .off).hide i).mark j).spot = (x.mark j).spot := by
      intro j hj
      rw [hmark, if_neg]
      rintro rfl
      exact clear p hj
    refine ⟨old.head.congr (fun j hj => keep j (List.mem_of_mem_head? hj)), fun j hj => ?_, old.once, fun j st hj => ?_,
      fun j hj hm => old.clear j hj (.tail _ hm)⟩
    · rw [keep j (List.mem_of_mem_tail hj)]; exact old.behind j hj
    · obtain ⟨hne, hj⟩ := other hj
      rcases old.listed j st hj with hm | hm
      · exact .inl hm
      · rcases List.mem_cons.mp hm with e | hm
        · cases e; exact absurd rfl hne
        · exact .inr hm
  · have hj : (if x.shown st = some i then none else x.shown st) = some j := hj
    split at hj
    · cases hj
    · next hn =>
      obtain ⟨p, hm, hp⟩ := (h.shows st).shown j hj
      have hne : ¬ i = j := by rintro rfl; exact hn hj
      exact ⟨p, by rw [hmark, if_neg hne]; exact hm, hp⟩
  · obtain ⟨hne, hj⟩ := other hj
    have hs := (h.shows st).only j p hj hp
    show (if x.shown st = some i then none else x.shown st) = some j
    rw [if_neg, hs]
    rw [hs]
    rintro e; cases e; exact hne rfl
  · rw [hmark]
    split
    · rfl
    · exact h.straight j

/-- A record that has left its lane list, PRESENTED no more, leaves the lane states. -/
theorem Scene.Law.dropUnshown {x : Scene} {l : List LaneEntry} {i : Slot} (h : x.Law (.slot i :: l))
    (hi : ∀ st, x.shown st ≠ some i) : (x.setMark i .off).Law l := by
  have := h.drop
  rwa [Scene.hide_self (x := x.setMark i .off) hi] at this

theorem mem_replaceUnidentified {i j : Slot} {l m : List LaneEntry} (h : replaceUnidentified i l = some m) :
    LaneEntry.slot j ∈ m ↔ j = i ∨ LaneEntry.slot j ∈ l := by
  rw [← List.count_pos_iff, ← List.count_pos_iff, count_replaceUnidentified j h]
  split <;> simp_all

/-- A record that has left the head of its lane list takes the place of an UNIDENTIFIED entry, LANED. -/
theorem Scene.Law.refill {x : Scene} {l : List LaneEntry} {j : Slot} (h : x.Law (.slot j :: l)) {p : Port}
    (hp : x.stop p = .vacant) (hj : LaneEntry.slot j ∉ l) (hm : ∃ st, (x.mark j).spot = some (p, st))
    (hs : ∀ st, x.shown st ≠ some j) {m : List LaneEntry} (hr : replaceUnidentified j (x.lane p) = some m) :
    ((x.setMark j (.on p .laned)).setLane p m).Law l := by
  have old := h.lanes p
  obtain ⟨st0, hm0⟩ := hm
  have hmark : ∀ i, ((x.setMark j (.on p .laned)).setLane p m).mark i = if j = i then .on p .laned else x.mark i :=
    fun i => rfl
  have hlane : ((x.setMark j (.on p .laned)).setLane p m).lane p = m := if_pos rfl
  have laned : ∀ i, LaneEntry.slot i ∈ m → (((x.setMark j (.on p .laned)).setLane p m).mark i).spot = some (p, .laned) := by
    intro i hi
    rw [hmark]
    split
    · rfl
    · next hne =>
      rcases (mem_replaceUnidentified hr).mp hi with e | hi
      · exact absurd e.symm hne
      · exact old.laned (.inl hp) hi
  refine h.change (p := p) (fun i => ?_) (fun q hq => ⟨if_neg (Ne.symm hq), rfl⟩) (fun q hq i st hi => ?_)
    (fun _ _ => ⟨rfl, rfl⟩) ⟨?_, fun i hi => ?_, fun i => ?_, fun i st hi => ?_, fun i hi hm => ?_⟩
    ⟨fun i hi => ?_, fun i q hi hq => ?_⟩ (fun i => ?_)
  · by_cases e : j = i
    · subst e
      refine .inr ⟨fun q _ hq => by rw [hm0] at hq; cases hq; rfl, fun q _ hq => ?_⟩
      rw [hmark, if_pos rfl] at hq; cases hq; rfl
    · rw [hmark, if_neg e]; exact .inl rfl
  · refine ⟨fun hm => .tail _ hm, fun hm => ?_⟩
    rcases List.mem_cons.mp hm with e | hm
    · cases e
      rw [hm0] at hi; cases hi
      exact absurd rfl hq
    · exact hm
  · rw [hlane]; exact headFits_laned (.inl hp) laned
  · rw [hlane] at hi; exact laned i (List.mem_of_mem_tail hi)
  · rw [hlane, count_replaceUnidentified i hr]
    split
    · next e =>
      subst e
      have : (x.lane p).count (.slot i) = 0 := List.count_eq_zero.mpr (fun hi => old.clear i hi (.head _))
      omega
    · exact old.once i
  · rw [hlane, mem_replaceUnidentified hr]
    rw [hmark] at hi
    split at hi
    · next e => exact .inl (.inl e.symm)
    · next hne =>
      rcases old.listed i st hi with hm | hm
      · exact .inl (.inr hm)
      · rcases List.mem_cons.mp hm with e | hm
        · cases e; exact absurd rfl hne
        · exact .inr hm
  · rw [hlane, mem_replaceUnidentified hr] at hi
    rcases hi with rfl | hi
    · exact hj hm
    · exact old.clear i hi (.tail _ hm)
  · obtain ⟨q, hm, hq⟩ := (h.shows _).shown i hi
    have hne : ¬ j = i := by rintro rfl; exact hs _ hi
    exact ⟨q, by rw [hmark, if_neg hne]; exact hm, hq⟩
  · rw [hmark] at hi
    split at hi
    · cases hi
    · exact (h.shows _).only i q hi hq
  · rw [hmark]
    split
    · rfl
    · exact h.straight i

theorem mem_unidentified {i j : Slot} {l : List LaneEntry} :
    LaneEntry.slot j ∈ l.map (fun e => if e = .slot i then LaneEntry.unidentified else e) ↔ j ≠ i ∧ LaneEntry.slot j ∈ l := by
  rw [← List.count_pos_iff, count_unidentified, ← List.count_pos_iff]
  split <;> simp_all

/-- A record's entry in its lane list becomes UNIDENTIFIED, at a stop that an UNIDENTIFIED head fits. -/
theorem Scene.Law.unidentify {x : Scene} {l : List LaneEntry} (h : x.Law l) {p : Port} {i : Slot} {st : SourceState}
    (hi : (x.mark i).spot = some (p, st)) {v : Stop}
    (h1 : (x.lane p).head? = some (.slot i) → v ≠ .verified ∧ v ≠ .holding)
    (h2 : (x.lane p).head? ≠ some (.slot i) → v = x.stop p) :
    ((x.setLane p ((x.lane p).map (fun e => if e = .slot i then .unidentified else e))).setStop p v).Law (.slot i :: l) := by
  have old := h.lanes p
  generalize hy : ((x.setLane p ((x.lane p).map (fun e => if e = .slot i then .unidentified else e))).setStop p v) = y
  have hlane : y.lane p = (x.lane p).map (fun e => if e = .slot i then .unidentified else e) := by
    rw [← hy]; exact if_pos rfl
  have hstop : y.stop p = v := by rw [← hy]; exact if_pos rfl
  have hmark : y.mark = x.mark := by rw [← hy]; rfl
  refine h.change (p := p) (fun j => .inl (by rw [hmark])) (fun q hq => ?_) (fun q hq j st hj => ?_)
    (fun _ _ => by rw [← hy]; exact ⟨rfl, rfl⟩) ⟨?_, fun j hj => ?_, fun j => ?_, fun j st hj => ?_, fun j hj hm => ?_⟩
    ((h.shows _).same (by rw [← hy]; rfl) (by rw [← hy]; rfl) (fun j q => by rw [hmark])) (fun j => by rw [hmark]; exact h.straight j)
  · rw [← hy]; exact ⟨if_neg (Ne.symm hq), if_neg (Ne.symm hq)⟩
  · refine ⟨fun hm => ?_, fun hm => .tail _ hm⟩
    rcases List.mem_cons.mp hm with e | hm
    · cases e
      rw [hi] at hj; cases hj
      exact absurd rfl hq
    · exact hm
  · rw [hlane, hstop]
    have hh := old.head
    cases hl : x.lane p with
    | nil =>
      rw [hl] at hh h2
      rw [h2 (fun e => nomatch e)]
      exact hh
    | cons e rest =>
      rw [hl] at hh h1 h2
      by_cases e' : e = .slot i
      · subst e'
        simp only [List.map_cons, if_pos]
        exact h1 rfl
      · rw [List.map_cons, if_neg e', h2 (fun e'' => e' (by simpa using e''))]
        refine HeadFits.congr (x := x) ?_ (fun j _ => by rw [hmark])
        cases e with
        | slot j => exact hh
        | unidentified => exact hh
        | foreign reason c => exact hh
  · rw [hlane, ← List.map_tail, mem_unidentified] at hj
    rw [hmark]
    exact old.behind j hj.2
  · rw [hlane, count_unidentified]
    split
    · omega
    · exact old.once j
  · rw [hmark] at hj
    rw [hlane, mem_unidentified]
    by_cases e : j = i
    · subst e; exact .inr (.head _)
    · rcases old.listed j st hj with hm | hm
      · exact .inl ⟨e, hm⟩
      · exact .inr (.tail _ hm)
  · rw [hlane, mem_unidentified] at hj
    rcases List.mem_cons.mp hm with e | hm
    · cases e; exact hj.1 rfl
    · exact old.clear j hj.2 hm

/-- The slots of a lane list in another order, at a stop without a seated head. -/
theorem Scene.Law.relist {x : Scene} {l : List LaneEntry} (h : x.Law l) {p : Port} (hp : x.stop p = .vacant)
    {m : List LaneEntry} (hm : ∀ i, m.count (.slot i) = (x.lane p).count (.slot i)) : (x.setLane p m).Law l := by
  have old := h.lanes p
  have hlane : (x.setLane p m).lane p = m := if_pos rfl
  have mem : ∀ i, LaneEntry.slot i ∈ m ↔ LaneEntry.slot i ∈ x.lane p := by
    intro i; rw [← List.count_pos_iff, hm, List.count_pos_iff]
  have laned : ∀ i, LaneEntry.slot i ∈ m → (x.mark i).spot = some (p, .laned) :=
    fun i hi => old.laned (.inl hp) ((mem i).mp hi)
  refine h.change (p := p) (fun _ => .inl rfl) (fun q hq => ⟨if_neg (Ne.symm hq), rfl⟩) (fun _ _ _ _ _ => Iff.rfl)
    (fun _ _ => ⟨rfl, rfl⟩) ⟨?_, fun i hi => ?_, fun i => ?_, fun i st hi => ?_, fun i hi => ?_⟩
    ⟨(h.shows _).shown, (h.shows _).only⟩ h.straight
  · rw [hlane]; exact headFits_laned (x := x.setLane p m) (.inl hp) laned
  · rw [hlane] at hi; exact laned i (List.mem_of_mem_tail hi)
  · rw [hlane, hm]; exact old.once i
  · rw [hlane, mem]; exact old.listed i st hi
  · rw [hlane, mem] at hi; exact old.clear i hi

/-- An entry without a record joins the entry end of a lane list. -/
theorem Scene.Law.enter {x : Scene} {l : List LaneEntry} (h : x.Law l) (p : Port) {e : LaneEntry} (he : ∀ i, e ≠ .slot i) :
    (x.setLane p (x.lane p ++ [e])).Law l := by
  have old := h.lanes p
  have hlane : (x.setLane p (x.lane p ++ [e])).lane p = x.lane p ++ [e] := if_pos rfl
  have mem : ∀ i, LaneEntry.slot i ∈ x.lane p ++ [e] ↔ LaneEntry.slot i ∈ x.lane p := by
    intro i
    rw [List.mem_append, List.mem_singleton]
    exact or_iff_left (fun h => he i h.symm)
  refine h.change (p := p) (fun _ => .inl rfl) (fun q hq => ⟨if_neg (Ne.symm hq), rfl⟩) (fun _ _ _ _ _ => Iff.rfl)
    (fun _ _ => ⟨rfl, rfl⟩) ⟨?_, fun i hi => ?_, fun i => ?_, fun i st hi => ?_, fun i hi => ?_⟩
    ⟨(h.shows _).shown, (h.shows _).only⟩ h.straight
  · rw [hlane]
    have hh := old.head
    show HeadFits (x.setLane p (x.lane p ++ [e])) p (x.stop p) (x.lane p ++ [e])
    cases hl : x.lane p with
    | nil =>
      rw [hl] at hh
      exact headFits_laned hh (fun i hi => by simp at hi; exact absurd hi.symm (he i))
    | cons e' rest =>
      rw [hl] at hh
      cases e' with
      | slot j => exact hh
      | unidentified => exact hh
      | foreign reason c => exact hh
  · rw [hlane] at hi
    refine old.behind i ?_
    cases hl : x.lane p with
    | nil => rw [hl] at hi; cases hi
    | cons e' rest =>
      rw [hl] at hi
      simp only [List.cons_append, List.tail_cons, List.mem_append, List.mem_singleton] at hi
      exact hi.resolve_right (fun h => he i h.symm)
  · rw [hlane, List.count_append, List.count_singleton, if_neg (by simpa using he i)]
    exact old.once i
  · rw [hlane, mem]; exact old.listed i st hi
  · rw [hlane, mem] at hi; exact old.clear i hi

/-- A record in no lane joins the entry end of a lane list, LANED. -/
theorem Scene.Law.enterSlot {x : Scene} {l : List LaneEntry} (h : x.Law l) (p : Port) {j : Slot} (hj : (x.mark j).spot = none)
    (hl : LaneEntry.slot j ∉ l) : ((x.setLane p (x.lane p ++ [.slot j])).setMark j (.on p .laned)).Law l := by
  have old := h.lanes p
  generalize hy : (x.setLane p (x.lane p ++ [.slot j])).setMark j (.on p .laned) = y
  have hlane : y.lane p = x.lane p ++ [.slot j] := by rw [← hy]; exact if_pos rfl
  have hstop : y.stop = x.stop := by rw [← hy]; rfl
  have hmark : ∀ i, y.mark i = if j = i then .on p .laned else x.mark i := by intro i; rw [← hy]; rfl
  have unlisted : ∀ q, LaneEntry.slot j ∉ x.lane q := by
    intro q hi
    obtain ⟨st, hst⟩ := (h.lanes q).spotted hi
    rw [hj] at hst; cases hst
  have keep : ∀ i, LaneEntry.slot i ∈ x.lane p → (y.mark i).spot = (x.mark i).spot := by
    intro i hi
    rw [hmark, if_neg]
    rintro rfl
    exact unlisted p hi
  refine h.change (p := p) (fun i => ?_) (fun q hq => ?_) (fun _ _ _ _ _ => Iff.rfl)
    (fun _ _ => by rw [← hy]; exact ⟨rfl, rfl⟩) ⟨?_, fun i hi => ?_, fun i => ?_, fun i st hi => ?_, fun i hi => ?_⟩
    ((h.shows _).same (by rw [← hy]; rfl) (by rw [← hy]; rfl) (fun i q => ?_)) (fun i => ?_)
  · rw [hmark]
    split
    · next e =>
      subst e
      exact .inr ⟨fun q _ hq => (by rw [hj] at hq; cases hq), fun q _ hq => (by cases hq; rfl)⟩
    · exact .inl rfl
  · rw [← hy]; exact ⟨if_neg (Ne.symm hq), rfl⟩
  · rw [hlane, hstop]
    have hh := old.head
    cases hl : x.lane p with
    | nil =>
      rw [hl] at hh
      refine headFits_laned hh (fun i hi => ?_)
      simp at hi
      subst hi
      rw [hmark, if_pos rfl]; rfl
    | cons e' rest =>
      rw [hl] at hh
      have hh : HeadFits y p (x.stop p) (e' :: rest) := hh.congr (fun i hi => keep i (by rw [hl]; exact List.mem_of_mem_head? hi))
      cases e' with
      | slot j => exact hh
      | unidentified => exact hh
      | foreign reason c => exact hh
  · rw [hlane] at hi
    cases hl : x.lane p with
    | nil => rw [hl] at hi; cases hi
    | cons e' rest =>
      rw [hl] at hi
      simp only [List.cons_append, List.tail_cons, List.mem_append, List.mem_singleton, LaneEntry.slot.injEq] at hi
      rcases hi with hi | rfl
      · rw [keep i (by rw [hl]; exact .tail _ hi)]
        exact old.behind i (by rw [hl]; exact hi)
      · rw [hmark, if_pos rfl]; rfl
  · rw [hlane, List.count_append, List.count_singleton]
    split
    · next e =>
      have e : j = i := by simpa using e
      subst e
      rw [List.count_eq_zero.mpr (unlisted p)]
    · exact old.once i
  · rw [hmark] at hi
    rw [hlane]
    split at hi
    · next e => subst e; exact .inl (List.mem_append_right _ (.head _))
    · rcases old.listed i st hi with hm | hm
      · exact .inl (List.mem_append_left _ hm)
      · exact .inr hm
  · rw [hlane, List.mem_append, List.mem_singleton] at hi
    rcases hi with hi | hi
    · exact old.clear i hi
    · cases hi; exact hl
  · rw [hmark]
    split
    · next e => subst e; rw [hj]; exact ⟨nofun, nofun⟩
    · exact Iff.rfl
  · rw [hmark]
    split
    · rfl
    · exact h.straight i

/-- A VERIFIED head is presented at a station that has no presentation. -/
theorem Scene.Law.present {x : Scene} {l : List LaneEntry} (h : x.Law l) {p : Port} {i : Slot} {rest : List LaneEntry}
    (hl : x.lane p = .slot i :: rest) (hv : x.stop p = .verified) (hn : x.shown (portStation p) = none) :
    (((x.setMark i (.on p .presented)).setShown (portStation p) (some i)).setWorking (portStation p) (some p)).Law l := by
  have old := h.lanes p
  have hb := old.behind
  have ho := old.once
  have hi := old.listed
  rw [hl] at hb ho hi
  obtain ⟨st0, hm0⟩ := old.spotted (i := i) (by rw [hl]; exact .head _)
  generalize hy : ((x.setMark i (.on p .presented)).setShown (portStation p) (some i)).setWorking (portStation p) (some p) = y
  have hmark : ∀ j, y.mark j = if i = j then .on p .presented else x.mark j := by intro j; rw [← hy]; rfl
  have hlane : y.lane = x.lane := by rw [← hy]; rfl
  have hstop : y.stop = x.stop := by rw [← hy]; rfl
  have hshown : y.shown (portStation p) = some i := by rw [← hy]; exact if_pos rfl
  have hwork : y.working (portStation p) = some p := by rw [← hy]; exact if_pos rfl
  refine h.change (p := p) (fun j => ?_) (fun q _ => by rw [hlane, hstop]; exact ⟨rfl, rfl⟩) (fun _ _ _ _ _ => Iff.rfl)
    (fun u hu => ?_) ⟨?_, fun j hj => ?_, by rw [hlane, hl]; exact ho, fun j st hj => ?_, by rw [hlane]; exact old.clear⟩
    ⟨fun j hj => ?_, fun j q hj hq => ?_⟩ (fun j => ?_)
  · rw [hmark]
    split
    · next e =>
      subst e
      exact .inr ⟨fun q _ hq => by rw [hm0] at hq; cases hq; rfl, fun q _ hq => by cases hq; rfl⟩
    · exact .inl rfl
  · rw [← hy]; exact ⟨if_neg (Ne.symm hu), if_neg (Ne.symm hu)⟩
  · rw [hlane, hstop, hl, hv]
    exact ⟨.presented, by rw [hmark, if_pos rfl]; rfl, rfl⟩
  · rw [hlane, hl] at hj
    have hne : ¬ i = j := by
      rintro rfl
      have := ho i
      have := List.count_pos_iff.mpr hj
      simp only [List.count_cons_self, List.tail_cons] at *
      omega
    rw [hmark, if_neg hne]
    exact hb j hj
  · rw [hmark] at hj
    rw [hlane, hl]
    split at hj
    · next e => subst e; exact .inl (.head _)
    · exact hi j st hj
  · rw [hshown] at hj
    cases hj
    exact ⟨p, by rw [hmark, if_pos rfl]; rfl, rfl, hwork⟩
  · rw [hmark] at hj
    split at hj
    · next e => subst e; exact hshown
    · have := (h.shows _).only j q hj hq
      rw [hn] at this; cases this
  · rw [hmark]
    split
    · rfl
    · exact h.straight j

/-- An entry without a record needs no dealing with. -/
theorem Scene.Law.other {x : Scene} {l : List LaneEntry} {e : LaneEntry} (he : ∀ i, e ≠ .slot i) :
    x.Law (e :: l) ↔ x.Law l := by
  have mem : ∀ i, LaneEntry.slot i ∈ e :: l ↔ LaneEntry.slot i ∈ l := by
    intro i
    rw [List.mem_cons]
    exact or_iff_right (fun h => he i h.symm)
  constructor
  · intro h
    refine ⟨fun p => ⟨(h.lanes p).head, (h.lanes p).behind, (h.lanes p).once, fun i st hi => ?_, fun i hi hm => ?_⟩,
      h.shows, h.straight⟩
    · exact ((h.lanes p).listed i st hi).imp_right (mem i).mp
    · exact (h.lanes p).clear i hi ((mem i).mpr hm)
  · intro h
    refine ⟨fun p => ⟨(h.lanes p).head, (h.lanes p).behind, (h.lanes p).once, fun i st hi => ?_, fun i hi hm => ?_⟩,
      h.shows, h.straight⟩
    · exact ((h.lanes p).listed i st hi).imp_right (mem i).mpr
    · exact (h.lanes p).clear i hi ((mem i).mp hm)

theorem Scene.Law.dropOther {x : Scene} {l : List LaneEntry} {e : LaneEntry} (h : x.Law (e :: l)) (he : ∀ i, e ≠ .slot i) :
    x.Law l := (Scene.Law.other he).mp h

/-- A record enters a lane state, its tote not yet in a lane list. -/
theorem Scene.Law.loosen {x : Scene} {l : List LaneEntry} (h : x.Law l) {i : Slot} (hi : (x.mark i).spot = none) (p : Port)
    {st : SourceState} (hst : st ≠ .presented) : (x.setMark i (.on p st)).Law (.slot i :: l) := by
  have hmark : ∀ j, (x.setMark i (.on p st)).mark j = if i = j then .on p st else x.mark j := fun j => rfl
  have unlisted : ∀ q, LaneEntry.slot i ∉ x.lane q := by
    intro q hm
    obtain ⟨st, hst⟩ := (h.lanes q).spotted hm
    rw [hi] at hst; cases hst
  have keep : ∀ q j, LaneEntry.slot j ∈ x.lane q → ((x.setMark i (.on p st)).mark j).spot = (x.mark j).spot := by
    intro q j hj
    rw [hmark, if_neg]
    rintro rfl
    exact unlisted q hj
  refine ⟨fun q => ⟨(h.lanes q).head.congr (fun j hj => keep q j (List.mem_of_mem_head? hj)), fun j hj => ?_,
    (h.lanes q).once, fun j st' hj => ?_, fun j hj hm => ?_⟩, fun u => (h.shows u).same rfl rfl (fun j q => ?_), fun j => ?_⟩
  · rw [keep q j (List.mem_of_mem_tail hj)]; exact (h.lanes q).behind j hj
  · rw [hmark] at hj
    split at hj
    · next e => subst e; exact .inr (.head _)
    · exact ((h.lanes q).listed j st' hj).imp_right (.tail _)
  · rcases List.mem_cons.mp hm with e | hm
    · cases e; exact unlisted q hj
    · exact (h.lanes q).clear j hj hm
  · rw [hmark]
    split
    · next e =>
      subst e
      rw [hi]
      refine ⟨fun hm => ?_, nofun⟩
      cases hm; exact absurd rfl hst
    · exact Iff.rfl
  · rw [hmark]
    split
    · rfl
    · exact h.straight j

/-- The presentation of a record ends at the station of its port, if anywhere. -/
theorem Scene.Law.hide_eq {x : Scene} {l : List LaneEntry} (h : x.Law l) {i : Slot} {p : Port} {st : SourceState}
    (hi : (x.mark i).spot = some (p, st)) :
    x.hide i = if x.shown (portStation p) = some i then x.setShown (portStation p) none else x := by
  have elsewhere : ∀ u, u ≠ portStation p → x.shown u ≠ some i := by
    intro u hu hs
    obtain ⟨q, hm, hq, _⟩ := (h.shows u).shown i hs
    rw [hi] at hm; cases hm
    exact hu hq.symm
  split
  · next hs =>
    unfold Scene.hide Scene.setShown
    congr 1
    funext u
    by_cases hu : portStation p = u
    · subst hu; rw [if_pos hs, if_pos rfl]
    · rw [if_neg (elsewhere u (Ne.symm hu)), if_neg hu]
  · next hs =>
    refine Scene.hide_self (fun u => ?_)
    by_cases hu : u = portStation p
    · subst hu; exact hs
    · exact elsewhere u hu

/-- A scene without totes. -/
theorem Scene.Law.bare {x : Scene} (hm : ∀ i, x.mark i = .off) (hl : ∀ p, x.lane p = []) (hv : ∀ p, x.stop p = .vacant)
    (hs : ∀ st, x.shown st = none) : x.Law [] := by
  refine ⟨fun p => ⟨?_, ?_, ?_, ?_, ?_⟩, fun st => ⟨fun i hi => ?_, fun i p hi => ?_⟩, fun i => by rw [hm]; rfl⟩
  · rw [hl, hv]; exact .inl rfl
  · rw [hl]; exact fun _ h => nomatch h
  · rw [hl]; exact fun _ => Nat.zero_le 1
  · intro i st hi; rw [hm] at hi; cases hi
  · rw [hl]; exact fun _ h => nomatch h
  · rw [hs] at hi; cases hi
  · rw [hm] at hi; cases hi

end Sys2Proof.Machine
end

