-- ==== Sys2Proof/Laws/Lanes.lean ====
section
/-! SUPPORT. The scene of a state (`State.scene`) through every operation of the machine that a tote in a lane can meet: what
leaves it as it is, and one lemma `lane_<operation>` for each operation that changes it and keeps its law. -/

namespace Sys2Proof.Machine

/-! ### What a write makes of the scene -/

theorem scene_of {s t : State} (hs : t.slots = s.slots) (hp : t.ports = s.ports) (ha : t.stationA = s.stationA)
    (hb : t.stationB = s.stationB) : t.scene = s.scene := by
  refine Scene.same (fun i => ?_) (fun p => ?_) (fun p => ?_) (fun st => ?_) (fun st => ?_)
  · show t.mark i = s.mark i
    unfold State.mark State.source State.record; rw [hs]
  · show (t.port p).lane = (s.port p).lane
    unfold State.port; rw [hp]
  · show (t.port p).stop = (s.port p).stop
    unfold State.port; rw [hp]
  · cases st <;> simp only [State.scene, State.station, ha, hb]
  · cases st <;> simp only [State.scene, State.station, ha, hb]

theorem mark_some {s : State} {i : Slot} {r : Source} (h : s.source i = some r) : s.mark i = r.mark := by
  unfold State.mark; rw [h]; rfl

theorem mark_none {s : State} {i : Slot} (h : s.source i = none) : s.mark i = .off := by
  unfold State.mark; rw [h]; rfl

theorem scene_putSource (s : State) (i : Slot) (q : Source) : (s.putSource i q).scene = s.scene.setMark i q.mark := by
  unfold State.scene Scene.setMark
  congr 1
  funext j
  unfold State.mark
  split
  · next e => subst e; rw [State.source_putSource_self]; rfl
  · next e => rw [State.source_putSource_of_ne s e]

theorem scene_putSource_same {s : State} {i : Slot} {r q : Source} (h : s.source i = some r) (hq : q.mark = r.mark) :
    (s.putSource i q).scene = s.scene := by
  rw [scene_putSource]
  exact Scene.setMark_self ((mark_some h).trans hq.symm)

theorem scene_modifySource_same {s : State} {i : Slot} {f : Source → Source}
    (h : ∀ r, s.source i = some r → (f r).mark = r.mark) : (s.modifySource i f).scene = s.scene := by
  cases e : s.source i with
  | none => rw [State.modifySource_of_none e]
  | some r => rw [State.modifySource_of_some e]; exact scene_putSource_same e (h r e)

theorem scene_setPort (s : State) (p : Port) (q : PortRec) :
    (s.setPort p q).scene = (s.scene.setLane p q.lane).setStop p q.stop := by
  refine Scene.same (fun _ => rfl) (fun x => ?_) (fun x => ?_) (fun _ => rfl) (fun _ => rfl)
  · show ((s.setPort p q).port x).lane = if p = x then q.lane else (s.port x).lane
    rw [State.port_setPort]; split <;> rfl
  · show ((s.setPort p q).port x).stop = if p = x then q.stop else (s.port x).stop
    rw [State.port_setPort]; split <;> rfl

theorem Scene.setLane_self {x : Scene} {p : Port} {l : List LaneEntry} (h : x.lane p = l) : x.setLane p l = x := by
  unfold Scene.setLane
  congr 1
  funext q
  split
  · next e => subst e; exact h.symm
  · rfl

theorem Scene.setStop_self {x : Scene} {p : Port} {v : Stop} (h : x.stop p = v) : x.setStop p v = x := by
  unfold Scene.setStop
  congr 1
  funext q
  split
  · next e => subst e; exact h.symm
  · rfl

theorem scene_setPort_same {s : State} {p : Port} {q : PortRec} (h1 : q.lane = (s.port p).lane)
    (h2 : q.stop = (s.port p).stop) : (s.setPort p q).scene = s.scene := by
  rw [scene_setPort, h1, h2, Scene.setLane_self (by rfl), Scene.setStop_self (by rfl)]

theorem scene_modifyPort_same {s : State} {p : Port} {f : PortRec → PortRec} (h1 : (f (s.port p)).lane = (s.port p).lane)
    (h2 : (f (s.port p)).stop = (s.port p).stop) : (s.modifyPort p f).scene = s.scene := scene_setPort_same h1 h2

/-- A change of a port's stop alone. -/
theorem scene_modifyPort_stop {s : State} {p : Port} {f : PortRec → PortRec} (h1 : (f (s.port p)).lane = (s.port p).lane) :
    (s.modifyPort p f).scene = s.scene.setStop p (f (s.port p)).stop := by
  unfold State.modifyPort
  rw [scene_setPort, h1, Scene.setLane_self (by rfl)]

/-- A change of a port's lane list alone. -/
theorem scene_modifyPort_lane {s : State} {p : Port} {f : PortRec → PortRec} (h1 : (f (s.port p)).stop = (s.port p).stop) :
    (s.modifyPort p f).scene = s.scene.setLane p (f (s.port p)).lane := by
  unfold State.modifyPort
  rw [scene_setPort, h1]
  exact Scene.setStop_self rfl

theorem scene_setStation (s : State) (st : Station) (q : StationRec) :
    (s.setStation st q).scene = (s.scene.setShown st q.presentation).setWorking st q.workingPort := by
  refine Scene.same (fun _ => ?_) (fun _ => ?_) (fun _ => ?_) (fun x => ?_) (fun x => ?_)
  · cases st <;> rfl
  · cases st <;> rfl
  · cases st <;> rfl
  · cases st <;> cases x <;> rfl
  · cases st <;> cases x <;> rfl

theorem Scene.setShown_self {x : Scene} {st : Station} {o : Option Slot} (h : x.shown st = o) : x.setShown st o = x := by
  unfold Scene.setShown
  congr 1
  funext u
  split
  · next e => subst e; exact h.symm
  · rfl

theorem Scene.setWorking_self {x : Scene} {st : Station} {o : Option Port} (h : x.working st = o) : x.setWorking st o = x := by
  unfold Scene.setWorking
  congr 1
  funext u
  split
  · next e => subst e; exact h.symm
  · rfl

theorem scene_setStation_same {s : State} {st : Station} {q : StationRec} (h1 : q.presentation = (s.station st).presentation)
    (h2 : q.workingPort = (s.station st).workingPort) : (s.setStation st q).scene = s.scene := by
  rw [scene_setStation, h1, h2, Scene.setShown_self (by rfl), Scene.setWorking_self (by rfl)]

/-- Every other mark stands when the records of a slot that holds no source record change. -/
theorem scene_setSlot_same {s : State} {i : Slot} {x : Option Record} (h : (match x with
      | some (.source r) => r.mark
      | _ => .off) = s.mark i) : (s.setSlot i x).scene = s.scene := by
  unfold State.scene
  congr 1
  funext j
  by_cases e : i = j
  · subst e
    rw [← h]
    unfold State.mark State.source
    rw [State.record_setSlot_self]
    cases x with
    | none => rfl
    | some x => cases x <;> rfl
  · unfold State.mark State.source
    rw [State.record_setSlot_of_ne s e]

theorem scene_setSlot_none (s : State) (i : Slot) : (s.setSlot i none).scene = s.scene.setMark i .off := by
  unfold State.scene Scene.setMark
  congr 1
  funext j
  split
  · next e =>
    subst e
    unfold State.mark State.source
    rw [State.record_setSlot_self]; rfl
  · next e =>
    unfold State.mark State.source
    rw [State.record_setSlot_of_ne s e]

theorem mark_of_not_source {s : State} {i : Slot} (h : ∀ r, s.record i ≠ some (.source r)) : s.mark i = .off := by
  refine mark_none ?_
  unfold State.source
  split
  · next r hr => exact absurd hr (h r)
  · rfl

theorem scene_putOrder {s : State} {i : Slot} {o : Order} (h : s.order i = some o) (q : Order) :
    (s.putOrder i q).scene = s.scene := by
  refine scene_setSlot_same ?_
  rw [mark_of_not_source (fun r hr => ?_)]
  rw [State.order_eq_some.mp h] at hr
  cases hr

theorem scene_modifyTote (s : State) (i : Slot) (f : Tote → Tote) : (s.modifyTote i f).scene = s.scene := by
  unfold State.modifyTote
  split
  · next r h =>
    refine scene_setSlot_same ?_
    cases r with
    | source r => rw [mark_some (State.source_eq_some.mpr h)]; rfl
    | order o =>
      rw [mark_of_not_source (fun q hq => ?_)]
      · rfl
      · rw [h] at hq; cases hq
  · rfl

theorem scene_mapSlots (s : State) {f : Option Record → Option Record}
    (h : ∀ o, (match f o with
      | some (.source r) => r.mark
      | _ => .off) = match o with
      | some (.source r) => r.mark
      | _ => .off) : (s.mapSlots f).scene = s.scene := by
  have e : ∀ (t : State) (i : Slot), t.mark i = match t.record i with
      | some (.source r) => r.mark
      | _ => .off := by
    intro t i
    unfold State.mark State.source
    cases t.record i with
    | none => rfl
    | some x => cases x <;> rfl
  unfold State.scene
  congr 1
  funext i
  rw [e, e, State.record_mapSlots]
  exact h _

theorem scene_moveLinesFor (s : State) (o : Slot) (test : Line → Bool) (dest : LineState) :
    (s.moveLinesFor o test dest).scene = s.scene := by
  refine scene_mapSlots s (fun x => ?_)
  match x with
  | none => rfl
  | some (.order r) => rfl
  | some (.source r) => rfl

theorem scene_setReader (s : State) (c : Channel) (q : ReaderRec) : (s.setReader c q).scene = s.scene := by
  cases c <;> exact scene_of rfl rfl rfl rfl

theorem scene_post (s : State) (n : Notice) : (s.post n).scene = s.scene := by
  unfold State.post; split <;> exact scene_of rfl rfl rfl rfl

theorem scene_postIf (s : State) (n : Option Notice) : (s.postIf n).scene = s.scene := by
  cases n with
  | none => rfl
  | some n => exact scene_post s n

theorem scene_transmit (s : State) (m : Message) : (s.transmit m).scene = s.scene := by
  unfold State.transmit; split <;> exact scene_of rfl rfl rfl rfl

theorem scene_foldl {α : Type} {f : State → α → State} (h : ∀ s a, (f s a).scene = s.scene) (l : List α) :
    ∀ s : State, (l.foldl f s).scene = s.scene := by
  induction l with
  | nil => intro s; rfl
  | cons a l ih => intro s; exact (ih _).trans (h s a)

theorem scene_sendReturn (s : State) (i : Slot) : (s.sendReturn i).scene = s.scene := by
  unfold State.sendReturn
  split
  · rfl
  · next h =>
    split
    · exact (scene_transmit _ _).trans (scene_putSource_same h rfl)
    · exact scene_putSource_same h rfl

theorem scene_sendCancel (s : State) (i : Slot) : (s.sendCancel i).scene = s.scene := by
  unfold State.sendCancel
  split
  · rfl
  · next h =>
    split
    · exact (scene_transmit _ _).trans (scene_putSource_same h rfl)
    · exact scene_putSource_same h rfl

theorem scene_unqueue (s : State) (p : Port) (i : Slot) : (s.unqueue p i).scene = s.scene := scene_modifyPort_same rfl rfl

theorem scene_queueHead (s : State) (p : Port) (i : Slot) : (s.queueHead p i).scene = s.scene := scene_modifyPort_same rfl rfl

theorem scene_queueTail (s : State) (p : Port) (i : Slot) : (s.queueTail p i).scene = s.scene := scene_modifyPort_same rfl rfl

theorem scene_queueAhead (s : State) (p : Port) (i : Slot) : (s.queueAhead p i).scene = s.scene := scene_modifyPort_same rfl rfl

theorem scene_armDivert (s : State) (p : Port) (a : ArmItem) : (s.armDivert p a).scene = s.scene := scene_modifyPort_same rfl rfl

theorem scene_clearArm (s : State) (p : Port) : (s.clearArm p).scene = s.scene := scene_modifyPort_same rfl rfl

theorem scene_dropArmOf (s : State) (p : Port) (i : Slot) : (s.dropArmOf p i).scene = s.scene := by
  refine scene_modifyPort_same ?_ ?_ <;> split <;> rfl

/-! ### Records out of the lanes -/

/-- A record out of the lanes, without a current line. -/
theorem mark_out {r : Source} (h : r.state.inLane = false) (hc : r.current = none) : r.mark = .off := by
  unfold Source.mark Mark.off
  simp [h, hc]

/-- A record of a lane state that has no current line it may not have. -/
theorem mark_in {r : Source} (h : r.state.inLane = true) (hc : r.state ≠ .presented → r.current = none) :
    r.mark = .on r.port r.state := by
  unfold Source.mark Mark.on
  simp only [h, if_true, Mark.mk.injEq, true_and]
  by_cases e : r.state = .presented
  · simp [e]
  · simp [hc e]

/-- The current line of a record that is not PRESENTED. -/
theorem Scene.Law.current {s : State} {l : List LaneEntry} (h : s.scene.Law l) {i : Slot} {r : Source}
    (hr : s.source i = some r) (hn : r.state ≠ .presented) : r.current = none := by
  have hs : (s.mark i).stray = false := h.straight i
  rw [mark_some hr] at hs
  unfold Source.mark at hs
  simpa [hn] using hs

theorem Scene.Law.mark_on {s : State} {l : List LaneEntry} (h : s.scene.Law l) {i : Slot} {r : Source}
    (hr : s.source i = some r) (hl : r.state.inLane = true) : s.scene.mark i = .on r.port r.state :=
  (mark_some hr).trans (mark_in hl (h.current hr))

theorem not_presented {st : SourceState} (h : st.inLane = false) : st ≠ .presented := by
  rintro rfl; cases h

theorem Scene.Law.mark_off {s : State} {l : List LaneEntry} (h : s.scene.Law l) {i : Slot} {r : Source}
    (hr : s.source i = some r) (hl : r.state.inLane = false) : s.scene.mark i = .off :=
  (mark_some hr).trans (mark_out hl (h.current hr (not_presented hl)))

/-- A record out of the lanes changes into another state out of them. -/
theorem Scene.Law.put {s : State} {l : List LaneEntry} (h : s.scene.Law l) {i : Slot} {r q : Source}
    (hr : s.source i = some r) (hl : r.state.inLane = false) (hq : q.state.inLane = false)
    (hc : q.current = none ∨ q.current = r.current) : (s.putSource i q).scene = s.scene := by
  refine scene_putSource_same hr ?_
  have := h.current hr (not_presented hl)
  rw [mark_out hq (hc.elim id (fun e => e.trans this)), mark_out hl this]

theorem scene_enterReturning (s : State) (i : Slot) (cause : LeavingCause) :
    (s.enterReturning i cause).scene = s.scene.setMark i .off := by
  unfold State.enterReturning
  split
  · next h => exact (Scene.setMark_self (mark_none h)).symm
  · rw [scene_sendReturn, scene_dropArmOf, scene_unqueue, scene_putSource]
    exact congrArg _ (mark_out rfl rfl)

/-- A slot in no lane list is retired. -/
theorem scene_retireSource {s : State} {i : Slot} (h : ∀ p, LaneEntry.slot i ∉ (s.port p).lane) (cause : RetireCause) :
    (s.retireSource i cause).scene = s.scene.setMark i .off := by
  unfold State.retireSource
  split
  · next hn => exact (Scene.setMark_self (mark_none hn)).symm
  · next r _ =>
    simp only
    rw [scene_setSlot_none, scene_post, scene_dropArmOf]
    refine congrArg (fun x : Scene => x.setMark i .off) (scene_modifyPort_same ?_ rfl)
    refine List.filter_eq_self.mpr (fun e he => ?_)
    simp only [ne_eq, decide_eq_true_eq]
    rintro rfl
    exact h r.port he

theorem scene_exhaust {s : State} {i : Slot} {r : Source} (hr : s.source i = some r) (hs : r.state = .inbound)
    (hc : r.current = none) (n : Nat) : (s.exhaust i n).scene = s.scene := by
  have off : r.mark = .off := mark_out (by rw [hs]; rfl) hc
  unfold State.exhaust
  rw [hr]
  simp only
  split
  · rw [scene_post, scene_sendReturn, scene_dropArmOf]
    refine scene_putSource_same hr (.trans (mark_out ?_ ?_) off.symm)
    · rfl
    · exact hc
  · rw [scene_post, scene_enterReturning]
    have e : (s.putSource i { r with divertAttempts := n, backoff := 0 }).scene = s.scene := scene_putSource_same hr rfl
    rw [e]
    exact Scene.setMark_self ((mark_some hr).trans off)

/-- A collision of a record that has no current line it may not have. -/
theorem scene_collide {s : State} {i : Slot} (h : ∀ r, s.source i = some r → r.state = .inbound → r.current = none) :
    (s.collide i).scene = s.scene := by
  unfold State.collide
  split
  · rfl
  · next r hr =>
    split
    · next hs =>
      split
      · unfold State.drawBackoff
        refine (scene_of ?_ ?_ ?_ ?_ : _ = (s.putSource i { r with
          divertAttempts := r.attemptsAfter s.config.divertLimit,
          backoff := Config.backoffDraw s.draws % backoffRange (r.attemptsAfter s.config.divertLimit) }).scene).trans
          (scene_putSource_same hr rfl) <;> rfl
      · exact scene_exhaust hr hs (h r hr hs) _
    · rfl

theorem Scene.Law.collide {s : State} {l : List LaneEntry} (h : s.scene.Law l) (i : Slot) :
    (s.collide i).scene = s.scene :=
  scene_collide (fun r hr hs => h.current hr (by rw [hs]; decide))

theorem Scene.Law.withdrawArm {s : State} {l : List LaneEntry} (h : s.scene.Law l) (p : Port) :
    (s.withdrawArm p).scene = s.scene := by
  unfold State.withdrawArm
  have e := scene_clearArm s p
  split
  · rfl
  · split
    · exact (Scene.Law.collide (l := l) (by rw [e]; exact h) _).trans e
    · exact e

/-! ### The end of a presentation, the stop -/

theorem scene_enterHeld (s : State) (st : Station) (d : HeldDetail) : (s.enterHeld st d).scene = s.scene :=
  (scene_post _ _).trans (scene_setStation_same rfl rfl)

/-- A presentation ends, whatever the hold status. -/
theorem scene_endPresentation {s : State} {st : Station} {i : Slot} (h : s.scene.shown st = some i) :
    (s.endPresentation st).scene = (s.scene.setMark i { s.scene.mark i with stray := false }).setShown st none := by
  unfold State.endPresentation
  have h : (s.station st).presentation = some i := h
  rw [h]
  have ended : ((s.modifySource i (fun r => { r with current := none })).modifyStation st
      (fun r => { r with presentation := none, window := none })).scene
      = (s.scene.setMark i { s.scene.mark i with stray := false }).setShown st none := by
    have e : (s.modifySource i (fun r => { r with current := none })).scene
        = s.scene.setMark i { s.scene.mark i with stray := false } := by
      cases hr : s.source i with
      | none =>
        rw [State.modifySource_of_none hr]
        have := mark_none hr
        exact (Scene.setMark_self (x := s.scene) (by show s.mark i = { s.mark i with stray := false }; rw [this]; rfl)).symm
      | some r =>
        rw [State.modifySource_of_some hr, scene_putSource]
        congr 1
        show _ = { s.mark i with stray := false }
        rw [mark_some hr]
        simp [Source.mark]
    unfold State.modifyStation
    rw [scene_setStation, e, Scene.setWorking_self]
    exact congrArg (fun x : Scene => x.working st) e.symm
  simp only
  split
  · exact (scene_enterHeld _ _ _).trans ended
  · exact (scene_enterHeld _ _ _).trans ended
  · exact ended
  · exact ended
  · exact ended

/-- A record is written in another state than PRESENTED, and its presentation ends. -/
theorem Scene.Law.ended {s u : State} {l : List LaneEntry} (h : s.scene.Law l) {i : Slot} {r q : Source}
    (hr : s.source i = some r) (hc : r.state ≠ .presented → q.mark.stray = false) {y : Scene}
    (hu : u.scene = y.setMark i q.mark) (hy : y.shown = s.scene.shown) :
    (u.endPresentationOf r.port i).scene = (y.setMark i { q.mark with stray := false }).hide i := by
  have elsewhere : ∀ st, st ≠ portStation r.port → s.scene.shown st ≠ some i := by
    intro st hst hs
    obtain ⟨p, hm, hp, _⟩ := (h.shows st).shown i hs
    obtain ⟨r', hr', e, _⟩ := mark_spot.mp hm
    rw [hr] at hr'; cases hr'
    exact hst (e ▸ hp.symm)
  have hshown : u.scene.shown = s.scene.shown := by rw [hu]; exact hy
  unfold State.endPresentationOf
  by_cases hs : s.scene.shown (portStation r.port) = some i
  · have hs' : (u.station (portStation r.port)).presentation = some i := (congrFun hshown _).trans hs
    rw [if_pos hs', scene_endPresentation hs', hu]
    refine Scene.same (fun j => ?_) (fun _ => rfl) (fun _ => rfl) (fun st => ?_) (fun _ => rfl)
    · unfold Scene.setMark Scene.setShown Scene.hide
      simp only [if_true]
      split <;> rfl
    · show (if portStation r.port = st then none else y.shown st) = if y.shown st = some i then none else y.shown st
      rw [hy]
      by_cases e : portStation r.port = st
      · subst e; rw [if_pos rfl, if_pos hs]
      · rw [if_neg e, if_neg (elsewhere st (Ne.symm e))]
  · have hs' : ¬ (u.station (portStation r.port)).presentation = some i := fun e => hs ((congrFun hshown _).symm.trans e)
    rw [if_neg hs', hu, Scene.hide_self (x := y.setMark i { q.mark with stray := false })]
    · congr 1
      have hn : r.state ≠ .presented := by
        intro e
        exact hs ((h.shows _).only i r.port (mark_spot.mpr ⟨r, hr, rfl, e, rfl⟩) rfl)
      rw [← hc hn]
    · intro st
      show y.shown st ≠ some i
      rw [hy]
      by_cases e : st = portStation r.port
      · subst e; exact hs
      · exact elsewhere st e

/-- The record of a head. -/
theorem Scene.Law.headRecord {s : State} {l : List LaneEntry} (h : s.scene.Law l) {p : Port} {i : Slot}
    {rest : List LaneEntry} (hl : (s.port p).lane = .slot i :: rest) :
    ∃ r, s.source i = some r ∧ r.port = p ∧ r.state.inLane = true ∧ (s.port p).stop.heads r.state = true := by
  have hh : HeadFits s.scene p (s.port p).stop (s.port p).lane := (h.lanes p).head
  rw [hl] at hh
  obtain ⟨st, hm, hst⟩ := hh
  obtain ⟨r, hr, h1, h2, h3⟩ := mark_spot.mp hm
  exact ⟨r, hr, h1, h2 ▸ h3, h2 ▸ hst⟩

/-- A lane list that holds a tote: its stop opens. -/
theorem lane_openStop {s : State} {l : List LaneEntry} (h : s.scene.Law l) {p : Port} (hp : (s.port p).lane ≠ []) :
    (s.openStop p).scene.Law l := by
  unfold State.openStop
  have opened : (s.modifyPort p (fun r => { r with stop := .openSeated, exitWindow := some Config.exitWindow })).scene
      = s.scene.setStop p .openSeated := scene_modifyPort_stop rfl
  simp only
  split
  · next i rest hl =>
    obtain ⟨r, hr, rfl, _⟩ := h.headRecord hl
    have hr' : (s.modifyPort r.port (fun r => { r with stop := .openSeated, exitWindow := some Config.exitWindow })).source i
        = some r := hr
    rw [State.modifySource_of_some hr']
    have e := h.ended hr (q := { r with state := .releasing }) (y := s.scene.setStop r.port .openSeated)
      (u := (s.modifyPort r.port (fun r =>
        { r with stop := .openSeated, exitWindow := some Config.exitWindow })).putSource i { r with state := .releasing })
      (fun hn => by
        have := h.current hr hn
        unfold Source.mark
        simp [this]) ((scene_putSource _ _ _).trans (by rw [opened])) rfl
    rw [e]
    exact h.restate (p := r.port) (i := i) (rest := rest) (st := .releasing) (v := .openSeated) hl rfl (by decide)
  · next hn =>
    rw [opened]
    refine h.restop p ?_
    have hh : HeadFits s.scene p (s.port p).stop (s.port p).lane := (h.lanes p).head
    show HeadFits s.scene p .openSeated (s.port p).lane
    cases hl : (s.port p).lane with
    | nil => exact absurd hl hp
    | cons e rest =>
      cases e with
      | slot i => exact absurd hl (hn i rest)
      | unidentified => exact ⟨nofun, nofun⟩
      | foreign reason c => exact ⟨nofun, nofun⟩

theorem lane_passHead {s : State} {l : List LaneEntry} (h : s.scene.Law l) (p : Port) : (s.passHead p).scene.Law l := by
  unfold State.passHead
  split
  · next hl =>
    split
    · split
      · exact lane_openStop h (by rw [hl]; exact nofun)
      · exact h
    · exact h
  · exact h

/-- A VACANT stop seats its head. -/
theorem lane_seatHead {s : State} {l : List LaneEntry} (h : s.scene.Law l) {p : Port} (hv : (s.port p).stop = .vacant) :
    (s.seatHead p).scene.Law l := by
  unfold State.seatHead
  have e : (s.modifyPort p (fun r =>
      { r.startRead .first with lane := if r.lane.isEmpty then [.unidentified] else r.lane })).scene
      = (s.scene.setLane p (if (s.port p).lane.isEmpty then [.unidentified] else (s.port p).lane)).setStop p
        (.reading .first) := scene_setPort _ _ _
  have hsrc : ∀ i, (s.modifyPort p (fun r =>
      { r.startRead .first with lane := if r.lane.isEmpty then [.unidentified] else r.lane })).source i = s.source i :=
    fun _ => rfl
  generalize s.modifyPort p (fun r =>
      { r.startRead .first with lane := if r.lane.isEmpty then [.unidentified] else r.lane }) = u at e hsrc ⊢
  simp only
  split
  · next i rest hl =>
    obtain ⟨r, hr, rfl, _, hst⟩ := h.headRecord hl
    rw [hv] at hst
    have hst : r.state = .laned := by simpa [Stop.heads] using hst
    have hc : r.current = none := h.current hr (by rw [hst]; decide)
    rw [State.modifySource_of_some (r := r) ((hsrc i).trans hr), scene_putSource, e, hl, List.isEmpty_cons, if_neg (by decide),
      Scene.setLane_self (x := s.scene) hl, mark_in (r := { r with state := .atStop }) rfl (fun _ => hc)]
    have := h.restate (p := r.port) (i := i) (rest := rest) (st := .atStop) (v := .reading .first) hl rfl (by decide)
    rw [Scene.hide_self] at this
    · exact this
    · exact fun st => h.unshown (i := i) (fun p hm => by
        rw [h.mark_on hr (by rw [hst]; rfl), hst] at hm; cases hm) st
  · next hn =>
    rw [e]
    cases hl : (s.port p).lane with
    | nil =>
      have := (h.enter p (e := .unidentified) (fun _ => nofun)).restop p (v := .reading .first) (by
        show HeadFits _ p _ (if p = p then s.scene.lane p ++ [.unidentified] else s.scene.lane p)
        rw [if_pos rfl, show s.scene.lane p = [] from hl]
        exact ⟨nofun, nofun⟩)
      rwa [show s.scene.lane p = [] from hl] at this
    | cons e' rest =>
      rw [List.isEmpty_cons, if_neg (by decide), Scene.setLane_self (x := s.scene) hl]
      refine h.restop p ?_
      show HeadFits s.scene p _ (s.port p).lane
      rw [hl]
      cases e' with
      | slot i => exact absurd hl (hn i rest)
      | unidentified => exact ⟨nofun, nofun⟩
      | foreign reason c => exact ⟨nofun, nofun⟩

/-! ### The exit, the loss of a head -/

theorem laneless_of_loose {s : State} {l : List LaneEntry} {i : Slot} (h : s.scene.Law (.slot i :: l)) (p : Port) :
    LaneEntry.slot i ∉ (s.port p).lane := fun hi => (h.lanes p).clear i hi (.head _)

/-- The head of a released stop goes its way. -/
theorem lane_exitResult {s : State} {l : List LaneEntry} {e : LaneEntry} (h : s.scene.Law (e :: l))
    (hs : ∀ i, e = .slot i → ∀ st, s.scene.shown st ≠ some i) : (s.exitResult e).scene.Law l := by
  unfold State.exitResult
  split
  · next i =>
    have dropped := h.dropUnshown (hs i rfl)
    split
    · next hn => rwa [Scene.setMark_self (mark_none hn)] at dropped
    · next r hr =>
      have hn : r.state ≠ .presented := by
        intro e
        exact hs i rfl _ ((h.shows (portStation r.port)).only i r.port (mark_spot.mpr ⟨r, hr, rfl, e, rfl⟩) rfl)
      have hc := h.current hr hn
      have ret : ∀ {u : State} {m : Mark} {cause}, u.scene = s.scene.setMark i m → (u.enterReturning i cause).scene.Law l := by
        intro u m cause hu
        rw [scene_enterReturning, hu]
        rw [Scene.setMark_setMark]
        exact dropped
      have self : s.scene = s.scene.setMark i (s.scene.mark i) := (Scene.setMark_self rfl).symm
      split
      · exact ret self
      · exact ret self
      · exact ret self
      · split
        · exact ret (scene_putSource _ _ _)
        · have e : ((s.putSource i { r with passThrough := none, state := .inbound }).queueHead r.port i).scene
              = s.scene.setMark i .off := by
            rw [scene_queueHead, scene_putSource, mark_out (r := { r with passThrough := none, state := .inbound }) rfl hc]
          rw [Scene.Law.collide (l := l) (by rw [e]; exact dropped), e]
          exact dropped
  · have h := h.dropOther (fun _ => nofun)
    split
    · rw [h.collide]; exact h
    · exact h
  · exact h.dropOther (fun _ => nofun)
  · exact h.dropOther (fun _ => nofun)
  · exact h.dropOther (fun _ => nofun)
  · exact h.dropOther (fun _ => nofun)

/-- A stop is open. -/
def Stop.opened (v : Stop) : Prop := v = .openSeated ∨ ∃ waiting, v = .openClear waiting

theorem lane_takeExit {s : State} {l : List LaneEntry} (h : s.scene.Law l) {p : Port} (hv : (s.port p).stop.opened) :
    (s.takeExit p).scene.Law l := by
  unfold State.takeExit
  split
  · exact h
  · next head rest hl =>
    have unshown : ∀ i, head = .slot i → ∀ st, s.scene.shown st ≠ some i := by
      rintro i rfl
      obtain ⟨r, hr, rfl, hin, hst⟩ := h.headRecord hl
      refine h.unshown (fun q hm => ?_)
      obtain ⟨r', hr', _, h2, _⟩ := mark_spot.mp hm
      rw [hr] at hr'; cases hr'
      rw [h2] at hst
      rcases hv with hv | ⟨w, hv⟩ <;> rw [hv] at hst <;> cases hst
    have ha : (s.port p).stop.afterExit.1 = .vacant ∨ (s.port p).stop.afterExit.1 = .leaving := by
      rcases hv with hv | ⟨w, hv⟩ <;> rw [hv] <;> simp [Stop.afterExit]
    have e : (s.modifyPort p (fun r =>
        { r with lane := rest, stop := (s.port p).stop.afterExit.1, exitWindow := none })).scene
        = (s.scene.setLane p rest).setStop p (s.port p).stop.afterExit.1 := scene_setPort _ _ _
    have popped := h.pop (p := p) (e := head) (rest := rest) hl ha
    rw [← e] at popped
    simp only
    split
    · next hw =>
      refine lane_exitResult (lane_seatHead popped ?_) (fun i hi st => ?_)
      · rw [State.port_modifyPort_self]
        rcases hv with hv | ⟨w, hv⟩
        · rw [hv] at hw; cases hw
        · simp only [hv, Stop.afterExit]
      · have hs : ∀ u : State, (u.seatHead p).scene.shown = u.scene.shown := by
          intro u
          unfold State.seatHead
          simp only
          split
          · unfold State.modifySource
            split
            · rw [scene_putSource]; rfl
            · rfl
          · rfl
        rw [hs, e]
        exact unshown i hi st
    · exact lane_exitResult popped (fun i hi st => by rw [e]; exact unshown i hi st)

theorem lane_makeMissing {s : State} {l : List LaneEntry} {i : Slot} (h : s.scene.Law (.slot i :: l)) (d : LostDetail) :
    (s.makeMissing i d).scene.Law l := by
  unfold State.makeMissing
  split
  · next hn =>
    have := h.drop
    rwa [Scene.setMark_self (mark_none hn), Scene.hide_self] at this
    exact h.unshown (fun p hm => by rw [show s.scene.mark i = .off from mark_none hn] at hm; cases hm)
  · next r hr =>
    rw [scene_post, h.ended hr (q := { r with state := .missing, current := none }) (y := s.scene) (fun _ => by simp [Source.mark])
      (scene_putSource _ _ _) rfl]
    exact h.drop

/-- An entry that has left its lane list is lost. -/
theorem lane_loseEntry {s : State} {l : List LaneEntry} {e : LaneEntry} (h : s.scene.Law (e :: l)) (d : LostDetail) :
    (s.loseEntry d e).scene.Law l := by
  unfold State.loseEntry
  split
  · next i =>
    split
    · next hn =>
      have := h.drop
      rwa [Scene.setMark_self (mark_none hn), Scene.hide_self] at this
      exact h.unshown (fun p hm => by rw [show s.scene.mark i = .off from mark_none hn] at hm; cases hm)
    · next r hr =>
      split
      · have e := h.ended hr (q := r) (u := s) (y := s.scene) (fun hn => by simp [Source.mark, h.current hr hn])
          (Scene.setMark_self (mark_some hr)).symm rfl
        rw [scene_retireSource (fun p hi => ?_), e]
        · refine Eq.mp (congrArg (fun x : Scene => x.Law l) ?_) h.drop
          refine Scene.same (fun j => ?_) (fun _ => rfl) (fun _ => rfl) (fun _ => rfl) (fun _ => rfl)
          unfold Scene.setMark Scene.hide
          simp only
          split <;> rfl
        · have hi : LaneEntry.slot i ∈ (s.endPresentationOf r.port i).scene.lane p := hi
          rw [e] at hi
          exact laneless_of_loose h p hi
      · exact lane_makeMissing h d
  · exact h.dropOther (fun _ => nofun)
  · exact h.dropOther (fun _ => nofun)

theorem lane_loseHead {s : State} {l : List LaneEntry} (h : s.scene.Law l) (p : Port) {v : Stop}
    (hv : v = .vacant ∨ v = .leaving) (d : LostDetail) : (s.loseHead p v d).scene.Law l := by
  unfold State.loseHead
  split
  · next hl =>
    rw [scene_modifyPort_stop (by rfl)]
    refine h.restop p ?_
    show HeadFits s.scene p v (s.port p).lane
    rw [hl]
    exact hv
  · next head rest hl =>
    refine lane_loseEntry ?_ d
    rw [show (s.modifyPort p (fun r => { r with lane := rest, stop := v })).scene = (s.scene.setLane p rest).setStop p v
      from scene_setPort _ _ _]
    exact h.pop hl hv

theorem scene_clearVerifyFailed (s : State) (e : LaneEntry) : (s.clearVerifyFailed e).scene = s.scene := by
  unfold State.clearVerifyFailed
  split
  · refine scene_modifySource_same (fun r _ => ?_)
    split <;> rfl
  · rfl
  · rfl

theorem lane_loseEntries (d : LostDetail) (m : List LaneEntry) : ∀ {s : State}, s.scene.Law m →
    (m.foldl (fun t e => (t.clearVerifyFailed e).loseEntry d e) s).scene.Law [] := by
  induction m with
  | nil => intro s h; exact h
  | cons e m ih =>
    intro s h
    exact ih (lane_loseEntry (by rw [scene_clearVerifyFailed]; exact h) d)

theorem scene_markFault (s : State) (p : Port) (cause : FaultCause) : (s.markFault p cause).scene = s.scene := by
  unfold State.markFault
  refine (scene_post _ _).trans (scene_modifyPort_same ?_ ?_) <;> split <;> rfl

theorem lane_takeLocalControl {s : State} (h : s.scene.Law []) (p : Port) : (s.takeLocalControl p).scene.Law [] := by
  unfold State.takeLocalControl
  have e := h.withdrawArm p
  rw [scene_markFault]
  refine lane_loseEntries _ _ ?_
  rw [show ((s.withdrawArm p).modifyPort p (fun r => { r with stop := .vacant, exitWindow := none, lane := [] })).scene
    = ((s.withdrawArm p).scene.setLane p []).setStop p .vacant from scene_setPort _ _ _]
  have := Scene.Law.popAll (x := (s.withdrawArm p).scene) (l := []) (by rw [e]; exact h) p
  rw [List.append_nil] at this
  exact this

/-! ### Faults -/

theorem lane_demote {s : State} {l : List LaneEntry} (h : s.scene.Law l) (p : Port) : (s.demote p).scene.Law l := by
  unfold State.demote
  split
  · next i rest hl =>
    obtain ⟨r, hr, rfl, _, hst⟩ := h.headRecord hl
    rw [hr]
    simp only
    split
    · next hp =>
      refine lane_passHead ?_ _
      rw [h.ended hr (q := { r with state := .ready, current := none, lines := r.deferCurrent }) (y := s.scene)
        (fun _ => by simp [Source.mark]) (scene_putSource _ _ _) rfl]
      have hv : (s.port r.port).stop = .verified := by
        rw [hp] at hst
        revert hst
        cases (s.port r.port).stop <;> simp [Stop.heads]
      have := h.restate (p := r.port) (i := i) (rest := rest) (st := .ready) (v := .verified) hl rfl (by decide)
      rwa [show (s.scene.setMark i (.on r.port .ready)).setStop r.port .verified = s.scene.setMark i (.on r.port .ready)
        from Scene.setStop_self hv] at this
    · exact h
  · exact h

theorem lane_raiseFault {s : State} {l : List LaneEntry} (h : s.scene.Law l) (p : Port) (cause : FaultCause) :
    (s.raiseFault p cause).scene.Law l := lane_demote (by rw [scene_markFault]; exact h) p

theorem lane_endUnconfirmed {s : State} {l : List LaneEntry} (h : s.scene.Law l) (p : Port) :
    (s.endUnconfirmed p).scene.Law l := by
  unfold State.endUnconfirmed
  split
  · exact h
  · next a _ =>
    have ended : ((s.modifyPort p (fun r => { r with arm := none, unconfirmed := (s.port p).unconfirmed + 1 })).postIf
        (s.unconfirmedNotice p ((s.port p).unconfirmed + 1) a.item)).scene = s.scene :=
      (scene_postIf _ _).trans (scene_modifyPort_same rfl rfl)
    have h' : ((s.modifyPort p (fun r => { r with arm := none, unconfirmed := (s.port p).unconfirmed + 1 })).postIf
        (s.unconfirmedNotice p ((s.port p).unconfirmed + 1) a.item)).scene.Law l := by rw [ended]; exact h
    simp only
    split
    · refine lane_raiseFault ?_ p _
      split
      · rw [h'.collide]; exact h'
      · exact h'
    · split
      · rw [h'.collide]; exact h'
      · exact h'

end Sys2Proof.Machine
end

