-- ==== Sys2Proof/Laws/LaneEvents.lean ====
section
/-! SUPPORT. The law of the scene through selection and the work at the end of an event (`lane_settle`), displacement, and the
events of the loop, the lanes and the Exposure Monitor. -/

namespace Sys2Proof.Machine

/-! ### Selection -/

theorem lane_releasePresented {s : State} {l : List LaneEntry} (h : s.scene.Law l) {i : Slot}
    (hs : ∀ r, s.source i = some r → r.state = .presented ∧ (s.port r.port).lane ≠ []) :
    (s.releasePresented i).scene.Law l := by
  unfold State.releasePresented
  split
  · exact h
  · next r hr =>
    obtain ⟨hp, hl⟩ := hs r hr
    have e : (s.putSource i { r with
        current := none, lines := moveLines (fun l => decide (l.state = .blocked)) .deferred r.lines }).scene = s.scene :=
      scene_putSource_same hr (by simp [Source.mark, hp])
    exact lane_openStop (by rw [e]; exact h) hl

/-- The presented record of a station, and the lane list it heads. -/
theorem Scene.Law.presented {s : State} (h : s.scene.Law []) {st : Station} {i : Slot}
    (hs : (s.station st).presentation = some i) :
    ∃ r, s.source i = some r ∧ r.state = .presented ∧ portStation r.port = st ∧ (s.port r.port).lane ≠ [] := by
  obtain ⟨p, hm, hp, _⟩ := (h.shows st).shown i hs
  obtain ⟨r, hr, rfl, h2, _⟩ := mark_spot.mp hm
  refine ⟨r, hr, h2, hp, fun hn => ?_⟩
  rcases (h.lanes r.port).listed i _ hm with hi | hi
  · have hi : LaneEntry.slot i ∈ (s.port r.port).lane := hi
    rw [hn] at hi; cases hi
  · cases hi

theorem lane_chooseLine {s : State} (h : s.scene.Law []) (st : Station) : (s.chooseLine st).scene.Law [] := by
  unfold State.chooseLine
  split
  · exact h
  · next i hi =>
    obtain ⟨r, hr, hp, _, hl⟩ := h.presented hi
    rw [hr]
    simp only
    split
    · next k _ =>
      have e : (s.putSource i { r with current := some k }).scene = s.scene :=
        scene_putSource_same hr (by simp [Source.mark, hp])
      rw [e]; exact h
    · exact lane_releasePresented h (fun q hq => by rw [hr] at hq; cases hq; exact ⟨hp, hl⟩)

theorem lane_refreshLine {s : State} (h : s.scene.Law []) (st : Station) : (s.refreshLine st).scene.Law [] := by
  unfold State.refreshLine
  split
  · split
    · exact h
    · exact lane_chooseLine h st
  · exact h

/-- What a port offers: its head, READY at a VERIFIED stop. -/
theorem Scene.Law.offered {s : State} {l : List LaneEntry} (h : s.scene.Law l) {p : Port} {i : Slot}
    (ho : s.offers p = some i) : ∃ r rest, s.source i = some r ∧ r.state = .ready ∧ r.port = p ∧
      (s.port p).lane = .slot i :: rest ∧ (s.port p).stop = .verified := by
  obtain ⟨_, hl, r, hr, h1, _, h3⟩ := offers_iff.mp ho
  cases hn : (s.port p).lane with
  | nil => rw [hn] at hl; cases hl
  | cons e rest =>
    rw [hn] at hl
    cases hl
    obtain ⟨q, hq, _, _, hst⟩ := h.headRecord hn
    rw [hr] at hq; cases hq
    refine ⟨r, rest, hr, h1, h3, rfl, ?_⟩
    rw [h1] at hst
    revert hst
    cases (s.port p).stop <;> simp [Stop.heads]

theorem lane_present {s : State} (h : s.scene.Law []) {p : Port} {i : Slot} (ho : s.offers p = some i)
    (hn : (s.station (portStation p)).presentation = none) : (s.present (portStation p) p i).scene.Law [] := by
  obtain ⟨r, rest, hr, hst, rfl, hl, hv⟩ := h.offered ho
  unfold State.present
  refine lane_chooseLine ?_ _
  unfold State.modifyStation
  rw [scene_setStation, State.modifySource_of_some hr, scene_putSource,
    mark_in (r := { r with state := .presented }) rfl (fun e => absurd rfl e)]
  exact h.present hl hv hn

theorem selectedPort_station {s : State} {st : Station} {p : Port} {i : Slot} (h : s.selectedPort st = some (p, i)) :
    portStation p = st := by
  have hp : ∀ side, portStation (stationPort st side) = st := by intro side; cases st <;> cases side <;> rfl
  unfold State.selectedPort at h
  simp only at h
  split at h
  · cases h; exact hp _
  · obtain ⟨j, _, e⟩ := Option.map_eq_some_iff.mp h
    cases e; exact hp _

theorem lane_selectHead (st : Station) (n : Nat) : ∀ {s : State}, s.scene.Law [] → (s.selectHead st n).scene.Law [] := by
  induction n with
  | zero => intro s h; exact h
  | succ n ih =>
    intro s h
    unfold State.selectHead
    split
    · next hc =>
      split
      · next p i hp =>
        have ho := selectedPort_some hp
        have hst := selectedPort_station hp
        subst hst
        exact ih (lane_present h ho hc.1)
      · exact h
    · exact h

theorem lane_select {s : State} (h : s.scene.Law []) (st : Station) : (s.select st).scene.Law [] := lane_selectHead st 3 h

theorem scene_drainPort (s : State) (p : Port) : (s.drainPort p).scene = s.scene := by
  unfold State.drainPort
  split
  · exact (scene_post _ _).trans (scene_modifyPort_same rfl rfl)
  · rfl

theorem lane_selectAndDrain {s : State} (h : s.scene.Law []) : s.selectAndDrain.scene.Law [] := by
  unfold State.selectAndDrain
  rw [scene_foldl scene_drainPort]
  exact lane_select (lane_select h .a) .b

theorem scene_grantCancel {s : State} {i : Slot} (h : ∀ r, s.source i = some r → r.state = .called) :
    (s.grantCancel i).scene = s.scene := by
  unfold State.grantCancel
  refine (scene_sendCancel _ _).trans (scene_modifySource_same (fun r hr => ?_))
  simp [Source.mark, h r hr, SourceState.inLane]

theorem scene_grantCall {s : State} {i : Slot} (p : Port) (h : ∀ r, s.source i = some r → r.state = .queued) :
    (s.grantCall p i).scene = s.scene := by
  unfold State.grantCall
  split
  · rfl
  · next r hr =>
    rw [scene_transmit]
    refine (scene_of rfl rfl rfl rfl : _ = (s.putSource i { r with
      visit := r.visit + 1, state := .calling, answerWindow := some s.config.answerWindow }).scene).trans
      (scene_putSource_same hr ?_)
    simp [Source.mark, h r hr, SourceState.inLane]

theorem scene_grants (n : Nat) : ∀ s : State, (s.grants n).scene = s.scene := by
  induction n with
  | zero => intro s; rfl
  | succ n ih =>
    intro s
    unfold State.grants
    split
    · split
      · next i hi =>
        refine (ih _).trans (scene_grantCancel (fun r hr => ?_))
        have := List.find?_some hi
        rw [hr] at this
        unfold Source.cancelClaim at this
        simp only [Bool.and_eq_true, decide_eq_true_eq] at this
        exact this.1
      · split
        · next p i hp =>
          refine (ih _).trans (scene_grantCall p (fun r hr => ?_))
          unfold State.nextCall at hp
          obtain ⟨q, _, hq⟩ := List.exists_of_findSome?_eq_some hp
          obtain ⟨j, hj, e⟩ := Option.map_eq_some_iff.mp hq
          cases e
          unfold State.callClaim at hj
          split at hj
          · have := List.find?_some hj
            rw [hr] at this
            simp only [Bool.and_eq_true, decide_eq_true_eq] at this
            exact this.1
          · cases hj
        · rfl
    · rfl

theorem lane_settle {s : State} (h : s.scene.Law []) : s.settle.scene.Law [] := by
  unfold State.settle State.arbitrate
  rw [scene_grants]
  exact lane_selectAndDrain h

theorem lane_endSighted {s : State} (h : s.scene.Law []) (p : Port) : (s.endSighted p).scene.Law [] :=
  lane_selectAndDrain (lane_endUnconfirmed h p)

/-! ### Exposure -/

theorem scene_warnRecord (s : State) (i : Slot) : (s.warnRecord i).scene = s.scene := by
  unfold State.warnRecord
  split
  · rfl
  · split
    · rfl
    · split
      · exact (scene_post _ _).trans (scene_modifyTote _ _ _)
      · rfl

/-- A record out of the lanes is in no lane list. -/
theorem Scene.Law.unlisted {s : State} {l : List LaneEntry} (h : s.scene.Law l) {i : Slot} {r : Source}
    (hr : s.source i = some r) (ho : r.state.inLane = false) (p : Port) : LaneEntry.slot i ∉ (s.port p).lane := by
  intro hi
  obtain ⟨st, hm⟩ := (h.lanes p).spotted hi
  rw [h.mark_off hr ho] at hm; cases hm

/-- A record out of the lanes is retired. -/
theorem Scene.Law.retire {s : State} {l : List LaneEntry} (h : s.scene.Law l) {i : Slot} {r : Source}
    (hr : s.source i = some r) (ho : r.state.inLane = false) (cause : RetireCause) :
    (s.retireSource i cause).scene = s.scene := by
  rw [scene_retireSource (h.unlisted hr ho)]
  exact Scene.setMark_self (h.mark_off hr ho)

/-- A record out of the lanes goes home. -/
theorem Scene.Law.goHome {s : State} {l : List LaneEntry} (h : s.scene.Law l) {i : Slot} {r : Source}
    (hr : s.source i = some r) (ho : r.state.inLane = false) (cause : LeavingCause) :
    (s.enterReturning i cause).scene = s.scene := by
  rw [scene_enterReturning]
  exact Scene.setMark_self (h.mark_off hr ho)

theorem lane_expireSource {s : State} (h : s.scene.Law []) (i : Slot) : (s.expireSource i).scene.Law [] := by
  unfold State.expireSource
  split
  · exact h
  · next r hr =>
    have same : ∀ {t : State}, t.scene = s.scene → t.scene.Law [] := fun e => e ▸ h
    split <;> rename_i e
    · exact same (h.retire hr (by rw [e]; rfl) _)
    · exact h
    · exact h
    · exact same (scene_putSource_same hr (by rfl))
    · exact same (h.goHome hr (by rw [e]; rfl) _)
    · exact same (scene_putSource_same hr (by rfl))
    · exact same (scene_putSource_same hr (by rfl))
    · exact lane_passHead (same (scene_putSource_same hr (by rfl))) _
    · have hd : (s.putSource i { r with lines := r.deferOthers, passThrough := some r.expiredReason }).scene = s.scene :=
        scene_putSource_same hr rfl
      simp only
      split
      · refine lane_releasePresented (same hd) (fun q hq => ?_)
        rw [State.source_putSource_self] at hq
        cases hq
        exact ⟨e, (h.presented ((h.shows _).only i r.port (mark_spot.mpr ⟨r, hr, rfl, e, rfl⟩) rfl)).elim
          (fun q hq => by obtain ⟨hq, _, _, hl⟩ := hq; rw [hr] at hq; cases hq; exact hl)⟩
      · exact same hd
    · exact h
    · exact h
    · exact same (scene_putSource_same hr (by rfl))
    · exact same (scene_putSource_same hr (by rfl))

theorem lane_refreshLines {s t : State} (h : s.scene.Law []) (e : t.scene = s.scene) :
    ((t.refreshLine .a).refreshLine .b).scene.Law [] := lane_refreshLine (lane_refreshLine (e ▸ h) .a) .b

theorem lane_expireOrder {s : State} (h : s.scene.Law []) (i : Slot) : (s.expireOrder i).scene.Law [] := by
  unfold State.expireOrder
  split
  · exact h
  · next ho => exact lane_refreshLines h ((scene_moveLinesFor _ _ _ _).trans (scene_putOrder ho _))

theorem lane_expireRecord {s : State} (h : s.scene.Law []) (i : Slot) : (s.expireRecord i).scene.Law [] := by
  unfold State.expireRecord
  split
  · exact h
  · split
    · exact h
    · split
      · have marked : ∀ n, ((s.modifyTote i (fun t => { t with expired := true })).post n).scene.Law [] := by
          intro n; rw [scene_post, scene_modifyTote]; exact h
        split
        · exact lane_expireSource (marked _) i
        · exact lane_expireOrder (marked _) i
      · exact h

theorem lane_examine {s : State} (h : s.scene.Law []) (i : Slot) : (s.examine i).scene.Law [] :=
  lane_expireRecord (by rw [scene_warnRecord]; exact h) i

/-! ### The loop -/

theorem lane_adopt {s : State} (h : s.scene.Law []) {i : Slot} (ho : ∀ r, s.source i = some r → r.state.inLane = false) :
    (s.adopt i).scene = s.scene := by
  unfold State.adopt
  refine scene_modifySource_same (fun r hr => ?_)
  have hc := h.current hr (not_presented (ho r hr))
  rw [mark_out (ho r hr) hc]
  exact mark_out rfl hc

/-- A slot that is not in a port's lane list is not made UNIDENTIFIED there. -/
theorem scene_unidentify_out {s : State} {p : Port} {i : Slot} (h : LaneEntry.slot i ∉ (s.port p).lane) :
    (s.unidentify p i).scene = s.scene := by
  have hm : (s.port p).lane.map (fun e => if e = .slot i then LaneEntry.unidentified else e) = (s.port p).lane := by
    refine (List.map_congr_left (fun e he => ?_)).trans (List.map_id _)
    rw [if_neg (by rintro rfl; exact h he)]; rfl
  refine scene_modifyPort_same hm ?_
  simp only
  rw [if_neg]
  rintro ⟨hh, _⟩
  exact h (List.mem_of_mem_head? hh)

theorem lane_unidentify {s : State} {l : List LaneEntry} (h : s.scene.Law l) {p : Port} {i : Slot} {st : SourceState}
    (hi : (s.mark i).spot = some (p, st)) : (s.unidentify p i).scene.Law (.slot i :: l) := by
  unfold State.unidentify State.modifyPort
  rw [scene_setPort]
  refine h.unidentify hi (fun hh => ?_) (fun hh => ?_)
  · simp only
    split
    · exact ⟨nofun, nofun⟩
    · next hn =>
      have hh : (s.port p).lane.head? = some (.slot i) := hh
      refine ⟨fun hv => hn ⟨hh, hv⟩, fun hv => ?_⟩
      cases hl : (s.port p).lane with
      | nil => rw [hl] at hh; cases hh
      | cons e rest =>
        rw [hl] at hh; cases hh
        obtain ⟨_, _, _, _, hst⟩ := h.headRecord hl
        rw [hv] at hst; cases hst
  · simp only
    rw [if_neg (fun hn => hh hn.1)]
    rfl

/-- The record of a slot, in its lane or out of the lanes. -/
theorem lane_sendHome {s : State} (h : s.scene.Law []) (i : Slot) : (s.sendHome i).scene.Law [] := by
  unfold State.sendHome
  split
  · exact h
  · next r hr =>
    have e0 : (s.putSource i r.giveBack).scene = s.scene := scene_putSource_same hr rfl
    have h0 : (s.putSource i r.giveBack).scene.Law [] := e0 ▸ h
    have hr0 : (s.putSource i r.giveBack).source i = some r.giveBack := by simp
    rw [scene_enterReturning]
    cases hin : r.state.inLane with
    | false =>
      have e1 := scene_unidentify_out (h0.unlisted hr0 hin r.port)
      have e2 : (((s.putSource i r.giveBack).unidentify r.port i).endPresentationOf r.port i).scene = s.scene := by
        have hn : (((s.putSource i r.giveBack).unidentify r.port i).station (portStation r.port)).presentation ≠ some i := by
          intro hs
          have hs : s.scene.shown (portStation r.port) = some i := by rw [← e0, ← e1]; exact hs
          exact h.unshown (fun p hm => by rw [h.mark_off hr hin] at hm; cases hm) _ hs
        unfold State.endPresentationOf
        rw [if_neg hn, e1, e0]
      rw [e2, Scene.setMark_self (h.mark_off hr hin)]
      exact h
    | true =>
      have hu := lane_unidentify (l := []) h0 (p := r.port) (i := i) (st := r.state)
        (by rw [mark_some hr0]; simp [Source.mark, Source.giveBack, hin])
      have e2 := hu.ended (r := r.giveBack) (q := r.giveBack) (u := (s.putSource i r.giveBack).unidentify r.port i)
        (y := ((s.putSource i r.giveBack).unidentify r.port i).scene) hr0
        (fun hn => by simp [Source.mark, h0.current hr0 hn]) (Scene.setMark_self (mark_some hr0)).symm rfl
      have e3 := hu.drop
      rw [show (((s.putSource i r.giveBack).unidentify r.port i).endPresentationOf r.port i).scene = _ from e2]
      refine Eq.mp (congrArg (fun x : Scene => x.Law []) ?_) e3
      refine Scene.same (fun j => ?_) (fun _ => rfl) (fun _ => rfl) (fun _ => rfl) (fun _ => rfl)
      unfold Scene.setMark Scene.hide
      simp only
      split <;> rfl

theorem lane_sightLane {s : State} (h : s.scene.Law []) {i : Slot} (hin : ∀ r, s.source i = some r → r.state.inLane = true) :
    (s.sightLane i).scene.Law [] := by
  unfold State.sightLane
  split
  · exact h
  · next r hr =>
    have hu := lane_unidentify (l := []) h (p := r.port) (i := i) (st := r.state)
      (by rw [mark_some hr]; simp [Source.mark, hin r hr])
    have hr1 : (s.unidentify r.port i).source i = some r := hr
    have e2 := hu.ended hr1 (q := r) (u := s.unidentify r.port i) (y := (s.unidentify r.port i).scene)
      (fun hn => by simp [Source.mark, h.current hr hn]) (Scene.setMark_self (mark_some hr1)).symm rfl
    have e3 : (((s.unidentify r.port i).endPresentationOf r.port i).modifySource i
        (fun q => { q with state := .inbound, current := none })).scene
        = (((s.unidentify r.port i).scene.setMark i .off).hide i) := by
      have off : ∀ q : Source, ({ q with state := .inbound, current := none } : Source).mark = .off := fun q => rfl
      have put : ∀ t : State, t.source i ≠ none → (t.modifySource i (fun q => { q with state := .inbound, current := none })).scene
          = t.scene.setMark i .off := by
        intro t ht
        cases hq : t.source i with
        | none => exact absurd hq ht
        | some q => rw [State.modifySource_of_some hq, scene_putSource, off]
      rw [put, e2]
      · refine Scene.same (fun j => ?_) (fun _ => rfl) (fun _ => rfl) (fun _ => rfl) (fun _ => rfl)
        unfold Scene.setMark Scene.hide
        simp only
        split <;> rfl
      · intro hn
        have := mark_none hn
        have e4 : ((s.unidentify r.port i).endPresentationOf r.port i).mark i = { r.mark with stray := false } := by
          show ((s.unidentify r.port i).endPresentationOf r.port i).scene.mark i = _
          rw [e2]; exact if_pos rfl
        rw [this] at e4
        have := congrArg Mark.spot e4
        simp [Mark.off, Source.mark, hin r hr] at this
    simp only
    rw [scene_queueHead]
    split
    · rw [scene_post, e3]; exact hu.drop
    · rw [e3]; exact hu.drop

theorem lane_sightMissing {s : State} (h : s.scene.Law []) {i : Slot}
    (ho : ∀ r, s.source i = some r → r.state.inLane = false) : (s.sightMissing i).scene = s.scene := by
  unfold State.sightMissing
  split
  · rfl
  · next r hr =>
    rw [scene_post, scene_queueHead]
    exact h.put hr (ho r hr) rfl (.inr rfl)

/-- A released record stands at an open stop. -/
theorem Scene.Law.releasing {s : State} (h : s.scene.Law []) {i : Slot} {r : Source} (hr : s.source i = some r)
    (hs : r.state = .releasing) : (s.port r.port).stop.opened := by
  have hm : (s.mark i).spot = some (r.port, .releasing) := mark_spot.mpr ⟨r, hr, rfl, hs, rfl⟩
  rcases (h.lanes r.port).listed i _ hm with hi | hi
  · have hi : LaneEntry.slot i ∈ (s.port r.port).lane := hi
    cases hl : (s.port r.port).lane with
    | nil => rw [hl] at hi; cases hi
    | cons e rest =>
      rw [hl] at hi
      rcases List.mem_cons.mp hi with rfl | hi
      · obtain ⟨q, hq, _, _, hst⟩ := h.headRecord hl
        rw [hr] at hq; cases hq
        rw [hs] at hst
        revert hst
        unfold Stop.opened
        cases (s.port r.port).stop <;> simp [Stop.heads]
      · have := (h.lanes r.port).behind i (by show _ ∈ (s.port r.port).lane.tail; rw [hl]; exact hi)
        rw [show s.scene.mark i = s.mark i from rfl, hm] at this
        cases this
  · cases hi

theorem lane_sightSource {s : State} (h : s.scene.Law []) (i : Slot) : (s.sightSource i).scene.Law [] := by
  unfold State.sightSource
  split
  · exact h
  · next r hr =>
    have g : ∀ {b : Bool}, r.state.inLane = b → ∀ q, s.source i = some q → q.state.inLane = b := by
      intro b hb q hq
      rw [hr] at hq; cases hq; exact hb
    have adopted : r.state.inLane = false → (s.adopt i).scene.Law [] := fun ho => by
      rw [lane_adopt h (g ho)]; exact h
    split <;> rename_i e
    · exact adopted (by rw [e]; rfl)
    · split
      · exact lane_sendHome h i
      · exact adopted (by rw [e]; rfl)
    · split
      · exact lane_sendHome h i
      · exact adopted (by rw [e]; rfl)
    · split
      · exact lane_sendHome h i
      · exact adopted (by rw [e]; rfl)
    · unfold State.sightInbound
      split
      · exact lane_endSighted h _
      · exact h
    · split
      · exact lane_sendHome h i
      · exact lane_sightLane h (g (by rw [e]; rfl))
    · split
      · exact lane_sendHome h i
      · exact lane_sightLane h (g (by rw [e]; rfl))
    · split
      · exact lane_sendHome h i
      · exact lane_sightLane h (g (by rw [e]; rfl))
    · split
      · exact lane_sendHome h i
      · exact lane_sightLane h (g (by rw [e]; rfl))
    · exact lane_takeExit h (h.releasing hr e)
    · exact h
    · exact h
    · split
      · exact lane_sendHome h i
      · rw [lane_sightMissing h (g (by rw [e]; rfl))]; exact h

theorem scene_armForeign (s : State) (place : Option Port) (reason : ForeignReason) (c : Code) :
    (s.armForeign place reason c).scene = s.scene := by
  unfold State.armForeign
  split
  · exact scene_armDivert _ _ _
  · rfl

theorem lane_divertDecision {s : State} (h : s.scene.Law []) (i : Slot) : (s.divertDecision i).scene.Law [] := by
  unfold State.divertDecision
  split
  · exact h
  · next r hr =>
    split
    · split
      · exact h
      · split
        · rw [scene_putSource_same (q := { r with backoff := r.backoff - 1 }) hr rfl]; exact h
        · split
          · rw [scene_armDivert]; exact h
          · rw [h.collide]; exact h
    · exact h

theorem lane_endForeignArm (c : Code) {s : State} (h : s.scene.Law []) (p : Port) : (s.endForeignArm c p).scene.Law [] := by
  unfold State.endForeignArm
  split
  · split
    · exact lane_endSighted h p
    · exact h
  · exact h

theorem lane_identify {s : State} (h : s.scene.Law []) (c : Code) : (s.identify c).scene.Law [] := by
  unfold State.identify
  split
  · unfold State.sightService; rw [scene_armForeign]; exact h
  · split
    · unfold State.sightUnknown
      split
      · simp only; rw [scene_post, scene_armForeign]; exact h
      · exact h
    · split
      · exact lane_divertDecision (lane_sightSource h _) _
      · unfold State.sightOrder; rw [scene_post]; exact h

theorem lane_foldl {α : Type} {f : State → α → State} (hf : ∀ s a, s.scene.Law [] → (f s a).scene.Law []) (l : List α) :
    ∀ s : State, s.scene.Law [] → (l.foldl f s).scene.Law [] := by
  induction l with
  | nil => intro s h; exact h
  | cons a l ih => intro s h; exact ih _ (hf s a h)

theorem lane_scannerRead {s : State} (h : s.scene.Law []) (c : Code) (time : Nat) : (s.scannerRead c time).scene.Law [] := by
  unfold State.scannerRead
  split
  · have e : ({ s with dupFilter := some { code := c, time := time } } : State).scene = s.scene := scene_of rfl rfl rfl rfl
    simp only
    split
    · rw [e]; exact h
    · exact lane_identify (lane_foldl (fun s p h => lane_endForeignArm c h p) _ _ (by rw [e]; exact h)) c
  · exact h

/-! ### Displacement -/

theorem scene_leaveLane {s : State} {i : Slot} (hc : ∀ r, s.source i = some r → r.current = none) :
    (s.leaveLane i).scene = s.scene.setMark i .off := by
  unfold State.leaveLane
  split
  · next hn => exact (Scene.setMark_self (mark_none hn)).symm
  · next r hr =>
    split
    · exact scene_enterReturning _ _ _
    · have e : ((s.putSource i { r with state := .inbound }).queueHead r.port i).scene = s.scene.setMark i .off := by
        rw [scene_queueHead, scene_putSource, mark_out (r := { r with state := .inbound }) rfl (hc r hr)]
      rw [scene_collide (fun q hq _ => ?_), e]
      have hq : (s.putSource i { r with state := .inbound }).source i = some q := hq
      rw [State.source_putSource_self] at hq
      cases hq
      exact hc r hr

theorem Scene.setStop_setStop (x : Scene) (p : Port) (v w : Stop) : (x.setStop p v).setStop p w = x.setStop p w := by
  unfold Scene.setStop
  congr 1
  funext q
  by_cases e : p = q
  · simp only [if_pos e]
  · simp only [if_neg e]

theorem Scene.setLane_setLane (x : Scene) (p : Port) (l m : List LaneEntry) : (x.setLane p l).setLane p m = x.setLane p m := by
  unfold Scene.setLane
  congr 1
  funext q
  by_cases e : p = q
  · simp only [if_pos e]
  · simp only [if_neg e]

/-- The head of a list that is being read is displaced by an entry that is in no list: the law stands, the stop where the
new head fits it. -/
theorem lane_displaceHead {s : State} {l : List LaneEntry} {e : LaneEntry} (h : s.scene.Law (e :: l)) {p : Port} {a : Attempt}
    (hv : (s.port p).stop = .reading a) (he : ∀ i, e = .slot i → LaneEntry.slot i ∉ l) {v : Stop}
    (hh : HeadFits s.scene p v [e]) :
    ((s.displaceHead p e).scene.setStop p v).Law l ∧ (∃ m, ((s.displaceHead p e).port p).lane = e :: m) ∧
      (s.displaceHead p e).scene.shown = s.scene.shown ∧ ((s.displaceHead p e).port p).stop = .reading a := by
  have ne : (s.port p).lane ≠ [] := by
    intro hl
    have hh : HeadFits s.scene p (s.port p).stop (s.port p).lane := (h.lanes p).head
    rw [hl, hv] at hh
    rcases hh with hh | hh <;> cases hh
  -- the new head, once the old one is dealt with
  have pushed : ∀ {x : Scene}, x.Law (e :: l) → x.stop p = .vacant →
      (∀ i, e = .slot i → x.mark i = s.scene.mark i) → ((x.setLane p (e :: x.lane p)).setStop p v).Law l := by
    intro x hx hp hm
    refine hx.push hp he (hh.congr (fun i hi => ?_))
    rw [hm i (by simpa using hi)]
  unfold State.displaceHead
  split
  · next hl => exact absurd hl ne
  · next j rest hl =>
    obtain ⟨r, hr, rfl, hin, hst⟩ := h.headRecord hl
    have hst : r.state = .atStop := by rw [hv] at hst; simpa [Stop.heads] using hst
    have hc : r.current = none := h.current hr (by rw [hst]; decide)
    have unshown : ∀ st, s.scene.shown st ≠ some j :=
      h.unshown (fun q hm => by rw [h.mark_on hr hin, hst] at hm; cases hm)
    have hj : LaneEntry.slot j ∉ e :: l := (h.lanes r.port).clear j (by show _ ∈ (s.port r.port).lane; rw [hl]; exact .head _)
    have other : ∀ i, e = .slot i → ¬ j = i := by
      rintro i rfl rfl
      exact hj (.head _)
    have popped := h.pop (p := r.port) (e := .slot j) (rest := rest) hl (.inl rfl)
    have hstop : ((s.scene.setLane r.port rest).setStop r.port .vacant).stop r.port = .vacant := if_pos rfl
    split
    · next behind hb =>
      have refilled := popped.refill hstop hj ⟨r.state, by
          show (s.scene.mark j).spot = _
          rw [h.mark_on hr hin]; rfl⟩ unshown
        (m := behind) (by
          show replaceUnidentified j (if r.port = r.port then rest else s.scene.lane r.port) = some behind
          rw [if_pos rfl]; exact hb)
      have := pushed refilled hstop (fun i hi => if_neg (other i hi))
      have hr' : (s.modifyPort r.port (fun r => { r with lane := e :: behind })).source j = some r := hr
      have e1 : ((s.modifyPort r.port (fun r => { r with lane := e :: behind })).modifySource j
          (fun r => { r with state := .laned })).scene
          = (s.scene.setLane r.port (e :: behind)).setMark j (.on r.port .laned) := by
        rw [State.modifySource_of_some hr', scene_putSource, scene_modifyPort_lane (by rfl),
          mark_in (r := { r with state := .laned }) rfl (fun _ => hc)]
      refine ⟨?_, ?_, (by rw [e1]; rfl), (congrArg (fun x : Scene => x.stop r.port) e1).trans hv⟩
      · refine Eq.mp (congrArg (fun x : Scene => x.Law l) ?_) this
        rw [e1]
        refine Scene.same (fun _ => rfl) (fun q => ?_) (fun q => ?_) (fun _ => rfl) (fun _ => rfl)
        · simp only [Scene.setLane, Scene.setStop, Scene.setMark, if_true]
          split <;> rfl
        · simp only [Scene.setLane, Scene.setStop, Scene.setMark, if_true]
          split <;> rfl
      · refine ⟨behind, ?_⟩
        rw [port_modifySource, State.port_modifyPort_self]
    · have dropped := popped.dropUnshown unshown
      have := pushed dropped hstop (fun i hi => if_neg (other i hi))
      have e1 : ((s.modifyPort r.port (fun r => { r with lane := e :: rest })).leaveLane j).scene
          = (s.scene.setLane r.port (e :: rest)).setMark j .off := by
        rw [scene_leaveLane (fun q hq => ?_), scene_modifyPort_lane (by rfl)]
        have hq : s.source j = some q := hq
        rw [hr] at hq; cases hq; exact hc
      refine ⟨?_, ?_, (by rw [e1]; rfl), (congrArg (fun x : Scene => x.stop r.port) e1).trans hv⟩
      · refine Eq.mp (congrArg (fun x : Scene => x.Law l) ?_) this
        rw [e1]
        refine Scene.same (fun _ => rfl) (fun q => ?_) (fun q => ?_) (fun _ => rfl) (fun _ => rfl)
        · simp only [Scene.setLane, Scene.setStop, Scene.setMark, if_true]
          split <;> rfl
        · simp only [Scene.setLane, Scene.setStop, Scene.setMark, if_true]
          split <;> rfl
      · refine ⟨rest, ?_⟩
        have := congrArg (fun x : Scene => x.lane r.port) e1
        exact this.trans (if_pos rfl)
  · next e' rest hn hl =>
    have he' : ∀ i, e' ≠ .slot i := fun i hi => hn i hi
    have popped := (h.pop (p := p) (e := e') (rest := rest) hl (.inl rfl)).dropOther he'
    have hstop : ((s.scene.setLane p rest).setStop p .vacant).stop p = .vacant := if_pos rfl
    have := pushed popped hstop (fun _ _ => rfl)
    refine ⟨?_, ?_, rfl, by rw [State.port_modifyPort_self]; exact hv⟩
    · refine Eq.mp (congrArg (fun x : Scene => x.Law l) ?_) this
      rw [scene_modifyPort_lane (by rfl)]
      refine Scene.same (fun _ => rfl) (fun q => ?_) (fun q => ?_) (fun _ => rfl) (fun _ => rfl)
      · simp only [Scene.setLane, Scene.setStop, if_true]
        split <;> rfl
      · simp only [Scene.setLane, Scene.setStop, if_true]
        split <;> rfl
    · exact ⟨rest, by rw [State.port_modifyPort_self]⟩

/-! ### Verification -/

/-- A head that is not PRESENTED is verified, the law standing at another state of the stop before. -/
theorem lane_makeReady {s : State} {p : Port} {i : Slot} {m : List LaneEntry} {v : Stop} (h : (s.scene.setStop p v).Law [])
    (hl : (s.port p).lane = .slot i :: m) (hn : ∀ st, s.scene.shown st ≠ some i) : (s.makeReady p i).scene.Law [] := by
  unfold State.makeReady
  refine lane_passHead ?_ p
  have hm : ∃ st, (s.mark i).spot = some (p, st) := (h.lanes p).spotted (by show _ ∈ (s.port p).lane; rw [hl]; exact .head _)
  obtain ⟨st, hm⟩ := hm
  obtain ⟨r, hr, rfl, h2, h3⟩ := mark_spot.mp hm
  have hnp : r.state ≠ .presented := by
    intro e
    exact hn _ ((h.shows (portStation r.port)).only i r.port (mark_spot.mpr ⟨r, hr, rfl, e, rfl⟩) rfl)
  have hc : r.current = none := by
    have hs : (s.mark i).stray = false := h.straight i
    rw [mark_some hr] at hs
    unfold Source.mark at hs
    simpa [hnp] using hs
  rw [scene_modifyPort_stop (by rfl), State.modifySource_of_some hr, scene_putSource,
    mark_in (r := { r with state := .ready }) rfl (fun _ => hc)]
  have := h.restate (p := r.port) (i := i) (rest := m) (st := .ready) (v := .verified) hl rfl (by decide)
  rw [Scene.hide_self (x := ((s.scene.setStop r.port v).setMark i (.on r.port .ready)).setStop r.port .verified) hn] at this
  refine Eq.mp (congrArg (fun x : Scene => x.Law []) ?_) this
  exact Scene.setStop_setStop (s.scene.setMark i (.on r.port .ready)) r.port v .verified

theorem lane_verifyInLane {s : State} (h : s.scene.Law []) {p : Port} {i : Slot} {a : Attempt}
    (hv : (s.port p).stop = .reading a) (hi : ∃ st, (s.mark i).spot = some (p, st)) : (s.verifyInLane p i).scene.Law [] := by
  obtain ⟨st, hi⟩ := hi
  have hil : LaneEntry.slot i ∈ (s.port p).lane := by
    rcases (h.lanes p).listed i st hi with hm | hm
    · exact hm
    · cases hm
  unfold State.verifyInLane
  split
  · next hh =>
    cases hl : (s.port p).lane with
    | nil => rw [hl] at hh; cases hh
    | cons e rest =>
      rw [hl] at hh; cases hh
      obtain ⟨r, hr, rfl, hin, hst⟩ := h.headRecord hl
      refine lane_makeReady (v := (s.port r.port).stop) (by rw [Scene.setStop_self (by rfl)]; exact h) hl
        (h.unshown (fun q hm => ?_))
      rw [hv] at hst
      rw [h.mark_on hr hin] at hm
      have : r.state = .atStop := by simpa [Stop.heads] using hst
      rw [this] at hm; cases hm
  · next hh =>
    cases hl : (s.port p).lane with
    | nil => rw [hl] at hil; cases hil
    | cons e rest =>
      rw [hl] at hh hil
      have hne : e ≠ .slot i := fun e' => hh (by rw [e']; rfl)
      have hir : LaneEntry.slot i ∈ rest := (List.mem_cons.mp hil).resolve_left (Ne.symm hne)
      -- the head stepped back, the stop as if it had no seated head
      have back : ((s.stepBack (some e)).scene.setStop p .vacant).Law [] ∧ (s.stepBack (some e)).scene.shown = s.scene.shown ∧
          (s.stepBack (some e)).scene.lane = s.scene.lane := by
        unfold State.stepBack
        split
        · next j hj =>
          cases hj
          obtain ⟨r, hr, rfl, hin, hst⟩ := h.headRecord hl
          have hst : r.state = .atStop := by rw [hv] at hst; simpa [Stop.heads] using hst
          have hc : r.current = none := h.current hr (by rw [hst]; decide)
          rw [State.modifySource_of_some hr, scene_putSource, mark_in (r := { r with state := .laned }) rfl (fun _ => hc)]
          have := h.restate (p := r.port) (i := j) (rest := rest) (st := .laned) (v := .vacant) hl rfl (by decide)
          rw [Scene.hide_self] at this
          · exact ⟨this, rfl, rfl⟩
          · exact fun st => h.unshown (i := j) (fun q hm => by rw [h.mark_on hr hin, hst] at hm; cases hm) st
        · next hj =>
          refine ⟨h.restop p ?_, rfl, rfl⟩
          show HeadFits s.scene p .vacant (s.port p).lane
          rw [hl]
          cases e with
          | slot j => exact absurd rfl (hj j)
          | unidentified => exact ⟨nofun, nofun⟩
          | foreign reason c => exact ⟨nofun, nofun⟩
      obtain ⟨back, hshown, hlane⟩ := back
      have hl' : ((s.stepBack (some e)).port p).lane = e :: rest := (congrFun hlane p).trans hl
      have once := fun k => (h.lanes p).once k
      have once : ∀ k, (e :: rest).count (.slot k) ≤ 1 := fun k => by
        have : s.scene.lane p = e :: rest := hl
        rw [← this]; exact once k
      have hci : rest.count (.slot i) ≤ 1 := (List.Sublist.count_le _ (List.sublist_cons_self e rest)).trans (once i)
      have swapped := back.relist (p := p) (if_pos rfl) (m := exchangeHead i (e :: rest)) (fun k => by
        rw [show ((s.stepBack (some e)).scene.setStop p .vacant).lane p = e :: rest from hl',
          count_exchangeHead i k e rest hne hci]
        have hk := once k
        have hi1 := List.count_pos_iff.mpr hir
        rw [List.count_cons] at hk ⊢
        by_cases e1 : k = i
        · subst e1
          rw [if_pos rfl, if_neg (by simpa using hne)]
          omega
        · rw [if_neg e1]
          by_cases e2 : e = .slot k
          · rw [if_pos e2, if_pos (by simp [e2])]
            omega
          · rw [if_neg e2, if_neg (by simp [e2])]
            omega)
      refine lane_makeReady (v := .vacant) (m := rest.map (fun x => if x = .slot i then e else x)) ?_ ?_ ?_
      · rw [List.head?_cons, scene_modifyPort_lane (by rfl), hl']
        exact swapped
      · rw [List.head?_cons, State.port_modifyPort_self, hl']
        rfl
      · intro st
        rw [List.head?_cons, scene_modifyPort_lane (by rfl)]
        show (s.stepBack (some e)).scene.shown st ≠ _
        rw [hshown]
        refine h.unshown (fun q hm => ?_) st
        have := (h.lanes p).behind i (by show _ ∈ (s.port p).lane.tail; rw [hl]; exact hir)
        rw [this] at hm; cases hm

theorem lane_verifyFound {s : State} (h : s.scene.Law []) {p : Port} {i : Slot} {r : Source} {a : Attempt}
    (hv : (s.port p).stop = .reading a) (hr : s.source i = some r) (hp : r.port = p) (ho : r.state.inLane = false) :
    (s.verifyFound p i r).scene.Law [] := by
  have hc := h.current hr (not_presented ho)
  have hm : ({ r.foundAtStop with state := SourceState.ready } : Source).mark = .on p .ready := by
    have : ({ r.foundAtStop with state := SourceState.ready } : Source).port = p ∧
        ({ r.foundAtStop with state := SourceState.ready } : Source).current = none := by
      unfold Source.foundAtStop Source.giveBack Source.resolveLines
      simp only
      split <;> exact ⟨hp, hc⟩
    rw [mark_in rfl (fun _ => this.2), this.1]
  have e0 : (((s.putSource i { r.foundAtStop with state := .ready }).unqueue p i).dropArmOf p i).scene
      = s.scene.setMark i (.on p .ready) := by
    rw [scene_dropArmOf, scene_unqueue, scene_putSource, hm]
  have loose := h.loosen (i := i) (by rw [h.mark_off hr ho]; rfl) p (st := .ready) (by decide)
  rw [← e0] at loose
  have hstop : ((((s.putSource i { r.foundAtStop with state := .ready }).unqueue p i).dropArmOf p i).port p).stop = .reading a := by
    rw [← hv]
    exact congrArg (fun x : Scene => x.stop p) e0
  obtain ⟨taken, ⟨m, hl⟩, hshown, _⟩ := lane_displaceHead loose hstop (fun _ _ h => nomatch h) (v := .verified)
    ⟨.ready, by rw [e0]; simp [Scene.setMark, Mark.on], rfl⟩
  have unshown : ∀ st, ((((s.putSource i { r.foundAtStop with state := .ready }).unqueue p i).dropArmOf p i).displaceHead p
      (.slot i)).scene.shown st ≠ some i := by
    intro st
    rw [hshown, e0]
    exact h.unshown (fun q hs => by rw [h.mark_off hr ho] at hs; cases hs) st
  unfold State.verifyFound
  simp only
  split
  · refine lane_makeReady (v := .verified) (m := m) (by rw [scene_post]; exact taken) (by rw [State.port_post]; exact hl) ?_
    rw [scene_post]; exact unshown
  · exact lane_makeReady (v := .verified) taken hl unshown

/-! ### A stop that is being read, through what befalls another port -/

theorem stop_openStop {s : State} {p q : Port} (h : p ≠ q) : ((s.openStop q).port p).stop = (s.port p).stop := by
  have hend : ∀ (t : State) (u : Port) (i : Slot), ((t.endPresentationOf u i).port p).stop = (t.port p).stop := by
    intro t u i
    unfold State.endPresentationOf
    split
    · have e := congrArg (fun x : Scene => x.stop p) (scene_endPresentation (s := t) (st := portStation u) (i := i) (by assumption))
      exact e
    · rfl
  have opened : ((s.modifyPort q (fun r => { r with stop := .openSeated, exitWindow := some Config.exitWindow })).port p).stop
      = (s.port p).stop := by rw [State.port_modifyPort_of_ne _ (Ne.symm h)]
  unfold State.openStop
  simp only
  split
  · rw [hend, port_modifySource]; exact opened
  · exact opened

theorem stop_passHead {s : State} {p q : Port} (h : p ≠ q) : ((s.passHead q).port p).stop = (s.port p).stop := by
  unfold State.passHead
  split
  · split
    · split
      · exact stop_openStop h
      · rfl
    · rfl
  · rfl

theorem stop_of_scene {s t : State} (h : t.scene = s.scene) (p : Port) : (t.port p).stop = (s.port p).stop :=
  congrArg (fun x : Scene => x.stop p) h

theorem stop_endPresentationOf (s : State) (u : Port) (i : Slot) (p : Port) :
    ((s.endPresentationOf u i).port p).stop = (s.port p).stop := by
  unfold State.endPresentationOf
  split
  · exact congrArg (fun x : Scene => x.stop p) (scene_endPresentation (s := s) (st := portStation u) (i := i) (by assumption))
  · rfl

theorem stop_raiseFault {s : State} {p q : Port} (h : p ≠ q) (cause : FaultCause) :
    ((s.raiseFault q cause).port p).stop = (s.port p).stop := by
  unfold State.raiseFault State.demote
  refine Eq.trans ?_ (stop_of_scene (scene_markFault s q cause) p)
  split
  · split
    · split
      · rw [stop_passHead h, stop_endPresentationOf]; rfl
      · rfl
    · rfl
  · rfl

theorem stop_endUnconfirmed {s : State} (h : s.scene.Law []) {p q : Port} (hq : p ≠ q) :
    ((s.endUnconfirmed q).port p).stop = (s.port p).stop := by
  unfold State.endUnconfirmed
  split
  · rfl
  · next a _ =>
    have ended : ((s.modifyPort q (fun r => { r with arm := none, unconfirmed := (s.port q).unconfirmed + 1 })).postIf
        (s.unconfirmedNotice q ((s.port q).unconfirmed + 1) a.item)).scene = s.scene :=
      (scene_postIf _ _).trans (scene_modifyPort_same rfl rfl)
    have collided : ∀ i, (((s.modifyPort q (fun r => { r with arm := none, unconfirmed := (s.port q).unconfirmed + 1 })).postIf
        (s.unconfirmedNotice q ((s.port q).unconfirmed + 1) a.item)).collide i).scene = s.scene := fun i =>
      (Scene.Law.collide (l := []) (by rw [ended]; exact h) i).trans ended
    simp only
    split
    · rw [stop_raiseFault hq]
      split
      · exact stop_of_scene (collided _) p
      · exact stop_of_scene ended p
    · split
      · exact stop_of_scene (collided _) p
      · exact stop_of_scene ended p

theorem stop_present {s : State} (h : s.scene.Law []) {p q : Port} {i : Slot} {a : Attempt} (ho : s.offers q = some i)
    (hn : (s.station (portStation q)).presentation = none) (hp : (s.port p).stop = .reading a) :
    ((s.present (portStation q) q i).port p).stop = .reading a := by
  obtain ⟨r, rest, hr, hst, rfl, hl, hv⟩ := h.offered ho
  have hne : p ≠ r.port := by rintro rfl; rw [hp] at hv; cases hv
  unfold State.present State.modifyStation
  rw [State.modifySource_of_some hr]
  unfold State.chooseLine
  simp only [State.station_setStation_self]
  have hsrc : ∀ x, ((s.putSource i { r with state := .presented }).setStation (portStation r.port) x).source i
      = some { r with state := .presented } := by
    intro x
    unfold State.source State.record
    rw [State.setStation_slots]
    exact State.source_putSource_self s i { r with state := .presented }
  have hport : ∀ x, ((s.putSource i { r with state := .presented }).setStation (portStation r.port) x).port p = s.port p := by
    intro x
    unfold State.port
    rw [State.setStation_ports]; rfl
  simp only [hsrc]
  split
  · exact (congrArg PortRec.stop (hport _)).trans hp
  · unfold State.releasePresented
    simp only [hsrc]
    rw [stop_openStop hne]
    exact (congrArg PortRec.stop (hport _)).trans hp

theorem stop_selectHead {p : Port} {a : Attempt} (st : Station) (n : Nat) : ∀ {s : State}, s.scene.Law [] →
    (s.port p).stop = .reading a → ((s.selectHead st n).port p).stop = .reading a := by
  induction n with
  | zero => intro s _ hp; exact hp
  | succ n ih =>
    intro s h hp
    unfold State.selectHead
    split
    · next hc =>
      split
      · next q i hq =>
        have ho := selectedPort_some hq
        have hst := selectedPort_station hq
        subst hst
        exact ih (lane_present h ho hc.1) (stop_present h ho hc.1 hp)
      · exact hp
    · exact hp

theorem stop_selectAndDrain {s : State} (h : s.scene.Law []) {p : Port} {a : Attempt} (hp : (s.port p).stop = .reading a) :
    (s.selectAndDrain.port p).stop = .reading a := by
  unfold State.selectAndDrain
  rw [stop_of_scene (scene_foldl scene_drainPort _ _) p]
  exact stop_selectHead .b 3 (lane_select h .a) (stop_selectHead .a 3 h hp)

theorem stop_enterReturning (s : State) (i : Slot) (cause : LeavingCause) (p : Port) :
    ((s.enterReturning i cause).port p).stop = (s.port p).stop :=
  congrArg (fun x : Scene => x.stop p) (scene_enterReturning s i cause)

theorem stop_unidentify {s : State} {p q : Port} (h : p ≠ q) (i : Slot) :
    ((s.unidentify q i).port p).stop = (s.port p).stop := by
  unfold State.unidentify
  rw [State.port_modifyPort_of_ne _ (Ne.symm h)]

theorem stop_sendHome {s : State} {p : Port} {i : Slot} (h : ∀ r, s.source i = some r → p ≠ r.port) :
    ((s.sendHome i).port p).stop = (s.port p).stop := by
  unfold State.sendHome
  split
  · rfl
  · next r hr => rw [stop_enterReturning, stop_endPresentationOf, stop_unidentify (h r hr)]; rfl

theorem stop_sightLane {s : State} {p : Port} {i : Slot} (h : ∀ r, s.source i = some r → p ≠ r.port) :
    ((s.sightLane i).port p).stop = (s.port p).stop := by
  unfold State.sightLane
  split
  · rfl
  · next r hr =>
    simp only
    rw [stop_of_scene (scene_queueHead _ _ _)]
    have e : ((((s.unidentify r.port i).endPresentationOf r.port i).modifySource i
        (fun q => { q with state := .inbound, current := none })).port p).stop = (s.port p).stop := by
      rw [port_modifySource, stop_endPresentationOf, stop_unidentify (h r hr)]
    split
    · rw [State.port_post]; exact e
    · exact e

theorem stop_collide (s : State) (i : Slot) (p : Port) : ((s.collide i).port p).stop = (s.port p).stop := by
  unfold State.collide
  split
  · rfl
  · split
    · split
      · rfl
      · unfold State.exhaust
        split
        · rfl
        · split
          · rw [State.port_post, stop_of_scene (scene_sendReturn _ _), stop_of_scene (scene_dropArmOf _ _ _)]; rfl
          · rw [State.port_post, stop_enterReturning]; rfl
    · rfl

theorem stop_exitResult (s : State) (e : LaneEntry) (p : Port) : ((s.exitResult e).port p).stop = (s.port p).stop := by
  unfold State.exitResult
  split
  · split
    · rfl
    · split
      · exact stop_enterReturning _ _ _ _
      · exact stop_enterReturning _ _ _ _
      · exact stop_enterReturning _ _ _ _
      · split
        · exact (stop_enterReturning _ _ _ _).trans rfl
        · rw [stop_collide, stop_of_scene (scene_queueHead _ _ _)]; rfl
  · split
    · exact stop_collide _ _ _
    · rfl
  · rfl
  · rfl
  · rfl
  · rfl

theorem stop_takeExit {s : State} {p q : Port} (h : p ≠ q) : ((s.takeExit q).port p).stop = (s.port p).stop := by
  have hseat : ∀ t : State, ((t.seatHead q).port p).stop = (t.port p).stop := by
    intro t
    unfold State.seatHead
    simp only
    split
    · rw [port_modifySource, State.port_modifyPort_of_ne _ (Ne.symm h)]
    · rw [State.port_modifyPort_of_ne _ (Ne.symm h)]
  unfold State.takeExit
  split
  · rfl
  · simp only
    rw [stop_exitResult]
    split
    · rw [hseat, State.port_modifyPort_of_ne _ (Ne.symm h)]
    · rw [State.port_modifyPort_of_ne _ (Ne.symm h)]

/-- A sighting of another port's record leaves a stop that is being read as it is. -/
theorem stop_sightSource {s : State} (h : s.scene.Law []) {p : Port} {a : Attempt} (hp : (s.port p).stop = .reading a)
    {i : Slot} {r : Source} (hr : s.source i = some r) (hne : r.port ≠ p) :
    ((s.sightSource i).port p).stop = .reading a := by
  have hq : ∀ q, s.source i = some q → p ≠ q.port := by
    intro q hq
    rw [hr] at hq; cases hq
    exact Ne.symm hne
  have home := (stop_sendHome hq).trans hp
  have lane := (stop_sightLane hq).trans hp
  have adopted : ((s.adopt i).port p).stop = .reading a := by
    unfold State.adopt
    rw [port_modifySource]; exact hp
  have missing : ((s.sightMissing i).port p).stop = .reading a := by
    unfold State.sightMissing
    rw [hr]
    simp only
    rw [State.port_post, stop_of_scene (scene_queueHead _ _ _)]
    exact hp
  unfold State.sightSource
  rw [hr]
  simp only
  split
  · exact adopted
  · split
    · exact home
    · exact adopted
  · split
    · exact home
    · exact adopted
  · split
    · exact home
    · exact adopted
  · unfold State.sightInbound
    split
    · exact stop_selectAndDrain (lane_endUnconfirmed h _) ((stop_endUnconfirmed h (Ne.symm hne)).trans hp)
    · exact hp
  · split
    · exact home
    · exact lane
  · split
    · exact home
    · exact lane
  · split
    · exact home
    · exact lane
  · split
    · exact home
    · exact lane
  · exact (stop_takeExit (Ne.symm hne)).trans hp
  · exact hp
  · exact hp
  · split
    · exact home
    · exact missing

/-! ### Verification, the readiness chain -/

/-- A FOREIGN entry takes the head of a list that is being read. -/
theorem lane_foreignHead {s : State} (h : s.scene.Law []) {p : Port} {a : Attempt} (hv : (s.port p).stop = .reading a)
    (reason : ForeignReason) (c : Code) : (s.foreignHead p reason c).scene.Law [] ∧
      (∃ m, ((s.foreignHead p reason c).port p).lane = .foreign reason c :: m) ∧
      ((s.foreignHead p reason c).port p).stop = .reading a := by
  obtain ⟨h1, h2, _, h4⟩ := lane_displaceHead (e := .foreign reason c) ((Scene.Law.other (e := .foreign reason c) (fun _ => nofun)).mpr h) hv
    (fun _ => nofun) (v := .reading a) ⟨nofun, nofun⟩
  refine ⟨?_, h2, h4⟩
  rwa [Scene.setStop_self (x := (s.displaceHead p (.foreign reason c)).scene) h4] at h1

/-- A FOREIGN head is released. -/
theorem lane_openForeign {s t : State} (h : s.scene.Law []) {p : Port} {a : Attempt} (hv : (s.port p).stop = .reading a)
    {reason : ForeignReason} {c : Code} (ht : t.scene = (s.foreignHead p reason c).scene) : (t.openStop p).scene.Law [] := by
  obtain ⟨h1, ⟨m, h2⟩, _⟩ := lane_foreignHead h hv reason c
  refine lane_openStop (by rw [ht]; exact h1) ?_
  rw [show (t.port p).lane = _ from congrArg (fun x : Scene => x.lane p) ht]
  rw [show (s.foreignHead p reason c).scene.lane p = _ from h2]
  exact nofun

/-- A CAPTURED or SERVICE head is held. -/
theorem lane_holdForeign {s t : State} (h : s.scene.Law []) {p : Port} {a : Attempt} (hv : (s.port p).stop = .reading a)
    {reason : ForeignReason} {c : Code} (hr : reason = .captured ∨ reason = .service)
    (ht : t.scene = (s.foreignHead p reason c).scene) :
    (t.modifyPort p (fun q => { q with stop := .holding })).scene.Law [] := by
  obtain ⟨h1, ⟨m, h2⟩, _⟩ := lane_foreignHead h hv reason c
  rw [scene_modifyPort_stop (by rfl), ht]
  refine h1.restop p ?_
  rw [show (s.foreignHead p reason c).scene.lane p = _ from h2]
  exact ⟨nofun, fun _ => hr⟩

theorem lane_verifyOwn {s : State} (h : s.scene.Law []) {p : Port} {i : Slot} {r : Source} {a : Attempt}
    (hv : (s.port p).stop = .reading a) (hr : s.source i = some r) (hp : r.port = p) : (s.verifyOwn p i r).scene.Law [] := by
  have hm : r.state.inLane = true → ∃ st, (s.mark i).spot = some (p, st) :=
    fun hin => ⟨_, mark_spot.mpr ⟨r, hr, hp, rfl, hin⟩⟩
  unfold State.verifyOwn
  split <;> rename_i e
  · exact lane_verifyInLane h hv (hm (by rw [e]; rfl))
  · exact lane_verifyInLane h hv (hm (by rw [e]; rfl))
  · exact lane_verifyInLane h hv (hm (by rw [e]; rfl))
  · exact lane_verifyInLane h hv (hm (by rw [e]; rfl))
  · exact lane_verifyInLane h hv (hm (by rw [e]; rfl))
  · exact lane_verifyFound h hv hr hp (by rw [e]; rfl)
  · exact lane_verifyFound h hv hr hp (by rw [e]; rfl)
  · exact lane_verifyFound h hv hr hp (by rw [e]; rfl)
  · exact lane_verifyFound h hv hr hp (by rw [e]; rfl)
  · exact lane_verifyFound h hv hr hp (by rw [e]; rfl)
  · exact lane_verifyFound h hv hr hp (by rw [e]; rfl)
  · exact lane_openForeign h hv rfl
  · exact lane_openForeign h hv rfl

theorem lane_verify {s : State} (h : s.scene.Law []) {p : Port} {a : Attempt} (hv : (s.port p).stop = .reading a) (c : Code) :
    (s.verify p c).scene.Law [] := by
  have stray : ∀ o, (s.verifyStray p c o).scene.Law [] := by
    intro o
    unfold State.verifyStray
    split
    · exact lane_holdForeign h hv (.inl rfl) (scene_post _ _)
    · exact lane_openForeign h hv (scene_post _ _)
  unfold State.verify
  split
  · unfold State.verifyService
    simp only
    split
    · exact lane_holdForeign h hv (.inr rfl) rfl
    · exact lane_openForeign h hv rfl
  · split
    · exact stray _
    · split
      · exact stray _
      · next r hr =>
        split
        · next hp => exact lane_verifyOwn h hv hr hp
        · next hp =>
          unfold State.verifyMisrouted
          exact lane_openForeign (lane_sightSource h _) (stop_sightSource h hv hr hp) (scene_post _ _)

theorem lane_failedRead {s : State} (h : s.scene.Law []) {p : Port} {a : Attempt} (hv : (s.port p).stop = .reading a)
    (b : Attempt) : (s.failedRead p b).scene.Law [] := by
  have hh : HeadFits s.scene p (s.port p).stop (s.port p).lane := (h.lanes p).head
  unfold State.failedRead
  split
  · rw [scene_modifyPort_stop (by rfl)]
    refine h.restop p ?_
    show HeadFits s.scene p (.reading .second) (s.port p).lane
    rw [hv] at hh
    cases hl : (s.port p).lane with
    | nil => rw [hl] at hh; rcases hh with hh | hh <;> cases hh
    | cons e rest =>
      rw [hl] at hh
      cases e with
      | slot i => exact hh
      | unidentified => exact ⟨nofun, nofun⟩
      | foreign reason c => exact ⟨nofun, nofun⟩
  · have e : ((s.post (.verifyFailed (s.headName p) p)).failHead p).scene = s.scene := by
      unfold State.failHead
      split
      · refine (scene_modifySource_same (fun r _ => ?_)).trans (scene_post _ _)
        split <;> rfl
      · exact scene_post _ _
    refine lane_openStop (by rw [e]; exact h) ?_
    rw [show ((State.failHead _ p).port p).lane = _ from congrArg (fun x : Scene => x.lane p) e]
    intro hl
    have hl : (s.port p).lane = [] := hl
    rw [hl, hv] at hh
    rcases hh with hh | hh <;> cases hh

theorem lane_laneFrame {s : State} (h : s.scene.Law []) (p : Port) (f : FrameClass) : (s.laneFrame p f).scene.Law [] := by
  unfold State.laneFrame
  split <;> rename_i hv
  · split
    · split
      · exact lane_verify h hv _
      · exact lane_failedRead h hv _
      · exact lane_failedRead h hv _
      · exact lane_failedRead h hv _
      · exact lane_failedRead h hv _
    · exact h
  all_goals exact h

/-! ### The sensors of a lane -/

theorem lane_takeEntry {s : State} (hs : ViewLaw s) (h : s.scene.Law []) (p : Port) : (s.takeEntry p).scene.Law [] := by
  unfold State.takeEntry
  split
  · split
    · next a ha =>
      unfold State.consumeArm
      simp only
      split
      · next i hi =>
        obtain ⟨r, hr, hp, hst⟩ := hs.arm p i (by rw [ha, Option.map_some, hi])
        have hr' : (s.modifyPort p (fun q => { q with lane := q.lane ++ [a.item.entry], arm := none, unconfirmed := 0 })).source i
            = some r := hr
        have hin : r.state.inLane = false := by rw [hst]; rfl
        have hc := h.current hr (not_presented hin)
        rw [scene_unqueue, State.modifySource_of_some hr', scene_putSource, scene_modifyPort_lane (by rfl),
          mark_in (r := { r with state := .laned }) rfl (fun _ => hc), hi]
        have := h.enterSlot p (j := i) (by rw [h.mark_off hr hin]; rfl) (fun h => nomatch h)
        rw [hp]
        exact this
      · next reason c hi =>
        rw [scene_modifyPort_lane (by rfl), hi]
        exact h.enter p (e := .foreign reason c) (fun _ => nofun)
    · rw [scene_modifyPort_lane (by rfl)]
      exact h.enter p (e := .unidentified) (fun _ => nofun)
  · exact lane_raiseFault (by rw [h.withdrawArm]; exact h) p _

theorem lane_setStop {s : State} (h : s.scene.Law []) (p : Port) {v : Stop}
    (hv : HeadFits s.scene p v (s.port p).lane) : (s.setStop p v).scene.Law [] := by
  unfold State.setStop
  rw [scene_modifyPort_stop (by rfl)]
  exact h.restop p hv

/-- An open stop stays open: its head fits it as before. -/
theorem headFits_open {x : Scene} {p : Port} {v w : Stop} (hv : v.opened) (hw : w.opened) {l : List LaneEntry}
    (h : HeadFits x p v l) : HeadFits x p w l := by
  rcases hv with rfl | ⟨b, rfl⟩ <;> rcases hw with rfl | ⟨c, rfl⟩ <;> (
    cases l with
    | nil => rcases h with h | h <;> cases h
    | cons e rest =>
      cases e with
      | slot i => exact h
      | unidentified => exact ⟨nofun, nofun⟩
      | foreign reason c => exact ⟨nofun, nofun⟩)

theorem lane_takeSeatOn {s : State} (h : s.scene.Law []) (p : Port) : (s.takeSeatOn p).scene.Law [] := by
  have hh : HeadFits s.scene p (s.port p).stop (s.port p).lane := (h.lanes p).head
  unfold State.takeSeatOn
  split <;> rename_i hv
  · exact lane_seatHead h hv
  · rw [hv] at hh
    exact lane_setStop h p (headFits_open (.inr ⟨_, rfl⟩) (.inr ⟨_, rfl⟩) hh)
  all_goals exact h

theorem lane_takeSeatOff {s : State} (h : s.scene.Law []) (p : Port) : (s.takeSeatOff p).scene.Law [] := by
  have hh : HeadFits s.scene p (s.port p).stop (s.port p).lane := (h.lanes p).head
  unfold State.takeSeatOff
  split <;> rename_i hv
  · rw [hv] at hh
    exact lane_setStop h p (headFits_open (.inl rfl) (.inr ⟨_, rfl⟩) hh)
  · rw [hv] at hh
    exact lane_setStop h p (headFits_open (.inr ⟨_, rfl⟩) (.inr ⟨_, rfl⟩) hh)
  · exact lane_setStop h p (headFits_laned (.inl rfl) (fun i hi => (h.lanes p).laned (.inr hv) hi))
  · exact lane_loseHead h p (.inl rfl) _
  · exact lane_loseHead h p (.inl rfl) _
  · exact lane_loseHead h p (.inl rfl) _
  · exact h

theorem lane_takeExitEvent {s : State} (h : s.scene.Law []) (p : Port) : (s.takeExitEvent p).scene.Law [] := by
  unfold State.takeExitEvent
  split <;> rename_i hv
  · exact lane_takeExit h (.inl hv)
  · exact lane_takeExit h (.inr ⟨_, hv⟩)
  · exact lane_loseHead h p (.inr rfl) _
  · exact lane_loseHead h p (.inr rfl) _
  · exact lane_loseHead h p (.inr rfl) _
  · exact h
  · exact h

theorem lane_seatWaiting {s : State} (h : s.scene.Law []) (p : Port) : (s.seatWaiting p).scene.Law [] := by
  unfold State.seatWaiting
  split
  · next hv => exact lane_seatHead h hv.1
  · exact h

end Sys2Proof.Machine
end

