-- ==== Sys2Proof/Laws/LaneCommands.lean ====
section
/-! SUPPORT. The law of the scene through the supply link, the readers, the stations, the requests and every command:
`lane_exec`, and with it the laws of the lane lists, the stops and the presentations (`lane_laws`). -/

namespace Sys2Proof.Machine

theorem lane_same {s t : State} (h : s.scene.Law []) (e : t.scene = s.scene) : t.scene.Law [] := e ▸ h

/-! ### The supply link -/

theorem scene_setSupply (s : State) (x : SupplyLink) : (s.setSupply x).scene = s.scene := scene_of rfl rfl rfl rfl

theorem scene_endFailedCall {s : State} (h : s.scene.Law []) {i : Slot} {r : Source} (hr : s.source i = some r)
    (ho : r.state.inLane = false) : (s.endFailedCall i r).scene = s.scene := by
  unfold State.endFailedCall
  split
  · exact h.retire hr ho _
  · exact (scene_queueTail _ _ _).trans (h.put hr ho rfl (.inr rfl))

theorem scene_takeRelease {s : State} (h : s.scene.Law []) {i : Slot} {r : Source} (hr : s.source i = some r)
    (ho : r.state.inLane = false) : (s.takeRelease i r).scene = s.scene := by
  unfold State.takeRelease
  split
  · have e : (s.putSource i r.giveBack).scene = s.scene := scene_putSource_same hr rfl
    have hr' : (s.putSource i r.giveBack).source i = some r.giveBack := by simp
    exact (Scene.Law.goHome (l := []) (by rw [e]; exact h) hr' ho _).trans e
  · exact h.put hr ho rfl (.inr rfl)

theorem scene_acceptCall {s : State} (h : s.scene.Law []) {i : Slot} {r : Source} (hr : s.source i = some r)
    (ho : r.state.inLane = false) : (s.acceptCall i r).scene = s.scene := by
  unfold State.acceptCall
  split
  · exact (scene_sendCancel _ _).trans (h.put hr ho rfl (.inr rfl))
  · exact h.put hr ho rfl (.inr rfl)

theorem scene_takeHome {s : State} (h : s.scene.Law []) {i : Slot} {r : Source} (hr : s.source i = some r)
    (ho : r.state.inLane = false) : (s.takeHome i r).scene = s.scene := by
  unfold State.takeHome
  split
  · exact h.retire hr ho _
  · split
    · exact h.retire hr ho _
    · split
      · exact h.retire hr ho _
      · simp only
        split
        · exact (scene_queueAhead _ _ _).trans (h.put hr ho rfl (.inr rfl))
        · exact (scene_queueTail _ _ _).trans (h.put hr ho rfl (.inr rfl))

theorem lane_answer {s : State} (h : s.scene.Law []) (tag : Byte) {fits : Source → Bool} {act : State → Slot → Source → State}
    (hf : ∀ r, fits r = true → r.state.inLane = false)
    (ha : ∀ i r, s.source i = some r → r.state.inLane = false → (act s i r).scene = s.scene) :
    (s.answer tag fits act).scene.Law [] := by
  unfold State.answer
  split
  · next r hr =>
    unfold State.fitting at hr
    split at hr
    · next q hq =>
      split at hr
      · next hc => cases hr; exact lane_settle (lane_same h (ha _ _ hq (hf _ hc.2)))
      · cases hr
    · cases hr
  · exact lane_same h (scene_setSupply _ _)

theorem lane_takeMessage {s : State} (h : s.scene.Law []) (m : DispatcherMessage) : (s.takeMessage m).scene.Law [] := by
  have answer : ∀ r : Source, r.fitsAnswer = true → r.state.inLane = false := by
    intro r hr
    have : r.state = .calling := by simpa [Source.fitsAnswer] using hr
    rw [this]; rfl
  have released : ∀ r : Source, r.fitsReleased = true → r.state.inLane = false := by
    intro r hr
    have : r.state = .calling ∨ r.state = .called := by simpa [Source.fitsReleased] using hr
    rcases this with e | e <;> rw [e] <;> rfl
  have cancel : ∀ r : Source, r.fitsCancelResult = true → r.state.inLane = false := by
    intro r hr
    have : r.state = .cancelling ∧ r.cancelHeld = false := by simpa [Source.fitsCancelResult] using hr
    rw [this.1]; rfl
  have taken : ∀ r : Source, r.fitsTaken = true → r.state.inLane = false := by
    intro r hr
    have : r.state = .returning ∨ r.state = .recycling := by simpa [Source.fitsTaken] using hr
    rcases this with e | e <;> rw [e] <;> rfl
  unfold State.takeMessage
  split
  · exact lane_answer h _ answer (fun i r hr ho => scene_acceptCall h hr ho)
  · refine lane_answer h _ answer (fun i r hr ho => ?_)
    unfold State.refuseCall
    split
    · exact scene_endFailedCall h hr ho
    · exact scene_endFailedCall h hr ho
    · exact h.retire hr ho _
  · exact lane_answer h _ released (fun i r hr ho => scene_takeRelease h hr ho)
  · refine lane_answer h _ cancel (fun i r hr ho => ?_)
    unfold State.resolveCancel
    split
    · exact scene_endFailedCall h hr ho
    · exact scene_endFailedCall h hr ho
    · exact scene_takeRelease h hr ho
  · exact lane_answer h _ taken (fun i r hr ho => scene_takeHome h hr ho)

theorem lane_takeSupplyByte {s : State} (h : s.scene.Law []) (b : SerialByte) : (s.takeSupplyByte b).scene.Law [] := by
  unfold State.takeSupplyByte
  simp only
  split
  · exact lane_same h (scene_setSupply _ _)
  · exact lane_same h (scene_setSupply _ _)
  · exact lane_takeMessage (lane_same h (scene_setSupply _ _)) _

theorem lane_takeSupplyBytes {s : State} (h : s.scene.Law []) (bs : List SerialByte) :
    (s.takeSupplyBytes bs).scene.Law [] := lane_foldl (fun _ b h => lane_takeSupplyByte h b) bs s h

theorem lane_expireCallWindow {s : State} (h : s.scene.Law []) (i : Slot) : (s.expireCallWindow i).scene.Law [] := by
  unfold State.expireCallWindow
  split
  · exact h
  · next r hr =>
    split
    · next hc =>
      exact lane_settle (lane_same h ((scene_sendCancel _ _).trans (h.put hr (by rw [hc.1]; rfl) rfl (.inr rfl))))
    · exact h

theorem lane_expireCancelWindow {s : State} (h : s.scene.Law []) (i : Slot) : (s.expireCancelWindow i).scene.Law [] := by
  unfold State.expireCancelWindow
  split
  · exact h
  · next r hr =>
    split
    · next hc =>
      have e := scene_endFailedCall h hr (by rw [hc.1]; rfl)
      refine lane_settle (lane_same h ?_)
      unfold State.courtesyReturn
      split
      · split
        · exact (scene_transmit _ _).trans e
        · exact e
      · exact e
    · exact h

theorem scene_producePass (s : State) (f : PassFrame) : (s.producePass f).scene = s.scene := by
  unfold State.producePass
  split
  · exact scene_sendCancel _ _
  · exact (scene_setSupply _ _).trans (scene_sendReturn _ _)

theorem lane_endPass {s : State} (h : s.scene.Law []) : s.endPass.scene.Law [] :=
  lane_settle (lane_same h (scene_setSupply _ _))

theorem lane_beginPass {s : State} (h : s.scene.Law []) : s.beginPass.scene.Law [] := by
  have begun : (({ s with meets := none } : State).setPass (some 0)).scene = s.scene := scene_of rfl rfl rfl rfl
  unfold State.beginPass
  simp only
  split
  · exact lane_endPass (lane_same h ((scene_foldl scene_producePass _ _).trans begun))
  · exact lane_same h ((scene_foldl scene_producePass _ _).trans begun)

theorem lane_whenLive {s : State} (h : s.scene.Law []) {f : State → State} (hf : (f s).scene.Law []) :
    (s.whenLive f).scene.Law [] := by
  unfold State.whenLive
  split
  · exact h
  · exact hf

theorem lane_idle {s : State} (h : s.scene.Law []) : s.idle.scene.Law [] := by
  refine lane_whenLive h ?_
  split
  · exact h
  · split
    · split
      · exact lane_endPass h
      · exact lane_same h (scene_producePass _ _)
    · exact h

/-! ### The readers -/

theorem scene_countFrame (s : State) (c : Channel) (bad : Bool) : (s.countFrame c bad).scene = s.scene := by
  unfold State.countFrame
  simp only
  split
  · exact (scene_postIf _ _).trans (scene_setReader _ _ _)
  · exact scene_setReader _ _ _

theorem lane_completeFrame {s : State} (h : s.scene.Law []) (c : Channel) (bytes : List Byte) (time : Nat) :
    (s.completeFrame c bytes time).scene.Law [] := by
  have hr : (s.modifyReader c (fun r => { r with receiver := .hunting })).scene.Law [] := lane_same h (scene_setReader _ _ _)
  unfold State.completeFrame
  refine lane_settle (lane_same (lane_settle ?_) (scene_countFrame _ _ _))
  unfold State.handOn
  split
  · split
    · exact lane_scannerRead hr _ _
    all_goals exact hr
  · exact lane_laneFrame hr _ _

theorem lane_takeReaderByte {s : State} (h : s.scene.Law []) (c : Channel) (time : Nat) (b : Byte) :
    (s.takeReaderByte c time b).scene.Law [] := by
  unfold State.takeReaderByte
  split
  · exact h
  · exact h
  · simp only
    split
    · exact lane_same h (scene_setReader _ _ _)
    · exact lane_completeFrame h _ _ _

theorem lane_discardFrame {s : State} (h : s.scene.Law []) (c : Channel) (after : ReaderReceiver) :
    (s.discardFrame c after).scene.Law [] :=
  lane_settle (lane_same h ((scene_countFrame _ _ _).trans (scene_setReader _ _ _)))

/-! ### The stations -/

theorem scene_pickerInput (s : State) (st : Station) : (s.pickerInput st).scene = s.scene := scene_setStation_same rfl rfl

theorem scene_expireAttendance (s : State) (st : Station) : (s.expireAttendance st).scene = s.scene := by
  unfold State.expireAttendance
  simp only
  split
  · rfl
  · split
    · exact (scene_postIf _ _).trans (scene_setStation_same rfl rfl)
    · exact scene_setStation_same rfl rfl

theorem lane_resolveCurrent {s : State} (h : s.scene.Law []) (st : Station) (dest : LineState) :
    (s.resolveCurrent st dest).scene.Law [] := by
  unfold State.resolveCurrent
  split
  · exact h
  · split
    · exact h
    · next r hr =>
      split
      · exact h
      · next k _ =>
        exact lane_chooseLine (lane_same h (scene_putSource_same (q := { r with lines := setLine r.lines k dest }) hr rfl)) st

theorem lane_pressPut {s : State} (h : s.scene.Law []) (u : Position) : (s.pressPut u).scene.Law [] := by
  unfold State.pressPut
  simp only
  split
  · exact lane_resolveCurrent h _ _
  · exact lane_same h (scene_post _ _)

theorem scene_holdSet (s : State) (st : Station) : (s.holdSet st).scene = s.scene := by
  unfold State.holdSet
  split
  · split
    · exact scene_enterHeld _ _ _
    · exact scene_setStation_same rfl rfl
  all_goals rfl

theorem scene_holdClear (s : State) (st : Station) : (s.holdClear st).scene = s.scene := by
  unfold State.holdClear
  split
  · exact scene_setStation_same rfl rfl
  all_goals rfl

theorem scene_followRequest (s : State) (st : Station) (before : Bool) : (s.followRequest st before).scene = s.scene := by
  unfold State.followRequest
  split
  · exact scene_holdSet _ _
  · exact scene_holdClear _ _
  · rfl
  · rfl

theorem scene_resume (s : State) (st : Station) : (s.resume st).scene = s.scene := by
  unfold State.resume
  split
  · split
    · exact scene_setStation_same rfl rfl
    · exact scene_setStation_same rfl rfl
  all_goals rfl

theorem lane_orderGone {s : State} (h : s.scene.Law []) (u : Position) : (s.orderGone u).scene.Law [] := by
  unfold State.orderGone
  split
  · exact h
  · split
    · exact h
    · next ho =>
      split
      · exact lane_settle (lane_refreshLines h
          ((scene_post _ _).trans ((scene_moveLinesFor _ _ _ _).trans (scene_putOrder ho _))))
      · exact h

theorem lane_orderBack {s : State} (h : s.scene.Law []) (u : Position) : (s.orderBack u).scene.Law [] := by
  unfold State.orderBack
  split
  · exact h
  · split
    · exact h
    · next ho =>
      split
      · exact lane_settle (lane_same h
          ((scene_post _ _).trans ((scene_moveLinesFor _ _ _ _).trans (scene_putOrder ho _))))
      · exact h

/-! ### The requests -/

theorem lane_reply {t : State} (h : t.scene.Law []) (status : Status) (result : List Byte) :
    (t.reply status result).state.scene.Law [] := h

theorem lane_replyPort {t : State} (h : t.scene.Law []) (p : Port) : (t.replyPort p).state.scene.Law [] := h

theorem lane_replyBench {t : State} (h : t.scene.Law []) : t.replyBench.state.scene.Law [] := h

theorem lane_whenConfigured {s : State} (h : s.scene.Law []) {x : Reply} (hx : x.state.scene.Law []) :
    (s.whenConfigured x).state.scene.Law [] := by
  unfold State.whenConfigured
  split
  · exact h
  · exact hx

theorem lane_onSource {s : State} (h : s.scene.Law []) (slot : Byte) {act : Slot → Source → Reply}
    (ha : ∀ i r, s.source i = some r → (act i r).state.scene.Law []) : (s.onSource slot act).state.scene.Law [] := by
  unfold State.onSource
  refine lane_whenConfigured h ?_
  split
  · exact h
  · split
    · exact h
    · exact h
    · next hr => exact ha _ _ (State.source_eq_some.mpr hr)

theorem lane_amendRecord {s : State} (h : s.scene.Law []) {i : Slot} {r : Source} (hr : s.source i = some r)
    (cancels : List Byte) (adds : List LineArg) : (s.amendRecord i r cancels adds).state.scene.Law [] := by
  unfold State.amendRecord
  split
  · exact h
  · split
    · exact h
    · split
      · exact h
      · simp only
        split
        · exact h
        · exact lane_same h (scene_putSource_same hr (by rfl))

theorem lane_withdrawByState {s : State} (h : s.scene.Law []) {i : Slot} {r : Source} (hr : s.source i = some r) :
    (s.withdrawByState i r).scene.Law [] := by
  have e0 : (s.putSource i r.withdrawn).scene = s.scene := scene_putSource_same hr rfl
  have h0 := lane_same h e0
  have hr0 : (s.putSource i r.withdrawn).source i = some r.withdrawn := by simp
  unfold State.withdrawByState
  split <;> rename_i e
  · exact lane_same h ((h0.retire hr0 (by show r.state.inLane = false; rw [e]; rfl) _).trans e0)
  · exact h0
  · exact h0
  · exact lane_same h (scene_putSource_same hr (by rfl))
  · exact lane_same h ((h0.goHome hr0 (by show r.state.inLane = false; rw [e]; rfl) _).trans e0)
  · exact lane_same h (scene_putSource_same hr (by rfl))
  · exact lane_same h (scene_putSource_same hr (by rfl))
  · exact lane_passHead (lane_same h (scene_putSource_same hr (by rfl))) _
  · obtain ⟨q, hq, _, _, hl⟩ := h.presented ((h.shows _).only i r.port (mark_spot.mpr ⟨r, hr, rfl, e, rfl⟩) rfl)
    rw [hr] at hq; cases hq
    refine lane_openStop (lane_same h (scene_putSource_same hr ?_)) hl
    simp [Source.mark, Source.withdrawn, Source.resolveLines, e]
  · exact lane_same h ((h0.retire hr0 (by show r.state.inLane = false; rw [e]; rfl) _).trans e0)
  · exact lane_same h (scene_putSource_same hr (by rfl))
  · exact h
  · exact h

theorem lane_withdrawRecord {s : State} (h : s.scene.Law []) {i : Slot} {r : Source} (hr : s.source i = some r) :
    (s.withdrawRecord i r).state.scene.Law [] := by
  unfold State.withdrawRecord
  split
  · exact h
  · split
    · refine lane_reply (lane_settle ?_) _ _
      unfold State.withdrawExpired
      split <;> rename_i e
      · exact lane_same h (h.retire hr (by rw [e]; rfl) _)
      · exact lane_same h (h.retire hr (by rw [e]; rfl) _)
      · exact h
    · split
      · exact h
      · exact lane_reply (lane_settle (lane_withdrawByState h hr)) _ _

theorem scene_retireOrder (s : State) (i : Slot) (cause : RetireCause) (n : Nat) :
    (s.retireOrder i cause n).scene = s.scene := by
  unfold State.retireOrder
  split
  · rfl
  · next r ho =>
    refine (scene_setSlot_same ?_).trans (scene_post _ _)
    show Mark.off = (s.post _).scene.mark i
    rw [scene_post]
    refine (mark_of_not_source (fun q hq => ?_)).symm
    rw [State.order_eq_some.mp ho] at hq
    cases hq

theorem lane_closeRecord {s : State} (h : s.scene.Law []) (i : Slot) : (s.closeRecord i).scene.Law [] := by
  unfold State.closeRecord
  exact lane_settle (lane_same (lane_refreshLines h (scene_moveLinesFor _ _ _ _)) (scene_retireOrder _ _ _ _))

theorem lane_cmdCloseOrder {s : State} (h : s.scene.Law []) (slot force : Byte) :
    (cmdCloseOrder slot force s).state.scene.Law [] := by
  unfold cmdCloseOrder
  refine lane_whenConfigured h ?_
  split
  · split
    · exact h
    · exact h
    · split
      · exact h
      · exact lane_reply (lane_closeRecord h _) _ _
  · exact h

/-- A record created out of the lanes, without a current line. -/
theorem scene_create {s : State} {i : Slot} {x : Record} (h : s.record i = none)
    (hx : (match x with
      | .source r => r.mark
      | .order _ => .off) = .off) : (s.create i x).scene = s.scene := by
  have e : s.mark i = .off := mark_of_not_source (fun q hq => by rw [h] at hq; cases hq)
  have : (s.setSlot i (some x)).scene = s.scene := by
    refine scene_setSlot_same ?_
    rw [e]
    cases x <;> exact hx
  exact (scene_of rfl rfl rfl rfl : (s.create i x).scene = (s.setSlot i (some x)).scene).trans this

theorem lane_cmdSubmitSource {s : State} (h : s.scene.Law []) (code : Code) (cls : Byte) (exposure : BitVec 16)
    (station : Byte) (lines : List LineArg) : (cmdSubmitSource code cls exposure station lines s).state.scene.Law [] := by
  unfold cmdSubmitSource
  refine lane_whenConfigured h ?_
  split
  · split
    · unfold State.submitChecked
      split
      · exact h
      · split
        · exact h
        · split
          · exact h
          · next hi =>
            split
            · split
              · exact h
              · simp only
                split
                · exact h
                · unfold State.admitSource
                  refine lane_reply (lane_settle ?_) _ _
                  have e : ∀ cls exp st p, (s.create _ (.source (s.newSource code cls exp st p lines))).scene = s.scene :=
                    fun _ _ _ _ => scene_create (nextFree_free hi) (mark_out rfl rfl)
                  split
                  · exact lane_same h ((scene_queueAhead _ _ _).trans (e _ _ _ _))
                  · exact lane_same h ((scene_queueTail _ _ _).trans (e _ _ _ _))
            · exact h
    · exact h
  · exact h

theorem lane_cmdBindOrder {s : State} (h : s.scene.Law []) (code : Code) (cls : Byte) (exposure : BitVec 16)
    (position : Byte) : (cmdBindOrder code cls exposure position s).state.scene.Law [] := by
  unfold cmdBindOrder
  refine lane_whenConfigured h ?_
  split
  · split
    · unfold State.bindChecked
      split
      · exact h
      · split
        · exact h
        · split
          · exact h
          · next i hi =>
            split
            · exact h
            · split
              · exact lane_same h (scene_create (x := .order (s.newOrder _ _ _ _)) (nextFree_free hi) rfl)
              · exact h
    · exact h
  · exact h

theorem lane_portCommand {s : State} (h : s.scene.Law []) (port : Byte) {act : Port → Reply}
    (ha : ∀ p, (act p).state.scene.Law []) : (s.portCommand port act).state.scene.Law [] := by
  unfold State.portCommand
  refine lane_whenConfigured h ?_
  split
  · exact h
  · exact ha _

theorem scene_setMode (s : State) (p : Port) (m : PortMode) : (s.setMode p m).scene = s.scene := scene_modifyPort_same rfl rfl

theorem lane_restartChain {s : State} (h : s.scene.Law []) (p : Port) : (s.restartChain p).scene.Law [] := by
  have hh : HeadFits s.scene p (s.port p).stop (s.port p).lane := (h.lanes p).head
  unfold State.restartChain
  split
  · next hv =>
    rw [hv] at hh
    cases hl : (s.port p).lane with
    | nil => rw [hl] at hh; rcases hh with hh | hh <;> cases hh
    | cons e rest =>
      rw [hl] at hh
      cases e with
      | slot i =>
        obtain ⟨r, hr, rfl, _⟩ := h.headRecord hl
        have e : (s.modifyPort r.port (fun q => q.startRead .first)).scene = s.scene.setStop r.port (.reading .first) :=
          scene_modifyPort_stop rfl
        simp only [hr]
        rw [h.ended hr (q := { r with state := .atStop, current := none, lines := r.deferCurrent })
          (y := s.scene.setStop r.port (.reading .first)) (fun _ => by simp [Source.mark])
          ((scene_putSource _ _ _).trans (by rw [e])) rfl]
        exact h.restate (p := r.port) (i := i) (rest := rest) (st := .atStop) (v := .reading .first) hl rfl (by decide)
      | unidentified => exact absurd rfl hh.1
      | foreign reason c => exact absurd rfl hh.1
  · exact h

theorem lane_openPort {s : State} (h : s.scene.Law []) (p : Port) : (s.openPort p).state.scene.Law [] := by
  have again := lane_settle (lane_restartChain (lane_same h (scene_setMode s p .isOpen)) p)
  unfold State.openPort
  split
  · exact lane_replyPort again p
  · exact lane_replyPort again p
  · exact h
  · exact h

theorem lane_closePort {s : State} (h : s.scene.Law []) (p : Port) : (s.closePort p).state.scene.Law [] := by
  unfold State.closePort
  split
  · exact lane_replyPort (lane_settle (lane_same h (scene_setMode s p .closing))) p
  all_goals exact h

theorem lane_ackFault {s : State} (h : s.scene.Law []) (p : Port) : (s.ackFault p).state.scene.Law [] := by
  unfold State.ackFault
  split
  · exact h
  · split
    · exact lane_replyPort (lane_same h (scene_modifyPort_same (by rfl) (by rfl))) p
    · exact h

theorem lane_stationCommand {s : State} (h : s.scene.Law []) (station : Byte) {act : State → Station → State}
    (ha : ∀ st, (act s st).scene = s.scene) : (s.stationCommand station act).state.scene.Law [] := by
  unfold State.stationCommand
  split
  · exact h
  · exact lane_reply (lane_settle (lane_same h (ha _))) _ _

/-- A state whose table, ports and stations are those after a reset. -/
theorem lane_empty {s : State} (h : s.slots = State.reset.slots) (hp : s.ports = State.reset.ports)
    (ha : s.stationA = StationRec.reset) (hb : s.stationB = StationRec.reset) : s.scene.Law [] := by
  rw [scene_of (s := State.reset) h hp ha hb]
  have port : ∀ p, State.reset.port p = PortRec.reset := by
    intro p
    show (Vector.replicate 4 PortRec.reset)[p.val] = _
    simp
  refine Scene.Law.bare (fun i => ?_) (fun p => ?_) (fun p => ?_) (fun st => ?_)
  · refine mark_of_not_source (fun r hr => ?_)
    have e : State.reset.record i = none := by
      show (Vector.replicate 64 none)[i.val] = none
      simp
    rw [e] at hr; cases hr
  · show (State.reset.port p).lane = []
    rw [port]; rfl
  · show (State.reset.port p).stop = .vacant
    rw [port]; rfl
  · cases st <;> rfl

theorem lane_readLevels {s : State} (h : s.scene.Law []) : s.readLevels.scene.Law [] := by
  have pause : ∀ (t : State) st, (t.readPause st).scene = t.scene := by
    intro t st
    unfold State.readPause
    split
    · exact scene_holdSet _ _
    · rfl
  refine lane_settle (lane_foldl (fun t p ht => ?_) _ _ (lane_same h ((pause _ .b).trans (pause s .a))))
  unfold State.readLocal
  split
  · exact lane_takeLocalControl ht p
  · exact ht

theorem lane_afterReset (s : State) (held : Bool) : (s.afterReset held).scene.Law [] := lane_empty rfl rfl rfl rfl

theorem scene_reconfigured (s : State) (k : Configuration) : (s.reconfigured k).scene = s.scene := by
  have held : (({ s with config := k, bench := s.bench.afterConfigure } : State).mapSlots
      (limitAttempts k.divertLimit)).scene = s.scene := by
    refine (scene_mapSlots _ (fun o => ?_)).trans (scene_of rfl rfl rfl rfl)
    match o with
    | none => rfl
    | some (.order r) => rfl
    | some (.source r) => rfl
  unfold State.reconfigured
  simp only
  split
  · exact held
  · exact (scene_of (by rfl) (by rfl) (by rfl) (by rfl)).trans held

theorem lane_applyConfig {s : State} (h : s.scene.Law []) (k : Configuration) : (s.applyConfig k).scene.Law [] := by
  refine lane_foldl (fun t i ht => ?_) _ _ (lane_same h (scene_reconfigured s k))
  unfold State.examineWhole
  split
  · exact ht
  · split
    · exact ht
    · exact lane_settle (lane_examine ht i)

theorem lane_act (r : Request) {s : State} (h : s.scene.Law []) : (act r s).state.scene.Law [] := by
  have run : s.run.scene.Law [] := lane_same h (scene_of rfl rfl rfl rfl)
  unfold act
  split
  · unfold cmdConfigure
    split
    · exact h
    · split
      · exact h
      · exact lane_replyBench (lane_applyConfig h _)
  · unfold cmdStart
    split
    · exact h
    · exact h
    · exact lane_replyBench (lane_settle (lane_foldl (fun t p ht => lane_seatWaiting ht p) _ _ run))
    · exact lane_replyBench (lane_settle run)
  · unfold cmdHalt
    split
    · exact lane_same h (scene_of rfl rfl rfl rfl)
    all_goals exact h
  · unfold cmdClearBench
    split
    · exact h
    · exact h
    · exact lane_replyBench (lane_readLevels (lane_empty rfl rfl rfl rfl))
    · exact lane_replyBench (lane_readLevels (lane_empty rfl rfl rfl rfl))
  · exact h
  · exact h
  · exact lane_cmdSubmitSource h _ _ _ _ _
  · exact lane_cmdBindOrder h _ _ _ _
  · exact lane_onSource h _ (fun i r hr => lane_amendRecord h hr _ _)
  · exact lane_onSource h _ (fun i r hr => lane_withdrawRecord h hr)
  · exact lane_cmdCloseOrder h _ _
  · unfold cmdReadRecord
    split
    · exact h
    · split <;> exact h
  · unfold cmdFindTote
    split
    · split
      · exact h
      · split <;> exact h
    · exact h
  · exact lane_portCommand h _ (lane_openPort h)
  · exact lane_portCommand h _ (lane_closePort h)
  · exact lane_portCommand h _ (lane_ackFault h)
  · unfold cmdListPort
    split <;> exact h
  · unfold cmdReleaseService
    split
    · exact h
    · next p _ =>
      split
      · next hv =>
        refine lane_reply (lane_settle (lane_openStop h (fun hl => ?_))) _ _
        have hh : HeadFits s.scene p (s.port p).stop (s.port p).lane := (h.lanes p).head
        rw [hv, hl] at hh
        rcases hh with hh | hh <;> cases hh
      · exact h
  · exact lane_stationCommand h _ (fun st => (scene_followRequest _ _ _).trans (scene_setStation_same rfl rfl))
  · exact lane_stationCommand h _ (fun st => (scene_followRequest _ _ _).trans (scene_setStation_same rfl rfl))
  · exact lane_stationCommand h _ (fun st => scene_resume s st)
  · unfold cmdReadNotices
    split
    · exact lane_same h (scene_of rfl rfl rfl rfl)
    · exact h
  · exact h

/-! ### The commands -/

theorem scene_setLink (s : State) (x : CommandLink) : (s.setLink x).scene = s.scene := scene_of rfl rfl rfl rfl

theorem scene_setInputs (s : State) (x : Inputs) : (s.setInputs x).scene = s.scene := scene_of rfl rfl rfl rfl

theorem lane_takeRequest {s : State} (h : s.scene.Law []) (r : Request) : (s.takeRequest r).scene.Law [] := by
  have on : ∀ {t : State}, t.scene.Law [] → (t.actOn r).scene.Law [] := fun ht => lane_same (lane_act r ht) (scene_setLink _ _)
  unfold State.takeRequest
  split
  · exact on (lane_same h (scene_setLink _ _))
  · split
    · exact on h
    · exact lane_same h (scene_setLink _ _)
  · exact on (lane_same h ((scene_setLink _ _).trans (scene_setLink _ _)))

theorem lane_takeFrame {s : State} (h : s.scene.Law []) (mosi : List Byte) : (s.takeFrame mosi).scene.Law [] := by
  unfold State.takeFrame
  split
  · split
    · exact lane_same h ((scene_setLink _ _).trans (scene_setLink _ _))
    · exact lane_same h ((scene_setLink _ _).trans (scene_setLink _ _))
  · exact lane_same h (scene_setLink _ _)
  · exact lane_same h (scene_setLink _ _)

/-- Every command keeps the law of the scene, where the roster views keep theirs. -/
theorem lane_exec {c : Instr} {s t : State} (hs : ViewLaw s) (h : s.scene.Law []) (he : exec c s = .next t) :
    t.scene.Law [] := by
  have request : ∀ r, (s.whenLive (fun s => s.takeRequest r)).scene.Law [] := fun r => lane_whenLive h (lane_takeRequest h r)
  have line : ∀ (x : Inputs) (f : State → State), (∀ u : State, u.scene.Law [] → (f u).scene.Law []) →
      ((s.setInputs x).whenLive f).scene.Law [] :=
    fun x f hf => lane_whenLive (lane_same h (scene_setInputs s x)) (hf _ (lane_same h (scene_setInputs s x)))
  have message : ∀ m, (s.whenLive (fun s => (s.setReceiver .hunting).takeMessage m)).scene.Law [] :=
    fun m => lane_whenLive h (lane_takeMessage (lane_same h (scene_setSupply s _)) m)
  have gap : ∀ {u : State}, u.scene.Law [] → u.supplyGap.scene.Law [] := by
    intro u hu
    unfold State.supplyGap
    split
    · exact lane_same hu (scene_setSupply _ _)
    · exact hu
  cases c with
  | hardwareReset held =>
    cases he
    split
    · exact lane_afterReset s true
    · exact lane_readLevels (lane_afterReset s false)
  | resetNRelease =>
    cases he
    split
    · exact lane_readLevels (lane_afterReset s false)
    · exact h
  | csNFall =>
    cases he
    refine lane_whenLive h ?_
    split
    · exact h
    · exact lane_same h (scene_setLink _ _)
  | csNRise mosi =>
    cases he
    refine lane_whenLive h ?_
    split
    · exact h
    · simp only
      split
      · exact lane_takeFrame (lane_same h (scene_setLink _ _)) _
      · exact lane_same h (scene_setLink _ _)
  | responsePlaced =>
    cases he
    refine lane_whenLive h ?_
    split
    · exact h
    · exact lane_same (lane_act _ h) (scene_setLink _ _)
    · exact lane_same h (scene_setLink _ _)
  | configure args => cases he; exact request _
  | start => cases he; exact request _
  | halt => cases he; exact request _
  | clearBench => cases he; exact request _
  | readConfig => cases he; exact request _
  | readStatus => cases he; exact request _
  | submitSource code cls exposure station lines => cases he; exact request _
  | bindOrder code cls exposure position => cases he; exact request _
  | amendLines slot cancels adds => cases he; exact request _
  | withdraw slot => cases he; exact request _
  | closeOrder slot force => cases he; exact request _
  | readRecord slot => cases he; exact request _
  | findTote code => cases he; exact request _
  | openPort port => cases he; exact request _
  | closePort port => cases he; exact request _
  | ackFault port => cases he; exact request _
  | listPort port => cases he; exact request _
  | releaseService port => cases he; exact request _
  | holdStation station => cases he; exact request _
  | releaseHold station => cases he; exact request _
  | resumeStation station => cases he; exact request _
  | readNotices most => cases he; exact request _
  | readReaderStats => cases he; exact request _
  | supplyReadyRise =>
    cases he
    refine line _ _ (fun u hu => ?_)
    split
    · exact hu
    · exact lane_beginPass hu
  | supplyReadyFall => cases he; exact lane_same h (scene_setInputs _ _)
  | accepted tag => cases he; exact message _
  | refused tag reason => cases he; exact message _
  | released tag => cases he; exact message _
  | cancelResult tag outcome => cases he; exact message _
  | taken tag => cases he; exact message _
  | badSupplyFrame bytes => cases he; exact lane_whenLive h (lane_takeSupplyBytes h _)
  | supplyIdleGapTimeout bytes => cases he; exact lane_whenLive h (gap (lane_takeSupplyBytes h _))
  | callWindowExpiry i => cases he; exact lane_whenLive h (lane_expireCallWindow h i)
  | cancelWindowExpiry i => cases he; exact lane_whenLive h (lane_expireCancelWindow h i)
  | readerMarker c =>
    cases he
    refine lane_whenLive h ?_
    split
    · exact lane_discardFrame h _ _
    · exact lane_same h (scene_setReader _ _ _)
    · exact lane_same h (scene_setReader _ _ _)
  | readerRuntTimeout c =>
    cases he
    refine lane_whenLive h ?_
    split
    · exact lane_discardFrame h _ _
    · exact h
    · exact h
  | readerStopBitError c =>
    cases he
    refine lane_whenLive h ?_
    split
    · exact lane_discardFrame h _ _
    · exact h
    · exact h
  | readerFrame c bytes time =>
    cases he
    exact lane_whenLive h (lane_foldl (fun _ b hu => lane_takeReaderByte hu c time b) bytes s h)
  | confirmWindowExpiry p => cases he; exact lane_whenLive h (lane_settle (lane_endUnconfirmed h p))
  | entryEvent p =>
    cases he
    refine lane_whenLive h ?_
    split
    · exact lane_settle (lane_takeEntry hs h p)
    · exact h
  | seatOn p =>
    cases he
    refine line _ _ (fun u hu => ?_)
    split
    · exact lane_settle (lane_takeSeatOn hu p)
    · exact hu
  | seatOff p =>
    cases he
    refine line _ _ (fun u hu => ?_)
    split
    · exact lane_settle (lane_takeSeatOff hu p)
    · exact hu
  | readWindowExpiry p =>
    cases he
    refine lane_whenLive h ?_
    split <;> rename_i hv
    · exact lane_settle (lane_failedRead h hv _)
    all_goals exact h
  | readerExitEvent p =>
    cases he
    refine lane_whenLive h ?_
    split
    · exact lane_settle (lane_takeExitEvent h p)
    · exact h
  | exitWindowExpiry p =>
    cases he
    refine lane_whenLive h ?_
    split
    · exact lane_settle (lane_raiseFault (lane_same h (scene_modifyPort_same (by rfl) (by rfl))) p _)
    · exact h
  | localControlAssert p =>
    cases he
    refine line _ _ (fun u hu => ?_)
    split
    · exact hu
    · exact lane_settle (lane_takeLocalControl hu p)
  | localControlDeassert p =>
    cases he
    refine line _ _ (fun u hu => ?_)
    split
    · exact lane_settle (lane_seatWaiting hu p)
    · exact hu
  | presenceOff u =>
    cases he
    refine line _ _ (fun v hv => ?_)
    split
    · exact lane_orderGone hv u
    · exact hv
  | presenceOn u =>
    cases he
    refine line _ _ (fun v hv => ?_)
    split
    · exact hv
    · exact lane_orderBack hv u
  | putButton u =>
    cases he
    refine lane_whenLive h (lane_settle ?_)
    have hv := lane_same h (scene_pickerInput s (positionStation u))
    split
    · exact lane_pressPut hv u
    · exact hv
  | shortButton st =>
    cases he
    refine lane_whenLive h (lane_settle ?_)
    have hv := lane_same h (scene_pickerInput s st)
    split
    · exact lane_resolveCurrent hv st _
    · exact hv
  | pauseSwitchChange st =>
    cases he
    have toggled : (s.togglePause st).scene = s.scene := by cases st <;> exact scene_setInputs _ _
    exact lane_whenLive (lane_same h toggled)
      (lane_settle (lane_same h ((scene_followRequest _ _ _).trans ((scene_pickerInput _ _).trans toggled))))
  | attendanceWindowExpiry st => cases he; exact lane_whenLive h (lane_settle (lane_same h (scene_expireAttendance s st)))
  | exposureTick i => cases he; exact lane_whenLive h (lane_same h (scene_modifyTote _ _ _))
  | warnThresholdReached i =>
    cases he
    refine lane_whenLive h ?_
    split
    · exact lane_same h (scene_warnRecord s i)
    · exact h
  | budgetReached i =>
    cases he
    refine lane_whenLive h ?_
    split
    · exact lane_settle (lane_examine h i)
    · exact h
  | supplyFrameTransmitted => cases he; exact lane_whenLive h (lane_same h (scene_setSupply _ _))

/-- Every command keeps the laws of the lane lists, the stops and the presentations. -/
theorem lane_laws {c : Instr} {s t : State} (hv : ViewLaw s) (hl : ListedLaw s) (hs : StopLaw s) (hp : PresentationLaw s)
    (h : exec c s = .next t) : ListedLaw t ∧ StopLaw t ∧ PresentationLaw t :=
  (lane_exec hv (Scene.Law.of_laws hv hl hs hp) h).laws

end Sys2Proof.Machine
end

