-- ==== Sys2Proof/Tests/Slice0.lean ====
section
/-! SUPPORT. The model's own tests: ill-formed command terms refused, one small step of every command on a small state with
the values the rules give, and for each statement that has hypotheses a state and operands that meet them. -/

namespace Sys2Proof.Tests

set_option Elab.async false

open Sys2Proof Sys2Proof.Machine

/-! ### Well-formedness -/

theorem test_submit_with_too_many_lines_is_refused :
    wellFormed (.submitSource 17#32 0#8 0#16 0#8 (List.replicate 56 { target := 5#8, quantity := 1#8 })) = false := by
  decide +kernel

theorem test_amend_with_too_many_cancels_is_refused :
    wellFormed (.amendLines 2#8 (List.replicate 118 0#8) []) = false := by decide +kernel

theorem test_reader_frame_of_seven_bytes_is_refused :
    wellFormed (.readerFrame .scanner (List.replicate 7 0#8) 0) = false := by decide +kernel

theorem test_reader_frame_of_no_byte_is_refused : wellFormed (.readerFrame .scanner [] 0) = false := by decide +kernel

/-! ### Small states -/

/-- A running bench, every port OPEN, SUPPLY_READY asserted. -/
def base : State :=
  { State.reset with
    bench := .running
    inputs := { Inputs.quiet with supplyReady := true }
    ports := Vector.replicate 4 { PortRec.reset with mode := .isOpen } }

def toteOf (code : Code) : Tote :=
  { code := code, cls := .chilled, exposure := 0, running := true, warned := false, expired := false }

/-- A source record of port 0 in a state, with one OPEN line for the order in slot 5. -/
def src (st : SourceState) : Source :=
  { tote := toteOf 17#32, state := st, port := 0, visit := 1, callAttempts := 0, divertAttempts := 0, backoff := 0,
    recycleCount := 0, lines := [{ target := 5, quantity := 2, state := .isOpen }], current := none, withdraw := false,
    requeue := false, returnOwed := false, passThrough := none, leaving := none, answerWindow := none,
    cancelHeld := false }

/-- An order record at put position 0. -/
def ord : Order := { tote := toteOf 18#32, state := .bound, position := 0 }

/-- The source record in slot 2 and the order in slot 5. -/
def two (r : Source) : State := (base.putSource 2 r).putOrder 5 ord

/-- The same, with port 0 changed. -/
def onPort (r : Source) (f : PortRec → PortRec) : State := (two r).modifyPort 0 f

/-- The source record read and verified at the stop of port 0. -/
def atStop (r : Source) (stop : Stop) : State := onPort r (fun q => { q with lane := [.slot 2], stop := stop })

/-- The source record presented at station A, its line current. -/
def shown : State :=
  (atStop { src .presented with current := some 0 } .verified).setStation .a
    { StationRec.reset with presentation := some 2, workingPort := some 0, side := .left, window := some 300 }

/-- The state after a command. -/
def after (c : Instr) (s : State) : State :=
  match exec c s with
  | .next t => t
  | .fault _ => s
  | .refused _ => s

/-- The response a command leaves to be placed. -/
def response (c : Instr) (s : State) : Option (Status × List Byte) :=
  match (after c s).link.work with
  | .answered r => some (r.status, r.result)
  | .idle => none
  | .dispatched _ => none

/-! ### One step of each command -/

theorem test_hardware_reset :
    (after (.hardwareReset false) (two (src .called))).record 2 = none ∧
    (after (.hardwareReset false) base).bench = .unconfigured := by decide +kernel

theorem test_reset_n_release :
    ((after .resetNRelease { base.setInputs { base.inputs with pauseA := true } with resetHeld := true }).station
      .a).hold = .held := by decide +kernel

theorem test_cs_n_fall :
    (after .csNFall base).link.transaction = some { frame := [2#8, 0#8, 0#8, 0xD6#8], fromBuffer := false } := by
  decide +kernel

theorem test_cs_n_rise :
    (after (.csNRise [6#8, 0#8, 0x7E#8]) (after .csNFall base)).link.work = .dispatched .readStatus := by decide +kernel

theorem test_response_placed :
    ((after .responsePlaced (after (.csNRise [6#8, 0#8, 0x7E#8]) (after .csNFall base))).link.buffer.map
      (fun b => (b.response.status, b.response.result.length))) = some (.ok, 50) := by decide +kernel

/-- A CONFIGURE with every parameter at the low end of its values. -/
def lowArgs : ConfigArgs :=
  { chilledBudget := 60#16, frozenBudget := 30#16, warnPercent := 50#8, pipelineDepth := 1#8, divertLimit := 2#8,
    confirmWindow := 2#8, answerWindow := 5#8, attendanceWindow := 5#8, qualityThreshold := 1#8, readerWindow := 64#16,
    readerBadLimit := 1#8, familyFilter := 0#64, openAcceptance := 0#8, strayPort := 3#8, servicePort := 0xFF#8 }

theorem test_configure :
    response (.configure lowArgs) State.reset = some (.ok, [1#8]) ∧
    (after (.configure lowArgs) State.reset).config.chilledBudget = 60 := by decide +kernel

/-- The head READY behind a presented one is presented, and examined as such, when the first expires (R121, R139). -/
theorem test_configure_takes_each_record_whole :
    let next : Source := { src .ready with port := 1, tote := { toteOf 19#32 with exposure := 600 } }
    let s := ((shown.putSource 2 { src .presented with tote := { toteOf 17#32 with exposure := 600 } }).putSource 7
      next).modifyPort 1 (fun q => { q with lane := [.slot 7], stop := .verified })
    (after (.configure lowArgs) { s with bench := .halted }).notices.filter (fun n => match n with
      | .expired .. => true
      | _ => false) =
      [.expired 2 17#32 (.port 0) (.source .presented) .chilled 600 600,
       .expired 7 19#32 (.port 1) (.source .presented) .chilled 600 600] := by decide +kernel

theorem test_configure_names_the_bad_parameter :
    response (.configure { lowArgs with servicePort := 4#8 }) State.reset = some (.badArgument, [15#8]) := by
  decide +kernel

theorem test_start : response .start { base with bench := .configured } = some (.ok, [2#8]) := by decide +kernel

theorem test_halt : response .halt base = some (.ok, [3#8]) ∧ (after .halt base).bench = .halted := by decide +kernel

theorem test_clear_bench :
    response .clearBench { two (src .inbound) with bench := .halted } = some (.ok, [1#8]) ∧
    (after .clearBench { two (src .inbound) with bench := .halted }).record 2 = none := by decide +kernel

theorem test_read_config :
    (response .readConfig base).map (fun r => (r.2.take 4, r.2.length)) = some ([3#8, 0x84#8, 1#8, 0x2C#8], 25) := by
  decide +kernel

theorem test_read_status : (response .readStatus base).map (fun r => r.2.take 4) = some [2#8, 1#8, 0#8, 64#8] := by
  decide +kernel

theorem test_submit_source :
    response (.submitSource 33#32 1#8 0#16 0#8 [{ target := 5#8, quantity := 99#8 }])
      { two (src .inbound) with allocPtr := 63 } = some (.ok, [63#8, 1#8, 0#8]) := by decide +kernel

theorem test_submit_source_rejects_a_quantity_of_100 :
    response (.submitSource 33#32 1#8 0#16 0#8 [{ target := 5#8, quantity := 100#8 }]) (two (src .inbound))
      = some (.linesRejected, [1#8]) := by decide +kernel

theorem test_bind_order :
    response (.bindOrder 33#32 2#8 2250#16 11#8)
      (base.setInputs { base.inputs with presence := base.inputs.presence.set 11 true }) = some (.ok, [0#8, 1#8]) := by
  decide +kernel

theorem test_amend_lines :
    response (.amendLines 2#8 [0#8] [{ target := 5#8, quantity := 1#8 }]) (two (src .inbound)) = some (.ok, [2#8]) := by
  decide +kernel

theorem test_withdraw :
    response (.withdraw 2#8) (two (src .inbound)) = some (.inProgress, []) ∧
    ((after (.withdraw 2#8) (two (src .inbound))).source 2).map (fun r => (r.state, r.leaving, r.lines.map Line.state))
      = some (.returning, some .withdrawn, [.cancelled]) := by decide +kernel

theorem test_close_order :
    response (.closeOrder 5#8 0#8) (two (src .inbound)) = some (.linesPending, []) ∧
    (after (.closeOrder 5#8 1#8) (two (src .inbound))).notices =
      [.retiredOrder 5 18#32 0 .closedForced 0 1] := by decide +kernel

theorem test_read_record :
    response (.readRecord 5#8) (two (src .inbound))
      = some (.ok, [1#8, 0#8, 0#8, 0#8, 18#8, 1#8, 0#8, 0#8, 0#8, 0#8, 0#8, 0#8, 1#8]) := by decide +kernel

theorem test_find_tote : response (.findTote 18#32) (two (src .inbound)) = some (.ok, [5#8, 1#8, 0#8]) := by decide +kernel

theorem test_open_port : response (.openPort 3#8) { State.reset with bench := .configured } = some (.ok, [1#8]) := by
  decide +kernel

theorem test_close_port :
    response (.closePort 0#8) (two (src .inbound)) = some (.ok, [2#8]) ∧
    response (.closePort 0#8) base = some (.ok, [0#8]) := by decide +kernel

theorem test_ack_fault :
    response (.ackFault 0#8) (onPort (src .inbound) (fun q => { q with mode := .faulted, cause := some .divert }))
      = some (.ok, [0#8]) := by decide +kernel

theorem test_list_port :
    response (.listPort 1#8) base = some (.ok, [1#8, 0xFF#8, 0#8, 0#8, 0#8, 0#8, 0#8, 0#8, 0#8]) := by decide +kernel

theorem test_release_service :
    ((after (.releaseService 0#8) (onPort (src .inbound)
      (fun q => { q with lane := [.foreign .service serviceCode], stop := .holding }))).port 0).stop = .openSeated := by
  decide +kernel

theorem test_hold_station :
    response (.holdStation 0#8) shown = some (.ok, [1#8]) ∧ response (.holdStation 1#8) base = some (.ok, [2#8]) := by
  decide +kernel

theorem test_release_hold :
    response (.releaseHold 0#8) (shown.modifyStation .a (fun q => { q with hold := .holdPending, commandFlag := true }))
      = some (.ok, [0#8]) := by decide +kernel

theorem test_resume_station :
    response (.resumeStation 1#8) (base.setStation .b { StationRec.reset with hold := .held, holdMode := true })
      = some (.ok, [0#8]) := by decide +kernel

theorem test_read_notices :
    response (.readNotices 1#8) { base with notices := [.portClosed 2, .portClosed 3] } =
      some (.ok, [1#8, 1#8, 0#8, 15#8, 0xFF#8, 0#8, 0#8, 0#8, 0#8, 1#8, 2#8, 0xFF#8, 0#8, 0#8]) := by decide +kernel

theorem test_read_reader_stats : (response .readReaderStats base).map (fun r => r.2.length) = some 30 := by decide +kernel

theorem test_supply_ready_rise :
    (after .supplyReadyRise ((two { src .cancelling with cancelHeld := true }).setInputs Inputs.quiet)).supply.sending
      = some (.cancel 9) := by decide +kernel

/-- A held CANCEL in slot 2 and an owed RETURN in slot 3, the line low. -/
def owing : State :=
  ((two { src .cancelling with cancelHeld := true }).putSource 3 { src .recycling with returnOwed := true }).setInputs
    Inputs.quiet

/-- What a pass has come to: the frames produced, and the marks and the window left. -/
structure PassSeen where
  frames : Nat
  pass : Option Nat
  held : Option Bool
  window : Option Nat
  owed : Option Bool
  deriving DecidableEq

def passSeen (s : State) : PassSeen :=
  { frames := s.supply.sending.toList.length + s.supply.waiting.length, pass := s.supply.pass,
    held := (s.source 2).map Source.cancelHeld, window := (s.source 2).bind Source.answerWindow,
    owed := (s.source 3).map Source.returnOwed }

/-- The state after a rise that another event meets after one frame. -/
def met : State := after .supplyReadyRise { owing with meets := some 1 }

/-- A fall that meets the pass after one frame leaves the RETURN owed; the pass goes on frame by frame with no command
waiting, and a rise takes it whole when nothing meets it (R62, R67). -/
theorem test_supply_ready_fall_meets_the_pass :
    passSeen met = ⟨1, some 0, some false, some 20, some true⟩ ∧
    passSeen (after .supplyReadyFall met) = ⟨1, some 0, some false, some 20, some true⟩ ∧
    passSeen met.idle = ⟨2, some 4, some false, some 20, some false⟩ ∧
    passSeen met.idle.idle = ⟨2, none, some false, some 20, some false⟩ ∧
    passSeen (after .supplyReadyRise owing) = ⟨2, none, some false, some 20, some false⟩ := by decide +kernel

theorem test_supply_ready_fall : (after .supplyReadyFall base).inputs.supplyReady = false := by decide +kernel

theorem test_accepted :
    ((after (.accepted 9#8) (two (src .calling))).source 2).map Source.state = some .called := by decide +kernel

theorem test_refused :
    (((after (.refused 9#8 .busy) ((two { src .calling with callAttempts := 1 }).setInputs Inputs.quiet)).source 2).map
      (fun r => (r.state, r.callAttempts))) = some (.queued, 2) := by decide +kernel

theorem test_released :
    ((after (.released 9#8) (two (src .called))).source 2).map Source.state = some .inbound := by decide +kernel

theorem test_cancel_result :
    (after (.cancelResult 9#8 .unknownTag) (two { src .cancelling with callAttempts := 2 })).record 2 = none := by
  decide +kernel

theorem test_taken :
    (after (.taken 9#8) (two { src .returning with leaving := some .complete })).notices =
      [.retiredSource 2 17#32 0 .complete 0 [{ state := .deferred, target := 5, quantity := 2 }]] := by decide +kernel

/-- Bytes whose stop bits are good. -/
def serial (bs : List Byte) : List SerialByte := bs.map (fun b => { value := b, stopOk := true })

theorem test_bad_supply_frame :
    (after (.badSupplyFrame (serial [0xA5#8, 0x81#8, 1#8, 9#8, 0#8])) base).supply.badCount = 1 ∧
    (after (.badSupplyFrame (serial [0xA5#8, 0x81#8, 1#8, 9#8, 0x4A#8])) base).supply.staleCount = 1 := by
  decide +kernel

theorem test_supply_idle_gap_timeout :
    (after (.supplyIdleGapTimeout (serial [0xA5#8])) base).supply.badCount = 1 := by decide +kernel

theorem test_call_window_expiry :
    ((after (.callWindowExpiry 2) (two { src .calling with answerWindow := some 20 })).source 2).map
      (fun r => (r.state, r.requeue)) = some (.cancelling, true) := by decide +kernel

theorem test_cancel_window_expiry :
    (after (.cancelWindowExpiry 2) (two { src .cancelling with answerWindow := some 20, withdraw := true })).supply.sending
      = some (.returnTote 9 17#32 .chilled .withdrawn) := by decide +kernel

theorem test_reader_marker :
    ((after (.readerMarker .scanner) base).reader .scanner).receiver = .receiving [] := by decide +kernel

theorem test_reader_runt_timeout :
    ((after (.readerRuntTimeout (.port 3)) (after (.readerMarker (.port 3)) base)).reader (.port 3)).bad = 1 := by
  decide +kernel

theorem test_reader_stop_bit_error :
    ((after (.readerStopBitError .scanner) (after (.readerMarker .scanner) base)).reader .scanner).receiver
      = .ignoring := by decide +kernel

theorem test_reader_frame :
    ((after (.readerFrame .scanner [0#8, 0#8, 0#8, 17#8, 100#8, 0x79#8] 7)
      (after (.readerMarker .scanner) (two (src .inbound)))).port 0).arm
      = some { item := .slot 2, window := 15 } := by decide +kernel

/-- A FOREIGN arm at port 0, once unconfirmed, whose code is that of the READY head of port 1. -/
def armedForSibling : State :=
  (((shown.modifyPort 0 (fun q =>
    { q with arm := some { item := .foreign .captured 19#32, window := 15 }, unconfirmed := 1 })).putSource 3
      { src .ready with tote := toteOf 19#32, port := 1 }).modifyPort 1 (fun q =>
        { q with lane := [.slot 3], stop := .verified }))

/-- The sibling's head is selected by the fault's effects and presented before the sighting takes it (R91, R121, R77). -/
theorem test_sighting_after_the_end_of_a_foreign_arm :
    let s := after (.readerFrame .scanner [0#8, 0#8, 0#8, 19#8, 100#8, crc8 [0#8, 0#8, 0#8, 19#8, 100#8]] 7)
      (after (.readerMarker .scanner) armedForSibling)
    s.notices = [.unconfirmedForeign 19#32 0 .captured 2, .portFault 0 .divert .divert, .presentLost 3 19#32 1 .sighted] ∧
    (s.source 2).map Source.state = some .ready ∧ (s.source 3).map Source.state = some .inbound := by decide +kernel

/-- A CLOSING port whose lane local control empties is FAULTED first and posts no PORT_CLOSED (log entry 9). -/
theorem test_closing_port_faulted_by_its_drain :
    (after (.localControlAssert 0) (shown.modifyPort 0 (fun q => { q with mode := .closing }))).notices =
      [.presentLost 2 17#32 0 .override, .portFault 0 .override .override] := by decide +kernel

theorem test_confirm_window_expiry :
    (after (.confirmWindowExpiry 0) (onPort (src .inbound) (fun q =>
      { q with arm := some { item := .foreign .captured 9#32, window := 15 }, unconfirmed := 1 }))).notices =
      [.unconfirmedForeign 9#32 0 .captured 2, .portFault 0 .divert .divert] := by decide +kernel

theorem test_entry_event :
    ((after (.entryEvent 0) (onPort (src .inbound) (fun q =>
      { q with arm := some { item := .slot 2, window := 15 }, queue := [2] }))).port 0).lane = [.slot 2] := by
  decide +kernel

theorem test_seat_on :
    ((after (.seatOn 0) (onPort (src .laned) (fun q => { q with lane := [.slot 2] }))).source 2).map Source.state
      = some .atStop := by decide +kernel

theorem test_seat_off :
    (after (.seatOff 0) ((atStop (src .atStop) (.reading .first)).setInputs
      { base.inputs with seat := base.inputs.seat.set 0 true })).notices
      = [.presentLost 2 17#32 0 .seatLost] := by decide +kernel

theorem test_read_window_expiry :
    (after (.readWindowExpiry 0) (atStop (src .atStop) (.reading .second))).notices
      = [.verifyFailed (some (2, 17#32)) 0] := by decide +kernel

theorem test_reread_pulses_the_read_request :
    let s := after (.readWindowExpiry 0) (atStop (src .atStop) (.reading .first))
    (s.port 0).stop = .reading .second ∧ (s.port 0).readPulses = 1 := by decide +kernel

theorem test_reader_exit_event :
    ((after (.readerExitEvent 0) (atStop (src .releasing) .openSeated)).source 2).map (fun r => (r.state, r.leaving))
      = some (.returning, some .complete) := by decide +kernel

theorem test_exit_window_expiry :
    ((after (.exitWindowExpiry 0) (onPort (src .releasing)
      (fun q => { q with lane := [.slot 2], stop := .openSeated, exitWindow := some 50 }))).port 0).cause
      = some .stopJam := by decide +kernel

theorem test_local_control_assert :
    (after (.localControlAssert 0) shown).notices =
      [.presentLost 2 17#32 0 .override, .portFault 0 .override .override] := by decide +kernel

theorem test_local_control_deassert :
    ((after (.localControlDeassert 0) (base.setInputs { base.inputs with
      localControl := base.inputs.localControl.set 0 true, seat := base.inputs.seat.set 0 true })).port 0).stop
      = .reading .first := by decide +kernel

/-- The presented record with the presence sensor of position 0 on. -/
def placed (s : State) : State := s.setInputs { s.inputs with presence := s.inputs.presence.set 0 true }

theorem test_presence_off :
    (after (.presenceOff 0) (placed (two (src .inbound)))).notices = [.orderMissing 5 18#32 0] := by decide +kernel

theorem test_presence_on :
    ((after (.presenceOn 0) ((two (src .inbound)).putOrder 5 { ord with state := .missing })).order 5).map Order.state
      = some .bound := by decide +kernel

theorem test_put_button :
    ((after (.putButton 0) shown).source 2).map (fun r => (r.state, r.lines.map Line.state))
      = some (.releasing, [.done]) ∧
    (after (.putButton 5) shown).notices = [.wrongPut (some 2) .a 5] := by decide +kernel

theorem test_short_button :
    ((after (.shortButton .a) shown).source 2).map (fun r => r.lines.map Line.state) = some [.short] := by decide +kernel

theorem test_pause_switch_change :
    ((after (.pauseSwitchChange .a) shown).station .a).hold = .holdPending ∧
    ((after (.pauseSwitchChange .b) base).station .b).hold = .held := by decide +kernel

theorem test_attendance_window_expiry :
    (after (.attendanceWindowExpiry .a) shown).notices = [.stationUnattended 2 .a] := by decide +kernel

/-- The inbound record with its exposure at a figure. -/
def exposed (n : Nat) : State := two { src .inbound with tote := { toteOf 17#32 with exposure := n } }

theorem test_exposure_tick :
    ((after (.exposureTick 2) (exposed 65534)).record 2).map (fun x => x.tote.exposure) = some 65535 ∧
    ((after (.exposureTick 2) (exposed 65535)).record 2).map (fun x => x.tote.exposure) = some 65535 := by decide +kernel

theorem test_warn_threshold_reached :
    (after (.warnThresholdReached 2) (exposed 6750)).notices = [.warned 2 17#32 (.port 0) .chilled 6750 6750] := by
  decide +kernel

theorem test_budget_reached :
    ((after (.budgetReached 2) (exposed 9000)).source 2).map (fun r => (r.state, r.leaving))
      = some (.returning, some .expired) := by decide +kernel

/-- A stopped count at the budget does not expire by the crossing (R143). -/
theorem test_stopped_count_reaches_no_budget :
    let s := two { src .queued with tote := { toteOf 17#32 with exposure := 9000, running := false } }
    exec (.budgetReached 2) s = .next s ∧ exec (.warnThresholdReached 2) s = .next s := ⟨rfl, rfl⟩

theorem test_supply_frame_transmitted :
    (after .supplyFrameTransmitted (base.setSupply
      { base.supply with sending := some (.cancel 1), waiting := [.cancel 2, .cancel 3] })).supply.sending
      = some (.cancel 2) := by decide +kernel

theorem test_step_takes_the_front :
    step { base with pending := [.halt, .start] } = exec .halt { base with pending := [.start] } := by rfl

/-! ### States that meet the hypotheses of the statements -/

/-- A request's row acts in a state whose command link is at rest. -/
theorem acts {s : State} (r : Request) (h : s.resetHeld = false) (hl : s.link = CommandLink.reset) : ActsIn r s s := by
  refine ⟨h, .inr ⟨by rw [hl]; rfl, ?_⟩⟩
  cases s
  simp only at hl
  subst hl
  rfl

/-- A request's row acts in a state whose transaction has dispatched it. -/
theorem acts_dispatched {s : State} (r : Request) (h : s.resetHeld = false) (hw : s.link.work = .dispatched r) :
    ActsIn r s s := ⟨h, .inl ⟨hw, rfl⟩⟩

/-- The records of the small states. -/
theorem two_record (r : Source) (j : Slot) :
    (two r).record j = if 5 = j then some (.order ord) else if 2 = j then some (.source r) else none := by
  unfold two State.putOrder State.putSource
  rw [State.record_setSlot, State.record_setSlot]
  have e : base.record j = none := by
    show (Vector.replicate 64 none)[j.val] = none
    simp
  simp [e]

theorem base_record (j : Slot) : base.record j = none := by
  show (Vector.replicate 64 none)[j.val] = none
  simp

/-- The codes of the small states belong to one record each. -/
theorem two_codes (r : Source) (hr : r.tote.code = 17#32) {j : Slot} {y : Record} (h : (two r).record j = some y) :
    (y.tote.code = 17#32 ∧ j = 2) ∨ (y.tote.code = 18#32 ∧ j = 5) := by
  rw [two_record] at h
  split at h
  · next e => cases h; exact .inr ⟨rfl, e.symm⟩
  · split at h
    · next e => cases h; exact .inl ⟨hr, e.symm⟩
    · cases h

/-- The only order of the small states. -/
theorem two_orders (r : Source) {j : Slot} {y : Order} (h : (two r).order j = some y) : j = 5 := by
  rw [State.order_eq_some, two_record] at h
  split at h
  · next e => exact e.symm
  · split at h <;> cases h

theorem test_hypotheses_of_the_block_statements :
    State.reset.pending = [] ∧ ({ base with resetHeld := true } : State).resetHeld = true ∧
    State.reset.supply.pass = none ∧ State.reset.inputs.supplyReady = false ∧
    exec .halt base = .next (after .halt base) ∧ plainCommand (.seatOn 0) = true ∧ benchCommand (.seatOn 0) = false ∧
    Follows State.reset State.reset := ⟨rfl, rfl, rfl, rfl, rfl, rfl, rfl, rfl⟩

theorem test_hypotheses_of_the_laws : Runs State.reset State.reset ∧ (∀ p, LaneLaw (State.reset.port p)) ∧
    (∀ p, CauseLaw (State.reset.port p)) ∧ State.reset.creditsInUse ≤ 4 ∧ (∀ p, State.reset.rosterSize p ≤ 10) :=
  ⟨.refl, by decide +kernel, by decide +kernel, by decide +kernel, by decide +kernel⟩

/-- The command link with a transaction in progress, a request in hand and a buffered response. -/
def linked (tr : Option Transaction) (w : Work) (b : Option PlacedResponse) : State :=
  base.setLink { CommandLink.reset with transaction := tr, work := w, buffer := b }

/-- A transaction that shifts out the buffered response, and one that shifts out NOT_READY. -/
def reading : Transaction := { frame := [0#8, 0#8, 0#8, 0#8], fromBuffer := true }

def idling : Transaction := { frame := [2#8, 0#8, 0#8, 0xD6#8], fromBuffer := false }

theorem test_hypotheses_of_transactions :
    let some_ : PlacedResponse := { response := { status := .ok, result := [] }, discarded := true }
    (linked none .idle (some some_)).link.transaction = none ∧ (linked none .idle none).link.buffer = none ∧
    (linked (some reading) .idle (some some_)).link.transaction = some reading ∧
    reading.frame.length ≤ [0#8, 0#8, 0#8, 0#8].length ∧ [0#8, 0#8, 0#8].length < reading.frame.length ∧
    [0#8, 0#8, 0#8].head? = some (0#8 : Byte) ∧ (linked none .idle none).resetHeld = false ∧
    idling.frame[3]? = some 0xD6#8 ∧ idling.miso 3 = 0xD6#8 ∧ idling.frame.length ≤ 4 ∧ idling.miso 4 = 0#8 := by
  decide +kernel

theorem test_hypotheses_of_request_frames :
    (linked (some idling) (.dispatched .start) none).link.work ≠ .idle ∧ (linked (some idling) .idle none).link.work = .idle ∧
    byteAt [6#8, 0#8, 0x7E#8] 0 ≠ 0#8 ∧ ¬ (byteAt [6#8, 121#8, 0#8] 1).toNat ≤ 120 ∧
    byteAt [0x7F#8, 0#8, 0x61#8] 2 = crc8 [0x7F#8, 0#8] ∧ byteAt [2#8, 1#8, 0#8, 0xC3#8] 3 = crc8 [2#8, 1#8, 0#8] ∧
    byteAt [6#8, 0#8, 0x7E#8] 2 = crc8 [6#8, 0#8] ∧ requestBody .readStatus = (6#8, []) := by decide +kernel

theorem test_hypotheses_of_unknown_codes_and_lengths :
    (∀ r, (requestBody r).1 ≠ 0x7F#8) ∧ (requestBody .start).1 = 2#8 ∧ ∀ q, requestBody q ≠ (2#8, [0#8]) := by
  refine ⟨fun r => ?_, rfl, fun q => ?_⟩
  · cases r <;> simp [requestBody]
  · cases q <;> simp [requestBody]

theorem test_hypotheses_of_processing :
    (linked none (.answered { status := .ok, result := [] }) none).link.work = .answered { status := .ok, result := [] } ∧
    (linked none (.dispatched .start) none).link.work = .dispatched .start ∧ Request.start ≠ Request.halt := by
  decide +kernel

theorem test_hypotheses_of_request_fits :
    submitFits (List.replicate 55 { target := 5#8, quantity := 1#8 }) = true ∧
    amendFits (List.replicate 117 0#8) [] = true := by decide +kernel

/-- Every request's row acts, in a state at rest and in one where it was dispatched. -/
theorem test_hypotheses_of_request_rows :
    (∀ r, ActsIn r base base) ∧ ∀ r, ActsIn r (linked none (.dispatched r) none) (linked none (.dispatched r) none) :=
  ⟨fun r => acts r rfl rfl, fun r => acts_dispatched r rfl rfl⟩

theorem test_hypotheses_of_configuration :
    configFirstBad lowArgs = none ∧
    ActsIn .readConfig { base with config := configurationOf lowArgs } { base with config := configurationOf lowArgs } ∧
    State.reset.config = Configuration.reset ∧ base.bench = .running ∧ State.reset.bench ≠ .running ∧
    ActsIn (.configure lowArgs) State.reset State.reset ∧ ActsIn (.configure lowArgs) base base :=
  ⟨by decide +kernel, acts _ rfl rfl, rfl, rfl, by decide, acts _ rfl rfl, acts _ rfl rfl⟩

/-- A bench in another bench state. -/
def benchIn (b : BenchState) : State := { base with bench := b }

theorem test_hypotheses_of_bench_commands (b : BenchState) (r : Request) :
    (benchIn b).bench = b ∧ ActsIn r (benchIn b) (benchIn b) := ⟨rfl, acts _ rfl rfl⟩

theorem test_hypotheses_of_reports :
    ActsIn (.listPort 3#8) base base ∧ (3 : Port).val = (3#8 : Byte).toNat ∧ 3 < (4#8 : Byte).toNat ∧
    ActsIn (.readRecord 63#8) (two (src .inbound)) (two (src .inbound)) ∧ (63 : Slot).val = (63#8 : Byte).toNat ∧
    (two (src .inbound)).record 63 = none ∧ 63 < (64#8 : Byte).toNat ∧
    (two (src .inbound)).record 5 = some (.order ord) ∧ (two (src .inbound)).record 2 = some (.source (src .inbound)) :=
  ⟨acts _ rfl rfl, rfl, by decide, acts _ rfl rfl, rfl, by decide +kernel, by decide, by decide +kernel, by decide +kernel⟩

theorem test_hypotheses_of_find_tote :
    ActsIn (.findTote 17#32) (two (src .inbound)) (two (src .inbound)) ∧ (17#32 : Code) ≠ 0#32 ∧ (17#32 : Code) ≠ 0xFFFFFFFF#32 ∧
    (two (src .inbound)).record 2 = some (.source (src .inbound)) ∧
    (∀ j y, (two (src .inbound)).record j = some y → y.tote.code = 17#32 → j = 2) ∧
    ∀ j y, (two (src .inbound)).record j = some y → y.tote.code ≠ 19#32 := by
  refine ⟨acts _ rfl rfl, by decide, by decide, by decide +kernel, fun j y h hc => ?_, fun j y h hc => ?_⟩
  · rcases two_codes _ rfl h with h | h
    · exact h.2
    · rw [h.1] at hc; exact absurd hc (by decide)
  · rcases two_codes _ rfl h with h | h <;> (rw [h.1] at hc; exact absurd hc (by decide))

theorem test_hypotheses_of_submission :
    let s := two (src .inbound)
    let lines : List LineArg := [{ target := 5#8, quantity := 99#8 }]
    ActsIn (.submitSource 33#32 1#8 8999#16 0#8 lines) s s ∧ NoRefusal (submitRefusals s 33#32 1#8 8999#16 0#8 lines) ∧
    (∀ k, ¬ LineBadAt s 0 [] lines k) ∧ FirstFree s 0 ∧ Placed s 0 1 ∧
    LineBadAt s 0 [] [{ target := 5#8, quantity := 100#8 }] 0 ∧
    FirstRefusal (submitRefusals s 33#32 1#8 9000#16 0#8 lines) .exposureSpent := by
  have dup : ¬ ∃ i x, (two (src .inbound)).record i = some x ∧ x.tote.code = 33#32 := by
    rintro ⟨i, x, h, hc⟩
    rcases two_codes _ rfl h with h | h <;> (rw [h.1] at hc; exact absurd hc (by decide))
  refine ⟨acts _ rfl rfl, ?_, ?_, ?_, ?_, ?_, ?_⟩
  · simp only [submitRefusals, NoRefusal, List.mem_cons, List.not_mem_nil, or_false]
    rintro c (rfl | rfl | rfl | rfl | rfl | rfl | rfl)
    · decide +kernel
    · decide +kernel
    · exact dup
    · decide +kernel
    · exact fun h => h 0 (by decide +kernel)
    · exact fun h => h 0 rfl (by decide +kernel)
    · exact fun h => absurd (h 0 rfl (by decide +kernel)) (by decide +kernel)
  · rintro k ⟨l, hl, hb⟩
    cases k with
    | succ k => simp at hl
    | zero =>
      simp only [List.getElem?_cons_zero, Option.some.injEq] at hl
      subst hl
      rcases hb with h | h | h | h
      · exact h 5 ord rfl (by decide +kernel) (by decide +kernel)
      · exact absurd h (by decide)
      · exact absurd h (by decide)
      · simp at h
  · exact ⟨by decide +kernel, by decide +kernel⟩
  · exact ⟨by decide +kernel, by decide +kernel, by decide +kernel, by decide +kernel⟩
  · exact ⟨_, rfl, .inr (.inr (.inl (by decide)))⟩
  · refine ⟨3, _, rfl, .inl ⟨rfl, by decide +kernel⟩, fun j hj st Q h => ?_⟩
    match j, hj with
    | 0, _ => cases h; decide +kernel
    | 1, _ => cases h; decide +kernel
    | 2, _ => cases h; exact dup

theorem test_hypotheses_of_binding :
    let s := base.setInputs { base.inputs with presence := base.inputs.presence.set 11 true }
    ActsIn (.bindOrder 33#32 2#8 2999#16 11#8) s s ∧ NoRefusal (bindRefusals s 33#32 2#8 2999#16 11#8) ∧ FirstFree s 0 ∧
    (11 : Position).val = (11#8 : Byte).toNat ∧ FirstRefusal (bindRefusals s 33#32 2#8 2999#16 12#8) .badArgument := by
  refine ⟨acts _ rfl rfl, ?_, ⟨by decide +kernel, by decide +kernel⟩, rfl, ?_⟩
  · simp only [bindRefusals, NoRefusal, List.mem_cons, List.not_mem_nil, or_false]
    rintro c (rfl | rfl | rfl | rfl | rfl | rfl | rfl)
    · decide +kernel
    · decide +kernel
    · rintro ⟨i, x, h, _⟩; exact absurd ((base_record i).symm.trans h) (by simp)
    · decide +kernel
    · exact fun h => h 0 (by decide +kernel)
    · rintro ⟨i, o, h, _⟩
      rw [State.order_eq_some] at h
      exact absurd ((base_record i).symm.trans h) (by simp)
    · exact fun h => absurd (h 11 rfl) (by decide +kernel)
  · refine ⟨1, _, rfl, by decide +kernel, fun j hj st Q h => ?_⟩
    match j, hj with
    | 0, _ => cases h; decide +kernel

theorem test_hypotheses_of_amending :
    let s := two (src .inbound)
    ActsIn (.amendLines 2#8 [0#8] [{ target := 5#8, quantity := 1#8 }]) s s ∧ (2 : Slot).val = (2#8 : Byte).toNat ∧
    s.source 2 = some (src .inbound) ∧ NoRefusal (amendRefusals (src .inbound) [0#8] [{ target := 5#8, quantity := 1#8 }]) ∧
    (∀ k, ¬ LineBadAt s 0 [] [{ target := 5#8, quantity := 1#8 }] k) ∧
    LineBadAt s 0 [5#8] [{ target := 5#8, quantity := 1#8 }] 0 ∧
    FirstRefusal (amendRefusals (src .releasing) [0#8] []) .alreadyLeaving ∧
    FirstRefusal (slotRefusals s 64#8 .source) .badArgument := by
  refine ⟨acts _ rfl rfl, rfl, by decide +kernel, ?_, ?_, ?_, ?_, ?_⟩
  · simp only [amendRefusals, NoRefusal, List.mem_cons, List.not_mem_nil, or_false]
    rintro c (rfl | rfl | rfl)
    · decide +kernel
    · rintro (⟨k, hk, h⟩ | h | h)
      · subst hk
        exact (h _ rfl).1 rfl
      · exact h (by simp)
      · exact absurd h (by decide)
    · decide +kernel
  · rintro k ⟨l, hl, hb⟩
    cases k with
    | succ k => simp at hl
    | zero =>
      simp only [List.getElem?_cons_zero, Option.some.injEq] at hl
      subst hl
      rcases hb with h | h | h | h
      · exact h 5 ord rfl (by decide +kernel) (by decide +kernel)
      · exact absurd h (by decide)
      · exact absurd h (by decide)
      · simp at h
  · exact ⟨_, rfl, .inr (.inr (.inr (by simp)))⟩
  · exact ⟨0, _, rfl, .inl rfl, fun j hj => absurd hj (by omega)⟩
  · refine ⟨1, _, rfl, by decide, fun j hj st Q h => ?_⟩
    match j, hj with
    | 0, _ => cases h; decide +kernel

theorem test_hypotheses_of_withdrawal :
    (∀ st, ActsIn (.withdraw 2#8) (two (src st)) (two (src st)) ∧ (two (src st)).source 2 = some (src st) ∧
      Unmarked (src st) ∧ (src st).state = st) ∧
    ((atStop (src .ready) .verified).port (src .ready).port).lane.head? = some (.slot 2) ∧
    (two { src .inbound with withdraw := true }).source 2 = some { src .inbound with withdraw := true } ∧
    ({ src .inbound with tote := { toteOf 17#32 with expired := true } } : Source).tote.expired = true := by
  refine ⟨fun st => ⟨acts _ rfl rfl, ?_, ⟨rfl, rfl⟩, rfl⟩, by decide +kernel, by decide +kernel, rfl⟩
  rw [State.source_eq_some, two_record]
  rfl

theorem test_hypotheses_of_closing :
    let s := two (src .inbound)
    ActsIn (.closeOrder 5#8 1#8) s s ∧ s.order 5 = some ord ∧ 0 < s.pendingCount 5 ∧ (5 : Slot).val = (5#8 : Byte).toNat ∧
    s.record 63 = none ∧ s.source 2 = some (src .inbound) ∧ 63 < (64#8 : Byte).toNat ∧ 1 < (2#8 : Byte).toNat ∧
    s.bench ≠ .unconfigured ∧ (two { src .inbound with lines := [] }).pendingCount 5 = 0 :=
  ⟨acts _ rfl rfl, by decide +kernel, by decide +kernel, rfl, by decide +kernel, by decide +kernel, by decide, by decide,
    by decide, by decide +kernel⟩

/-- A port in a state. -/
def portIn (m : PortMode) : State := onPort (src .ready) (fun q => { q with mode := m, lane := [.slot 2], stop := .verified })

theorem test_hypotheses_of_port_commands (m : PortMode) (r : Request) :
    ActsIn r (portIn m) (portIn m) ∧ ((portIn m).port 0).mode = m ∧ (portIn m).bench ≠ .unconfigured ∧
    (0 : Port).val = (0#8 : Byte).toNat ∧ ((portIn m).port 0).stop = .verified ∧
    ((portIn m).port 0).lane.head? = some (.slot 2) ∧ (portIn m).source 2 = some (src .ready) ∧
    (portIn m).localLevel 0 = false := by
  refine ⟨acts _ rfl rfl, rfl, fun h => BenchState.noConfusion h, rfl, rfl, rfl, ?_, rfl⟩
  show (two (src .ready)).source 2 = _
  rw [State.source_eq_some, two_record]
  rfl

theorem test_hypotheses_of_acknowledging :
    (base.setInputs { base.inputs with localControl := base.inputs.localControl.set 0 true }).localLevel 0 = true ∧
    ((portIn .isOpen).port 0).mode ≠ .faulted ∧
    ((onPort (src .inbound) (fun q => { q with stop := .holding, lane := [.foreign .service serviceCode] })).port 0).stop
      = .holding ∧ (base.port 0).stop ≠ .holding := by decide +kernel

/-- The source record of the small states, by its state. -/
theorem two_source (r : Source) : (two r).source 2 = some r := by
  rw [State.source_eq_some, two_record]
  rfl

theorem test_hypotheses_of_station_commands (h : HoldStatus) (r : Request) :
    let s := base.setStation .a { StationRec.reset with hold := h }
    ActsIn r s s ∧ (s.station .a).hold = h ∧ stationByte .a = 0#8 ∧ 1 < (2#8 : Byte).toNat ∧ s.pauseSwitch .a = false ∧
    (s.station .a).presentation = none ∧ (shown.station .a).presentation ≠ none ∧ (shown.station .a).hold = .running :=
  ⟨acts _ rfl rfl, rfl, rfl, by decide, rfl, rfl, by decide +kernel, by decide +kernel⟩

theorem test_hypotheses_of_held_notices :
    ActsIn (.readNotices 4#8) base base ∧ 1 ≤ (1#8 : Byte).toNat ∧ (4#8 : Byte).toNat ≤ 4 ∧ (0#8 : Byte).toNat = 0 ∧
    4 < (5#8 : Byte).toNat := ⟨acts _ rfl rfl, by decide, by decide, rfl, by decide⟩

theorem test_hypotheses_of_messages (st : SourceState) :
    (two (src st)).resetHeld = false ∧ (two (src st)).source 2 = some (src st) ∧ Names 9#8 2 (src st) ∧
    (src st).state = st ∧ Unmarked (src st) ∧ (src st).cancelHeld = false ∧ (src st).callAttempts < 2 ∧
    ¬ Unmarked { src st with withdraw := true } ∧ Names 9#8 2 { src st with withdraw := true } ∧
    2 ≤ ({ src st with callAttempts := 2 } : Source).callAttempts ∧
    ({ src st with leaving := some .divertExhausted } : Source).leaving = some .divertExhausted :=
  ⟨rfl, two_source _, rfl, rfl, ⟨rfl, rfl⟩, rfl, Nat.zero_lt_two, fun h => Bool.noConfusion h.1, rfl, Nat.le_refl 2, rfl⟩

theorem test_hypotheses_of_stale_messages (f : Source → Prop) :
    base.resetHeld = false ∧ ¬ ∃ i r, base.source i = some r ∧ Names 255#8 i r ∧ f r := by
  refine ⟨rfl, ?_⟩
  rintro ⟨i, r, h, _⟩
  rw [State.source_eq_some, base_record] at h
  cases h

theorem test_hypotheses_of_answer_windows :
    ({ src .calling with answerWindow := some 5 } : Source).answerWindow ≠ none ∧
    (∀ r, (two (src .calling)).source 2 = some r → r.state ≠ .calling ∨ r.answerWindow = none) ∧
    (two (src .calling)).inputs.supplyReady = true ∧ ((two (src .calling)).setInputs Inputs.quiet).inputs.supplyReady = false := by
  refine ⟨by decide, fun r h => ?_, rfl, rfl⟩
  rw [two_source] at h
  cases h
  exact .inr rfl

theorem test_hypotheses_of_the_transmitter :
    base.supply.sending = none ∧ (base.setSupply { base.supply with sending := some (.cancel 1) }).supply.sending
      = some (.cancel 1) ∧ (base.setInputs Inputs.quiet).inputs.supplyReady = false := ⟨rfl, rfl, rfl⟩

/-- A pass that stands, with what it has still to send in slots 2 and 3, or with nothing left. -/
theorem test_hypotheses_of_the_pass :
    let standing (s : State) (place : Nat) : State :=
      (s.setInputs base.inputs).setSupply { s.supply with pass := some place }
    owing.meets = none ∧ ({ owing with meets := some 1 } : State).meets = some 1 ∧ owing.inputs.supplyReady = false ∧
    (standing owing 0).pending = [] ∧ (standing owing 0).supply.pass = some 0 ∧
    (standing owing 0).inputs.supplyReady = true ∧ (standing owing 0).heldCancels = [2] ∧
    (standing (owing.putSource 2 (src .cancelling)) 3).owedReturns = [3] ∧
    (standing (owing.putSource 2 (src .cancelling)) 4).heldCancels = [] ∧
    (standing base 4).heldCancels = [] ∧ (standing base 4).owedReturns = [] := by decide +kernel

theorem test_hypotheses_of_the_supply_receiver :
    base.supply.receiver = .hunting ∧ (base.setReceiver (.inFrame [])).supply.receiver = .inFrame [] ∧
    (∀ m : DispatcherMessage, m.frame ≠ [0xA5#8, 0x01#8, 0#8, 0#8]) ∧ 16 < (17#8 : Byte).toNat ∧ (16#8 : Byte).toNat ≤ 16 := by
  refine ⟨rfl, rfl, fun m => ?_, by decide, by decide⟩
  cases m <;> simp [DispatcherMessage.frame, DispatcherMessage.body]

theorem test_hypotheses_of_notices_posted :
    base.notices.length < 32 ∧ 32 ≤ ({ base with notices := List.replicate 32 (.portClosed 0) } : State).notices.length := by
  decide +kernel

/-- The scanner's channel with a receiver. -/
def scanning (x : ReaderReceiver) : State := base.setReader .scanner { ReaderRec.reset with receiver := x }

theorem test_hypotheses_of_reader_channels :
    ((scanning (.receiving [])).reader .scanner).receiver = .receiving [] ∧
    ((scanning .hunting).reader .scanner).receiver = .hunting ∧ ((scanning .ignoring).reader .scanner).receiver = .ignoring ∧
    (base.reader .scanner).frames + 1 < base.config.readerWindow ∧
    base.config.readerWindow ≤ ((base.setReader .scanner { ReaderRec.reset with frames := 255 }).reader .scanner).frames + 1 := by
  decide +kernel

theorem test_hypotheses_of_reader_frames :
    ([] ++ [0#8, 0#8, 0#8, 17#8, 40#8] : List Byte).length < 6 ∧
    byteAt [0#8, 0#8, 0#8, 17#8, 100#8, 0x79#8] 5 = crc8 [0#8, 0#8, 0#8, 17#8, 100#8] ∧
    base.config.qualityThreshold ≤ (byteAt [0#8, 0#8, 0#8, 17#8, 100#8, 0x79#8] 4).toNat ∧
    ((atStop (src .atStop) (.reading .second)).port 0).stop = .reading .second ∧ (base.port 0).stop ≠ .reading .first := by
  decide +kernel

/-- A bench with its capture ports configured. -/
def capturing : State :=
  { base with config := { Configuration.reset with openAcceptance := true, strayPort := some 3, servicePort := some 0 } }

theorem test_hypotheses_of_scanner_reads :
    (∃ f, ({ base with dupFilter := some { code := 17#32, time := 0 } } : State).dupFilter = some f ∧ f.code = 17#32 ∧
      1000000 ≤ f.time + 1000000) ∧
    (¬ ∃ f, base.dupFilter = some f ∧ f.code = 17#32 ∧ 0 ≤ f.time + 1000000) ∧
    (capturing.config.servicePort = some 0 ∧ capturing.bench = .running ∧ Accepts (capturing.port 0)) ∧
    (capturing.config.strayPort = some 3 ∧ Accepts (capturing.port 3)) ∧ base.config.servicePort = none ∧
    capturing.config.openAcceptance = true ∧
    (∀ j y, (two (src .inbound)).record j = some y → y.tote.code = 18#32 → j = 5) := by
  refine ⟨⟨_, rfl, rfl, by decide⟩, ?_, ⟨rfl, rfl, .inl rfl, by decide, rfl⟩, ⟨rfl, .inl rfl, by decide, rfl⟩, rfl, rfl, fun j y h hc => ?_⟩
  · rintro ⟨f, h, _⟩; cases h
  · rcases two_codes _ rfl h with h | h
    · rw [h.1] at hc; exact absurd hc (by decide)
    · exact h.2

theorem test_hypotheses_of_collisions :
    (two (src .inbound)).source 2 = some (src .inbound) ∧ (src .inbound).divertAttempts + 1 < base.config.divertLimit ∧
    base.config.divertLimit ≤ ({ src .inbound with divertAttempts := 7 } : Source).divertAttempts + 1 ∧
    2 ≤ ({ src .inbound with recycleCount := 2 } : Source).recycleCount ∧
    0 < ({ src .inbound with backoff := 1 } : Source).backoff ∧ Accepts ((two (src .inbound)).port 0) ∧
    ¬ Accepts (State.reset.port 0) := by
  refine ⟨two_source _, by decide, by decide, by decide, by decide, ⟨.inl rfl, by decide, rfl⟩, ?_⟩
  rintro ⟨h | h, _⟩ <;> cases h

/-- Port 0 armed with an item. -/
def armedWith (item : ArmItem) : State :=
  onPort (src .inbound) (fun q => { q with arm := some { item := item, window := 15 }, queue := [2] })

theorem test_hypotheses_of_arms :
    ((armedWith (.slot 2)).port 0).arm = some { item := .slot 2, window := 15 } ∧
    (armedWith (.slot 2)).record 2 = some (.source (src .inbound)) ∧
    ((armedWith (.foreign .service serviceCode)).port 0).arm
      = some { item := .foreign .service serviceCode, window := 15 } ∧ (base.port 0).arm = none := by decide +kernel

/-- Port 0 with lane entries. -/
def laned (l : List LaneEntry) : State := onPort (src .laned) (fun q => { q with lane := l })

theorem test_hypotheses_of_lanes :
    (laned [.slot 2]).source 2 = some (src .laned) ∧ (laned [.slot 2, .unidentified, .unidentified]).bench = .running ∧
    3 ≤ ((laned [.slot 2, .unidentified, .unidentified]).port 0).lane.length ∧
    ((laned [.slot 2, .unidentified]).port 0).lane.length < 3 ∧ ((laned []).port 0).lane = [] ∧
    ((laned [.unidentified]).port 0).lane.head? = some .unidentified ∧ (laned []).seatLevel 0 = false ∧
    ((laned []).setSeat 0 true).seatLevel 0 = true ∧ benchIn .configured ≠ base := by decide +kernel

theorem test_hypotheses_of_stops (stop : Stop) :
    ((atStop (src .atStop) stop).port 0).stop = stop ∧ (atStop (src .atStop) stop).bench = .running ∧
    ((atStop (src .atStop) stop).port 0).lane = [.slot 2] ∧ (atStop (src .atStop) stop).source 2 = some (src .atStop) ∧
    (src .atStop).withdraw = false ∧ ({ src .atStop with passThrough := some .verifyFailed } : Source).passThrough
      = some .verifyFailed := ⟨rfl, rfl, rfl, two_source _, rfl, rfl⟩

theorem test_hypotheses_of_reads_at_the_stop :
    ((laned [.unidentified, .slot 2]).port 0).lane = .unidentified :: [.slot 2] ∧
    ([.unidentified, .unidentified] : List LaneEntry) = [] ++ .unidentified :: [.unidentified] ∧
    .unidentified ∉ ([.foreign .stray 9#32] : List LaneEntry) ∧ (src .laned).port = 0 ∧ (src .laned).port ≠ 1 ∧
    (laned [.unidentified, .slot 2]).record 2 = some (.source (src .laned)) ∧ Record.kind (.order ord) = .order := by
  decide +kernel

theorem test_hypotheses_of_faults :
    base.localLevel 0 = false ∧ ((base.setLocalControl 0 true).localLevel 0) = true ∧
    (shown.port 0).lane.head? = some (.slot 2) ∧ (shown.source 2).map Source.state = some .presented ∧
    (∀ r, (laned [.slot 2]).source 2 = some r → r.state ≠ .presented) ∧
    ((onPort (src .releasing) (fun q => { q with exitWindow := some 50 })).port 0).exitWindow ≠ none := by
  refine ⟨rfl, by decide +kernel, rfl, by decide +kernel, fun r h => ?_, by decide +kernel⟩
  rw [show (laned [.slot 2]).source 2 = some (src .laned) from two_source _] at h
  cases h
  decide

theorem test_hypotheses_of_presence :
    (two (src .inbound)).order 5 = some ord ∧ ord.position = 0 ∧
    (∀ j y, (two (src .inbound)).order j = some y → y.position = 0 → j = 5) ∧
    (∀ o x, base.order o = some x → x.position ≠ 11) ∧ (placed base).presenceLevel 0 = true ∧ base.presenceLevel 11 = false ∧
    (shown.currentLine .a).map Line.state = some .isOpen := by
  refine ⟨by decide +kernel, rfl, fun j y h _ => two_orders _ h, fun o x h => ?_, rfl, rfl, by decide +kernel⟩
  rw [State.order_eq_some, base_record] at h
  cases h

theorem test_hypotheses_of_picker_inputs :
    (shown.station .a).presentation = some 2 ∧ shown.source 2 = some { src .presented with current := some 0 } ∧
    (src .presented).lines[0]? = some { target := 5, quantity := 2, state := .isOpen } ∧
    (shown.order 5).map Order.position = some 0 ∧ positionStation 5 = .a ∧ positionStation 6 = .b ∧
    (shown.station .a).window ≠ none ∧ (shown.station .a).attendance = .attended ∧ (base.station .a).window = none := by
  decide +kernel

theorem test_hypotheses_of_exposure :
    (exposed 6749).record 2 = some (.source { src .inbound with tote := { toteOf 17#32 with exposure := 6749 } }) ∧
    (6749 : Nat) < base.config.chilledBudget * 10 * base.config.warnPercent / 100 ∧
    base.config.chilledBudget * 10 * base.config.warnPercent / 100 ≤ 6750 ∧ 8999 < base.config.chilledBudget * 10 ∧
    base.config.chilledBudget * 10 ≤ 9000 ∧ (exposed 0).record 5 = some (.order ord) ∧ (toteOf 17#32).running = true ∧
    ({ toteOf 17#32 with running := false } : Tote).running = false := by decide +kernel

theorem test_hypotheses_of_selection :
    let s := atStop (src .ready) .verified
    (s.port 0).mode = .isOpen ∧ (s.port 0).lane.head? = some (.slot 2) ∧ s.source 2 = some (src .ready) ∧
    (src .ready).passThrough = none ∧ (src .ready).port = 0 ∧ stationPort .a .left = 0 ∧
    (s.station .a).presentation = none ∧ (s.station .a).side = .right ∧ (s.station .a).hold = .running ∧
    s.offers 1 = none := by decide +kernel

theorem test_hypotheses_of_grants :
    let s := onPort (src .queued) (fun q => { q with queue := [2] })
    s.bench = .running ∧ s.inputs.supplyReady = true ∧ s.creditsInUse < 4 ∧ s.committedCount 0 < s.config.pipelineDepth ∧
    (s.port 0).queue = [] ++ 2 :: [] ∧ s.source 2 = some (src .queued) ∧ s.callClaim 0 = some 2 ∧ s.cancelClaim = none ∧
    (two { src .called with withdraw := true }).cancelClaim = some 2 ∧
    ((onPort (src .missing) (fun q => { q with mode := .closing })).port 0).mode = .closing := by decide +kernel

theorem test_hypotheses_of_the_check :
    [0x02#8].length ≤ 120 ∧ (List.replicate 120 0#8).length ≤ 120 ∧
    dispatcherMessage 0x81#8 [5#8] = some (.accepted 5#8) ∧ [0#8, 0#8, 0#8, 17#8, 80#8].length = 5 := by decide +kernel

theorem base_port (p : Port) : base.port p = { PortRec.reset with mode := .isOpen } := by
  unfold State.port base; simp

theorem base_source (i : Slot) : base.source i = none := by
  simp [State.source, base_record]

theorem test_hypotheses_of_the_record_laws : ViewLaw base ∧ PositionLaw base ∧ Runs base base ∧
    (two (src .inbound)).record 2 = some (.source (src .inbound)) ∧
    exec (.submitSource 33#32 1#8 8999#16 0#8 [{ target := 5#8, quantity := 99#8 }]) (two (src .inbound)) =
      .next (after (.submitSource 33#32 1#8 8999#16 0#8 [{ target := 5#8, quantity := 99#8 }]) (two (src .inbound))) ∧
    exec .responsePlaced (linked none (.dispatched .halt) none) =
      .next (after .responsePlaced (linked none (.dispatched .halt) none)) := by
  refine ⟨⟨?_, ?_, ?_, ?_⟩, ?_, .refl, by decide +kernel, rfl, rfl⟩
  · intro p i h; rw [base_port] at h; cases h
  · intro p i; rw [base_port]; exact Nat.zero_le 1
  · intro p i; rw [base_port]; simp [base_source, PortRec.reset]
  · intro p i h; rw [base_port] at h; cases h
  · intro i j o q h; rw [State.order_eq_some, base_record] at h; cases h

/-- The records of the presented state. -/
theorem shown_source {j : Slot} {r : Source} (h : shown.source j = some r) :
    j = 2 ∧ r = { src .presented with current := some 0 } := by
  rw [State.source_eq_some] at h
  have e : shown.record j = (two { src .presented with current := some 0 }).record j := by
    simp [shown, atStop, onPort, State.modifyPort]
  rw [e, two_record] at h
  split at h
  · cases h
  · split at h
    · next hj => cases h; exact ⟨hj.symm, rfl⟩
    · cases h

/-- The ports of the presented state. -/
theorem shown_port (p : Port) : shown.port p =
    if 0 = p then { PortRec.reset with mode := .isOpen, lane := [.slot 2], stop := .verified }
    else { PortRec.reset with mode := .isOpen } := by
  fin_cases p <;> rfl

theorem test_hypotheses_of_the_lane_laws :
    ViewLaw shown ∧ ListedLaw shown ∧ QueueOrderLaw shown ∧ StopLaw shown ∧ PresentationLaw shown := by
  have src2 : shown.source 2 = some { src .presented with current := some 0 } := by decide +kernel
  have port0 : shown.port 0 = { PortRec.reset with mode := .isOpen, lane := [.slot 2], stop := .verified } := rfl
  have port1 : ∀ {p : Port}, 0 ≠ p → shown.port p = { PortRec.reset with mode := .isOpen } := by
    intro p hp; rw [shown_port, if_neg hp]
  refine ⟨⟨?_, ?_, ?_, ?_⟩, ?_, ?_, ⟨?_, ?_, ?_, ?_, ?_⟩, ⟨?_, ?_, ?_⟩⟩
  · intro p i h
    by_cases hp : 0 = p
    · subst hp; rw [port0] at h; cases List.mem_singleton.mp h; exact ⟨_, src2, rfl, rfl⟩
    · rw [port1 hp] at h; cases h
  · intro p i
    by_cases hp : 0 = p
    · subst hp; rw [port0]; exact List.count_le_length.trans (le_refl 1)
    · rw [port1 hp]; exact Nat.zero_le 1
  · intro p i
    have none : i ∉ (shown.port p).queue := by rw [shown_port]; split <;> exact List.not_mem_nil
    refine ⟨fun h => absurd h none, ?_⟩
    rintro ⟨r, h, _, hq⟩
    obtain ⟨rfl, rfl⟩ := shown_source h
    cases hq
  · intro p i h
    rw [shown_port] at h
    split at h <;> cases h
  · intro i r h
    obtain ⟨rfl, rfl⟩ := shown_source h
    intro _
    show _ ∈ (shown.port 0).lane
    rw [port0]; exact List.mem_singleton.mpr rfl
  · intro p; rw [shown_port]; split <;> exact List.nodup_nil
  · intro p i rest r hl h
    obtain ⟨rfl, rfl⟩ := shown_source h
    by_cases hp : 0 = p
    · subst hp; rfl
    · rw [port1 hp] at hl; cases hl
  · intro p e rest i r hl hi _
    by_cases hp : 0 = p
    · subst hp; rw [port0] at hl; cases hl; cases hi
    · rw [port1 hp] at hl; cases hl
  · intro p
    by_cases hp : 0 = p
    · subst hp; intro h; rw [port0] at h; cases h
    · intro _; rw [port1 hp]; exact .inl rfl
  · intro p h
    by_cases hp : 0 = p
    · subst hp; exact ⟨2, [], by rw [port0]⟩
    · rw [port1 hp] at h; cases h
  · intro p h
    rw [shown_port] at h
    split at h <;> cases h
  · intro st i h
    cases st with
    | a =>
      cases (show some (2 : Slot) = some i from h)
      exact ⟨_, [], src2, rfl, rfl, rfl, port0 ▸ rfl⟩
    | b => cases h
  · intro i r h _
    obtain ⟨rfl, rfl⟩ := shown_source h
    rfl
  · intro i r h hs
    obtain ⟨rfl, rfl⟩ := shown_source h
    exact absurd rfl hs

/-- The presented record's one line is OPEN and its target BOUND. -/
theorem test_hypotheses_of_the_line_law : LineLaw shown := by
  refine ⟨?_, ?_, ?_, ?_⟩
  · intro i r l h hl _
    obtain ⟨rfl, rfl⟩ := shown_source h
    cases List.mem_singleton.mp hl
    exact ⟨ord, by decide +kernel, rfl, fun _ => rfl, (fun e => nomatch e)⟩
  · intro i r j k l m h hj hk _ _ _
    obtain ⟨rfl, rfl⟩ := shown_source h
    have := (List.getElem?_eq_some_iff.mp hj).1
    have := (List.getElem?_eq_some_iff.mp hk).1
    simp only [src, List.length_singleton] at *
    omega
  · intro i r l h hl
    obtain ⟨rfl, rfl⟩ := shown_source h
    cases List.mem_singleton.mp hl
    exact ⟨by decide, by decide⟩
  · intro i r l h hs
    obtain ⟨rfl, rfl⟩ := shown_source h
    cases hs

theorem test_hypotheses_of_misrouted_exits (j : Slot) (y : Record) (h : (two (src .inbound)).record j = some y)
    (hc : y.tote.code = 18#32) : y.kind = .order := by
  rw [two_record] at h
  split at h
  · cases h; rfl
  · split at h <;> cases h
    exact absurd hc (by decide)

end Sys2Proof.Tests
end

/-! ## The quality windows of the readers

What a frame counted does to its channel (R162, R163): within the window the counts alone change; at the window's length the
window closes, and the notice depends on how the status before the close compares with the status the bad count gives. -/

namespace Sys2Proof.Machine

/-! ### The counts of a channel -/

theorem ReaderRec.counted_eq (r : ReaderRec) (isBad : Bool) :
    r.counted isBad = { r with frames := r.frames + 1, bad := if isBad then r.bad + 1 else r.bad } := by
  cases isBad with
  | false => rfl
  | true => rfl

theorem State.countFrame_within_window {s : State} {c : Channel} {isBad : Bool}
    (h : (s.reader c).frames + 1 < s.config.readerWindow) :
    s.countFrame c isBad = s.setReader c ((s.reader c).counted isBad) :=
  if_neg (Nat.not_le.mpr h)

theorem State.countFrame_at_window_length {s : State} {c : Channel} {isBad : Bool}
    (h : s.config.readerWindow ≤ (s.reader c).frames + 1) :
    s.countFrame c isBad = s.closeWindow c ((s.reader c).counted isBad) :=
  if_pos h

@[simp] theorem State.reset_reader (c : Channel) : State.reset.reader c = ReaderRec.reset := by
  cases c with
  | scanner => rfl
  | port p => exact Vector.getElem_replicate p.isLt

/-! ### The notice of a close -/

theorem closedStatus_of_le {bad limit : Nat} (h : limit ≤ bad) : closedStatus bad limit = .degraded := if_pos h

theorem closedStatus_of_lt {bad limit : Nat} (h : bad < limit) : closedStatus bad limit = .ok := if_neg (Nat.not_le.mpr h)

/-- A channel that keeps its status tells nothing. -/
theorem closeNotice_of_kept (c : Channel) (bad limit window : Nat) :
    closeNotice c (closedStatus bad limit) bad limit window = none := by
  unfold closeNotice
  cases closedStatus bad limit with
  | ok => rfl
  | degraded => rfl

theorem closeNotice_of_entering_degraded (c : Channel) {before : ReaderStatus} {bad limit : Nat} (window : Nat)
    (hl : limit ≤ bad) (hs : before ≠ .degraded) :
    closeNotice c before bad limit window = some (.readerDegraded c bad limit window) := by
  unfold closeNotice
  rw [closedStatus_of_le hl]
  cases before with
  | ok => rfl
  | degraded => exact absurd rfl hs

theorem closeNotice_of_entering_ok (c : Channel) {before : ReaderStatus} {bad limit : Nat} (window : Nat)
    (hl : bad < limit) (hs : before ≠ .ok) :
    closeNotice c before bad limit window = some (.readerRecovered c bad limit window) := by
  unfold closeNotice
  rw [closedStatus_of_lt hl]
  cases before with
  | ok => exact absurd rfl hs
  | degraded => rfl

/-- A window closed: the channel's new counts and status, and a notice exactly when the status changes (R163). -/
theorem State.closeWindow_eq (s : State) (c : Channel) (r : ReaderRec) :
    let limit := s.config.readerBadLimit
    let status := closedStatus r.bad limit
    let closed := s.setReader c
      { r with frames := 0, bad := 0, lastBad := r.bad, windows := r.windows + 1#8, status := status }
    s.closeWindow c r =
      if r.status = status then closed
      else if limit ≤ r.bad then closed.post (.readerDegraded c r.bad limit s.config.readerWindow)
      else closed.post (.readerRecovered c r.bad limit s.config.readerWindow) := by
  intro limit status closed
  have hclose : s.closeWindow c r = closed.postIf (closeNotice c r.status r.bad limit s.config.readerWindow) := rfl
  rw [hclose]
  by_cases hkept : r.status = status
  · rw [if_pos hkept, hkept, closeNotice_of_kept]
    rfl
  · rw [if_neg hkept]
    by_cases hl : limit ≤ r.bad
    · have hs : r.status ≠ .degraded := fun e => hkept (e.trans (closedStatus_of_le hl).symm)
      rw [if_pos hl, closeNotice_of_entering_degraded c _ hl hs]
      rfl
    · have hlt := Nat.lt_of_not_le hl
      have hs : r.status ≠ .ok := fun e => hkept (e.trans (closedStatus_of_lt hlt).symm)
      rw [if_neg hl, closeNotice_of_entering_ok c _ hlt hs]
      rfl

/-- Settles O39: within the window `countFrame` only counts, at its length it is `closeWindow`, whose outcome
`closeWindow_eq` gives. -/
theorem readerWindowsCountFrames : Obligations.ReaderWindowsCountFrames := by
  intro c s isBad r limit window frames bad status closed
  have hcounted : r.counted isBad = { r with frames := frames, bad := bad } := r.counted_eq isBad
  refine ⟨fun hwithin => ?within, fun hlength => ?close, ?resetLast, ?resetWindows⟩
  case within => rw [State.countFrame_within_window hwithin, hcounted]
  case close =>
    rw [State.countFrame_at_window_length hlength, hcounted]
    exact s.closeWindow_eq c { r with frames := frames, bad := bad }
  case resetLast => rw [State.reset_reader]; rfl
  case resetWindows => rw [State.reset_reader]; rfl

end Sys2Proof.Machine

/-! ## The check of the frames

Why the four-bit form of the CRC-8 gives what the eight shifts give (R185): a shift of the register distributes over XOR, so
four shifts act on the two halves of the register apart. The low half only moves up; the top half, shifted out whole, leaves
its entry of the table. A frame of each of the three links passes exactly when its check byte is the CRC-8 of those it
covers. -/

namespace Sys2Proof.Machine

/-! ### Shifts of the register -/

/-- A shift distributes over XOR: where a bit falls out of both, the 0x07 each brings cancels. -/
theorem crcBit_xor (x y : Byte) : crcBit (x ^^^ y) = crcBit x ^^^ crcBit y := by
  unfold crcBit
  rw [BitVec.msb_xor, BitVec.shiftLeft_xor_distrib]
  cases x.msb with
  | false =>
    cases y.msb with
    | false => rfl
    | true => exact BitVec.xor_assoc ..
  | true =>
    cases y.msb with
    | false =>
      change (x <<< 1 ^^^ y <<< 1) ^^^ 0x07#8 = (x <<< 1 ^^^ 0x07#8) ^^^ y <<< 1
      ac_rfl
    | true =>
      calc x <<< 1 ^^^ y <<< 1
        _ = (x <<< 1 ^^^ y <<< 1) ^^^ (0x07#8 ^^^ 0x07#8) := by simp
        _ = (x <<< 1 ^^^ 0x07#8) ^^^ (y <<< 1 ^^^ 0x07#8) := by ac_rfl

theorem repeat_crcBit_xor (n : Nat) (x y : Byte) :
    Nat.repeat crcBit n (x ^^^ y) = Nat.repeat crcBit n x ^^^ Nat.repeat crcBit n y := by
  induction n with
  | zero => rfl
  | succ n ih => simp only [Nat.repeat, ih, crcBit_xor]

/-! ### Four bits at a time -/

/-- The table of R185. -/
def crcTable : List Byte :=
  [0x00#8, 0x07#8, 0x0E#8, 0x09#8, 0x1C#8, 0x1B#8, 0x12#8, 0x15#8,
    0x38#8, 0x3F#8, 0x36#8, 0x31#8, 0x24#8, 0x23#8, 0x2A#8, 0x2D#8]

/-- The register is shifted by four bits at once (R185); `crcHalf_eq` ties it to `crcBit`. -/
def crcHalf (c : Byte) : Byte := (c <<< 4) ^^^ crcTable.getD (c.toNat / 16) 0#8

theorem repeat_crcBit_four_low {x : Byte} (h : x.toNat < 16) : Nat.repeat crcBit 4 x = x <<< 4 := by
  have hall : ∀ n : Fin 16, Nat.repeat crcBit 4 (BitVec.ofNat 8 n) = BitVec.ofNat 8 n <<< 4 := by decide
  simpa using hall ⟨x.toNat, h⟩

theorem repeat_crcBit_four_top {x : Byte} (h : x.toNat < 16) :
    Nat.repeat crcBit 4 (x <<< 4) = crcTable.getD x.toNat 0#8 := by
  have hall : ∀ n : Fin 16, Nat.repeat crcBit 4 (BitVec.ofNat 8 n <<< 4) = crcTable.getD n 0#8 := by decide
  simpa using hall ⟨x.toNat, h⟩

/-- A byte is its top half, in its place, and its low half. -/
theorem byte_eq_xor_halves (c : Byte) : c = (c >>> 4) <<< 4 ^^^ (c &&& 0x0F#8) := by
  ext i hi
  interval_cases i <;> simp

/-- One look into the table is four shifts: the low half moves up (`repeat_crcBit_four_low`) and the top half leaves its
entry (`repeat_crcBit_four_top`). -/
theorem crcHalf_eq (c : Byte) : crcHalf c = Nat.repeat crcBit 4 c := by
  have htop : (c >>> 4).toNat = c.toNat / 16 := by simp [Nat.shiftRight_eq_div_pow]
  have htopLt : (c >>> 4).toNat < 16 := by have := c.isLt; omega
  have hlowLt : (c &&& 0x0F#8).toNat < 16 := Nat.lt_succ_of_le Nat.and_le_right
  have hup : c <<< 4 = (c &&& 0x0F#8) <<< 4 := by
    ext i hi
    interval_cases i <;> simp
  calc crcHalf c
    _ = crcTable.getD (c >>> 4).toNat 0#8 ^^^ (c &&& 0x0F#8) <<< 4 := by
      rw [htop, ← hup, BitVec.xor_comm]; rfl
    _ = Nat.repeat crcBit 4 ((c >>> 4) <<< 4) ^^^ Nat.repeat crcBit 4 (c &&& 0x0F#8) := by
      rw [repeat_crcBit_four_top htopLt, repeat_crcBit_four_low hlowLt]
    _ = Nat.repeat crcBit 4 c := by rw [← repeat_crcBit_xor, ← byte_eq_xor_halves]

/-! ### The CRC-8, byte by byte -/

theorem crc8_append_byte (bs : List Byte) (b : Byte) : crc8 (bs ++ [b]) = Nat.repeat crcBit 8 (crc8 bs ^^^ b) :=
  List.foldl_concat ..

theorem crc8_append_byte_by_halves (bs : List Byte) (b : Byte) :
    crc8 (bs ++ [b]) = crcHalf (crcHalf (crc8 bs ^^^ b)) := by
  rw [crc8_append_byte, crcHalf_eq, crcHalf_eq]
  rfl

/-! ### The check byte of a frame -/

theorem byteAt_check {covered : List Byte} {n : Nat} (h : covered.length = n) (check : Byte) :
    byteAt (covered ++ [check]) n = check := by
  subst h
  simp [byteAt]

theorem ofLength_ne_frameError (n : Nat) (a : List Byte) (r : Request) : ofLength n a r ≠ .error .frameError := by
  unfold ofLength
  split <;> nofun

theorem submitRequest_ne_frameError (a : List Byte) : submitRequest a ≠ .error .frameError := by
  unfold submitRequest
  split <;> nofun

theorem amendRequest_ne_frameError (a : List Byte) : amendRequest a ≠ .error .frameError := by
  unfold amendRequest
  dsimp only
  split <;> nofun

/-- No failure of check 3 or 4 of R175 is a FRAME_ERROR. -/
theorem parseRequest_ne_frameError (code : Byte) (a : List Byte) : parseRequest code a ≠ .error .frameError := by
  unfold parseRequest
  split
  case h_7 => exact submitRequest_ne_frameError a
  case h_9 => exact amendRequest_ne_frameError a
  case h_24 => nofun
  all_goals exact ofLength_ne_frameError _ _ _

theorem checkFrame_eq_frameError_iff {mosi : List Byte} {n : Nat} (hn : (byteAt mosi 1).toNat = n) :
    checkFrame mosi = .error .frameError ↔
      ¬ (n ≤ 120 ∧ n + 3 ≤ mosi.length ∧ byteAt mosi (n + 2) = crc8 (mosi.take (n + 2))) := by
  subst hn
  unfold checkFrame
  dsimp only
  split
  case isTrue h => exact iff_of_false (parseRequest_ne_frameError _ _) (not_not_intro h)
  case isFalse h => exact iff_of_true rfl h

/-- A command frame whose length byte is right fails by its check alone. -/
theorem checkFrame_whole_eq_frameError_iff (code : Byte) {args : List Byte} (check : Byte) (h : args.length ≤ 120) :
    let covered := code :: byteOf args.length :: args
    checkFrame (covered ++ [check]) = .error .frameError ↔ check ≠ crc8 covered := by
  intro covered
  have hn : (byteAt (covered ++ [check]) 1).toNat = args.length := Nat.mod_eq_of_lt (by omega)
  have hlen : covered.length = args.length + 2 := rfl
  rw [checkFrame_eq_frameError_iff hn, byteAt_check hlen, List.take_left' hlen]
  simp [h, hlen]

theorem frameEvent_whole {type length : Byte} {content : List Byte} {m : DispatcherMessage}
    (h : dispatcherMessage type content = some m) (check : Byte) :
    let covered := type :: length :: content
    frameEvent (covered ++ [check]) = if check = crc8 covered then .message m else .bad := by
  intro covered
  have hlen : covered.length = (covered ++ [check]).length - 1 := by simp
  have hcontent : dispatcherMessage (byteAt (covered ++ [check]) 0) (covered.drop 2) = some m := h
  unfold frameEvent
  dsimp only
  rw [← hlen, byteAt_check rfl, List.take_left, hcontent]
  exact if_congr eq_comm rfl rfl

theorem classifyFrame_eq_badCheck_iff (threshold : Nat) (bytes : List Byte) :
    classifyFrame threshold bytes = .badCheck ↔ byteAt bytes 5 ≠ crc8 (bytes.take 5) := by
  unfold classifyFrame
  dsimp only
  split
  case isTrue h => exact iff_of_true rfl h
  case isFalse h =>
    refine iff_of_false ?_ h
    repeat' split
    all_goals nofun

theorem classifyFrame_whole_eq_badCheck_iff (threshold : Nat) {covered : List Byte} (check : Byte)
    (h : covered.length = 5) : classifyFrame threshold (covered ++ [check]) = .badCheck ↔ check ≠ crc8 covered := by
  rw [classifyFrame_eq_badCheck_iff, byteAt_check h, List.take_left' h]

/-- Settles O10: the definition step by step, the table by `crcHalf_eq`, and each link's frame by its own lemma. -/
theorem crcFollowsItsDefinition : Obligations.CrcFollowsItsDefinition := by
  unfold Obligations.CrcFollowsItsDefinition
  intro entry bit half
  refine ⟨rfl, fun bs b => ⟨?shifts, ?table⟩, ?checkOfOne, ?checkOfDigits, ?command, ?supply, ?reader⟩
  case shifts => exact crc8_append_byte bs b
  case table => exact crc8_append_byte_by_halves bs b
  case checkOfOne => decide
  case checkOfDigits => decide +kernel
  case command => exact fun code _ check hargs => checkFrame_whole_eq_frameError_iff code check hargs
  case supply => exact fun _ _ _ check _ hmessage => frameEvent_whole hmessage check
  case reader => exact fun threshold _ check hfive => classifyFrame_whole_eq_badCheck_iff threshold check hfive

end Sys2Proof.Machine

namespace Sys2Proof.Machine

/-! ## The laws kept along a run

A step is a command, taken with the queue's rest, or the block's own going on with nothing waiting (`Follows.cases`). -/

/-! ### Steps and runs -/

theorem Follows.cases {s t : State} (h : Follows s t) :
    t = s.idle ∨ ∃ c rest, exec c { s with pending := rest } = .next t := by
  unfold Follows step at h
  split at h
  · cases h; exact .inl rfl
  · next c rest _ => exact .inr ⟨c, rest, h⟩

/-- What every step keeps, a run keeps. -/
theorem Runs.keeps {P : State → Prop} (h : ∀ s t, Follows s t → P s → P t) {s t : State} (hr : Runs s t) (hs : P s) :
    P t := by
  induction hr with
  | refl => exact hs
  | tail _ hf ih => exact h _ _ hf ih

/-- What every change keeps, a hardware reset gives and the queue of waiting commands leaves, a step keeps. -/
theorem Follows.keeps {P : State → Prop} (hc : ∀ s t, Change s t → P s → P t)
    (hr : ∀ (s : State) (held : Bool), P (s.afterReset held))
    (hp : ∀ (s : State) (rest : List Instr), P s → P { s with pending := rest }) {s t : State} (h : Follows s t)
    (hs : P s) : P t :=
  step_keeps (fun _ _ ha => hc _ _ (.atom ha)) (fun _ _ he => he.keeps hc hr) hp h hs

/-! ### The roster views, the lane lists and the stops -/

theorem viewLaw_step {s t : State} (h : Follows s t) (hs : ViewLaw s) : ViewLaw t := by
  obtain rfl | ⟨c, rest, hc⟩ := h.cases
  · exact view_idle hs
  · have taken : SameView s { s with pending := rest } := .of rfl rfl
    exact view_exec (taken.law hs) hc

theorem sceneLaw_step {s t : State} (h : Follows s t) (hv : ViewLaw s) (hs : s.scene.Law []) : t.scene.Law [] := by
  obtain rfl | ⟨c, rest, hc⟩ := h.cases
  · exact lane_idle hs
  · have taken : SameView s { s with pending := rest } := .of rfl rfl
    have same : ({ s with pending := rest } : State).scene = s.scene := scene_of rfl rfl rfl rfl
    exact lane_exec (taken.law hv) (lane_same hs same) hc

/-- Settles O29: each step keeps the law of the views (`view_exec`), of the queue order and of the scene (`lane_exec`). -/
theorem theRosterViewsKeepTheirLaw : Obligations.TheRosterViewsKeepTheirLaw := by
  intro s t hr
  refine ⟨fun hv => ?views, fun hq => ?order, fun hv hl hs hp => ?listed⟩
  case views => exact hr.keeps (fun _ _ => viewLaw_step) hv
  case order => exact hr.keeps (fun _ _ => step_queueOrder) hq
  case listed =>
    have both : ViewLaw t ∧ t.scene.Law [] := hr.keeps (P := fun u => ViewLaw u ∧ u.scene.Law [])
      (fun _ _ h hu => ⟨viewLaw_step h hu.1, sceneLaw_step h hu.1 hu.2⟩) ⟨hv, .of_laws hv hl hs hp⟩
    exact both.2.laws.1

/-! ### The ports and the stations -/

@[simp] theorem State.afterReset_port (s : State) (held : Bool) (p : Port) : (s.afterReset held).port p = PortRec.reset :=
  Vector.getElem_replicate p.isLt

@[simp] theorem State.emptied_port (s : State) (p : Port) : s.emptied.port p = PortRec.reset :=
  Vector.getElem_replicate p.isLt

@[simp] theorem State.reconfigured_port (s : State) (k : Configuration) (p : Port) :
    (s.reconfigured k).port p = s.port p := by
  unfold State.reconfigured
  split <;> rfl

@[simp] theorem State.reconfigured_station (s : State) (k : Configuration) (st : Station) :
    (s.reconfigured k).station st = s.station st := by
  unfold State.reconfigured
  cases st <;> split <;> rfl

theorem Atom.port_keeps {s t : State} (h : Atom s t) (p : Port) : PortKeeps (s.port p) (t.port p) := by
  cases h with
  | port x q hk =>
    by_cases e : x = p
    · subst e; rw [State.port_setPort_self]; exact hk
    · rw [State.port_setPort_of_ne s e]; exact .refl _
  | station | reader | post =>
    simp only [State.port_setStation, State.port_setReader, State.port_post]
    exact .refl _
  | _ => exact .refl _

/-- What a change does to a port: it keeps the port's laws, or the port is as after a reset. -/
theorem Change.port_keeps {s t : State} (h : Change s t) (p : Port) :
    PortKeeps (s.port p) (t.port p) ∨ t.port p = PortRec.reset := by
  cases h with
  | atom h => exact .inl (h.port_keeps p)
  | reconfigure a _ _ => rw [State.reconfigured_port]; exact .inl (.refl _)
  | clear _ => exact .inr (s.emptied_port p)
  | _ => exact .inl (.refl _)

/-- A law of a port that `PortKeeps` keeps and a port after a reset meets, every step keeps. -/
theorem portLaw_step {L : PortRec → Prop} (hk : ∀ q q', PortKeeps q q' → L q → L q') (hr : L PortRec.reset)
    {s t : State} (h : Follows s t) (hs : ∀ p, L (s.port p)) : ∀ p, L (t.port p) := by
  refine h.keeps (P := fun u => ∀ p, L (u.port p)) (fun s t hc hs p => ?_)
    (fun s held p => by rw [State.afterReset_port]; exact hr) (fun _ _ hs => hs) hs
  rcases hc.port_keeps p with hp | hp
  · exact hk _ _ hp (hs p)
  · rw [hp]; exact hr

theorem stationLaw_reset : StationLaw StationRec.reset := ⟨nofun, fun _ => rfl, nofun, nofun, nofun⟩

theorem Atom.stationLaw {s t : State} (h : Atom s t) (st : Station) (hs : StationLaw (s.station st)) :
    StationLaw (t.station st) := by
  cases h with
  | station z q hk =>
    by_cases e : z = st
    · subst e; rw [State.station_setStation_self]; exact hk hs
    · rw [State.station_setStation_of_ne s e]; exact hs
  | reader | post => simpa using hs
  | _ => cases st <;> exact hs

theorem Change.stationLaw {s t : State} (h : Change s t) (st : Station) (hs : StationLaw (s.station st)) :
    StationLaw (t.station st) := by
  cases h with
  | atom h => exact h.stationLaw st hs
  | reconfigure a _ _ => rw [State.reconfigured_station]; exact hs
  | clear _ => cases st <;> exact stationLaw_reset
  | _ => cases st <;> exact hs

theorem stationLaw_step {s t : State} (h : Follows s t) (hs : ∀ st, StationLaw (s.station st)) :
    ∀ st, StationLaw (t.station st) := by
  refine h.keeps (P := fun u => ∀ st, StationLaw (u.station st)) (fun _ _ hc hs st => hc.stationLaw st (hs st))
    (fun s held st => ?_) (fun s rest hs st => ?_) hs
  · cases st <;> exact stationLaw_reset
  · have := hs st
    cases st <;> exact this

/-- Settles O57: what each change keeps of a port and of a station, and the law of the scene (`sceneLaw_step`). -/
theorem portsAndStationsKeepTheirLaws : Obligations.PortsAndStationsKeepTheirLaws := by
  intro s t h
  refine ⟨?lanes, ?causes, ?stations, fun hv hl hs hp => ?stops⟩
  case lanes => exact portLaw_step (fun _ _ hk => hk.lane) (by decide) h
  case causes => exact portLaw_step (fun _ _ hk => hk.cause) (by decide) h
  case stations => exact stationLaw_step h
  case stops => exact (sceneLaw_step h hv (.of_laws hv hl hs hp)).laws.2

/-! ### What the records keep -/

theorem ToteKeeps.trans {a b c : Tote} (h : ToteKeeps a b) (g : ToteKeeps b c) : ToteKeeps a c where
  code := g.code.trans h.code
  cls := g.cls.trans h.cls
  exposure := h.exposure.trans g.exposure
  capped x := g.capped (h.capped x)
  warned x := g.warned (h.warned x)
  expired x := g.expired (h.expired x)

theorem RecordKeeps.refl : ∀ x : Record, RecordKeeps x x
  | .source _ => .source (.refl _) rfl id (.refl _)
  | .order _ => .order (.refl _) rfl

theorem RecordKeeps.trans {x y z : Record} (h : RecordKeeps x y) (g : RecordKeeps y z) : RecordKeeps x z := by
  cases h with
  | source ht hp hw hl => cases g with
    | source ht' hp' hw' hl' => exact .source (ht.trans ht') (hp'.trans hp) (hw' ∘ hw) (hl.trans hl')
  | order ht hp => cases g with
    | order ht' hp' => exact .order (ht.trans ht') (hp'.trans hp)

theorem RecordKeeps.tote {x y : Record} (h : RecordKeeps x y) : ToteKeeps x.tote y.tote := by
  cases h <;> assumption

/-- What becomes of a slot where no record is created: FREE stays FREE, and a live record keeps what it holds or is
retired. -/
inductive SlotKept : Option Record → Option Record → Prop where
  | free : SlotKept none none
  | retired (x : Record) : SlotKept (some x) none
  | kept {x y : Record} : RecordKeeps x y → SlotKept (some x) (some y)

theorem SlotKept.refl : ∀ o : Option Record, SlotKept o o
  | none => .free
  | some x => .kept (.refl x)

theorem SlotKept.trans {a b c : Option Record} (h : SlotKept a b) (g : SlotKept b c) : SlotKept a c := by
  cases h with
  | free => exact g
  | retired x => cases g; exact .retired x
  | kept h => cases g with
    | retired y => exact .retired _
    | kept g => exact .kept (h.trans g)

/-- The record that a record after the change was before it. -/
theorem SlotKept.back {a b : Option Record} (h : SlotKept a b) {y : Record} (hy : b = some y) :
    ∃ x, a = some x ∧ RecordKeeps x y := by
  cases h with
  | free => cases hy
  | retired x => cases hy
  | kept h => cases hy; exact ⟨_, rfl, h⟩

theorem SlotKeeps.kept {limit : Nat} {a b : Option Record} (h : SlotKeeps limit a b) : SlotKept a b := by
  cases h with
  | free => exact .free
  | source h _ => exact .kept (.source h.tote h.port h.withdraw h.lines.keep)
  | order ht hp _ => exact .kept (.order ht hp)

/-- No record is created, and every live one keeps what it holds until it is retired. -/
def RecordsKept (s t : State) : Prop := ∀ i, SlotKept (s.record i) (t.record i)

theorem RecordsKept.of_record {s t : State} (h : ∀ i, t.record i = s.record i) : RecordsKept s t :=
  fun i => by rw [h]; exact .refl _

theorem RecordsKept.trans {s t u : State} (h : RecordsKept s t) (g : RecordsKept t u) : RecordsKept s u :=
  fun i => (h i).trans (g i)

theorem RecordsKept.setSlot {s : State} {i : Slot} {o : Option Record} (h : SlotKept (s.record i) o) :
    RecordsKept s (s.setSlot i o) := by
  intro j
  rw [State.record_setSlot]
  split
  · next e => exact e ▸ h
  · exact .refl _

theorem RecordsKept.putSource {s : State} {i : Slot} {r q : Source} (hr : s.source i = some r)
    (h : RecordKeeps (.source r) (.source q)) : RecordsKept s (s.putSource i q) :=
  .setSlot (by rw [State.source_eq_some.mp hr]; exact .kept h)

theorem moveLines_keep {test : Line → Bool} (h : ∀ l, test l = true → l.pending = true) (dest : LineState)
    (ls : List Line) : LinesKeep ls (moveLines test dest ls) := by
  refine ⟨fun k l hl => ⟨if test l then { l with state := dest } else l, by simp [moveLines, hl], ?_⟩,
    fun hl => by simpa [moveLines] using hl⟩
  by_cases ht : test l = true
  · simp [ht, h l ht]
  · simp [ht]

theorem RecordsKept.moveLinesFor (s : State) (o : Slot) {test : Line → Bool}
    (h : ∀ l, test l = true → l.pending = true) (dest : LineState) : RecordsKept s (s.moveLinesFor o test dest) := by
  intro i
  unfold State.moveLinesFor
  rw [State.record_mapSlots]
  match s.record i with
  | none => exact .free
  | some (.order r) => exact .refl _
  | some (.source r) =>
    refine .kept (.source (.refl _) rfl id (moveLines_keep (fun l hl => ?_) dest _))
    simp only [Bool.and_eq_true] at hl
    exact h l hl.1

theorem Atom.recordsKept {s t : State} (h : Atom s t) : RecordsKept s t := by
  cases h with
  | slot i o hk => exact .setSlot hk.kept
  | slots f hk => exact fun i => by rw [State.record_mapSlots]; exact (hk _).kept
  | credit i r q hr hk _ => exact .putSource hr (.source hk.tote hk.port hk.withdraw hk.lines.keep)
  | retire i _ =>
    refine .setSlot ?_
    match s.record i with
    | none => exact .free
    | some x => exact .retired x
  | moveOrder o r q test dest hr ht hp hl _ =>
    refine RecordsKept.trans (.setSlot ?_) (.moveLinesFor _ o hl dest)
    rw [State.order_eq_some.mp hr]
    exact .kept (.order ht hp)
  | amend i r ls hr _ hl _ => exact .putSource hr (.source (.refl _) rfl id hl)
  | station | reader | post => exact .of_record (fun _ => by simp)
  | _ => exact .of_record (fun _ => rfl)

theorem Reach.recordsKept {s t : State} (h : Reach s t) : RecordsKept s t :=
  h.keeps (P := RecordsKept s) (fun _ _ ha hs => hs.trans ha.recordsKept) (.of_record (fun _ => rfl))

theorem limitAttempts_kept (limit : Nat) : ∀ o, SlotKept o (limitAttempts limit o)
  | none => .free
  | some (.order _) => .refl _
  | some (.source _) => .kept (.source (.refl _) rfl id (.refl _))

theorem State.reconfigured_record (s : State) (k : Configuration) (i : Slot) :
    (s.reconfigured k).record i = limitAttempts k.divertLimit (s.record i) := by
  unfold State.reconfigured
  split <;> exact State.record_mapSlots _ _ i

theorem State.emptied_record (s : State) (i : Slot) : s.emptied.record i = none := record_reset i

theorem State.afterReset_record (s : State) (held : Bool) (i : Slot) : (s.afterReset held).record i = none := record_reset i

theorem RecordsKept.of_free {s t : State} (h : ∀ i, t.record i = none) : RecordsKept s t := by
  intro i
  rw [h]
  match s.record i with
  | none => exact .free
  | some x => exact .retired x

/-- What a change does to the records: none is created, or one in a FREE slot. -/
theorem Change.recordsKept {s t : State} (h : Change s t) :
    RecordsKept s t ∨ ∃ i x, s.record i = none ∧ Fresh s x ∧ t = s.create i x := by
  cases h with
  | atom h => exact .inl h.recordsKept
  | create i x hi hx => exact .inr ⟨i, x, hi, hx, rfl⟩
  | reconfigure a _ _ => exact .inl (fun i => by rw [State.reconfigured_record]; exact limitAttempts_kept _ _)
  | clear _ => exact .inl (.of_free s.emptied_record)
  | _ => exact .inl (.of_record (fun _ => rfl))

theorem State.record_create (s : State) (i j : Slot) (x : Record) :
    (s.create i x).record j = if i = j then some x else s.record j := State.record_setSlot s i j (some x)

/-! ### Codes and put positions -/

theorem SlotKept.of_order {s t : State} {i : Slot} {q : Order} (h : SlotKept (s.record i) (t.record i))
    (hq : t.order i = some q) : ∃ r, s.order i = some r ∧ q.position = r.position := by
  obtain ⟨x, hx, hk⟩ := h.back (State.order_eq_some.mp hq)
  cases hk with
  | order _ hp => exact ⟨_, State.order_eq_some.mpr hx, hp⟩

theorem SlotKept.of_source {s t : State} {i : Slot} {q : Source} (h : SlotKept (s.record i) (t.record i))
    (hq : t.source i = some q) : ∃ r, s.source i = some r ∧ q.port = r.port := by
  obtain ⟨x, hx, hk⟩ := h.back (State.source_eq_some.mp hq)
  cases hk with
  | source _ hp _ _ => exact ⟨_, State.source_eq_some.mpr hx, hp⟩

theorem RecordsKept.codeLaw {s t : State} (h : RecordsKept s t) (hs : CodeLaw s) : CodeLaw t := by
  refine ⟨fun i y hy => ?_, fun i j y z hy hz hc => ?_⟩
  · obtain ⟨x, hx, hk⟩ := (h i).back hy
    rw [hk.tote.code]
    exact hs.legal i x hx
  · obtain ⟨x, hx, hk⟩ := (h i).back hy
    obtain ⟨w, hw, hk'⟩ := (h j).back hz
    exact hs.unique i j x w hx hw (by rw [← hk.tote.code, ← hk'.tote.code, hc])

theorem RecordsKept.positionLaw {s t : State} (h : RecordsKept s t) (hs : PositionLaw s) : PositionLaw t := by
  intro i j o q ho hq he
  obtain ⟨o', ho', hp⟩ := (h i).of_order ho
  obtain ⟨q', hq', hp'⟩ := (h j).of_order hq
  exact hs i j o' q' ho' hq' (by rw [← hp, ← hp', he])

/-- A code that the look-up does not find is held by no live record. -/
theorem code_ne_of_findCode_none {s : State} {c : Code} (h : s.findCode c = none) {i : Slot} {x : Record}
    (hx : s.record i = some x) : x.tote.code ≠ c := by
  have := List.find?_eq_none.mp h i (List.mem_finRange i)
  simpa [hx] using this

/-- A put position at which the look-up finds no order is held by none. -/
theorem position_ne_of_orderAt_none {s : State} {u : Position} (h : s.orderAt u = none) {i : Slot} {o : Order}
    (ho : s.order i = some o) : o.position ≠ u := by
  have := List.find?_eq_none.mp h i (List.mem_finRange i)
  simpa [ho] using this

theorem Fresh.codeLaw {s : State} {x : Record} (h : Fresh s x) (i : Slot) (hs : CodeLaw s) : CodeLaw (s.create i x) := by
  refine ⟨fun j y hy => ?_, fun j k y z hy hz hc => ?_⟩
  · rw [State.record_create] at hy
    split at hy
    · cases hy; exact h.legal
    · exact hs.legal j y hy
  · rw [State.record_create] at hy hz
    split at hy
    · next hj =>
      cases hy
      split at hz
      · next hk => exact hj.symm.trans hk
      · exact absurd hc.symm (code_ne_of_findCode_none h.unheld hz)
    · split at hz
      · cases hz; exact absurd hc (code_ne_of_findCode_none h.unheld hy)
      · exact hs.unique j k y z hy hz hc

theorem Fresh.positionLaw {s : State} {x : Record} (h : Fresh s x) (i : Slot) (hs : PositionLaw s) :
    PositionLaw (s.create i x) := by
  have here : ∀ {j o}, (s.create i x).order j = some o → (i = j ∧ s.orderAt o.position = none) ∨ s.order j = some o := by
    intro j o ho
    rw [State.order_eq_some, State.record_create] at ho
    split at ho
    · next e => cases ho; exact .inl ⟨e, h.position o rfl⟩
    · exact .inr (State.order_eq_some.mpr ho)
  intro j k o q ho hq he
  rcases here ho with ⟨hj, hfree⟩ | ho
  · rcases here hq with ⟨hk, _⟩ | hq
    · exact hj.symm.trans hk
    · exact absurd he.symm (position_ne_of_orderAt_none hfree hq)
  · rcases here hq with ⟨hk, hfree⟩ | hq
    · exact absurd he (position_ne_of_orderAt_none hfree ho)
    · exact hs j k o q ho hq he

/-- A law of the records that the keeping of records keeps, and a creation that R1 allows, every step keeps. -/
theorem recordLaw_step {P : State → Prop} (hk : ∀ s t, RecordsKept s t → P s → P t)
    (hc : ∀ s i x, Fresh s x → P s → P (s.create i x)) {s t : State} (h : Follows s t) (hs : P s) : P t := by
  refine h.keeps (fun s t hch hs => ?_) (fun u held => ?_) (fun u rest hu => hk u _ (.of_record (fun _ => rfl)) hu) hs
  · rcases hch.recordsKept with hr | ⟨i, x, _, hx, rfl⟩
    · exact hk _ _ hr hs
    · exact hc _ _ _ hx hs
  · exact hk s _ (.of_free (u.afterReset_record held)) hs

/-! ### Credits and rosters -/

/-- A count of source records, slot by slot. -/
theorem State.countSources_eq (s : State) (f : Source → Bool) :
    s.countSources f = allSlots.countP (fun i => (s.source i).any f) := by
  have hl : s.slots.toList = allSlots.map s.record := by
    refine List.ext_getElem (by simp [allSlots]) (fun n h1 h2 => ?_)
    simp [allSlots, State.record]
  unfold State.countSources
  rw [hl, List.countP_map]
  refine List.countP_congr (fun i _ => ?_)
  simp only [Function.comp]
  unfold State.source
  cases s.record i with
  | none => simp
  | some x => cases x <;> simp

theorem countSources_mono {s t : State} {f : Source → Bool}
    (h : ∀ i q, t.source i = some q → f q = true → ∃ r, s.source i = some r ∧ f r = true) :
    t.countSources f ≤ s.countSources f := by
  rw [State.countSources_eq, State.countSources_eq]
  refine List.countP_mono_left (fun i _ hi => ?_)
  obtain ⟨q, hq, hf⟩ := (Option.any_eq_true ..).mp hi
  obtain ⟨r, hr, hg⟩ := h i q hq hf
  rw [hr]
  exact hg

/-- One slot changed adds at most one to a count. -/
theorem countSources_succ {s t : State} {f : Source → Bool} {k : Slot}
    (h : ∀ i q, i ≠ k → t.source i = some q → f q = true → ∃ r, s.source i = some r ∧ f r = true) :
    t.countSources f ≤ s.countSources f + 1 := by
  rw [State.countSources_eq, State.countSources_eq]
  have hone : allSlots.countP (fun i => decide (i = k)) = 1 :=
    List.count_eq_one_of_mem (List.nodup_finRange 64) (List.mem_finRange k)
  calc allSlots.countP (fun i => (t.source i).any f)
    _ ≤ allSlots.countP (fun i => (s.source i).any f || decide (i = k)) := by
      refine List.countP_mono_left (fun i _ hi => ?_)
      obtain ⟨q, hq, hf⟩ := (Option.any_eq_true ..).mp hi
      by_cases e : i = k
      · simp [e]
      · obtain ⟨r, hr, hg⟩ := h i q e hq hf
        simp [hr, hg]
    _ ≤ allSlots.countP (fun i => (s.source i).any f) + allSlots.countP (fun i => decide (i = k)) := by
      induction allSlots with
      | nil => simp
      | cons a l ih =>
        simp only [List.countP_cons]
        cases (s.source a).any f <;> cases decide (a = k) <;> simp <;> omega
    _ = allSlots.countP (fun i => (s.source i).any f) + 1 := by rw [hone]

/-! ### Reads through the moves of lines, the changes of the bench and a creation -/

theorem State.source_moveLinesFor (s : State) (o : Slot) (test : Line → Bool) (dest : LineState) (i : Slot) :
    (s.moveLinesFor o test dest).source i = (s.source i).map (fun r =>
      { r with lines := moveLines (fun l => test l && decide (l.target = o)) dest r.lines }) := by
  unfold State.source State.moveLinesFor
  rw [State.record_mapSlots]
  match s.record i with
  | none => rfl
  | some (.order _) => rfl
  | some (.source _) => rfl

theorem State.source_putOrder_of_order {s : State} {o : Slot} {r : Order} (h : s.order o = some r) (q : Order) (i : Slot) :
    (s.putOrder o q).source i = s.source i := by
  by_cases e : o = i
  · subst e
    rw [State.order_eq_some] at h
    simp [State.source, State.putOrder, h]
  · exact State.source_setSlot_of_ne s e _

theorem State.source_reconfigured (s : State) (k : Configuration) (i : Slot) :
    (s.reconfigured k).source i =
      (s.source i).map (fun r => { r with divertAttempts := min r.divertAttempts k.divertLimit }) := by
  unfold State.source
  rw [State.reconfigured_record]
  match s.record i with
  | none => rfl
  | some (.order _) => rfl
  | some (.source _) => rfl

@[simp] theorem State.reconfigured_config (s : State) (k : Configuration) : (s.reconfigured k).config = k := by
  unfold State.reconfigured
  split <;> rfl

theorem State.source_emptied (s : State) (i : Slot) : s.emptied.source i = none := by
  rw [State.source, State.emptied_record]

theorem State.source_of_create {s : State} {i j : Slot} {x : Record} {q : Source}
    (h : (s.create i x).source j = some q) : (i = j ∧ x = .source q) ∨ s.source j = some q := by
  rw [State.source_eq_some, State.record_create] at h
  split at h
  · next e => cases h; exact .inl ⟨e, rfl⟩
  · exact .inr (State.source_eq_some.mpr h)

/-! ### The credits in use -/

/-- Every record with a credit had it before. -/
def CreditsKept (s t : State) : Prop :=
  ∀ i q, t.source i = some q → q.holdsCredit = true → ∃ r, s.source i = some r ∧ r.holdsCredit = true

theorem CreditsKept.le {s t : State} (h : CreditsKept s t) : t.creditsInUse ≤ s.creditsInUse := countSources_mono h

theorem CreditsKept.of_record {s t : State} (h : ∀ i, t.record i = s.record i) : CreditsKept s t := by
  intro i q hq hc
  exact ⟨q, by rw [State.source_eq_some, ← h, ← State.source_eq_some, hq], hc⟩

theorem CreditsKept.of_slot {s t : State} {limit : Nat} (h : ∀ i, SlotKeeps limit (s.record i) (t.record i)) :
    CreditsKept s t := by
  intro i q hq hc
  have hi := h i
  rw [State.source_eq_some.mp hq] at hi
  cases e : s.record i with
  | none => rw [e] at hi; cases hi
  | some x =>
    rw [e] at hi
    cases hi with
    | source _ hg => exact ⟨_, State.source_eq_some.mpr e, hg hc⟩

theorem CreditsKept.putSource {s : State} {i : Slot} {r q : Source} (hr : s.source i = some r)
    (h : q.holdsCredit = true → r.holdsCredit = true) : CreditsKept s (s.putSource i q) := by
  intro j x hx hc
  by_cases e : i = j
  · subst e
    rw [State.source_putSource_self] at hx
    cases hx
    exact ⟨r, hr, h hc⟩
  · rw [State.source_putSource_of_ne s e] at hx
    exact ⟨x, hx, hc⟩

theorem creditsInUse_putSource_le (s : State) (i : Slot) (q : Source) :
    (s.putSource i q).creditsInUse ≤ s.creditsInUse + 1 := by
  refine countSources_succ (k := i) (fun j x hj hx hc => ⟨x, ?_, hc⟩)
  rwa [State.source_putSource_of_ne s (Ne.symm hj)] at hx

theorem Atom.credits {s t : State} (h : Atom s t) :
    CreditsKept s t ∨ s.creditsInUse < 4 ∧ t.creditsInUse ≤ s.creditsInUse + 1 := by
  cases h with
  | slot i o hk =>
    refine .inl (.of_slot (limit := s.config.divertLimit) (fun j => ?_))
    rw [State.record_setSlot]
    split
    · next e => exact e ▸ hk
    · exact .refl _
  | slots f hk => exact .inl (.of_slot (limit := s.config.divertLimit) (fun i => by rw [State.record_mapSlots]; exact hk _))
  | credit i r q hr _ hc => exact .inr ⟨hc, creditsInUse_putSource_le s i q⟩
  | retire i _ =>
    refine .inl (fun j q hq hc => ⟨q, ?_, hc⟩)
    by_cases e : i = j
    · subst e
      simp [State.source] at hq
    · rwa [State.source_setSlot_of_ne s e] at hq
  | moveOrder o r q test dest hr _ _ _ _ =>
    refine .inl (fun i x hx hc => ?_)
    rw [State.source_moveLinesFor, State.source_putOrder_of_order hr, Option.map_eq_some_iff] at hx
    obtain ⟨y, hy, rfl⟩ := hx
    exact ⟨y, hy, hc⟩
  | amend i r ls hr _ _ _ => exact .inl (.putSource hr id)
  | station | reader | post => exact .inl (.of_record (fun _ => by simp))
  | _ => exact .inl (.of_record (fun _ => rfl))

theorem Change.credits {s t : State} (h : Change s t) (hs : s.creditsInUse ≤ 4) : t.creditsInUse ≤ 4 := by
  cases h with
  | atom h =>
    rcases h.credits with hk | ⟨hlt, hle⟩
    · exact hk.le.trans hs
    · omega
  | create i x _ hx =>
    refine le_trans (CreditsKept.le (fun j q hq hc => ?_)) hs
    rcases State.source_of_create hq with ⟨_, rfl⟩ | hq
    · rw [(hx.source q rfl).1] at hc; cases hc
    · exact ⟨q, hq, hc⟩
  | reconfigure a _ _ =>
    refine le_trans (CreditsKept.le (fun i q hq hc => ?_)) hs
    rw [State.source_reconfigured, Option.map_eq_some_iff] at hq
    obtain ⟨r, hr, rfl⟩ := hq
    exact ⟨r, hr, hc⟩
  | clear _ => exact le_trans (CreditsKept.le (fun i q hq _ => by rw [State.source_emptied] at hq; cases hq)) hs
  | _ => exact le_trans (CreditsKept.of_record (fun _ => rfl)).le hs

theorem credits_step {s t : State} (h : Follows s t) (hs : s.creditsInUse ≤ 4) : t.creditsInUse ≤ 4 := by
  refine h.keeps (fun _ _ hc => hc.credits) (fun u held => ?_) (fun _ _ hs => hs) hs
  refine le_trans (CreditsKept.le (s := State.reset) (.of_record (fun i => ?_))) (by decide +kernel)
  rw [State.afterReset_record, record_reset]

/-! ### The rosters -/

theorem RecordsKept.rosterSize_le {s t : State} (h : RecordsKept s t) (p : Port) : t.rosterSize p ≤ s.rosterSize p := by
  refine countSources_mono (fun i q hq hp => ?_)
  obtain ⟨r, hr, e⟩ := (h i).of_source hq
  exact ⟨r, hr, by rwa [e] at hp⟩

theorem Fresh.rosterSize_le {s : State} {x : Record} (h : Fresh s x) (i : Slot) {p : Port} (hs : s.rosterSize p ≤ 10) :
    (s.create i x).rosterSize p ≤ 10 := by
  have hone : (s.create i x).rosterSize p ≤ s.rosterSize p + 1 := by
    refine countSources_succ (k := i) (fun j q hj hq hp => ?_)
    rcases State.source_of_create hq with ⟨e, _⟩ | hq
    · exact absurd e.symm hj
    · exact ⟨q, hq, hp⟩
  by_cases hx : ∃ r, x = .source r ∧ r.port = p
  · obtain ⟨r, hr, rfl⟩ := hx
    have := (h.source r hr).2.1
    omega
  · refine le_trans (countSources_mono (fun j q hq hp => ?_)) hs
    rcases State.source_of_create hq with ⟨_, rfl⟩ | hq
    · exact absurd ⟨q, rfl, by simpa using hp⟩ hx
    · exact ⟨q, hq, hp⟩

/-! ### The bounds of a record -/

theorem RecordLaw.of_keeps {limit limit' : Nat} {x y : Record} (h : RecordLaw limit x) (hk : RecordKeeps x y)
    (hb : ∀ r q, x = .source r → y = .source q → (r.divertAttempts ≤ limit → q.divertAttempts ≤ limit') ∧
      (r.backoff ≤ 15 → q.backoff ≤ 15) ∧ (r.recycleCount ≤ 2 → q.recycleCount ≤ 2)) : RecordLaw limit' y := by
  refine ⟨hk.tote.capped h.exposure, fun q hq => ?_⟩
  subst hq
  cases hk with
  | source _ _ _ hl =>
    obtain ⟨h1, h2, h3, h4⟩ := h.source _ rfl
    obtain ⟨g1, g2, g3⟩ := hb _ _ rfl rfl
    exact ⟨g1 h1, g2 h2, g3 h3, hl.length h4⟩

/-- The bounds of every live record under a divert limit. -/
def RecordsBounded (s : State) : Prop := ∀ i x, s.record i = some x → RecordLaw s.config.divertLimit x

/-- A change that keeps the records, and of a source record the bounds of its counts, keeps the law. -/
theorem RecordsBounded.of_kept {s t : State} (hs : RecordsBounded s) (hk : RecordsKept s t)
    (hb : ∀ i r q, s.source i = some r → t.source i = some q →
      (r.divertAttempts ≤ s.config.divertLimit → q.divertAttempts ≤ t.config.divertLimit) ∧
      (r.backoff ≤ 15 → q.backoff ≤ 15) ∧ (r.recycleCount ≤ 2 → q.recycleCount ≤ 2)) : RecordsBounded t := by
  intro i y hy
  obtain ⟨x, hx, hxy⟩ := (hk i).back hy
  refine (hs i x hx).of_keeps hxy (fun r q hr hq => hb i r q ?_ ?_)
  · rw [State.source_eq_some, hx, hr]
  · rw [State.source_eq_some, hy, hq]

theorem Atom.recordsBounded {s t : State} (h : Atom s t) (hs : RecordsBounded s) : RecordsBounded t := by
  have slot : (∀ i, SlotKeeps s.config.divertLimit (s.record i) (t.record i)) → RecordsBounded t := by
    intro hk
    refine hs.of_kept h.recordsKept (fun i r q hr hq => ?_)
    have hi := hk i
    rw [State.source_eq_some.mp hr, State.source_eq_some.mp hq] at hi
    rw [h.config]
    cases hi with
    | source hrq _ => exact ⟨hrq.attempts, hrq.backoff, hrq.recycle⟩
  have put : ∀ {i : Slot} {r q : Source}, s.source i = some r → t = s.putSource i q →
      (r.divertAttempts ≤ s.config.divertLimit → q.divertAttempts ≤ s.config.divertLimit) ∧
      (r.backoff ≤ 15 → q.backoff ≤ 15) ∧ (r.recycleCount ≤ 2 → q.recycleCount ≤ 2) → RecordsBounded t := by
    intro i r q hr ht hb
    refine hs.of_kept h.recordsKept (fun j x y hx hy => ?_)
    rw [h.config]
    subst ht
    by_cases e : i = j
    · subst e
      rw [State.source_putSource_self] at hy
      cases hy
      rw [hr] at hx
      cases hx
      exact hb
    · rw [State.source_putSource_of_ne s e, hx] at hy
      cases hy
      exact ⟨id, id, id⟩
  cases h with
  | slot i o hk =>
    refine slot (fun j => ?_)
    rw [State.record_setSlot]
    split
    · next e => exact e ▸ hk
    · exact .refl _
  | slots f hk => exact slot (fun i => by rw [State.record_mapSlots]; exact hk _)
  | credit i r q hr hk _ => exact put hr rfl ⟨hk.attempts, hk.backoff, hk.recycle⟩
  | amend i r ls hr _ _ _ => exact put hr rfl ⟨id, id, id⟩
  | retire i hi =>
    refine hs.of_kept (Atom.recordsKept (.retire s i hi)) (fun j r q hr hq => ?_)
    by_cases e : i = j
    · subst e
      simp [State.source] at hq
    · rw [State.source_setSlot_of_ne s e, hr] at hq
      cases hq
      exact ⟨id, id, id⟩
  | moveOrder o x y test dest ho ht hp hl hf =>
    refine hs.of_kept (Atom.recordsKept (.moveOrder s o x y test dest ho ht hp hl hf)) (fun i r q hr hq => ?_)
    rw [State.source_moveLinesFor, State.source_putOrder_of_order ho, hr] at hq
    cases hq
    exact ⟨id, id, id⟩
  | station | reader | post =>
    refine slot (fun i => ?_)
    simp only [State.record_setStation, State.record_setReader, State.record_post]
    exact .refl _
  | _ => exact slot (fun i => .refl _)

theorem Change.recordsBounded {s t : State} (h : Change s t) (hs : RecordsBounded s) : RecordsBounded t := by
  cases h with
  | atom h => exact h.recordsBounded hs
  | create i x _ hx =>
    intro j y hy
    rw [State.record_create] at hy
    split at hy
    · cases hy
      refine ⟨hx.exposure, fun r hr => ?_⟩
      obtain ⟨_, _, ha, hb, hc, hl, _⟩ := hx.source r hr
      exact ⟨ha ▸ Nat.zero_le _, hb ▸ Nat.zero_le _, hc ▸ Nat.zero_le _, hl⟩
    · exact hs j y hy
  | reconfigure a _ _ =>
    refine hs.of_kept (fun i => by rw [State.reconfigured_record]; exact limitAttempts_kept _ _) (fun i r q hr hq => ?_)
    rw [State.source_reconfigured, hr] at hq
    cases hq
    rw [State.reconfigured_config]
    exact ⟨fun _ => Nat.min_le_right .., id, id⟩
  | clear _ => intro i x hx; rw [State.emptied_record] at hx; cases hx
  | _ => exact hs

theorem recordsBounded_step {s t : State} (h : Follows s t) (hs : RecordsBounded s) : RecordsBounded t :=
  h.keeps (fun _ _ hc => hc.recordsBounded) (fun u held i x hx => by rw [State.afterReset_record] at hx; cases hx)
    (fun _ _ hs => hs) hs

/-- Settles O58: each law is kept by the keeping of records and by a creation (`recordLaw_step`), or change by change. -/
theorem theRecordTableKeepsItsLaws : Obligations.TheRecordTableKeepsItsLaws := by
  intro s t hr
  refine ⟨fun hs => ?codes, fun hs => ?positions, fun hs => ?credits, fun hs => ?rosters, fun hs => ?lines,
    fun _ hs => ?bounds⟩
  case codes =>
    exact hr.keeps (fun _ _ => recordLaw_step (fun _ _ hk => hk.codeLaw) (fun _ i _ hx => hx.codeLaw i)) hs
  case positions =>
    exact hr.keeps (fun _ _ => recordLaw_step (fun _ _ hk => hk.positionLaw) (fun _ i _ hx => hx.positionLaw i)) hs
  case credits => exact hr.keeps (fun _ _ => credits_step) hs
  case rosters =>
    exact hr.keeps (fun _ _ => recordLaw_step (P := fun u => ∀ p, u.rosterSize p ≤ 10)
      (fun _ _ hk hs p => (hk.rosterSize_le p).trans (hs p)) (fun _ i _ hx hs p => hx.rosterSize_le i (hs p))) hs
  case lines => exact hr.keeps (fun _ _ => step_lineLaw) hs
  case bounds => exact hr.keeps (P := RecordsBounded) (fun _ _ => recordsBounded_step) hs

/-! ### The configuration, the readers and the counts -/

theorem configFirstBad_none {a : ConfigArgs} (h : configFirstBad a = none) : ∀ ok ∈ configChecks a, ok = true := by
  unfold configFirstBad at h
  rw [Option.map_eq_none_iff, List.findIdx?_eq_none_iff] at h
  exact fun ok hok => by simpa using h ok hok

/-- The values of a CONFIGURE that passes its checks are valid (R168). -/
theorem configLaw_of_checks {a : ConfigArgs} (h : configFirstBad a = none) : ConfigLaw (configurationOf a) := by
  have hall := configFirstBad_none h
  simp only [configChecks, List.mem_cons, List.not_mem_nil, or_false, forall_eq_or_imp, forall_eq, within,
    Bool.and_eq_true, Bool.or_eq_true, decide_eq_true_eq] at hall
  obtain ⟨h1, h2, h3, h4, h5, h6, h7, h8, h9, h10, h11, _, _, _, _⟩ := hall
  refine ⟨h1, h2, h3, h4, h5, h6, h7, h8, h9, ?_, h11⟩
  exact h10.imp (fun e => by simp [configurationOf, e]) (fun e => by simp [configurationOf, e])

theorem ConfigLaw.reset : ConfigLaw Configuration.reset := by
  constructor <;> decide

theorem ConfigLaw.window_pos {k : Configuration} (h : ConfigLaw k) : 0 < k.readerWindow := by
  rcases h.reader with e | e <;> omega

/-- The configuration is valid, and each channel within its window. -/
structure ReadersLaw (s : State) : Prop where
  config : ConfigLaw s.config
  reader : ∀ c, ReaderLaw s.config.readerWindow (s.reader c)

theorem ReaderLaw.restarted {w w' : Nat} {r : ReaderRec} (h : ReaderLaw w r) (hw : 0 < w') (q : ReaderRec)
    (hq : q.receiver = r.receiver) (hf : q.frames = 0) (hb : q.bad = 0) : ReaderLaw w' q :=
  ⟨fun bs e => h.bytes bs (hq ▸ e), by omega, by omega⟩

theorem ReaderLaw.reset {w : Nat} (hw : 0 < w) : ReaderLaw w ReaderRec.reset := ⟨nofun, le_refl _, hw⟩

theorem State.reader_four {s : State} {r : Port → ReaderRec}
    (h : s.portReaders = #v[r 0, r 1, r 2, r 3]) (p : Port) : s.reader (.port p) = r p := by
  unfold State.reader
  fin_cases p <;> simp [h]

theorem State.reader_restartWindows (s : State) (c : Channel) : s.restartWindows.reader c = (s.reader c).restartWindow := by
  cases c with
  | scanner => rfl
  | port p => exact State.reader_four (r := fun p => (s.reader (.port p)).restartWindow) rfl p

theorem State.reader_emptied (s : State) (c : Channel) : s.emptied.reader c = (s.reader c).cleared := by
  cases c with
  | scanner => rfl
  | port p => exact State.reader_four (r := fun p => (s.reader (.port p)).cleared) rfl p

/-- The readers after a CONFIGURE: as they were, or restarted where the window's length changes (R165). -/
theorem State.reader_reconfigured (s : State) (k : Configuration) (c : Channel) :
    (s.reconfigured k).reader c =
      if k.readerWindow = s.config.readerWindow then s.reader c else (s.reader c).restartWindow := by
  have held : ∀ f, (({ s with config := k, bench := s.bench.afterConfigure } : State).mapSlots f).reader c = s.reader c := by
    intro f
    cases c <;> rfl
  unfold State.reconfigured
  dsimp only
  split
  · exact held _
  · rw [State.reader_restartWindows, held]

theorem State.afterReset_reader (s : State) (held : Bool) (c : Channel) : (s.afterReset held).reader c = ReaderRec.reset := by
  rw [← State.reset_reader c]
  cases c <;> rfl

/-- A change of neither the readers nor the configuration keeps their law. -/
theorem ReadersLaw.of_same {s t : State} (h : ReadersLaw s) (hk : t.config = s.config)
    (hs : t.scannerReader = s.scannerReader) (hp : t.portReaders = s.portReaders) : ReadersLaw t := by
  refine ⟨hk ▸ h.config, fun c => ?_⟩
  have hr : t.reader c = s.reader c := by cases c <;> simp [State.reader, hs, hp]
  rw [hk, hr]
  exact h.reader c

theorem Atom.readersLaw {s t : State} (h : Atom s t) (hs : ReadersLaw s) : ReadersLaw t := by
  have hk := h.config
  cases h with
  | reader d q hq =>
    refine ⟨hk ▸ hs.config, fun c => ?_⟩
    rw [hk]
    by_cases e : d = c
    · subst e; rw [State.reader_setReader_self]; exact hq hs.config.window_pos (hs.reader d)
    · rw [State.reader_setReader_of_ne s e]; exact hs.reader c
  | station | post => exact hs.of_same hk (by simp) (by simp)
  | _ => exact hs.of_same hk rfl rfl

theorem Change.readersLaw {s t : State} (h : Change s t) (hs : ReadersLaw s) : ReadersLaw t := by
  cases h with
  | atom h => exact h.readersLaw hs
  | reconfigure a _ ha =>
    have hk := configLaw_of_checks ha
    refine ⟨by rw [State.reconfigured_config]; exact hk, fun c => ?_⟩
    rw [State.reconfigured_config, State.reader_reconfigured]
    split
    · next e => rw [e]; exact hs.reader c
    · exact (hs.reader c).restarted hk.window_pos _ rfl rfl rfl
  | clear _ =>
    refine ⟨hs.config, fun c => ?_⟩
    rw [State.reader_emptied]
    exact (hs.reader c).restarted hs.config.window_pos _ rfl rfl rfl
  | _ => exact hs.of_same rfl rfl rfl

theorem readersLaw_step {s t : State} (h : Follows s t) (hs : ReadersLaw s) : ReadersLaw t := by
  refine h.keeps (fun _ _ hc => hc.readersLaw) (fun u held => ⟨ConfigLaw.reset, fun c => ?_⟩)
    (fun _ _ hs => hs.of_same rfl rfl rfl) hs
  rw [State.afterReset_reader]
  exact .reset (show 0 < 256 by decide)

theorem Change.configLaw {s t : State} (h : Change s t) (hs : ConfigLaw s.config) : ConfigLaw t.config := by
  cases h with
  | atom h => rw [h.config]; exact hs
  | reconfigure a _ ha => rw [State.reconfigured_config]; exact configLaw_of_checks ha
  | _ => exact hs

theorem configLaw_step {s t : State} (h : Follows s t) (hs : ConfigLaw s.config) : ConfigLaw t.config :=
  h.keeps (P := fun u => ConfigLaw u.config) (fun _ _ hc => hc.configLaw) (fun _ _ => ConfigLaw.reset) (fun _ _ hs => hs) hs

/-- A change of none of what the counts' law reads keeps it. -/
theorem CountLaw.of_same {s t : State} (h : CountLaw s) (hn : t.notices = s.notices) (ho : t.overflow = s.overflow)
    (hs : t.supply = s.supply) (hl : t.link = s.link) : CountLaw t :=
  ⟨hn ▸ h.notices, ho ▸ h.overflow, hs ▸ h.stale, hs ▸ h.bad, hl ▸ h.discarded⟩

theorem CountLaw.post {s : State} (h : CountLaw s) (n : Notice) : CountLaw (s.post n) := by
  obtain ⟨hroom, hfull⟩ := s.post_spec n
  refine ⟨?_, ?_, by rw [State.post_supply]; exact h.stale, by rw [State.post_supply]; exact h.bad,
    by rw [State.post_link]; exact h.discarded⟩
  · by_cases hl : s.notices.length < 32
    · rw [(hroom hl).1, List.length_append]
      exact hl
    · rw [(hfull (Nat.le_of_not_lt hl)).1]
      exact h.notices
  · by_cases hl : s.notices.length < 32
    · rw [(hroom hl).2]
      exact h.overflow
    · rw [(hfull (Nat.le_of_not_lt hl)).2]
      exact saturate_le h.overflow

theorem Atom.countLaw {s t : State} (h : Atom s t) (hs : CountLaw s) : CountLaw t := by
  cases h with
  | supply x hst hb => exact ⟨hs.notices, hs.overflow, hst hs.stale, hb hs.bad, hs.discarded⟩
  | link x hd => exact ⟨hs.notices, hs.overflow, hs.stale, hs.bad, hd hs.discarded⟩
  | post n => exact hs.post n
  | give k =>
    refine ⟨?_, Nat.zero_le _, hs.stale, hs.bad, hs.discarded⟩
    have := hs.notices
    simp only [List.length_drop]
    omega
  | station | reader => exact hs.of_same (by simp) (by simp) (by simp) (by simp)
  | _ => exact hs.of_same rfl rfl rfl rfl

theorem Change.countLaw {s t : State} (h : Change s t) (hs : CountLaw s) : CountLaw t := by
  cases h with
  | atom h => exact h.countLaw hs
  | reconfigure a _ _ =>
    unfold State.reconfigured
    split <;> exact hs.of_same rfl rfl rfl rfl
  | clear _ => exact ⟨hs.notices, hs.overflow, hs.stale, hs.bad, hs.discarded⟩
  | _ => exact hs.of_same rfl rfl rfl rfl

theorem countLaw_afterReset (s : State) (held : Bool) : CountLaw (s.afterReset held) := by
  constructor <;> exact Nat.zero_le _

theorem countLaw_step {s t : State} (h : Follows s t) (hs : CountLaw s) : CountLaw t :=
  h.keeps (fun _ _ hc => hc.countLaw) countLaw_afterReset (fun _ _ hs => hs.of_same rfl rfl rfl rfl) hs

/-- Settles O59: the configuration, the channels under a valid configuration, and the counts, each kept by every step. -/
theorem configurationReadersAndCountsKeepTheirLaws : Obligations.ConfigurationReadersAndCountsKeepTheirLaws := by
  intro s t hr
  refine ⟨fun hk => ⟨?config, fun hc => ?readers⟩, fun hs => ?counts⟩
  case config => exact hr.keeps (P := fun u => ConfigLaw u.config) (fun _ _ => configLaw_step) hk
  case readers => exact (hr.keeps (fun _ _ => readersLaw_step) ⟨hk, hc⟩).reader
  case counts => exact hr.keeps (fun _ _ => countLaw_step) hs

/-! ### What a command keeps of the records -/

/-- Every live record keeps what it holds until it is retired. -/
def LivesKept (s t : State) : Prop :=
  ∀ i x, s.record i = some x → t.record i = none ∨ ∃ y, t.record i = some y ∧ RecordKeeps x y

theorem RecordsKept.lives {s t : State} (h : RecordsKept s t) : LivesKept s t := by
  intro i x hx
  have hi := h i
  rw [hx] at hi
  generalize t.record i = o at hi
  cases hi with
  | retired _ => exact .inl rfl
  | kept hk => exact .inr ⟨_, rfl, hk⟩

theorem LivesKept.then {s t u : State} (h : LivesKept s t) (g : RecordsKept t u) : LivesKept s u := by
  intro i x hx
  have gi := g i
  rcases h i x hx with e | ⟨y, e, hk⟩
  · rw [e] at gi
    generalize u.record i = o at gi
    cases gi
    exact .inl rfl
  · obtain e' | ⟨z, e', hk'⟩ := g.lives i y e
    · exact .inl e'
    · exact .inr ⟨z, e', hk.trans hk'⟩

/-- Keeping reads of the state before it the records alone. -/
theorem LivesKept.of_record {s m u : State} (h : LivesKept m u) (he : ∀ i, m.record i = s.record i) : LivesKept s u :=
  fun i x hx => h i x (by rw [he]; exact hx)

/-- A record is created in a FREE slot and single changes follow, or nothing changes. -/
def Creates (s u : State) : Prop := u = s ∨ ∃ i x, s.record i = none ∧ Reach (s.create i x) u

theorem Creates.lives {s u : State} (h : Creates s u) : LivesKept s u := by
  rcases h with rfl | ⟨i, x, hi, hr⟩
  · exact RecordsKept.lives (.of_record (fun _ => rfl))
  · refine LivesKept.then (fun j y hy => .inr ⟨y, ?_, .refl y⟩) hr.recordsKept
    rw [State.record_create]
    split
    · next e => subst e; rw [hi] at hy; cases hy
    · exact hy

theorem Creates.bench_config {s u : State} (h : Creates s u) : u.bench = s.bench ∧ u.config = s.config := by
  rcases h with rfl | ⟨i, x, _, hr⟩
  · exact ⟨rfl, rfl⟩
  · exact ⟨hr.bench, hr.config⟩

theorem Creates.whenConfigured {s : State} {x : Reply} (h : Creates s x.state) : Creates s (s.whenConfigured x).state := by
  unfold State.whenConfigured
  split
  · exact .inl rfl
  · exact h

theorem creates_submitChecked (s : State) (code : Code) (cls : ToteClass) (exposure : Nat) (st : Station)
    (lines : List LineArg) : Creates s (s.submitChecked code cls exposure st lines).state := by
  have refused : ∀ {status result}, Creates s (s.reply status result).state := .inl rfl
  unfold State.submitChecked
  split
  · exact refused
  split
  · exact refused
  split
  · exact refused
  next i hi =>
  split
  · split
    · exact refused
    next p hp =>
    dsimp only
    split
    · exact refused
    · refine .inr ⟨i, .source (s.newSource code cls exposure st p lines), nextFree_free hi,
        reach_reply (.after (reach_settle _) ?_) _ _⟩
      split
      · exact reach_queueAhead _ _ _
      · exact reach_queueTail _ _ _
  · exact refused

theorem creates_cmdSubmitSource (code : Code) (cls : Byte) (exposure : BitVec 16) (station : Byte) (lines : List LineArg)
    (s : State) : Creates s (cmdSubmitSource code cls exposure station lines s).state := by
  refine Creates.whenConfigured ?_
  split
  · split
    · exact creates_submitChecked ..
    · exact .inl rfl
  · exact .inl rfl

theorem creates_bindChecked (s : State) (code : Code) (cls : ToteClass) (exposure : Nat) (u : Position) :
    Creates s (s.bindChecked code cls exposure u).state := by
  unfold State.bindChecked
  split
  · exact .inl rfl
  split
  · exact .inl rfl
  split
  · exact .inl rfl
  next i hi =>
  split
  · exact .inl rfl
  split
  · exact .inr ⟨i, _, nextFree_free hi, .refl _⟩
  · exact .inl rfl

theorem creates_cmdBindOrder (code : Code) (cls : Byte) (exposure : BitVec 16) (position : Byte) (s : State) :
    Creates s (cmdBindOrder code cls exposure position s).state := by
  refine Creates.whenConfigured ?_
  split
  · split
    · exact creates_bindChecked ..
    · exact .inl rfl
  · exact .inl rfl

/-- A bench command changes the bench as a whole first, and single changes follow. -/
theorem lives_bench {s m u : State} (h : RecordsKept s m) (hr : Reach m u) : LivesKept s u := h.lives.then hr.recordsKept

theorem LivesKept.refl (s : State) : LivesKept s s := RecordsKept.lives (.of_record (fun _ => rfl))

theorem lives_replyBench {s u : State} (h : LivesKept s u) : LivesKept s u.replyBench.state := h

theorem lives_whenLive {s : State} {f : State → State} (h : LivesKept s (f s)) : LivesKept s (s.whenLive f) := by
  unfold State.whenLive
  split
  · exact .refl s
  · exact h

theorem lives_cmdConfigure (args : ConfigArgs) (s : State) : LivesKept s (cmdConfigure args s).state := by
  unfold cmdConfigure
  split
  · exact .refl s
  split
  · exact .refl s
  · refine lives_replyBench (lives_bench (m := s.reconfigured (configurationOf args)) (fun i => ?_)
      (Reach.foldl _ reach_examineWhole _ _))
    rw [State.reconfigured_record]
    exact limitAttempts_kept _ _

theorem lives_cmdStart (s : State) : LivesKept s (cmdStart s).state := by
  have run : RecordsKept s s.run := .of_record (fun _ => rfl)
  unfold cmdStart
  split
  · exact .refl s
  · exact .refl s
  · exact lives_replyBench (lives_bench run (.after (reach_settle _) (Reach.foldl _ reach_seatWaiting _ _)))
  · exact lives_replyBench (lives_bench run (reach_settle _))

theorem lives_cmdHalt (s : State) : LivesKept s (cmdHalt s).state := by
  unfold cmdHalt
  split <;> exact RecordsKept.lives (.of_record (fun _ => rfl))

theorem lives_cmdClearBench (s : State) : LivesKept s (cmdClearBench s).state := by
  unfold cmdClearBench
  split
  · exact .refl s
  · exact .refl s
  · exact lives_replyBench (lives_bench (.of_free s.emptied_record) (reach_readLevels _))
  · exact lives_replyBench (lives_bench (.of_free s.emptied_record) (reach_readLevels _))

theorem lives_act (r : Request) (s : State) : LivesKept s (act r s).state := by
  by_cases hr : shapingRequest r = false
  · exact (act_reach r hr s).recordsKept.lives
  · cases r with
    | configure args => exact lives_cmdConfigure args s
    | start => exact lives_cmdStart s
    | halt => exact lives_cmdHalt s
    | clearBench => exact lives_cmdClearBench s
    | submitSource code cls exposure station lines => exact (creates_cmdSubmitSource code cls exposure station lines s).lives
    | bindOrder code cls exposure position => exact (creates_cmdBindOrder code cls exposure position s).lives
    | _ => exact absurd rfl hr

/-- A request row changes the link alone, or has the request act in a state that differs by the link alone. -/
theorem takeRequest_cases (s : State) (r : Request) :
    ∃ x, s.takeRequest r = s.setLink x ∨ ∃ w, s.takeRequest r = (act r (s.setLink x)).state.setWork w := by
  unfold State.takeRequest State.actOn
  split
  · exact ⟨_, .inr ⟨_, rfl⟩⟩
  · split
    · exact ⟨s.link, .inr ⟨_, rfl⟩⟩
    · exact ⟨_, .inl rfl⟩
  · exact ⟨_, .inr ⟨_, rfl⟩⟩

theorem lives_requestRow {r : Request} {s t : State} (h : exec (requestRow r) s = .next t) : LivesKept s t := by
  rw [exec_requestRow] at h
  cases h
  refine lives_whenLive ?_
  obtain ⟨x, e | ⟨w, e⟩⟩ := takeRequest_cases s r
  · rw [e]
    exact .refl s
  · rw [e]
    exact ((lives_act r (s.setLink x)).of_record (fun _ => rfl)).then (.of_record (fun _ => rfl))

/-- Every command keeps what the live records hold until they are retired. -/
theorem lives_exec {c : Instr} {s t : State} (h : exec c s = .next t) : LivesKept s t := by
  by_cases hc : plainCommand c = true
  · obtain ⟨u, hu, hr⟩ := exec_plain c hc s
    rw [hu] at h
    cases h
    exact hr.recordsKept.lives
  · cases c with
    | hardwareReset held =>
      cases h
      split
      · exact RecordsKept.lives (.of_free (s.afterReset_record _))
      · exact lives_bench (.of_free (s.afterReset_record _)) (reach_readLevels _)
    | resetNRelease =>
      cases h
      split
      · exact lives_bench (.of_free (s.afterReset_record _)) (reach_readLevels _)
      · exact .refl s
    | configure args => exact lives_requestRow (r := .configure args) h
    | start => exact lives_requestRow (r := .start) h
    | halt => exact lives_requestRow (r := .halt) h
    | clearBench => exact lives_requestRow (r := .clearBench) h
    | submitSource code cls exposure station lines => exact lives_requestRow (r := .submitSource code cls exposure station lines) h
    | bindOrder code cls exposure position => exact lives_requestRow (r := .bindOrder code cls exposure position) h
    | responsePlaced =>
      cases h
      refine lives_whenLive ?_
      split
      · exact .refl s
      · exact (lives_act _ s).then (.of_record (fun _ => rfl))
      · exact .refl s
    | _ => exact absurd rfl hc

/-- A request row that creates a record leaves the bench state and the configuration. -/
theorem creating_row_bench {r : Request} {s t : State} (hr : ∀ u, Creates u (act r u).state)
    (h : exec (requestRow r) s = .next t) : t.bench = s.bench ∧ t.config = s.config := by
  rw [exec_requestRow] at h
  cases h
  unfold State.whenLive
  split
  · exact ⟨rfl, rfl⟩
  · dsimp only
    obtain ⟨x, e | ⟨w, e⟩⟩ := takeRequest_cases s r
    · rw [e]; exact ⟨rfl, rfl⟩
    · rw [e]; exact (hr (s.setLink x)).bench_config

theorem bench_exec {c : Instr} {s t : State} (hb : benchCommand c = false) (h : exec c s = .next t) :
    t.bench = s.bench ∧ t.config = s.config := by
  by_cases hc : plainCommand c = true
  · obtain ⟨u, hu, hr⟩ := exec_plain c hc s
    rw [hu] at h
    cases h
    exact ⟨hr.bench, hr.config⟩
  · cases c with
    | submitSource code cls exposure station lines =>
      exact creating_row_bench (r := .submitSource code cls exposure station lines) (creates_cmdSubmitSource _ _ _ _ _) h
    | bindOrder code cls exposure position =>
      exact creating_row_bench (r := .bindOrder code cls exposure position) (creates_cmdBindOrder _ _ _ _) h
    | hardwareReset | resetNRelease | configure | start | halt | clearBench | responsePlaced => cases hb
    | _ => exact absurd rfl hc

/-- Settles O60: what each request and each plain command keeps of the records (`lives_exec`) and of the bench. -/
theorem recordsKeepWhatTheyHold : Obligations.RecordsKeepWhatTheyHold :=
  fun _ _ _ h => ⟨lives_exec h, fun hb => bench_exec hb h⟩

/-! ### The reset state -/

theorem State.reset_port (p : Port) : State.reset.port p = PortRec.reset := Vector.getElem_replicate p.isLt

theorem State.reset_station (st : Station) : State.reset.station st = StationRec.reset := by cases st <;> rfl

theorem State.reset_source (i : Slot) : State.reset.source i = none := by rw [State.source, record_reset]

theorem State.reset_order (i : Slot) : State.reset.order i = none := by rw [State.order, record_reset]

theorem viewLaw_reset : ViewLaw State.reset := by
  constructor
  all_goals intro p i
  all_goals simp [State.reset_port, State.reset_source, PortRec.reset]

theorem stopLaw_reset : StopLaw State.reset := by
  constructor
  all_goals intro p
  all_goals simp [State.reset_port, PortRec.reset]

theorem presentationLaw_reset : PresentationLaw State.reset := by
  constructor
  · intro st i h
    rw [State.reset_station] at h
    cases h
  all_goals
    intro i r h
    rw [State.reset_source] at h
    cases h

/-- Settles O56: every slot is FREE, every port and station as after a reset. -/
theorem theResetStateIsSafe : Obligations.TheResetStateIsSafe where
  lanes p := by rw [State.reset_port]; decide
  causes p := by rw [State.reset_port]; decide
  stations st := by rw [State.reset_station]; exact stationLaw_reset
  config := ConfigLaw.reset
  readers c := by rw [State.reset_reader]; exact .reset (show 0 < 256 by decide)
  counts := countLaw_afterReset State.reset false
  codes := by constructor <;> (intro i; simp [record_reset])
  positions i j o q h := by rw [State.reset_order] at h; cases h
  views := viewLaw_reset
  listed i r h := by rw [State.reset_source] at h; cases h
  queues := queueOrder_reset rfl
  stops := stopLaw_reset
  presentations := presentationLaw_reset
  lines := lineLaw_of_free record_reset
  records i x h := by rw [record_reset] at h; cases h
  credits := by decide +kernel
  rosters := by decide +kernel

/-- Settles O2: every command is an event (`exec_next`). -/
theorem everyCommandAnswersANextState : Obligations.EveryCommandAnswersANextState :=
  fun c s => (exec_next c s).imp (fun _ h => h.1)

end Sys2Proof.Machine

/-! ## The block, its resets and the bench commands

A step, a command while RESET_N is held, and the readings after a reset or a bench clear: of a bench with nothing on it the
levels change a station or a port each, and what stands at the end of the event finds nothing to do. -/

namespace Sys2Proof.Machine

/-! ### Steps and held resets -/

@[simp] theorem State.whenLive_of_held {s : State} (h : s.resetHeld = true) (f : State → State) : s.whenLive f = s :=
  if_pos h

@[simp] theorem State.whenLive_of_live {s : State} (h : s.resetHeld = false) (f : State → State) : s.whenLive f = f s := by
  unfold State.whenLive
  rw [h]
  rfl

/-- Nothing goes on of itself while RESET_N is held, without a pass and with SUPPLY_READY deasserted. -/
theorem idle_rests {s : State} (h : s.resetHeld = true ∨ s.supply.pass = none ∨ s.inputs.supplyReady = false) :
    s.idle = s := by
  unfold State.idle State.whenLive
  split
  · rfl
  next hl =>
  dsimp only
  split
  · rfl
  next place hp =>
  rw [if_neg]
  rcases h with h | h | h
  · exact absurd h hl
  · rw [hp] at h; cases h
  · simp [h]

/-- Settles O1: the front command by definition, and the idle step by `idle_rests`. -/
theorem stepRunsTheFrontCommand : Obligations.StepRunsTheFrontCommand := by
  refine ⟨fun _ _ _ => rfl, fun s hp h => ?_⟩
  unfold step
  rw [hp]
  exact congrArg _ (idle_rests h)

/-- Settles O3: the reset values, port by port and station by station. -/
theorem resetGivesTheValuesOfTheRules : Obligations.ResetGivesTheValuesOfTheRules :=
  ⟨rfl, rfl, record_reset, rfl, rfl, State.reset_port, State.reset_station, State.reset_reader, rfl, rfl, rfl, rfl, rfl⟩

theorem held_event {s : State} (h : s.resetHeld = true) (f : State → State) :
    (.next (s.whenLive f) : Host.Outcome State Fault Refusal) = .next (s.setInputs s.inputs) := by
  rw [State.whenLive_of_held h]
  rfl

theorem held_line {s : State} (h : s.resetHeld = true) (x : Inputs) (f : State → State) :
    (.next ((s.setInputs x).whenLive f) : Host.Outcome State Fault Refusal) = .next (s.setInputs x) := by
  rw [State.whenLive_of_held (s := s.setInputs x) h]

/-- Settles O5: the rows of the lines set their level (`held_line`), every other waits for RESET_N (`held_event`). -/
theorem heldResetTakesNoEvent : Obligations.HeldResetTakesNoEvent := by
  intro c s h hreset hrelease
  cases c with
  | hardwareReset held => exact absurd rfl (hreset held)
  | resetNRelease => exact absurd rfl hrelease
  | supplyReadyRise => exact held_line h _ _
  | supplyReadyFall => rfl
  | seatOn p => exact held_line h _ _
  | seatOff p => exact held_line h _ _
  | localControlAssert p => exact held_line h _ _
  | localControlDeassert p => exact held_line h _ _
  | presenceOff u => exact held_line h _ _
  | presenceOn u => exact held_line h _ _
  | pauseSwitchChange st => cases st <;> exact held_line h _ _
  | _ => exact held_event h _

/-! ### Notices posted together -/

/-- A posting, field by field (R179). -/
theorem State.post_eq (s : State) (n : Notice) : s.post n =
    { s with
      notices := if s.notices.length < 32 then s.notices ++ [n] else s.notices
      overflow := if s.notices.length < 32 then s.overflow else saturate 255 s.overflow } := by
  unfold State.post
  split <;> rfl

theorem State.post_setPort (s : State) (n : Notice) (p : Port) (q : PortRec) :
    (s.post n).setPort p q = (s.setPort p q).post n := by
  rw [State.post_eq, State.post_eq]
  rfl

theorem State.post_setStation (s : State) (n : Notice) (st : Station) (q : StationRec) :
    (s.post n).setStation st q = (s.setStation st q).post n := by
  rw [State.post_eq, State.post_eq]
  cases st <;> rfl

/-- An update that passes a posting passes a list of them. -/
theorem State.posts_comm {f : State → State} (h : ∀ s n, f (s.post n) = (f s).post n) (ns : List Notice) :
    ∀ s : State, f (ns.foldl State.post s) = ns.foldl State.post (f s) := by
  induction ns with
  | nil => intro s; rfl
  | cons n ns ih => intro s; rw [List.foldl_cons, ih, h]; rfl

theorem State.posts_setPort (ns : List Notice) (p : Port) (q : PortRec) (s : State) :
    (ns.foldl State.post s).setPort p q = ns.foldl State.post (s.setPort p q) :=
  State.posts_comm (f := fun s => s.setPort p q) (fun s n => s.post_setPort n p q) ns s

theorem State.posts_setStation (ns : List Notice) (st : Station) (q : StationRec) (s : State) :
    (ns.foldl State.post s).setStation st q = ns.foldl State.post (s.setStation st q) :=
  State.posts_comm (f := fun s => s.setStation st q) (fun s n => s.post_setStation n st q) ns s

/-- What a posting leaves: every field but the notices and the overflow count. -/
theorem State.posts_keep {α : Type} {f : State → α} (h : ∀ s n, f (s.post n) = f s) (ns : List Notice) :
    ∀ s, f (ns.foldl State.post s) = f s := by
  induction ns with
  | nil => intro s; rfl
  | cons n ns ih => intro s; exact (ih _).trans (h s n)

theorem State.posts_pauseSwitch (ns : List Notice) (s : State) : (ns.foldl State.post s).pauseSwitch = s.pauseSwitch :=
  State.posts_keep (fun s n => by unfold State.pauseSwitch; rw [State.post_inputs]) ns s

theorem State.posts_localLevel (ns : List Notice) (s : State) : (ns.foldl State.post s).localLevel = s.localLevel :=
  State.posts_keep (fun s n => by unfold State.localLevel; rw [State.post_inputs]) ns s

theorem State.posts_station (ns : List Notice) (s : State) : (ns.foldl State.post s).station = s.station :=
  State.posts_keep (fun s n => funext (State.station_post s n)) ns s

theorem State.posts_port (ns : List Notice) (s : State) : (ns.foldl State.post s).port = s.port :=
  State.posts_keep (fun s n => funext (State.port_post s n)) ns s

theorem State.posts_record (ns : List Notice) (s : State) : (ns.foldl State.post s).record = s.record :=
  State.posts_keep (fun s n => funext (State.record_post s n)) ns s

theorem State.posts_bench (ns : List Notice) (s : State) : (ns.foldl State.post s).bench = s.bench :=
  State.posts_keep State.post_bench ns s

/-- Notices for which there is room all join the queue. -/
theorem State.posts_of_room (ns : List Notice) :
    ∀ s : State, s.notices.length + ns.length ≤ 32 → ns.foldl State.post s = { s with notices := s.notices ++ ns } := by
  induction ns with
  | nil => intro s _; simp
  | cons n ns ih =>
    intro s h
    rw [List.length_cons] at h
    have hn : s.post n = { s with notices := s.notices ++ [n] } := if_pos (show s.notices.length < 32 by omega)
    rw [List.foldl_cons, hn, ih _ (by simp only [List.length_append, List.length_singleton]; omega)]
    simp

/-! ### The readings of the levels (R124, R145) -/

/-- A station after the reading of its pause switch. -/
def stationRead (on : Bool) : StationRec :=
  if on then { StationRec.reset with hold := .held, holdMode := true } else StationRec.reset

/-- A port after the reading of its local-control line. -/
def portRead (on : Bool) : PortRec :=
  if on then { PortRec.reset with mode := .faulted, cause := some .override } else PortRec.reset

@[simp] theorem State.setStation_self (s : State) (st : Station) : s.setStation st (s.station st) = s := by
  cases st <;> rfl

theorem readPause_fresh {s : State} {st : Station} (h : s.station st = StationRec.reset) :
    s.readPause st = ([st].filter s.pauseSwitch |>.map (Notice.stationHeld · .request)).foldl State.post
      (s.setStation st (stationRead (s.pauseSwitch st))) := by
  unfold State.readPause stationRead
  cases hs : s.pauseSwitch st with
  | false => simp [hs, ← h]
  | true =>
    have hset : s.holdSet st = s.enterHeld st .request := by
      unfold State.holdSet
      simp [h, StationRec.reset]
    simp [hs, hset, State.enterHeld, State.modifyStation, h]

theorem takeLocalControl_fresh {s : State} {p : Port} (h : s.port p = PortRec.reset) :
    s.takeLocalControl p =
      (s.setPort p { PortRec.reset with mode := .faulted, cause := some .override }).post (.portFault p .override .override) := by
  have harm : s.withdrawArm p = s := by unfold State.withdrawArm; simp [h, PortRec.reset]
  have hself : s.setPort p PortRec.reset = s := by rw [← h, State.setPort_self]
  have hvacated : s.modifyPort p (fun r => { r with stop := .vacant, exitWindow := none, lane := [] }) = s := by
    unfold State.modifyPort
    rw [h]
    exact hself
  unfold State.takeLocalControl
  simp only [harm, h, PortRec.reset, List.foldl_nil]
  rw [hvacated]
  unfold State.markFault State.modifyPort
  simp [h, PortRec.reset]

theorem readLocal_fresh {s : State} {p : Port} (h : s.port p = PortRec.reset) :
    s.readLocal p = ([p].filter s.localLevel |>.map (fun p => Notice.portFault p .override .override)).foldl State.post
      (s.setPort p (portRead (s.localLevel p))) := by
  unfold State.readLocal portRead
  cases hs : s.localLevel p with
  | false => simp [hs, ← h]
  | true => simp [hs, takeLocalControl_fresh h]

/-! ### An end of event that finds nothing to do -/

/-- Nothing stands at the end of an event of a bench with no record and no port CLOSING. -/
theorem settle_rests_of_free {s : State} (hr : ∀ i, s.record i = none) (hm : ∀ p, (s.port p).mode ≠ .closing) :
    s.settle = s := by
  have source : ∀ i, s.source i = none := fun i => by rw [State.source, hr]
  have offers : ∀ p, s.offers p = none := by
    intro p
    rw [Option.eq_none_iff_forall_ne_some]
    intro i hi
    obtain ⟨_, _, r, hs, _⟩ := offers_iff.mp hi
    rw [source] at hs
    cases hs
  have select : ∀ st, s.select st = s := fun st =>
    selectHead_rests (.inr (.inr (by unfold State.selectedPort; simp [offers]))) 3
  have drain : allPorts.foldl State.drainPort s = s := by
    simp [allPorts, drainPort_rests (.inl (hm _))]
  have cancel : s.cancelClaim = none := by
    rw [Option.eq_none_iff_forall_ne_some]
    intro i hi
    obtain ⟨r, hs, _⟩ := cancelClaim_some hi
    rw [source] at hs
    cases hs
  have call : s.nextCall = none := by
    rw [Option.eq_none_iff_forall_ne_some]
    rintro ⟨p, i⟩ hi
    obtain ⟨_, r, hs, _⟩ := callClaim_some (nextCall_some hi)
    rw [source] at hs
    cases hs
  unfold State.settle State.selectAndDrain State.arbitrate
  rw [select, select, drain]
  exact grants_rests (.inr ⟨cancel, call⟩) 4

/-- The notices of the levels found on (log entry 10): the pause switches, A then B, and the local-control lines, port 0 to
port 3. -/
def State.levelNotices (s : State) : List Notice :=
  ([Station.a, .b].filter s.pauseSwitch).map (fun st => Notice.stationHeld st .request)
    ++ (allPorts.filter s.localLevel).map (fun p => Notice.portFault p .override .override)

/-- A bench with nothing on it, its levels read. -/
def State.levelsRead (s : State) : State :=
  { s with
    stationA := stationRead (s.pauseSwitch .a), stationB := stationRead (s.pauseSwitch .b),
    ports := #v[portRead (s.localLevel 0), portRead (s.localLevel 1), portRead (s.localLevel 2),
      portRead (s.localLevel 3)] }

theorem State.setPorts_eq (s : State) (f : Port → PortRec) :
    (((s.setPort 0 (f 0)).setPort 1 (f 1)).setPort 2 (f 2)).setPort 3 (f 3) =
      { s with ports := #v[f 0, f 1, f 2, f 3] } := by
  unfold State.setPort
  congr 1
  ext i hi
  interval_cases i <;> simp

theorem portRead_mode (on : Bool) : (portRead on).mode ≠ .closing := by cases on <;> decide

/-- The pause switches read, A then B. -/
theorem readPauses_fresh {s : State} (h : ∀ st, s.station st = StationRec.reset) :
    (s.readPause .a).readPause .b =
      (([Station.a, .b].filter s.pauseSwitch).map (Notice.stationHeld · .request)).foldl State.post
        ((s.setStation .a (stationRead (s.pauseSwitch .a))).setStation .b (stationRead (s.pauseSwitch .b))) := by
  have hb : (s.readPause .a).station .b = StationRec.reset := by
    rw [readPause_fresh (h .a), State.posts_station]
    exact h .b
  have hs : (s.readPause .a).pauseSwitch = s.pauseSwitch := by
    rw [readPause_fresh (h .a), State.posts_pauseSwitch]
    rfl
  rw [readPause_fresh hb, hs, readPause_fresh (h .a), State.posts_setStation, ← List.foldl_append, ← List.map_append,
    ← List.filter_append]
  rfl

/-- The local-control lines of some ports read, one after another. -/
theorem readLocals_fresh : ∀ (ps : List Port) (s : State), ps.Nodup → (∀ p ∈ ps, s.port p = PortRec.reset) →
    ps.foldl State.readLocal s =
      ((ps.filter s.localLevel).map (fun p => Notice.portFault p .override .override)).foldl State.post
        (ps.foldl (fun t p => t.setPort p (portRead (s.localLevel p))) s) := by
  intro ps
  induction ps with
  | nil => intro s _ _; rfl
  | cons p ps ih =>
    intro s hn h
    obtain ⟨hp, hn⟩ := List.nodup_cons.mp hn
    have hfirst := readLocal_fresh (h p (List.mem_cons_self ..))
    have hl : (s.readLocal p).localLevel = s.localLevel := by
      rw [hfirst, State.posts_localLevel]
      rfl
    have hrest : ∀ q ∈ ps, (s.readLocal p).port q = PortRec.reset := by
      intro q hq
      rw [hfirst, State.posts_port, State.port_setPort_of_ne s (fun e : p = q => hp (e.symm ▸ hq))]
      exact h q (List.mem_cons_of_mem _ hq)
    rw [List.foldl_cons, ih _ hn hrest, hl, hfirst,
      List.foldl_hom (fun t => List.foldl State.post t _) (fun t q => State.posts_setPort _ q _ t),
      ← List.foldl_append, ← List.map_append, ← List.filter_append]
    rfl

theorem readLevels_fresh {s : State} (hp : ∀ p, s.port p = PortRec.reset) (hst : ∀ st, s.station st = StationRec.reset)
    (hr : ∀ i, s.record i = none) : s.readLevels = s.levelNotices.foldl State.post s.levelsRead := by
  let held : State := (s.setStation .a (stationRead (s.pauseSwitch .a))).setStation .b (stationRead (s.pauseSwitch .b))
  have hports : allPorts.foldl (fun t q => t.setPort q (portRead (held.localLevel q))) held = s.levelsRead :=
    held.setPorts_eq (fun p => portRead (s.localLevel p))
  have hread : allPorts.foldl State.readLocal ((s.readPause .a).readPause .b) =
      s.levelNotices.foldl State.post s.levelsRead := by
    rw [readPauses_fresh hst, readLocals_fresh allPorts _ (by decide) (fun p _ => by rw [State.posts_port]; exact hp p),
      State.posts_localLevel,
      List.foldl_hom (fun t => List.foldl State.post t _) (fun t q => State.posts_setPort _ q _ t),
      ← List.foldl_append]
    exact congrArg (fun t => s.levelNotices.foldl State.post t) hports
  have hmode : ∀ p, (s.levelsRead.port p).mode ≠ .closing := by
    intro p
    have : s.levelsRead.port p = portRead (s.localLevel p) := by
      unfold State.port State.levelsRead
      fin_cases p <;> rfl
    rw [this]
    exact portRead_mode _
  unfold State.readLevels
  rw [hread]
  refine settle_rests_of_free (fun i => ?_) (fun p => ?_)
  · rw [State.posts_record]; exact hr i
  · rw [State.posts_port]; exact hmode p

theorem State.afterReset_station (s : State) (held : Bool) (st : Station) :
    (s.afterReset held).station st = StationRec.reset := by cases st <;> rfl

theorem State.emptied_station (s : State) (st : Station) : s.emptied.station st = StationRec.reset := by cases st <;> rfl

/-- At most six levels are told: there is room for all in an empty queue. -/
theorem State.levelNotices_length (s : State) : s.levelNotices.length ≤ 6 := by
  have ha : ([Station.a, .b].filter s.pauseSwitch).length ≤ 2 := List.length_filter_le _ _
  have hp : (allPorts.filter s.localLevel).length ≤ 4 := List.length_filter_le _ _
  simp only [State.levelNotices, List.length_append, List.length_map]
  omega

theorem exec_hardwareReset (held : Bool) (s : State) : exec (.hardwareReset held) s =
    .next (if held then s.afterReset true else (s.afterReset false).readLevels) := rfl

theorem exec_resetNRelease (s : State) :
    exec .resetNRelease s = .next (if s.resetHeld then (s.afterReset false).readLevels else s) := rfl

/-- Settles O4: after a reset the levels are read on a bench with nothing on it (`readLevels_fresh`), and the notices find
room. -/
theorem resetReadsTheLevels : Obligations.ResetReadsTheLevels := by
  intro s at0 held faulted read
  have hread : (s.afterReset false).readLevels = read := by
    rw [readLevels_fresh (s.afterReset_port false) (s.afterReset_station false) (s.afterReset_record false),
      State.posts_of_room]
    · rfl
    · show 0 + (s.afterReset false).levelNotices.length ≤ 32
      have := (s.afterReset false).levelNotices_length
      omega
  refine ⟨?release, rfl, fun hheld => ?later⟩
  case release => rw [exec_hardwareReset, if_neg Bool.false_ne_true, hread]
  case later => rw [exec_resetNRelease, if_pos hheld, hread]

/-! ### The bench commands (R171 to R173) -/

theorem State.posts_answered (ns : List Notice) (status : Status) (result : List Byte) (s : State) :
    (ns.foldl State.post s).answered status result = ns.foldl State.post (s.answered status result) :=
  State.posts_comm (f := fun s => s.answered status result) (fun s n => by
    rw [State.post_eq, State.post_eq]
    rfl) ns s

/-- Settles O18: the emptied bench is one with nothing on it, so that its levels are read by `readLevels_fresh`. -/
theorem clearBenchEmptiesTheBench : Obligations.ClearBenchEmptiesTheBench := by
  intro s t h
  have hread : t.emptied.readLevels = t.emptied.levelNotices.foldl State.post t.emptied.levelsRead :=
    readLevels_fresh t.emptied_port t.emptied_station t.emptied_record
  have hbench : t.emptied.readLevels.bench = .configured := by
    rw [hread, State.posts_bench]
    rfl
  refine ⟨fun hb => ?unconfigured, fun hb => ?running, fun hb => ?taken⟩
  case unconfigured => exact exec_answers h (by unfold act cmdClearBench; simp only [hb]; rfl)
  case running => exact exec_answers h (by unfold act cmdClearBench; simp only [hb]; rfl)
  case taken =>
    intro held faulted fresh emptied
    refine exec_answers (u := t.emptied.readLevels) (status := .ok) (result := [1#8]) h ?_ |>.trans ?_
    · have hreply : t.emptied.readLevels.replyBench = t.emptied.readLevels.reply .ok [1#8] := by
        unfold State.replyBench
        rw [hbench]
        rfl
      unfold act cmdClearBench
      rcases hb with hb | hb
      · simp only [hb, hreply]
      · simp only [hb, hreply]
    · rw [hread]
      rfl

/-- Settles O17: START and HALT by the bench state; the end of an event keeps the bench state. -/
theorem startAndHaltMoveTheBench : Obligations.StartAndHaltMoveTheBench := by
  have reply : ∀ {u v : State}, Reach u v → u.bench = .running → v.replyBench = v.reply .ok [2#8] := by
    intro u v h hb
    unfold State.replyBench
    rw [h.bench, hb]
    rfl
  refine ⟨fun s t h => ⟨fun hb => ?unconfigured, fun hb => ?running, fun hb => ?halted, fun hb => ?configured⟩,
    fun s t h => ⟨fun hb => ⟨?stops, fun p => ?noClaim⟩, fun hb => ?idle⟩⟩
  case unconfigured => exact exec_answers h (by unfold act cmdStart; simp only [hb]; rfl)
  case running => exact exec_answers h (by unfold act cmdStart; simp only [hb]; exact reply (.refl t) hb)
  case halted => exact exec_answers h (by unfold act cmdStart; simp only [hb]; exact reply (reach_settle _) rfl)
  case configured =>
    refine exec_answers h ?_
    unfold act cmdStart
    simp only [hb]
    exact reply (.after (reach_settle _) (Reach.foldl _ reach_seatWaiting _ _)) rfl
  case stops => exact exec_answers h (by unfold act cmdHalt; simp only [hb]; rfl)
  case noClaim => rfl
  case idle =>
    refine exec_answers h ?_
    unfold act cmdHalt
    cases hs : t.bench with
    | running => exact absurd hs hb
    | _ => simp only [State.replyBench, hs]

end Sys2Proof.Machine

/-! ## The command link

Transactions, the checks of a request frame in the order of R175, and the processing of one request at a time. A request is
read back from its bytes (`parseRequest_body`), bytes are those of the request they parse to (`parseRequest_ok`), and what
does not parse is an unknown command code or a wrong length (`parseRequest_error`). -/

namespace Sys2Proof.Machine

/-! ### Transactions (R174) -/

theorem exec_csNFall {s : State} (hl : s.resetHeld = false) (ht : s.link.transaction = none) :
    exec .csNFall s = .next (s.setLink { s.link with transaction := some s.shiftedOut }) := by
  show Host.Outcome.next (s.whenLive _) = _
  rw [State.whenLive_of_live hl]
  simp only [ht]

theorem exec_csNRise {s : State} {t : Transaction} (hl : s.resetHeld = false) (ht : s.link.transaction = some t)
    (mosi : List Byte) : exec (.csNRise mosi) s =
      .next (if holdsRequest mosi then (s.endTransaction t mosi.length).takeFrame mosi
        else s.endTransaction t mosi.length) := by
  show Host.Outcome.next (s.whenLive _) = _
  rw [State.whenLive_of_live hl]
  simp only [ht]

/-- The flags of a response (R186), their bits as numbers. -/
theorem State.responseFlags_eq (s : State) (discarded : Bool) : s.responseFlags discarded =
    byteOf ((if discarded then 1 else 0) + 2 * (if s.notices = [] then 0 else 1) + 4 * (if s.overflow = 0 then 0 else 1)) := by
  unfold State.responseFlags flagsByte State.attn State.overflowed
  have ha : (!s.notices.isEmpty).toNat = if s.notices = [] then 0 else 1 := by cases s.notices <;> rfl
  have ho : (decide (0 < s.overflow)).toNat = if s.overflow = 0 then 0 else 1 := by cases s.overflow <;> rfl
  have hd : discarded.toNat = if discarded then 1 else 0 := by cases discarded <;> rfl
  rw [ha, ho, hd]

theorem holdsRequest_iff {mosi : List Byte} : holdsRequest mosi = true ↔ mosi ≠ [] ∧ byteAt mosi 0 ≠ 0#8 := by
  cases mosi with
  | nil => simp [holdsRequest]
  | cons a rest => simp [holdsRequest, byteAt]

theorem holdsRequest_of_none {mosi : List Byte} (h : mosi = [] ∨ mosi.head? = some 0#8) : holdsRequest mosi = false := by
  cases mosi with
  | nil => rfl
  | cons a rest => simpa [holdsRequest] using h

/-- Settles O6: the frame chosen at the fall, the bytes on MISO, and what the end of the transaction leaves unread. -/
theorem transactionsShiftOutTheResponse : Obligations.TransactionsShiftOutTheResponse := by
  intro s hl attn lost framed
  refine ⟨fun b ht hb => ?buffered, fun ht hb => ?notReady, fun t k => ⟨fun b h => ?within, fun h => ?past⟩,
    fun t mosi ht hm => ?ends⟩
  case buffered =>
    let flags := byteOf ((if b.discarded then 1 else 0) + 2 * attn + 4 * lost)
    have hout : s.shiftedOut =
        { frame := framed b.response.status.byte flags b.response.result, fromBuffer := true } := by
      unfold State.shiftedOut
      simp only [hb, State.responseFlags_eq]
      rfl
    rw [exec_csNFall hl ht, hout]
  case notReady =>
    have hout : s.shiftedOut = { frame := framed 2#8 (byteOf (2 * attn + 4 * lost)) [], fromBuffer := false } := by
      unfold State.shiftedOut
      simp only [hb, State.responseFlags_eq, Bool.false_eq_true, if_false, Nat.zero_add]
      rfl
    rw [exec_csNFall hl ht, hout]
  case within => simp [Transaction.miso, h]
  case past => simp [Transaction.miso, h]
  case ends =>
    rw [exec_csNRise hl ht, holdsRequest_of_none hm]
    unfold State.endTransaction
    refine ⟨fun hb hf => ?whole, fun h => ?cut⟩
    case whole => simp [hb, hf]
    case cut =>
      rcases h with h | h
      · simp [h]
      · simp [Nat.not_le.mpr h]

/-! ### The processing of a request (R176) -/

theorem exec_responsePlaced_answered {s : State} {r : Response} (hl : s.resetHeld = false) (h : s.link.work = .answered r) :
    exec .responsePlaced s = .next (s.placeResponse r) := by
  show Host.Outcome.next (s.whenLive _) = _
  rw [State.whenLive_of_live hl]
  simp only [h]

theorem exec_responsePlaced_dispatched {s : State} {r : Request} (hl : s.resetHeld = false)
    (h : s.link.work = .dispatched r) :
    exec .responsePlaced s = .next ((act r s).state.placeResponse (act r s).response) := by
  show Host.Outcome.next (s.whenLive _) = _
  rw [State.whenLive_of_live hl]
  simp only [h]

/-- Settles O8: acting and then placing is what placing a dispatched request's response does. -/
theorem oneRequestIsProcessedAtATime : Obligations.OneRequestIsProcessedAtATime := by
  intro s hl
  refine ⟨fun r h => ?placed, fun r h => ?acts, fun q r h hne => ?discarded, ?ready⟩
  case placed => exact exec_responsePlaced_answered hl h
  case acts =>
    have hacted : (s.actOn r).resetHeld = false := ((act_changes r s).resetHeld).trans hl
    refine ⟨s.actOn r, exec_acts ⟨hl, .inl ⟨h, rfl⟩⟩, ⟨_, rfl⟩, ?_⟩
    rw [exec_responsePlaced_dispatched hl h, exec_responsePlaced_answered (r := (act r s).response) hacted rfl]
    rfl
  case discarded =>
    rw [exec_requestRow, State.whenLive_of_live hl]
    have hdiscard : s.takeRequest r = s.discardRequest := by
      unfold State.takeRequest
      simp only [h, if_neg hne]
    rw [hdiscard]
    rfl
  case ready =>
    unfold CommandLink.respReady
    cases s.link.buffer <;> simp

/-! ### Bytes and words -/

theorem byteOf_toNat (b : Byte) : byteOf b.toNat = b := BitVec.eq_of_toNat_eq (by simp [byteOf])

theorem byteOf_length_toNat {α : Type} {l : List α} (h : l.length < 256) : (byteOf l.length).toNat = l.length :=
  Nat.mod_eq_of_lt h

theorem toNat_append_byte {n : Nat} (x : BitVec n) (y : Byte) : (x ++ y).toNat = x.toNat * 256 + y.toNat := by
  rw [BitVec.toNat_append, ← Nat.shiftLeft_add_eq_or_of_lt y.isLt, Nat.shiftLeft_eq]

theorem byteOf_mul_add (n : Nat) (y : Byte) : byteOf (n * 256 + y.toNat) = y := by
  refine BitVec.eq_of_toNat_eq ?_
  have := y.isLt
  simp only [byteOf, BitVec.toNat_ofNat]
  omega

theorem bytes16_append (x y : Byte) : bytes16 (x ++ y).toNat = [x, y] := by
  have hx : (x.toNat * 256 + y.toNat) / 256 = x.toNat := by have := y.isLt; omega
  unfold bytes16
  rw [toNat_append_byte, byteOf_mul_add, hx, byteOf_toNat]

theorem extractLsb'_byte_toNat {n : Nat} (x : BitVec n) (k : Nat) : (x.extractLsb' k 8).toNat = x.toNat / 2 ^ k % 256 := by
  rw [BitVec.extractLsb'_toNat, Nat.shiftRight_eq_div_pow]

theorem bytes32_append (x y z w : Byte) : bytes32 (x ++ y ++ z ++ w) = [x, y, z, w] := by
  have hx := x.isLt
  have hy := y.isLt
  have hz := z.isLt
  have hw := w.isLt
  unfold bytes32
  congr! <;> refine BitVec.eq_of_toNat_eq ?_ <;> rw [extractLsb'_byte_toNat] <;> simp only [toNat_append_byte] <;> omega

theorem bytesOfFlags_append (a b c d e f g h : Byte) :
    bytesOfFlags (h ++ g ++ f ++ e ++ d ++ c ++ b ++ a) = [a, b, c, d, e, f, g, h] := by
  have ha := a.isLt
  have hb := b.isLt
  have hc := c.isLt
  have hd := d.isLt
  have he := e.isLt
  have hf := f.isLt
  have hg := g.isLt
  have hh := h.isLt
  show [_, _, _, _, _, _, _, _] = _
  congr! <;> refine BitVec.eq_of_toNat_eq ?_ <;> rw [extractLsb'_byte_toNat] <;> simp only [toNat_append_byte] <;> omega

theorem append_bytes16 (n : BitVec 16) : (byteOf (n.toNat / 256) ++ byteOf n.toNat : BitVec 16) = n := by
  have := n.isLt
  refine BitVec.eq_of_toNat_eq ?_
  rw [toNat_append_byte]
  simp only [byteOf, BitVec.toNat_ofNat]
  omega

theorem append_bytes32 (c : Code) :
    (c.extractLsb' 24 8 ++ c.extractLsb' 16 8 ++ c.extractLsb' 8 8 ++ c.extractLsb' 0 8 : BitVec 32) = c := by
  have := c.isLt
  refine BitVec.eq_of_toNat_eq ?_
  simp only [toNat_append_byte, extractLsb'_byte_toNat]
  omega

theorem append_bytesOfFlags (f : BitVec 64) :
    (f.extractLsb' 56 8 ++ f.extractLsb' 48 8 ++ f.extractLsb' 40 8 ++ f.extractLsb' 32 8 ++ f.extractLsb' 24 8
      ++ f.extractLsb' 16 8 ++ f.extractLsb' 8 8 ++ f.extractLsb' 0 8 : BitVec 64) = f := by
  have := f.isLt
  refine BitVec.eq_of_toNat_eq ?_
  simp only [toNat_append_byte, extractLsb'_byte_toNat]
  omega

/-! ### Lists of bytes read by their positions -/

/-- The first bytes of a list, by their positions. -/
theorem take_eq_map_byteAt {a : List Byte} {n : Nat} (h : n ≤ a.length) : a.take n = (List.range n).map (byteAt a) := by
  refine List.ext_getElem (by simp [h]) fun k hk _ => ?_
  have hka : k < a.length := by simp at hk; omega
  simp [byteAt, List.getD_eq_getElem?_getD, List.getElem?_eq_getElem hka]

theorem eq_map_byteAt {a : List Byte} {n : Nat} (h : a.length = n) : a = (List.range n).map (byteAt a) := by
  rw [← take_eq_map_byteAt h.ge, List.take_of_length_le h.le]

theorem lineArgs_lineBytes (ls : List LineArg) : lineArgs (lineBytes ls) = ls := by
  induction ls with
  | nil => rfl
  | cons l rest ih =>
    show _ :: lineArgs (lineBytes rest) = _
    rw [ih]

theorem lineBytes_length (ls : List LineArg) : (lineBytes ls).length = 2 * ls.length := by
  induction ls with
  | nil => rfl
  | cons l rest ih =>
    show (lineBytes rest).length + 2 = 2 * (rest.length + 1)
    omega

theorem lineBytes_lineArgs : ∀ (n : Nat) (bs : List Byte), bs.length = 2 * n →
    (lineArgs bs).length = n ∧ lineBytes (lineArgs bs) = bs
  | 0, bs, h => by
    obtain rfl := List.length_eq_zero_iff.mp h
    exact ⟨rfl, rfl⟩
  | n + 1, [], h => by simp at h
  | n + 1, [_], h => by simp at h; omega
  | n + 1, target :: quantity :: rest, h => by
    obtain ⟨hlen, hbytes⟩ := lineBytes_lineArgs n rest (by simp at h; omega)
    refine ⟨congrArg (· + 1) hlen, ?_⟩
    show target :: quantity :: lineBytes (lineArgs rest) = _
    rw [hbytes]

/-! ### Requests and their bytes (R175, R187) -/

theorem configArgs_configArgBytes (a : ConfigArgs) : configArgs (configArgBytes a) = a := by
  obtain ⟨chilled, frozen, _, _, _, _, _, _, _, reader, _, family, _, _, _⟩ := a
  show ConfigArgs.mk (_ ++ _) (_ ++ _) _ _ _ _ _ _ _ (_ ++ _) _ _ _ _ _ = _
  congr
  · exact append_bytes16 chilled
  · exact append_bytes16 frozen
  · exact append_bytes16 reader
  · exact append_bytesOfFlags family

theorem configArgBytes_configArgs {a : List Byte} (h : a.length = 25) : configArgBytes (configArgs a) = a := by
  refine Eq.trans ?_ (eq_map_byteAt h).symm
  unfold configArgBytes configArgs word16 flags64
  simp only [bytes16_append, bytesOfFlags_append]
  rfl

theorem ofLength_eq_ok {n : Nat} {a : List Byte} {r q : Request} (h : ofLength n a r = .ok q) : a.length = n ∧ r = q := by
  unfold ofLength at h
  split at h
  case isTrue hn => exact ⟨hn, Except.ok.inj h⟩
  case isFalse => cases h

theorem submitRequest_eq_ok {a : List Byte} {q : Request} (h : submitRequest a = .ok q) : requestBody q = (0x10#8, a) := by
  unfold submitRequest at h
  split at h
  case isFalse => cases h
  case isTrue hn =>
    obtain ⟨hnine, hlen⟩ := hn
    obtain ⟨hcount, hlines⟩ := lineBytes_lineArgs (byteAt a 8).toNat (a.drop 9) (by rw [List.length_drop]; omega)
    cases h
    refine Prod.ext rfl (Eq.trans ?_ (List.take_append_drop 9 a))
    unfold requestBody word32 word16
    dsimp only
    rw [take_eq_map_byteAt hnine, bytes32_append, bytes16_append, hlines, hcount, byteOf_toNat]
    rfl

theorem amendRequest_eq_ok {a : List Byte} {q : Request} (h : amendRequest a = .ok q) : requestBody q = (0x12#8, a) := by
  unfold amendRequest at h
  dsimp only at h
  generalize hn : (byteAt a 1).toNat = cancels at h
  split at h
  case isFalse => cases h
  case isTrue hfits =>
    obtain ⟨hthree, hlen⟩ := hfits
    obtain ⟨hcount, hlines⟩ := lineBytes_lineArgs (byteAt a (2 + cancels)).toNat (a.drop (3 + cancels))
      (by rw [List.length_drop]; omega)
    have hcancels : ((a.drop 2).take cancels).length = cancels := by
      rw [List.length_take, List.length_drop]
      omega
    have hfirst : [byteAt a 0, byteAt a 1] = a.take 2 := (take_eq_map_byteAt (a := a) (n := 2) (by omega)).symm
    have hbyte : [byteAt a (2 + cancels)] = ((a.drop 2).drop cancels).take 1 := by
      rw [List.drop_drop, take_eq_map_byteAt (by rw [List.length_drop]; omega)]
      simp [byteAt]
    have hrest : a.drop (3 + cancels) = ((a.drop 2).drop cancels).drop 1 := by
      rw [List.drop_drop, List.drop_drop]
      congr 1
      omega
    cases h
    refine Prod.ext rfl ?_
    show [byteAt a 0, byteOf ((a.drop 2).take cancels).length] ++ (a.drop 2).take cancels
      ++ [byteOf (lineArgs (a.drop (3 + cancels))).length] ++ lineBytes (lineArgs (a.drop (3 + cancels))) = a
    rw [hlines, hcount, hcancels, ← hn, byteOf_toNat, byteOf_toNat, hn, hbyte, hfirst, hrest, List.append_assoc,
      List.take_append_drop, List.append_assoc, List.take_append_drop, List.take_append_drop]

theorem requestBody_of_ofLength {n : Nat} {code : Byte} {a : List Byte} {r q : Request} (h : ofLength n a r = .ok q)
    (hcode : code.toNat = (requestBody r).1.toNat) (hbytes : (requestBody r).2 = (List.range n).map (byteAt a)) :
    requestBody q = (code, a) := by
  obtain ⟨hlen, rfl⟩ := ofLength_eq_ok h
  refine Prod.ext (BitVec.eq_of_toNat_eq hcode.symm) ?_
  rw [hbytes, ← eq_map_byteAt hlen]

/-- The bytes a request is parsed from are its own. -/
theorem parseRequest_ok {code : Byte} {a : List Byte} {q : Request} (h : parseRequest code a = .ok q) :
    requestBody q = (code, a) := by
  unfold parseRequest at h
  split at h
  case h_1 hcode =>
    obtain ⟨hlen, rfl⟩ := ofLength_eq_ok h
    exact Prod.ext (BitVec.eq_of_toNat_eq hcode.symm) (configArgBytes_configArgs hlen)
  case h_7 hcode => rw [submitRequest_eq_ok h, BitVec.eq_of_toNat_eq (show code.toNat = (0x10#8).toNat from hcode)]
  case h_8 hcode =>
    refine requestBody_of_ofLength h hcode ?_
    unfold requestBody word32 word16
    dsimp only
    rw [bytes32_append, bytes16_append]
    rfl
  case h_9 hcode => rw [amendRequest_eq_ok h, BitVec.eq_of_toNat_eq (show code.toNat = (0x12#8).toNat from hcode)]
  case h_13 hcode => exact requestBody_of_ofLength h hcode (bytes32_append _ _ _ _)
  case h_24 => cases h
  all_goals
    rename_i hcode
    exact requestBody_of_ofLength h hcode rfl

theorem ofLength_eq_error {n : Nat} {a : List Byte} {r : Request} {e : Status} (h : ofLength n a r = .error e) :
    e = .badLength := by
  unfold ofLength at h
  split at h
  case isTrue => cases h
  case isFalse => exact (Except.error.inj h).symm

theorem wrongLength_of_ofLength {n : Nat} {code : Byte} {a : List Byte} {r : Request} {e : Status}
    (h : ofLength n a r = .error e) (hcode : code.toNat = (requestBody r).1.toNat) :
    e = .badLength ∧ ∃ r, (requestBody r).1 = code :=
  ⟨ofLength_eq_error h, r, BitVec.eq_of_toNat_eq hcode.symm⟩

/-- What is not parsed is an unknown command code, or a command of the wrong length. -/
theorem parseRequest_error {code : Byte} {a : List Byte} {e : Status} (h : parseRequest code a = .error e) :
    (e = .unknownCommand ∧ ∀ r, (requestBody r).1 ≠ code) ∨ (e = .badLength ∧ ∃ r, (requestBody r).1 = code) := by
  unfold parseRequest at h
  split at h
  case h_7 hcode =>
    refine .inr ⟨?_, .submitSource 0 0 0 0 [], BitVec.eq_of_toNat_eq hcode.symm⟩
    unfold submitRequest at h
    split at h
    case isTrue => cases h
    case isFalse => exact (Except.error.inj h).symm
  case h_9 hcode =>
    refine .inr ⟨?_, .amendLines 0 [] [], BitVec.eq_of_toNat_eq hcode.symm⟩
    unfold amendRequest at h
    dsimp only at h
    split at h
    case isTrue => cases h
    case isFalse => exact (Except.error.inj h).symm
  case h_24 =>
    refine .inl ⟨(Except.error.inj h).symm, fun r hr => ?_⟩
    subst hr
    cases r <;> contradiction
  all_goals
    rename_i hcode
    exact .inr (wrongLength_of_ofLength h hcode)

theorem submitRequest_bytes (code : Code) (cls : Byte) (exposure : BitVec 16) (station : Byte) {lines : List LineArg}
    (h : lines.length < 256) :
    submitRequest (bytes32 code ++ [cls] ++ bytes16 exposure.toNat ++ [station, byteOf lines.length] ++ lineBytes lines) =
      .ok (.submitSource code cls exposure station lines) := by
  have hcount : (byteOf lines.length).toNat = lines.length := byteOf_length_toNat h
  have hlen := lineBytes_length lines
  unfold submitRequest
  rw [if_pos]
  case hc =>
    show 9 ≤ (lineBytes lines).length + 9 ∧ (lineBytes lines).length + 9 = 9 + 2 * (byteOf lines.length).toNat
    omega
  show Except.ok (Request.submitSource (_ ++ _) _ (_ ++ _) _ (lineArgs (lineBytes lines))) = _
  rw [lineArgs_lineBytes]
  congr
  · exact append_bytes32 code
  · exact append_bytes16 exposure

theorem amendRequest_bytes (slot : Byte) {cancels : List Byte} {adds : List LineArg} (hc : cancels.length < 256)
    (ha : adds.length < 256) :
    amendRequest ([slot, byteOf cancels.length] ++ cancels ++ [byteOf adds.length] ++ lineBytes adds) =
      .ok (.amendLines slot cancels adds) := by
  have hcancels : (byteOf cancels.length).toNat = cancels.length := byteOf_length_toNat hc
  have hadds : (byteOf adds.length).toNat = adds.length := byteOf_length_toNat ha
  have hlen := lineBytes_length adds
  have hbytes : [slot, byteOf cancels.length] ++ cancels ++ [byteOf adds.length] ++ lineBytes adds =
      slot :: byteOf cancels.length :: (cancels ++ byteOf adds.length :: lineBytes adds) := by simp
  have hsecond : byteAt (slot :: byteOf cancels.length :: (cancels ++ byteOf adds.length :: lineBytes adds))
      (2 + cancels.length) = byteOf adds.length := by
    simp [byteAt, List.getD_eq_getElem?_getD, Nat.add_comm 2]
  have htaken : ((slot :: byteOf cancels.length :: (cancels ++ byteOf adds.length :: lineBytes adds)).drop 2).take
      cancels.length = cancels := List.take_left
  have hdropped : (slot :: byteOf cancels.length :: (cancels ++ byteOf adds.length :: lineBytes adds)).drop
      (3 + cancels.length) = lineBytes adds := by
    simp [Nat.add_comm 3]
  have hfirst : (byteAt (slot :: byteOf cancels.length :: (cancels ++ byteOf adds.length :: lineBytes adds)) 1).toNat =
      cancels.length := hcancels
  rw [hbytes]
  unfold amendRequest
  simp only [hfirst, hsecond, hadds, htaken, hdropped, lineArgs_lineBytes]
  rw [if_pos]
  case hc => simp; omega
  rfl

/-- A request that fits a frame is parsed from its bytes. -/
theorem parseRequest_body {r : Request} {code : Byte} {a : List Byte} (h : requestBody r = (code, a))
    (hfits : a.length ≤ 120) : parseRequest code a = .ok r := by
  obtain ⟨rfl, rfl⟩ := Prod.mk.inj h
  cases r
  case configure args => exact congrArg (fun c => Except.ok (Request.configure c)) (configArgs_configArgBytes args)
  case submitSource code cls exposure station lines =>
    refine submitRequest_bytes code cls exposure station ?_
    have := lineBytes_length lines
    simp only [List.length_append] at hfits
    omega
  case bindOrder code cls exposure position =>
    show Except.ok (Request.bindOrder (_ ++ _) _ (_ ++ _) _) = _
    congr
    · exact append_bytes32 code
    · exact append_bytes16 exposure
  case amendLines slot cancels adds =>
    have := lineBytes_length adds
    simp only [List.length_append] at hfits
    exact amendRequest_bytes slot (by omega) (by omega)
  case findTote code => exact congrArg (fun c => Except.ok (Request.findTote c)) (append_bytes32 code)
  all_goals rfl

/-! ### Request frames (R175) -/

theorem takeFrame_of_busy {s : State} (h : s.link.work ≠ .idle) (mosi : List Byte) : s.takeFrame mosi = s.discardRequest := by
  unfold State.takeFrame
  split
  case h_1 hidle => exact absurd hidle h
  case h_2 => rfl
  case h_3 => rfl

theorem takeFrame_error {s : State} {mosi : List Byte} {e : Status} (hi : s.link.work = .idle)
    (hc : checkFrame mosi = .error e) : s.takeFrame mosi = s.dropUnread.placeResponse { status := e, result := [] } := by
  unfold State.takeFrame
  simp only [hi, hc]

theorem takeFrame_ok {s : State} {mosi : List Byte} {r : Request} (hi : s.link.work = .idle)
    (hc : checkFrame mosi = .ok r) : s.takeFrame mosi = s.dropUnread.setWork (.dispatched r) := by
  unfold State.takeFrame
  simp only [hi, hc]

/-- A frame that is whole is checked by its command code and arguments. -/
theorem checkFrame_of_whole {mosi : List Byte} (h : (byteAt mosi 1).toNat ≤ 120 ∧ (byteAt mosi 1).toNat + 3 ≤ mosi.length ∧
    byteAt mosi ((byteAt mosi 1).toNat + 2) = crc8 (mosi.take ((byteAt mosi 1).toNat + 2))) :
    checkFrame mosi = parseRequest (byteAt mosi 0) ((mosi.take ((byteAt mosi 1).toNat + 2)).drop 2) := if_pos h

/-- Settles O7: the checks of R175 in their order; the requests and their bytes determine the last two. -/
theorem requestFrameIsCheckedInOrder : Obligations.RequestFrameIsCheckedInOrder := by
  intro mosi tr s hl ht hne hfirst n code args whole placed
  let read := s.endTransaction tr mosi.length
  have hrise : exec (.csNRise mosi) s = .next (read.takeFrame mosi) := by
    rw [exec_csNRise hl ht, if_pos (holdsRequest_iff.mpr ⟨hne, hfirst⟩)]
  have rejected : ∀ {e : Status}, s.link.work = .idle → checkFrame mosi = .error e →
      exec (.csNRise mosi) s = .next (placed e) := fun hi hc => by
    rw [hrise, takeFrame_error (s := read) hi hc]
    rfl
  refine ⟨fun hbusy => ?discarded, fun hi hw => ?incomplete, fun hi hw hno => ?unknown, fun hi hw r hr =>
    ⟨fun hno => ?wrongLength, fun hbody => ?dispatched⟩⟩
  case discarded =>
    rw [hrise, takeFrame_of_busy (s := read) hbusy]
    show Host.Outcome.next (s.setLink { s.link with
      transaction := none, buffer := if tr.fromBuffer && decide (tr.frame.length ≤ mosi.length) then none else s.link.buffer,
      discardCount := saturate 65535 s.link.discardCount, discardFlag := true }) = _
    simp [saturate]
  case incomplete => exact rejected hi (if_neg hw)
  case unknown =>
    refine rejected hi ?_
    rw [checkFrame_of_whole hw]
    cases hp : parseRequest code args with
    | ok q => exact absurd (congrArg Prod.fst (parseRequest_ok hp)) (hno q)
    | error e =>
      rcases parseRequest_error hp with ⟨rfl, _⟩ | ⟨_, q, hq⟩
      · rfl
      · exact absurd hq (hno q)
  case wrongLength =>
    refine rejected hi ?_
    rw [checkFrame_of_whole hw]
    cases hp : parseRequest code args with
    | ok q => exact absurd (parseRequest_ok hp) (hno q)
    | error e =>
      rcases parseRequest_error hp with ⟨_, hunknown⟩ | ⟨rfl, _⟩
      · exact absurd hr (hunknown r)
      · rfl
  case dispatched =>
    have hargs : args.length ≤ 120 := by
      obtain ⟨hn, _, _⟩ := hw
      simp only [args, List.length_drop, List.length_take, n]
      omega
    rw [hrise, takeFrame_ok (s := read) hi ((checkFrame_of_whole hw).trans (parseRequest_body hbody hargs))]
    rfl

/-- A request whose lists fit a frame has at most 120 argument bytes. -/
theorem requestBody_length_le {r : Request}
    (hs : ∀ code cls exposure station lines, r = .submitSource code cls exposure station lines → submitFits lines = true)
    (ha : ∀ slot cancels adds, r = .amendLines slot cancels adds → amendFits cancels adds = true) :
    (requestBody r).2.length ≤ 120 := by
  cases r
  case submitSource code cls exposure station lines =>
    have hfits := of_decide_eq_true (hs _ _ _ _ _ rfl)
    have hlen := lineBytes_length lines
    show (lineBytes lines).length + 9 ≤ 120
    omega
  case amendLines slot cancels adds =>
    have hfits := of_decide_eq_true (ha _ _ _ rfl)
    have hlen := lineBytes_length adds
    simp only [requestBody, List.length_append, List.length_cons, List.length_nil]
    omega
  all_goals exact Nat.le_of_ble_eq_true rfl

/-- Settles O9: a request is parsed from its bytes, and the frame's check covers them whatever follows. -/
theorem requestFramesDecodeToTheirRequest : Obligations.RequestFramesDecodeToTheirRequest := by
  intro r after hs ha
  have hfits := requestBody_length_le hs ha
  cases hbody : requestBody r with
  | mk code args =>
    replace hfits : args.length ≤ 120 := by rwa [hbody] at hfits
    let covered := code :: byteOf args.length :: args
    have hn : (byteAt (requestFrame code args ++ after) 1).toNat = args.length :=
      byteOf_length_toNat (l := args) (by omega)
    have hframe : requestFrame code args ++ after = covered ++ (crc8 covered :: after) := List.append_assoc _ _ _
    have htake : (requestFrame code args ++ after).take (args.length + 2) = covered := by
      rw [hframe]
      exact List.take_left' rfl
    have hcheck : byteAt (requestFrame code args ++ after) (args.length + 2) = crc8 covered := by
      rw [hframe]
      simp [byteAt, covered, List.getD_eq_getElem?_getD]
    have hlen : args.length + 3 ≤ (requestFrame code args ++ after).length := by
      simp [hframe, covered]
    rw [checkFrame_of_whole (by rw [hn, hcheck, htake]; exact ⟨hfits, hlen, rfl⟩), hn, htake]
    exact parseRequest_body hbody hfits

end Sys2Proof.Machine

/-! ## Reports and the configuration

What READ_CONFIG, READ_STATUS, READ_READER_STATS, LIST_PORT, READ_RECORD and FIND_TOTE answer, and what CONFIGURE does
(R168 to R170, R187 to R189). The fields of a request come first. -/

namespace Sys2Proof.Machine

/-! ### The fields of a request (R186) -/

theorem slotField_eq {b : Byte} {i : Slot} (h : i.val = b.toNat) : slotField b = some i := by
  unfold slotField
  rw [dif_pos (h ▸ i.isLt)]
  exact congrArg some (Fin.ext h.symm)

theorem slotField_eq_none {b : Byte} (h : 63 < b.toNat) : slotField b = none := dif_neg (by omega)

theorem portField_eq {b : Byte} {p : Port} (h : p.val = b.toNat) : portField b = some p := by
  unfold portField
  rw [dif_pos (h ▸ p.isLt)]
  exact congrArg some (Fin.ext h.symm)

theorem portField_eq_none {b : Byte} (h : 3 < b.toNat) : portField b = none := dif_neg (by omega)

theorem recordCode_eq_false {c : Code} (h : c = 0#32 ∨ c = 0xFFFFFFFF#32) : recordCode c = false := by
  rcases h with rfl | rfl <;> rfl

theorem recordCode_eq_true {c : Code} (hz : c ≠ 0#32) (hs : c ≠ 0xFFFFFFFF#32) : recordCode c = true := by
  simp [recordCode, noReadCode, serviceCode, hz, hs]

/-! ### The configuration as bytes (R168, R187) -/

theorem boolByte_flagField {b : Byte} (h : (flagField b).isSome = true) : boolByte ((flagField b).getD false) = b := by
  unfold flagField at h ⊢
  split
  · next e => exact e.symm
  · next hz =>
    rw [if_neg hz] at h
    split
    · next e => exact e.symm
    · next ho => rw [if_neg ho] at h; cases h

theorem optionalByte_portField {b : Byte} (h : (optionalPortField b).isSome = true) :
    optionalByte (((optionalPortField b).getD none).map portByte) = b := by
  unfold optionalPortField portField at h ⊢
  split
  · next e => exact e.symm
  · next hn =>
    rw [if_neg hn] at h
    split
    · exact byteOf_toNat b
    · next hp => rw [dif_neg hp] at h; cases h

/-- The configuration of valid parameters is answered in the bytes of those parameters (R170, R187). -/
theorem configurationOf_bytes {a : ConfigArgs} (h : configFirstBad a = none) :
    (configurationOf a).bytes = configArgBytes a := by
  have hall := configFirstBad_none h
  have hopen : (flagField a.openAcceptance).isSome = true := hall _ (by simp [configChecks])
  have hstray : (optionalPortField a.strayPort).isSome = true := hall _ (by simp [configChecks])
  have hservice : (optionalPortField a.servicePort).isSome = true := hall _ (by simp [configChecks])
  unfold Configuration.bytes configArgBytes configurationOf
  dsimp only
  simp only [byteOf_toNat, boolByte_flagField hopen, optionalByte_portField hstray, optionalByte_portField hservice]

/-- Settles O11: the bytes of the configuration held; those of the parameters it was taken from; those of the reset values. -/
theorem configurationReadsBackAsTaken : Obligations.ConfigurationReadsBackAsTaken := by
  have answers : ∀ {s t : State}, ActsIn .readConfig s t →
      exec .readConfig s = .next (t.answered .ok t.config.bytes) := fun h => exec_answers h rfl
  refine ⟨fun s t h => ?held, fun a s t ha hk h => ?taken, fun s t hk h => ?atReset⟩
  case held => rw [answers h]; rfl
  case taken =>
    have ht : t.config = configurationOf a := by rw [h.eq]; exact hk
    rw [answers h, ht, configurationOf_bytes ha]
  case atReset =>
    have ht : t.config = Configuration.reset := by rw [h.eq]; exact hk
    rw [answers h, ht]
    rfl

/-! ### Reports (R23, R24, R46, R166, R177) -/

/-- Settles O12: the bytes are those of `State.statusBytes` and `ReaderRec.bytes`, written out. -/
theorem statusAndReaderStatsAreReported : Obligations.StatusAndReaderStatsAreReported := by
  intro s t flag station port channel
  have hstation : ∀ st, t.stationBytes st = station st := by
    intro st
    unfold State.stationBytes HoldStatus.stepByte StationRec.atHold boolByte optionalByte
    simp only [decide_eq_true_eq, station, flag]
    cases (t.station st).hold with
    | step use => cases use <;> rfl
    | _ => rfl
  refine ⟨fun h => ?status, fun h => ?stats⟩
  case status =>
    rw [← hstation .a, ← hstation .b]
    exact exec_answers h rfl
  case stats => exact exec_answers h rfl

/-- Settles O13: the bytes are those of `State.portBytes`, written out. -/
theorem listPortReportsThePort : Obligations.ListPortReportsThePort := by
  intro port s t h
  refine ⟨fun hb => ?noPort, fun p hp => ?listed⟩
  case noPort =>
    refine exec_answers h (?_ : cmdListPort port t = _)
    unfold cmdListPort
    rw [portField_eq_none hb]
    rfl
  case listed =>
    intro q member entry others
    have hmember : t.memberBytes = member := by
      funext i
      unfold State.memberBytes
      cases hs : t.source i <;> simp [member, hs]
    have hentry : LaneEntry.bytes = entry := by
      funext e
      cases e <;> rfl
    have hothers : t.otherMembers p = others := by
      unfold State.otherMembers
      congr 1
      funext i
      cases t.source i <;> simp
    have harm : byteOf q.reservation = if q.arm = none then 0#8 else 1#8 := by
      unfold PortRec.reservation
      cases q.arm <;> rfl
    refine exec_answers h (?_ : cmdListPort port t = _)
    unfold cmdListPort
    rw [portField_eq hp]
    show t.reply .ok (t.portBytes p) = _
    unfold State.portBytes
    dsimp only
    rw [hmember, hentry, hothers, harm]
    rfl

/-- Settles O14: the bytes are those of `State.recordBytes`, written out. -/
theorem readRecordReportsTheRecord : Obligations.ReadRecordReportsTheRecord := by
  intro slot s t h bit common
  have hbit : ∀ (n : Nat) (b : Bool), n * b.toNat = bit n b := fun n b => by cases b <;> simp [bit]
  have hone : ∀ b : Bool, b.toNat = bit 1 b := fun b => by cases b <;> rfl
  have hsource : ∀ p : Port, stationByte (portStation p) = if p.val < 2 then 0#8 else 1#8 := by decide
  have horder : ∀ u : Position, stationByte (positionStation u) = if u.val < 6 then 0#8 else 1#8 := by decide
  have read : ∀ {i : Slot} {x : Record}, i.val = slot.toNat → t.record i = some x →
      exec (.readRecord slot) s = .next (t.answered .ok (t.recordBytes i x)) := fun hi hr => by
    refine exec_answers h (?_ : cmdReadRecord slot t = _)
    unfold cmdReadRecord
    simp only [slotField_eq hi, hr]
  refine ⟨fun hb => ?noSlot, fun i hi hr => ?noRecord, fun i o hi hr => ?order, fun i r hi hr => ?source⟩
  case noSlot =>
    refine exec_answers h (?_ : cmdReadRecord slot t = _)
    unfold cmdReadRecord
    rw [slotField_eq_none hb]
    rfl
  case noRecord =>
    refine exec_answers h (?_ : cmdReadRecord slot t = _)
    unfold cmdReadRecord
    simp only [slotField_eq hi, hr]
    rfl
  case order =>
    have hmarks : o.tote.warned.toNat + 2 * o.tote.expired.toNat = bit 1 o.tote.warned + bit 2 o.tote.expired := by
      rw [hbit, hone]
    rw [read hi hr, ← hmarks, ← horder]
    rfl
  case source =>
    have hmarks : r.tote.warned.toNat + 2 * r.tote.expired.toNat + 4 * r.withdraw.toNat + 8 * r.requeue.toNat
        + 16 * r.returnOwed.toNat = bit 1 r.tote.warned + bit 2 r.tote.expired + bit 4 r.withdraw + bit 8 r.requeue
        + bit 16 r.returnOwed := by
      rw [hbit, hbit, hbit, hbit, hone]
    rw [read hi hr, ← hmarks, ← hsource]
    rfl

/-- Settles O15: the slot found for a code is the one of the record that holds it. -/
theorem findToteNamesTheLiveRecord : Obligations.FindToteNamesTheLiveRecord := by
  intro code s t h
  refine ⟨fun hc => ?noCode, fun hz hs hr => ?noRecord, fun i x hz hs hi hx hu => ?found⟩
  case noCode =>
    refine exec_answers h (?_ : cmdFindTote code t = _)
    unfold cmdFindTote
    rw [recordCode_eq_false hc]
    rfl
  case noRecord =>
    refine exec_answers h (?_ : cmdFindTote code t = _)
    unfold cmdFindTote
    rw [recordCode_eq_true hz hs, findCode_none hr]
    rfl
  case found =>
    refine exec_answers h (?_ : cmdFindTote code t = _)
    unfold cmdFindTote
    rw [recordCode_eq_true hz hs, findCode_of_unique hi hx hu]
    simp only [hi, if_true]

/-! ### CONFIGURE (R139, R165, R168, R169) -/

theorem flagField_getD (b : Byte) : (flagField b).getD false = decide (b = 1#8) := by
  unfold flagField
  split
  · next e => rw [e]; rfl
  · split
    · next e => rw [e]; rfl
    · next e => exact (decide_eq_false e).symm

theorem flagField_isSome (b : Byte) : (flagField b).isSome = decide (b.toNat ≤ 1) := by
  unfold flagField
  split
  · next e => rw [e]; rfl
  · next hz =>
    split
    · next e => rw [e]; rfl
    · next ho =>
      have hz' : b.toNat ≠ 0 := fun e => hz (BitVec.eq_of_toNat_eq e)
      have ho' : b.toNat ≠ 1 := fun e => ho (BitVec.eq_of_toNat_eq e)
      exact (decide_eq_false (by omega)).symm

theorem optionalPortField_isSome (b : Byte) : (optionalPortField b).isSome = decide (b.toNat ≤ 3 ∨ b.toNat = 255) := by
  unfold optionalPortField
  split
  · next e => rw [e]; rfl
  · next hn =>
    have hn' : b.toNat ≠ 255 := fun e => hn (BitVec.eq_of_toNat_eq e)
    by_cases hp : b.toNat < 4
    · rw [portField_eq (p := ⟨b.toNat, hp⟩) rfl, decide_eq_true (by omega)]
      rfl
    · rw [portField_eq_none (by omega), decide_eq_false (by omega)]
      rfl

theorem optionalPortField_getD {b : Byte} (h : b.toNat ≤ 3 ∨ b.toNat = 255) :
    (optionalPortField b).getD none = if b = 255#8 then none else some (Fin.ofNat 4 b.toNat) := by
  unfold optionalPortField
  split
  · rfl
  · next hn =>
    have hn' : b.toNat ≠ 255 := fun e => hn (BitVec.eq_of_toNat_eq e)
    rw [portField_eq (p := Fin.ofNat 4 b.toNat) (Nat.mod_eq_of_lt (by omega))]
    rfl

theorem within_eq (lo hi n : Nat) : within lo hi n = decide (lo ≤ n ∧ n ≤ hi) := (Bool.decide_and _ _).symm

/-- The first false check is the parameter a CONFIGURE is refused for (R168). -/
theorem configFirstBad_eq_some {a : ConfigArgs} {n : Nat} (h : (configChecks a)[n]? = some false)
    (hbefore : ∀ m < n, (configChecks a)[m]? = some true) : configFirstBad a = some (n + 1) := by
  obtain ⟨hn, hbad⟩ := List.getElem?_eq_some_iff.mp h
  unfold configFirstBad
  rw [List.findIdx?_eq_some_iff_getElem.mpr ⟨hn, by simp [hbad], fun m hm => ?_⟩]
  · rfl
  · obtain ⟨_, hgood⟩ := List.getElem?_eq_some_iff.mp (hbefore m hm)
    simp [hgood]

theorem configFirstBad_eq_none {a : ConfigArgs} (h : ∀ m < 15, (configChecks a)[m]? = some true) :
    configFirstBad a = none := by
  unfold configFirstBad
  rw [List.findIdx?_eq_none_iff.mpr fun ok hok => ?_]
  · rfl
  · obtain ⟨m, hm, rfl⟩ := List.mem_iff_getElem.mp hok
    obtain ⟨_, hgood⟩ := List.getElem?_eq_some_iff.mp (h m hm)
    simp [hgood]

theorem State.reconfigured_bench (s : State) (k : Configuration) : (s.reconfigured k).bench = s.bench.afterConfigure := by
  unfold State.reconfigured
  split <;> rfl

theorem State.reconfigured_supply (s : State) (k : Configuration) : (s.reconfigured k).supply = s.supply := by
  unfold State.reconfigured
  split <;> rfl

theorem State.reconfigured_notices (s : State) (k : Configuration) : (s.reconfigured k).notices = s.notices := by
  unfold State.reconfigured
  split <;> rfl

/-- Settles O16: the checks in index order decide the refusal; a CONFIGURE that is taken replaces the values, and the
examination that follows leaves configuration and bench state alone. -/
theorem configureReplacesTheConfiguration : Obligations.ConfigureReplacesTheConfiguration := by
  intro a s t h ok k
  have hok : ok = configChecks a := by
    have hreader : decide (a.readerWindow.toNat = 64 ∨ a.readerWindow.toNat = 256) =
        (decide (a.readerWindow = 64#16) || decide (a.readerWindow = 256#16)) := by
      rw [Bool.decide_or]
      congr 2 <;> simp [← BitVec.toNat_inj]
    have hlimit : within 1 255 a.readerBadLimit.toNat = decide (1 ≤ a.readerBadLimit.toNat) := by
      have := a.readerBadLimit.isLt
      simp [within]
      omega
    unfold configChecks
    rw [← hreader, hlimit, flagField_isSome, optionalPortField_isSome, optionalPortField_isSome]
    simp only [within_eq]
    rfl
  refine ⟨fun hb => ?running, fun n hb hn hbefore => ?refused, fun hb hall => ?taken⟩
  case running =>
    refine exec_answers h (?_ : cmdConfigure a t = _)
    unfold cmdConfigure
    rw [if_pos hb, hb]
    rfl
  case refused =>
    rw [hok] at hn hbefore
    refine exec_answers h (?_ : cmdConfigure a t = _)
    unfold cmdConfigure
    rw [if_neg hb, configFirstBad_eq_some hn hbefore]
  case taken =>
    intro v cold u
    have hk : k = configurationOf a := by
      have hstray : a.strayPort.toNat ≤ 3 ∨ a.strayPort.toNat = 255 := by simpa [ok] using hall 13 (by decide)
      have hservice : a.servicePort.toNat ≤ 3 ∨ a.servicePort.toNat = 255 := by simpa [ok] using hall 14 (by decide)
      simp only [k, configurationOf, flagField_getD, optionalPortField_getD hstray, optionalPortField_getD hservice]
    have hcold : (fun w i => if cold w i then (w.examine i).settle else w) = State.examineWhole := by
      funext w i
      unfold State.examineWhole
      cases hx : w.record i with
      | none => simp [cold, hx]
      | some x => cases hc : x.tote.cls <;> simp [cold, hx, hc]
    have hu : u = t.applyConfig (configurationOf a) := by
      show allSlots.foldl (fun w i => if cold w i then (w.examine i).settle else w) (t.reconfigured k) = _
      rw [hcold, hk]
      rfl
    have hreach : Reach v u := by
      show Reach v (allSlots.foldl (fun w i => if cold w i then (w.examine i).settle else w) v)
      rw [hcold]
      exact Reach.foldl _ reach_examineWhole _ _
    have hbench : u.bench = if t.bench = .halted then .halted else .configured := by
      rw [hreach.bench, State.reconfigured_bench]
      cases hb' : t.bench <;> simp_all [BenchState.afterConfigure]
    refine ⟨?answered, State.reconfigured_config t k, ?config, hbench, fun i => ?record, fun c => ?reader,
      fun p => State.reconfigured_port t k p, fun st => State.reconfigured_station t k st, State.reconfigured_supply t k,
      State.reconfigured_notices t k⟩
    case answered =>
      have hact : cmdConfigure a t = u.reply .ok [u.bench.byte] := by
        unfold cmdConfigure
        rw [if_neg hb, configFirstBad_eq_none (hok ▸ hall), hu]
        rfl
      refine (exec_answers h hact).trans ?_
      rw [hbench]
      split <;> rfl
    case config => rw [hreach.config]; exact State.reconfigured_config t k
    case record =>
      rw [State.reconfigured_record]
      match t.record i with
      | none => rfl
      | some (.order _) => rfl
      | some (.source _) => rfl
    case reader => rw [State.reader_reconfigured]; rfl

end Sys2Proof.Machine

/-! ## Record commands

The refusals of the record commands in their order, and what SUBMIT_SOURCE, BIND_ORDER, AMEND_LINES, WITHDRAW and
CLOSE_ORDER do when they are taken (R11 to R21). Each look-up that a command makes is said first, in the words of the
statements. -/

namespace Sys2Proof.Machine

/-! ### Refusals in order -/

/-- A reply is the refusal of the first check that applies. -/
def RefusesInOrder (t : State) (checks : List (Status × Prop)) (reply : Reply) : Prop :=
  ∀ status, FirstRefusal checks status → reply = t.refuse status

theorem firstRefusal_cons {st status : Status} {P : Prop} {rest : List (Status × Prop)}
    (h : FirstRefusal ((st, P) :: rest) status) : (P ∧ status = st) ∨ (¬ P ∧ FirstRefusal rest status) := by
  obtain ⟨k, Q, hk, hq, hbefore⟩ := h
  cases k with
  | zero =>
    cases hk
    exact .inl ⟨hq, rfl⟩
  | succ k =>
    refine .inr ⟨hbefore 0 (Nat.succ_pos k) st P rfl, k, Q, hk, hq, fun j hj => ?_⟩
    exact hbefore (j + 1) (Nat.succ_lt_succ hj)

theorem RefusesInOrder.nil (t : State) (reply : Reply) : RefusesInOrder t [] reply :=
  fun _ ⟨_, _, hk, _⟩ => nomatch hk

theorem RefusesInOrder.cons {t : State} {st : Status} {P : Prop} {rest : List (Status × Prop)} {reply : Reply}
    (hp : P → reply = t.refuse st) (hn : ¬ P → RefusesInOrder t rest reply) : RefusesInOrder t ((st, P) :: rest) reply := by
  intro status h
  rcases firstRefusal_cons h with ⟨happlies, rfl⟩ | ⟨hnot, hrest⟩
  · exact hp happlies
  · exact hn hnot status hrest

theorem noRefusal_cons {st : Status} {P : Prop} {rest : List (Status × Prop)} :
    NoRefusal ((st, P) :: rest) ↔ ¬ P ∧ NoRefusal rest := List.forall_mem_cons

theorem State.whenConfigured_of_unconfigured {s : State} (h : s.bench = .unconfigured) (reply : Reply) :
    s.whenConfigured reply = s.refuse .notConfigured := if_pos h

theorem State.whenConfigured_of_ne {s : State} (h : s.bench ≠ .unconfigured) (reply : Reply) :
    s.whenConfigured reply = reply := if_neg h

/-! ### Classes, stations and positions (R186) -/

theorem classField_byte (c : ToteClass) : classField c.byte = some c := by cases c <;> rfl

theorem classField_some {b : Byte} {c : ToteClass} (h : classField b = some c) : c.byte = b := by
  unfold classField at h
  split at h
  · next e => cases h; exact e.symm
  · split at h
    · next e => cases h; exact e.symm
    · split at h
      · next e => cases h; exact e.symm
      · cases h

theorem classField_none_iff {b : Byte} : classField b = none ↔ 2 < b.toNat := by
  refine ⟨fun h => ?_, fun h => ?_⟩
  · unfold classField at h
    by_contra hn
    have : b = 0#8 ∨ b = 1#8 ∨ b = 2#8 := by
      simp only [← BitVec.toNat_inj, BitVec.toNat_ofNat]
      omega
    rcases this with rfl | rfl | rfl <;> exact absurd h (by decide)
  · cases hc : classField b with
    | none => rfl
    | some c =>
      rw [← classField_some hc] at h
      cases c <;> exact absurd h (by decide)

theorem stationField_some {b : Byte} {st : Station} (h : stationField b = some st) : stationByte st = b := by
  unfold stationField at h
  split at h
  · next e => cases h; exact e.symm
  · split at h
    · next e => cases h; exact e.symm
    · cases h

theorem stationField_none_iff {b : Byte} : stationField b = none ↔ 1 < b.toNat := by
  refine ⟨fun h => ?_, fun h => ?_⟩
  · unfold stationField at h
    by_contra hn
    have : b = 0#8 ∨ b = 1#8 := by
      simp only [← BitVec.toNat_inj, BitVec.toNat_ofNat]
      omega
    rcases this with rfl | rfl <;> exact absurd h (by decide)
  · cases hc : stationField b with
    | none => rfl
    | some st =>
      rw [← stationField_some hc] at h
      cases st <;> exact absurd h (by decide)

theorem positionField_eq {b : Byte} {u : Position} (h : u.val = b.toNat) : positionField b = some u := by
  unfold positionField
  rw [dif_pos (h ▸ u.isLt)]
  exact congrArg some (Fin.ext h.symm)

theorem positionField_eq_none {b : Byte} (h : 11 < b.toNat) : positionField b = none := dif_neg (by omega)

theorem recordCode_eq_false_iff {c : Code} : recordCode c = false ↔ c = 0#32 ∨ c = 0xFFFFFFFF#32 := by
  refine ⟨fun h => ?_, recordCode_eq_false⟩
  by_contra hn
  rw [recordCode_eq_true (fun e => hn (.inl e)) (fun e => hn (.inr e))] at h
  cases h

theorem portStation_iff (p : Port) (st : Station) : portStation p = st ↔ p.val / 2 = (stationByte st).toNat := by
  cases st <;> revert p <;> decide

theorem positionStation_iff (u : Position) (st : Station) : positionStation u = st ↔ u.val / 6 = (stationByte st).toNat := by
  cases st <;> revert u <;> decide

/-! ### Look-ups of the record table (R1, R3, R12, R32, R136) -/

theorem findCode_isSome_iff {s : State} {c : Code} :
    (s.findCode c).isSome = true ↔ ∃ i x, s.record i = some x ∧ x.tote.code = c := by
  refine ⟨fun h => ?_, fun ⟨i, x, hx, hc⟩ => ?_⟩
  · by_contra hn
    rw [findCode_none fun i x hx hc => hn ⟨i, x, hx, hc⟩] at h
    cases h
  · rw [Option.isSome_iff_ne_none]
    exact fun hn => code_ne_of_findCode_none hn hx hc

theorem orderAt_isSome_iff {s : State} {u : Position} :
    (s.orderAt u).isSome = true ↔ ∃ i o, s.order i = some o ∧ o.position = u := by
  refine ⟨fun h => ?_, fun ⟨i, o, ho, hp⟩ => ?_⟩
  · by_contra hn
    rw [orderAt_none fun i o ho hp => hn ⟨i, o, ho, hp⟩] at h
    cases h
  · rw [Option.isSome_iff_ne_none]
    exact fun hn => position_ne_of_orderAt_none hn ho hp

theorem exposureSpent_iff (s : State) (c : ToteClass) (exposure : BitVec 16) :
    s.exposureSpent c exposure.toNat = true ↔ Spent s.config c.byte exposure := by
  cases c <;> simp [State.exposureSpent, reaches, Configuration.budget, Spent, ToteClass.byte]

theorem warnedAtCreation_eq (k : Configuration) (c : ToteClass) (exposure : BitVec 16) :
    k.warnedAtCreation c exposure.toNat = warnedBy k c.byte exposure := by
  cases c <;> simp [Configuration.warnedAtCreation, Configuration.warnThreshold, reaches, Configuration.budget, warnedBy,
    ToteClass.byte]

theorem nextFree_eq_none_iff {s : State} : s.nextFree = none ↔ ∀ i, s.record i ≠ none := by
  unfold State.nextFree
  rw [List.find?_eq_none]
  refine ⟨fun h i hi => ?_, fun h j _ => by simpa using h j⟩
  refine h i (List.mem_map.mpr ⟨(i - s.allocPtr).val, List.mem_range.mpr (Fin.isLt _), ?_⟩) (by simp [hi])
  simp

/-- The slot a record is created in is the first FREE one from the allocation pointer (R1). -/
theorem nextFree_of_firstFree {s : State} {i : Slot} (h : FirstFree s i) : s.nextFree = some i := by
  obtain ⟨hfree, hfirst⟩ := h
  unfold State.nextFree
  rw [List.find?_eq_some_iff_getElem]
  refine ⟨by simp [hfree], (i - s.allocPtr).val, by simp, by simp, fun j hj => ?_⟩
  have hlt : j < 64 := by omega
  have hbefore : (s.allocPtr + Fin.ofNat 64 j) - s.allocPtr < i - s.allocPtr := by
    rw [add_sub_cancel_left, Fin.lt_def]
    simpa [Nat.mod_eq_of_lt hlt] using hj
  simpa [Option.isSome_iff_ne_none] using hfirst _ hbefore

theorem State.hasRoom_iff {s : State} {p : Port} : s.hasRoom p = true ↔ (s.port p).mode = .isOpen ∧ s.rosterSize p < 10 := by
  simp [State.hasRoom, Config.rosterLimit]

theorem stationPort_station (st : Station) (x : Side) : portStation (stationPort st x) = st := by cases st <;> cases x <;> rfl

theorem eq_stationPort {p : Port} {st : Station} (h : portStation p = st) :
    p = stationPort st .left ∨ p = stationPort st .right := by
  subst h
  revert p
  decide

theorem stationPort_left_lt (st : Station) : stationPort st .left < stationPort st .right := by cases st <;> decide

theorem State.someOpen_iff {s : State} {st : Station} :
    s.someOpen st = true ↔ ∃ p : Port, portStation p = st ∧ (s.port p).mode = .isOpen := by
  unfold State.someOpen
  rw [Bool.or_eq_true, decide_eq_true_eq, decide_eq_true_eq]
  refine ⟨?_, fun ⟨p, hp, ho⟩ => ?_⟩
  · rintro (h | h)
    · exact ⟨_, stationPort_station st .left, h⟩
    · exact ⟨_, stationPort_station st .right, h⟩
  · rcases eq_stationPort hp with rfl | rfl
    · exact .inl ho
    · exact .inr ho

theorem placement_none_iff {s : State} {st : Station} :
    s.placement st = none ↔ ∀ p : Port, portStation p = st → s.hasRoom p = false := by
  refine ⟨fun h p hp => ?_, fun h => ?_⟩
  · unfold State.placement at h
    dsimp only at h
    split at h
    · split at h <;> cases h
    · split at h
      · cases h
      · rcases eq_stationPort hp with rfl | rfl <;> exact Bool.eq_false_iff.mpr ‹_›
  · unfold State.placement
    simp [h _ (stationPort_station st .left), h _ (stationPort_station st .right)]

/-- The port a record is placed at has room, and precedes the station's other port that has (R32). -/
theorem placement_of_placed {s : State} {st : Station} {p : Port} (hst : portStation p = st) (hroom : s.hasRoom p = true)
    (hbest : ∀ q : Port, portStation q = st → s.hasRoom q = true →
      s.rosterSize p < s.rosterSize q ∨ (s.rosterSize p = s.rosterSize q ∧ p ≤ q)) : s.placement st = some p := by
  have hlt := stationPort_left_lt st
  unfold State.placement
  dsimp only
  rcases eq_stationPort hst with rfl | rfl
  · rw [if_pos hroom, if_neg]
    intro h
    rw [Bool.and_eq_true, decide_eq_true_eq] at h
    obtain ⟨hright, hless⟩ := h
    have := hbest _ (stationPort_station st .right) hright
    omega
  · rw [if_pos hroom]
    split
    · next hleft =>
      have := hbest _ (stationPort_station st .left) hleft
      rw [if_pos]
      rw [Bool.and_eq_true, decide_eq_true_eq]
      exact ⟨hroom, this.resolve_right fun ⟨_, hle⟩ => absurd hle (not_le_of_gt hlt)⟩
    · rfl

/-! ### Lines of a request (R13, R16) -/

theorem lineTarget_isNone_iff {s : State} {st : Station} {l : LineArg} : (s.lineTarget st l).isNone = true ↔
    ∀ i o, i.val = l.target.toNat → s.order i = some o →
      ¬ (o.position.val / 6 = (stationByte st).toNat ∧ o.state ≠ .expired) := by
  simp only [← positionStation_iff]
  unfold State.lineTarget
  by_cases hb : l.target.toNat < 64
  · rw [slotField_eq (i := ⟨l.target.toNat, hb⟩) rfl]
    have hslot : ∀ i : Slot, i.val = l.target.toNat ↔ i = ⟨l.target.toNat, hb⟩ :=
      fun i => ⟨fun h => Fin.ext h, fun h => congrArg Fin.val h⟩
    rw [forall_comm]
    simp only [hslot, forall_eq]
    cases s.order ⟨l.target.toNat, hb⟩ with
    | none => simp
    | some o =>
      by_cases ht : positionStation o.position = st ∧ o.state ≠ .expired
      · simp [ht]
      · simpa [if_neg ht] using ht
  · rw [slotField_eq_none (by omega)]
    simp only [Option.isNone_none, true_iff]
    intro i o hi
    have := i.isLt
    omega

/-- The rejection of a line, in the words of R13. -/
theorem lineRejected_iff {s : State} {st : Station} {taken : List Byte} {l : LineArg} :
    s.lineRejected st taken l = true ↔ LineBad s (stationByte st).toNat taken l := by
  unfold State.lineRejected LineBad
  rw [Bool.or_eq_true, Bool.or_eq_true, lineTarget_isNone_iff, within_eq, Bool.not_eq_true', decide_eq_false_iff_not,
    List.contains_iff_mem]
  have hq : ¬ (1 ≤ l.quantity.toNat ∧ l.quantity.toNat ≤ 99) ↔ l.quantity.toNat = 0 ∨ 99 < l.quantity.toNat := by omega
  rw [hq, or_assoc, or_assoc]

theorem rejections_getElem? (s : State) (st : Station) : ∀ (lines : List LineArg) (taken : List Byte) (k : Nat),
    (s.rejections st taken lines)[k]? =
      lines[k]?.map (s.lineRejected st (taken ++ (lines.take k).map LineArg.target))
  | [], _, _ => rfl
  | l :: rest, taken, 0 => by simp [State.rejections]
  | l :: rest, taken, k + 1 => by
    show (s.rejections st (taken ++ [l.target]) rest)[k]? = _
    rw [rejections_getElem? s st rest]
    simp

/-- The rejections of a list are the lines that fail validation. -/
theorem rejections_eq_true_iff {s : State} {st : Station} {taken : List Byte} {lines : List LineArg} {k : Nat} :
    (s.rejections st taken lines)[k]? = some true ↔ LineBadAt s (stationByte st).toNat taken lines k := by
  rw [rejections_getElem?, Option.map_eq_some_iff]
  exact exists_congr fun l => and_congr_right fun _ => lineRejected_iff

theorem rejections_contains_iff {s : State} {st : Station} {taken : List Byte} {lines : List LineArg} :
    (s.rejections st taken lines).contains true = true ↔ ∃ k, LineBadAt s (stationByte st).toNat taken lines k := by
  rw [List.contains_iff_mem, List.mem_iff_getElem?]
  exact exists_congr fun k => rejections_eq_true_iff

theorem rejectMask_getLsbD : ∀ (rejected : List Bool) (base k : Nat), k < 8 →
    ((rejectMask base rejected).getLsbD k = true ↔ ∃ m, k = base + m ∧ rejected[m]? = some true)
  | [], base, k, _ => by simp [rejectMask]
  | b :: rest, base, k, hk => by
    have hone : (if b = true then 1#8 <<< base else 0#8).getLsbD k = true ↔ b = true ∧ k = base := by
      cases b
      · simp
      · simp [BitVec.getLsbD_shiftLeft]
        omega
    unfold rejectMask
    rw [BitVec.getLsbD_or, Bool.or_eq_true, rejectMask_getLsbD rest (base + 1) k hk, hone]
    constructor
    · rintro (⟨rfl, rfl⟩ | ⟨m, rfl, hm⟩)
      · exact ⟨0, rfl, rfl⟩
      · exact ⟨m + 1, by omega, hm⟩
    · rintro ⟨m, rfl, hm⟩
      cases m with
      | zero => exact .inl ⟨Option.some.inj hm, rfl⟩
      | succ m => exact .inr ⟨m, by omega, hm⟩

theorem newLine_eq {s : State} {st : Station} {taken : List Byte} {l : LineArg}
    (h : ¬ LineBad s (stationByte st).toNat taken l) : s.newLine st l = some (lineGiven s l) := by
  have hnone : ¬ (s.lineTarget st l).isNone = true := fun hn => h (.inl (lineTarget_isNone_iff.mp hn))
  unfold State.newLine
  unfold State.lineTarget at hnone ⊢
  by_cases hb : l.target.toNat < 64
  · have hi : slotField l.target = some (Fin.ofNat 64 l.target.toNat) := slotField_eq (Nat.mod_eq_of_lt hb)
    unfold lineGiven
    generalize Fin.ofNat 64 l.target.toNat = i at hi ⊢
    simp only [hi] at hnone ⊢
    cases ho : s.order i with
    | none => simp only [ho, Option.isNone_none, not_true] at hnone
    | some o =>
      simp only [ho] at hnone ⊢
      split at hnone
      · next hp =>
        rw [if_pos hp]
        simp
      · cases hnone rfl
  · rw [slotField_eq_none (by omega)] at hnone
    cases hnone rfl

theorem newLines_eq {s : State} {st : Station} {taken : List Byte} {lines : List LineArg}
    (h : ∀ k, ¬ LineBadAt s (stationByte st).toNat taken lines k) :
    lines.filterMap (s.newLine st) = lines.map (lineGiven s) := by
  rw [← List.filterMap_eq_map]
  refine List.filterMap_congr fun l hl => ?_
  obtain ⟨k, hk⟩ := List.mem_iff_getElem?.mp hl
  exact newLine_eq fun hbad => h k ⟨l, hk, hbad⟩

/-! ### SUBMIT_SOURCE and BIND_ORDER (R12 to R15, R33) -/

theorem mode_of_noOpenPort {t : State} {st : Station} (h : t.someOpen st = false) (p : Port) (hp : portStation p = st) :
    (t.port p).mode ≠ .isOpen := fun ho => by
  rw [State.someOpen_iff.mpr ⟨p, hp, ho⟩] at h
  cases h

/-- The arguments of a SUBMIT_SOURCE that the second check passes. -/
theorem submitFields {code : Code} {cls station : Byte} {lines : List LineArg}
    (h : ¬ (code = 0#32 ∨ code = 0xFFFFFFFF#32 ∨ 2 < cls.toNat ∨ 1 < station.toNat ∨ lines.length = 0 ∨ 8 < lines.length)) :
    ∃ c st, classField cls = some c ∧ stationField station = some st ∧
      (recordCode code && within 1 Config.lineLimit lines.length) = true := by
  simp only [not_or] at h
  obtain ⟨hz, hs, hcls, hst, hlo, hhi⟩ := h
  obtain ⟨c, hc⟩ := Option.ne_none_iff_exists'.mp (fun e => hcls (classField_none_iff.mp e))
  obtain ⟨st, hstation⟩ := Option.ne_none_iff_exists'.mp (fun e => hst (stationField_none_iff.mp e))
  refine ⟨c, st, hc, hstation, ?_⟩
  rw [recordCode_eq_true hz hs, within_eq, Bool.true_and, decide_eq_true_eq]
  exact ⟨Nat.pos_of_ne_zero hlo, Nat.not_lt.mp hhi⟩

theorem submit_refuses (t : State) (code : Code) (cls : Byte) (exposure : BitVec 16) (station : Byte)
    (lines : List LineArg) : RefusesInOrder t (submitRefusals t code cls exposure station lines)
      (cmdSubmitSource code cls exposure station lines t) := by
  unfold cmdSubmitSource
  refine .cons (fun h => State.whenConfigured_of_unconfigured h _) fun hb => ?_
  rw [State.whenConfigured_of_ne hb]
  refine .cons (fun h => ?badArgument) fun h => ?_
  case badArgument =>
    cases hc : classField cls with
    | none => rfl
    | some c =>
      cases hst : stationField station with
      | none => rfl
      | some st =>
        refine if_neg fun hok => ?_
        rw [Bool.and_eq_true, within_eq, decide_eq_true_eq] at hok
        obtain ⟨hcode, hlo, hhi⟩ := hok
        rcases h with rfl | rfl | h | h | h | h
        · cases hcode
        · cases hcode
        · rw [classField_none_iff.mpr h] at hc
          cases hc
        · rw [stationField_none_iff.mpr h] at hst
          cases hst
        · omega
        · exact absurd hhi (Nat.not_le.mpr h)
  obtain ⟨c, st, hc, hst, hok⟩ := submitFields h
  have hstation : ∀ p : Port, p.val / 2 = station.toNat ↔ portStation p = st := fun p => by
    rw [portStation_iff, stationField_some hst]
  simp only [hc, hst, hok, if_true]
  unfold State.submitChecked
  refine .cons (fun h => if_pos (findCode_isSome_iff.mpr h)) fun hdup => ?_
  rw [if_neg (fun h => hdup (findCode_isSome_iff.mp h))]
  rw [← classField_some hc]
  refine .cons (fun h => if_pos ((exposureSpent_iff t c exposure).mpr h)) fun hspent => ?_
  rw [if_neg (fun h => hspent ((exposureSpent_iff t c exposure).mp h))]
  refine .cons (fun h => by rw [nextFree_eq_none_iff.mpr h]) fun hfull => ?_
  obtain ⟨i, hi⟩ := Option.ne_none_iff_exists'.mp (fun e => hfull (nextFree_eq_none_iff.mp e))
  simp only [hi, hstation]
  refine .cons (fun h => if_neg fun ho => ?closed) fun hopen => ?_
  case closed =>
    obtain ⟨p, hp, ho⟩ := State.someOpen_iff.mp ho
    exact h p hp ho
  rw [if_pos (by_contra fun hn => hopen (mode_of_noOpenPort (Bool.eq_false_iff.mpr hn)))]
  refine .cons (fun h => ?rosterFull) fun _ => .nil t _
  case rosterFull =>
    rw [placement_none_iff.mpr fun p hp => Bool.eq_false_iff.mpr fun hr => ?_]
    obtain ⟨ho, hsize⟩ := State.hasRoom_iff.mp hr
    exact absurd (h p hp ho) (Nat.not_le.mpr hsize)

/-- What is left of a SUBMIT_SOURCE that none of its first seven checks refuses: the lines' validation, then the record. -/
theorem submit_passes {t : State} {code : Code} {cls : Byte} {exposure : BitVec 16} {station : Byte} {lines : List LineArg}
    (h : NoRefusal (submitRefusals t code cls exposure station lines)) : ∃ c st i p,
      classField cls = some c ∧ stationField station = some st ∧ t.nextFree = some i ∧ t.placement st = some p ∧
      cmdSubmitSource code cls exposure station lines t =
        if (t.rejections st [] lines).contains true then t.reply .linesRejected [rejectMask 0 (t.rejections st [] lines)]
        else t.admitSource i p (t.newSource code c exposure.toNat st p lines) := by
  unfold submitRefusals at h
  simp only [noRefusal_cons] at h
  obtain ⟨hb, hargs, hdup, hspent, hfull, hclosed, hroster, _⟩ := h
  obtain ⟨c, st, hc, hst, hok⟩ := submitFields hargs
  obtain ⟨i, hi⟩ := Option.ne_none_iff_exists'.mp (fun e => hfull (nextFree_eq_none_iff.mp e))
  have hstation : ∀ p : Port, p.val / 2 = station.toNat ↔ portStation p = st := fun p => by
    rw [portStation_iff, stationField_some hst]
  simp only [hstation] at hclosed hroster
  have hopen : t.someOpen st = true := by_contra fun hn => hclosed (mode_of_noOpenPort (Bool.eq_false_iff.mpr hn))
  have hroom : t.placement st ≠ none := fun hn => hroster fun p hp ho => by
    have hnone := placement_none_iff.mp hn p hp
    by_contra hlt
    rw [State.hasRoom_iff.mpr ⟨ho, Nat.not_le.mp hlt⟩] at hnone
    cases hnone
  obtain ⟨p, hp⟩ := Option.ne_none_iff_exists'.mp hroom
  refine ⟨c, st, i, p, hc, hst, hi, hp, ?_⟩
  rw [← classField_some hc] at hspent
  unfold cmdSubmitSource
  rw [State.whenConfigured_of_ne hb]
  simp only [hc, hst, hok, if_true]
  unfold State.submitChecked
  rw [if_neg (fun h => hdup (findCode_isSome_iff.mp h)), if_neg (fun h => hspent ((exposureSpent_iff t c exposure).mp h))]
  simp only [hi, hopen, hp, if_true]

/-- Settles O19: the first check that applies refuses; the mask is that of the lines that fail validation. -/
theorem submitSourceIsRefusedInOrder : Obligations.SubmitSourceIsRefusedInOrder := by
  intro code cls exposure station lines s t h row
  refine ⟨fun status hr => ?refused, fun hr hbad => ?rejected⟩
  case refused => exact exec_answers h (submit_refuses t code cls exposure station lines status hr)
  case rejected =>
    obtain ⟨c, st, i, p, hc, hst, hi, hp, hact⟩ := submit_passes hr
    rw [← stationField_some hst] at hbad ⊢
    rw [if_pos (rejections_contains_iff.mpr hbad)] at hact
    refine ⟨_, exec_answers h hact, fun k hk => ?_⟩
    rw [rejectMask_getLsbD _ 0 k hk, ← rejections_eq_true_iff]
    simp

theorem insertAhead_eq (test : Slot → Bool) (i : Slot) (q : List Slot) :
    insertAhead test i q = q.takeWhile (fun j => !test j) ++ [i] ++ q.dropWhile (fun j => !test j) := by
  induction q with
  | nil => rfl
  | cons j rest ih =>
    unfold insertAhead
    cases hj : test j
    · simp [ih, hj]
    · simp [hj]

theorem insertAhead_congr {f g : Slot → Bool} {i : Slot} : ∀ {q : List Slot}, (∀ j ∈ q, f j = g j) →
    insertAhead f i q = insertAhead g i q
  | [], _ => rfl
  | j :: rest, h => by
    unfold insertAhead
    rw [h j List.mem_cons_self, insertAhead_congr fun k hk => h k (List.mem_cons_of_mem j hk)]

theorem State.isQueued_create_of_ne (s : State) {i j : Slot} (h : j ≠ i) (x : Record) :
    (s.create i x).isQueued j = s.isQueued j := by
  unfold State.isQueued State.source
  rw [State.record_create, if_neg (Ne.symm h)]

/-- Settles O20: the slot, the port, the record and its place in the queue view, each as the statement's words have it. -/
theorem submitSourceCreatesAQueuedRecord : Obligations.SubmitSourceCreatesAQueuedRecord := by
  intro code cls exposure station lines c i p s t h hr hgood hcls hfirst hplaced warned r q waits queue u
  obtain ⟨c', st, i', p', hc, hst, hi, hp, hact⟩ := submit_passes hr
  obtain ⟨hpst, hopen, hsize, hbest⟩ := hplaced
  subst hcls
  obtain rfl : c' = c := by
    rw [classField_byte] at hc
    exact (Option.some.inj hc).symm
  obtain rfl : i' = i := Option.some.inj (hi.symm.trans (nextFree_of_firstFree hfirst))
  have hstation : ∀ p : Port, p.val / 2 = station.toNat ↔ portStation p = st := fun p => by
    rw [portStation_iff, stationField_some hst]
  simp only [hstation] at hpst hbest
  obtain rfl : p' = p := Option.some.inj (hp.symm.trans (placement_of_placed hpst (State.hasRoom_iff.mpr ⟨hopen, hsize⟩)
    fun q hq hroom => hbest q hq (State.hasRoom_iff.mp hroom).1 (State.hasRoom_iff.mp hroom).2))
  rw [← stationField_some hst] at hgood
  rw [if_neg (fun hc => by obtain ⟨k, hk⟩ := rejections_contains_iff.mp hc; exact hgood k hk)] at hact
  have hsource : t.newSource code c' exposure.toNat st p' lines = r := by
    unfold State.newSource State.newTote
    rw [newLines_eq hgood, warnedAtCreation_eq]
  rw [hsource] at hact
  have hwaits : (fun j => !t.isQueued j) = waits := by
    funext j
    unfold State.isQueued
    cases hj : t.source j <;> simp [waits, hj]
  have hahead : insertAhead (t.create i' (.source r)).isQueued i' q = q.takeWhile waits ++ [i'] ++ q.dropWhile waits := by
    rw [← hwaits, ← insertAhead_eq]
    exact insertAhead_congr fun j hj => State.isQueued_create_of_ne t (of_decide_eq_true (List.mem_filter.mp hj).2) _
  have hqueued : (if warned = true then (t.create i' (.source r)).queueAhead p' i'
      else (t.create i' (.source r)).queueTail p' i') = u := by
    show _ = (t.create i' (.source r)).setPort p' { t.port p' with queue := queue }
    cases hw : warned
    · rw [show queue = q ++ [i'] from by simp [queue, hw]]
      rfl
    · rw [show queue = q.takeWhile waits ++ [i'] ++ q.dropWhile waits from by simp only [queue, hw, if_true], ← hahead]
      rfl
  have hplace : t.admitSource i' p' r = u.settle.reply .ok [slotByte i', portByte p', boolByte warned] := by
    rw [← hqueued]
    rfl
  exact exec_answers h (hact.trans hplace)

/-- The arguments of a BIND_ORDER that the second check passes. -/
theorem bindFields {code : Code} {cls position : Byte}
    (h : ¬ (code = 0#32 ∨ code = 0xFFFFFFFF#32 ∨ 2 < cls.toNat ∨ 11 < position.toNat)) :
    ∃ c, ∃ u : Position, classField cls = some c ∧ u.val = position.toNat ∧ recordCode code = true := by
  simp only [not_or] at h
  obtain ⟨hz, hs, hcls, hposition⟩ := h
  obtain ⟨c, hc⟩ := Option.ne_none_iff_exists'.mp (fun e => hcls (classField_none_iff.mp e))
  exact ⟨c, ⟨position.toNat, by omega⟩, hc, rfl, recordCode_eq_true hz hs⟩

theorem positionOccupied_iff {t : State} {u : Position} {n : Nat} (hu : u.val = n) :
    (t.orderAt u).isSome = true ↔ ∃ i o, t.order i = some o ∧ o.position.val = n := by
  subst hu
  simp only [orderAt_isSome_iff, Fin.ext_iff]

theorem bind_refuses (t : State) (code : Code) (cls : Byte) (exposure : BitVec 16) (position : Byte) :
    RefusesInOrder t (bindRefusals t code cls exposure position) (cmdBindOrder code cls exposure position t) := by
  unfold cmdBindOrder
  refine .cons (fun h => State.whenConfigured_of_unconfigured h _) fun hb => ?_
  rw [State.whenConfigured_of_ne hb]
  refine .cons (fun h => ?badArgument) fun h => ?_
  case badArgument =>
    cases hc : classField cls with
    | none => rfl
    | some c =>
      cases hu : positionField position with
      | none => rfl
      | some u =>
        refine if_neg fun hcode => ?_
        rcases h with rfl | rfl | h | h
        · cases hcode
        · cases hcode
        · rw [classField_none_iff.mpr h] at hc
          cases hc
        · rw [positionField_eq_none h] at hu
          cases hu
  obtain ⟨c, u, hc, hu, hcode⟩ := bindFields h
  simp only [hc, positionField_eq hu, hcode, if_true]
  unfold State.bindChecked
  refine .cons (fun h => if_pos (findCode_isSome_iff.mpr h)) fun hdup => ?_
  rw [if_neg (fun h => hdup (findCode_isSome_iff.mp h)), ← classField_some hc]
  refine .cons (fun h => if_pos ((exposureSpent_iff t c exposure).mpr h)) fun hspent => ?_
  rw [if_neg (fun h => hspent ((exposureSpent_iff t c exposure).mp h))]
  refine .cons (fun h => by rw [nextFree_eq_none_iff.mpr h]) fun hfull => ?_
  obtain ⟨i, hi⟩ := Option.ne_none_iff_exists'.mp (fun e => hfull (nextFree_eq_none_iff.mp e))
  simp only [hi]
  refine .cons (fun h => if_pos ((positionOccupied_iff hu).mpr h)) fun hfree => ?_
  rw [if_neg (fun h => hfree ((positionOccupied_iff hu).mp h))]
  refine .cons (fun h => if_neg ?absent) fun _ => .nil t _
  case absent =>
    rw [h u hu]
    exact Bool.false_ne_true

/-- Settles O21: the first check that applies refuses; otherwise the record is created in the first FREE slot. -/
theorem bindOrderCreatesABoundRecord : Obligations.BindOrderCreatesABoundRecord := by
  intro code cls exposure position s t h row warned
  refine ⟨fun status hr => ?refused, fun c u i hr hcls hu hfirst => ?created⟩
  case refused => exact exec_answers h (bind_refuses t code cls exposure position status hr)
  case created =>
    unfold bindRefusals at hr
    simp only [noRefusal_cons] at hr
    obtain ⟨hb, hargs, hdup, hspent, _, hfree, habsent, _⟩ := hr
    subst hcls
    have hpresent : t.presenceLevel u = true := by
      by_contra hn
      refine habsent fun v hv => ?_
      rw [Fin.ext (hv.trans hu.symm)]
      exact Bool.eq_false_iff.mpr hn
    have hcode : recordCode code = true := by
      obtain ⟨_, _, _, _, hcode⟩ := bindFields hargs
      exact hcode
    refine exec_answers h (?_ : cmdBindOrder code c.byte exposure position t = _)
    unfold cmdBindOrder
    rw [State.whenConfigured_of_ne hb]
    simp only [classField_byte, positionField_eq hu, hcode, if_true]
    unfold State.bindChecked
    rw [if_neg (fun h => hdup (findCode_isSome_iff.mp h)), if_neg (fun h => hspent ((exposureSpent_iff t c exposure).mp h))]
    simp only [nextFree_of_firstFree hfirst, if_neg (fun h => hfree ((positionOccupied_iff hu).mp h)), hpresent, if_true]
    unfold State.newOrder State.newTote
    rw [warnedAtCreation_eq]
    rfl

/-! ### Commands that name a record (R11) -/

theorem Line.pending_iff {l : Line} : l.pending = true ↔ l.state = .isOpen ∨ l.state = .blocked := by
  cases l with
  | mk target quantity state => cases state <;> simp [Line.pending]

theorem onSource_refuses (t : State) (slot : Byte) (act : Slot → Source → Reply) :
    RefusesInOrder t (slotRefusals t slot .source) (t.onSource slot act) := by
  unfold State.onSource
  refine .cons (fun h => State.whenConfigured_of_unconfigured h _) fun hb => ?_
  rw [State.whenConfigured_of_ne hb]
  refine .cons (fun h => by rw [slotField_eq_none h]) fun h => ?_
  obtain ⟨j, hj⟩ : ∃ j : Slot, j.val = slot.toNat := ⟨⟨slot.toNat, by omega⟩, rfl⟩
  simp only [slotField_eq hj]
  refine .cons (fun h => by rw [h j hj]) fun h => ?_
  refine .cons (fun ⟨i, x, hx, hr, hk⟩ => ?_) fun _ => .nil t _
  obtain rfl : i = j := Fin.ext (hx.trans hj.symm)
  rw [hr]
  cases x with
  | order o => rfl
  | source r => exact absurd rfl hk

theorem onSource_of_source {t : State} {slot : Byte} {i : Slot} {r : Source} (hb : t.bench ≠ .unconfigured)
    (hi : i.val = slot.toNat) (hr : t.source i = some r) (act : Slot → Source → Reply) : t.onSource slot act = act i r := by
  unfold State.onSource
  rw [State.whenConfigured_of_ne hb]
  simp only [slotField_eq hi, State.source_eq_some.mp hr]

/-! ### AMEND_LINES (R16, R17) -/

theorem Source.leavingNow_iff {r : Source} : r.leavingNow = true ↔
    r.state = .releasing ∨ r.state = .returning ∨ r.state = .recycling ∨ r.withdraw = true ∨ r.tote.expired = true := by
  simp [Source.leavingNow, Source.marked, or_assoc]

theorem cancelNames_eq_false_iff {lines : List Line} {k : Byte} :
    cancelNames lines k = false ↔ ∀ l, lines[k.toNat]? = some l → l.state ≠ .isOpen ∧ l.state ≠ .blocked := by
  unfold cancelNames
  cases lines[k.toNat]? with
  | none => simp
  | some l =>
    rw [Bool.eq_false_iff, Ne, Line.pending_iff]
    simp

theorem repeated_iff {ks : List Byte} : repeated ks = true ↔ ¬ ks.Nodup := by
  induction ks with
  | nil => simp [repeated]
  | cons k rest ih =>
    unfold repeated
    rw [Bool.or_eq_true, ih, List.contains_iff_mem, List.nodup_cons]
    tauto

theorem Source.amendBad_iff {r : Source} {cancels : List Byte} {adds : List LineArg} : r.amendBad cancels adds = true ↔
    (∃ k ∈ cancels, ∀ l, r.lines[k.toNat]? = some l → l.state ≠ .isOpen ∧ l.state ≠ .blocked) ∨ ¬ cancels.Nodup ∨
      8 < r.lines.length + adds.length := by
  unfold Source.amendBad
  rw [Bool.or_eq_true, Bool.or_eq_true, repeated_iff, decide_eq_true_eq, Bool.not_eq_true', List.all_eq_false, or_assoc]
  simp only [Bool.not_eq_true, cancelNames_eq_false_iff]

theorem Source.inWork_iff {r : Source} {cancels : List Byte} :
    r.inWork cancels = true ↔ r.state = .presented ∧ ∃ k ∈ cancels, r.current = some k.toNat := by
  unfold Source.inWork
  rw [Bool.and_eq_true, decide_eq_true_eq, List.any_eq_true]
  refine and_congr_right fun _ => exists_congr fun k => and_congr_right fun _ => ?_
  rw [decide_eq_true_eq]
  exact eq_comm

theorem amend_refuses (t : State) (i : Slot) (r : Source) (cancels : List Byte) (adds : List LineArg) :
    RefusesInOrder t (amendRefusals r cancels adds) (t.amendRecord i r cancels adds) := by
  unfold State.amendRecord
  refine .cons (fun h => if_pos (Source.leavingNow_iff.mpr h)) fun h => ?_
  rw [if_neg (fun hl => h (Source.leavingNow_iff.mp hl))]
  refine .cons (fun h => if_pos (Source.amendBad_iff.mpr h)) fun h => ?_
  rw [if_neg (fun hl => h (Source.amendBad_iff.mp hl))]
  exact .cons (fun h => if_pos (Source.inWork_iff.mpr h)) fun _ => .nil t _

/-- A line taken into CANCELLED. -/
def Line.cancelled (l : Line) : Line := { l with state := .cancelled }

theorem setLine_cancelled_getElem? {ls : List Line} {c : Nat}
    (h : ∀ l, ls[c]? = some l → l.pending = true ∨ l.state = .cancelled) (k : Nat) :
    (setLine ls c .cancelled)[k]? = ls[k]?.map (fun l => if c = k then l.cancelled else l) := by
  unfold setLine
  rw [List.getElem?_modify]
  cases hl : ls[k]? with
  | none => rfl
  | some l =>
    by_cases e : c = k
    · subst e
      rcases h l hl with hp | hp
      · simp [hp, Line.cancelled]
      · have : l.cancelled = l := by rw [Line.cancelled, ← hp]
        simp [this, Line.pending, hp]
    · simp [e]

/-- The lines after a cancel, by their indices: the named ones CANCELLED (R17). -/
theorem cancelNamed_getElem? (k : Nat) : ∀ (cancels : List Byte) (ls : List Line),
    (∀ c ∈ cancels, ∀ l, ls[c.toNat]? = some l → l.pending = true ∨ l.state = .cancelled) →
    (cancelNamed cancels ls)[k]? = ls[k]?.map (fun l => if ∃ c ∈ cancels, c.toNat = k then l.cancelled else l)
  | [], ls, _ => by simp [cancelNamed]
  | c :: rest, ls, h => by
    have hset := setLine_cancelled_getElem? (h c List.mem_cons_self)
    show (cancelNamed rest (setLine ls c.toNat .cancelled))[k]? = _
    rw [cancelNamed_getElem? k rest _ fun d hd l hl => ?_, hset, Option.map_map]
    · congr 1
      funext l
      by_cases hc : c.toNat = k
      · by_cases hr : ∃ c ∈ rest, c.toNat = k <;> simp [hc, hr, Line.cancelled]
      · simp [hc]
    · rw [hset, Option.map_eq_some_iff] at hl
      obtain ⟨m, hm, rfl⟩ := hl
      split
      · exact .inr rfl
      · exact h d (List.mem_cons_of_mem c hd) m hm

theorem cancelNamed_eq {cancels : List Byte} {ls : List Line} (hlen : ls.length ≤ 8)
    (h : ∀ c ∈ cancels, cancelNames ls c = true) :
    cancelNamed cancels ls = ls.mapIdx (fun k l => if byteOf k ∈ cancels then { l with state := .cancelled } else l) := by
  refine List.ext_getElem? fun k => ?_
  rw [cancelNamed_getElem? k cancels ls fun c hc l hl => .inl ?pending, List.getElem?_mapIdx]
  case pending =>
    have := h c hc
    unfold cancelNames at this
    rwa [hl] at this
  cases hk : ls[k]? with
  | none => rfl
  | some l =>
    have hlt : k < 256 := by
      have := (List.getElem?_eq_some_iff.mp hk).1
      omega
    have hmem : (∃ c ∈ cancels, c.toNat = k) ↔ byteOf k ∈ cancels := by
      constructor
      · rintro ⟨c, hc, rfl⟩
        rwa [byteOf_toNat]
      · exact fun hc => ⟨byteOf k, hc, Nat.mod_eq_of_lt hlt⟩
    simp only [hmem]
    rfl

/-- Settles O22: the slot's refusals, then the record's; then the added lines are validated beside what is kept. -/
theorem amendLinesIsAppliedWhole : Obligations.AmendLinesIsAppliedWhole := by
  intro slot cancels adds s t h row
  refine ⟨fun status hr => ?refused, fun i r hb hi hr => ?record⟩
  case refused => exact exec_answers h (onSource_refuses t slot _ status hr)
  case record =>
    intro station kept taken
    have hact : act (.amendLines slot cancels adds) t = t.amendRecord i r cancels adds := onSource_of_source hb hi hr _
    refine ⟨fun status hf => ?recordRefused, fun hn => ?passes⟩
    case recordRefused => exact exec_answers h (hact.trans (amend_refuses t i r cancels adds status hf))
    case passes =>
      unfold amendRefusals at hn
      simp only [noRefusal_cons] at hn
      obtain ⟨hleaving, hbad, hwork, _⟩ := hn
      have hstation : station = (stationByte (portStation r.port)).toNat := (portStation_iff r.port _).mp rfl
      have hkept : cancelNamed cancels r.lines = kept := by
        simp only [not_or, not_exists, not_and] at hbad
        obtain ⟨hnamed, _, hlen⟩ := hbad
        refine cancelNamed_eq (by omega) fun c hc => ?_
        by_contra hf
        exact hnamed c hc (cancelNames_eq_false_iff.mp (Bool.eq_false_iff.mpr hf))
      have hrecord : act (.amendLines slot cancels adds) t =
          if (t.rejections (portStation r.port) taken adds).contains true then
            t.reply .linesRejected [rejectMask r.lines.length (t.rejections (portStation r.port) taken adds)]
          else (t.putSource i { r with lines := kept ++ adds.filterMap (t.newLine (portStation r.port)) }).reply .ok
            [byteOf (kept ++ adds.filterMap (t.newLine (portStation r.port))).length] := by
        rw [hact]
        unfold State.amendRecord
        rw [if_neg (fun hl => hleaving (Source.leavingNow_iff.mp hl)), if_neg (fun hl => hbad (Source.amendBad_iff.mp hl)),
          if_neg (fun hl => hwork (Source.inWork_iff.mp hl)), hkept]
        rfl
      rw [hstation]
      refine ⟨fun hsome => ?rejected, fun hgood => ?applied⟩
      case rejected =>
        rw [if_pos (rejections_contains_iff.mpr hsome)] at hrecord
        refine ⟨_, exec_answers h hrecord, fun k hk => ?_⟩
        rw [rejectMask_getLsbD _ _ k hk]
        simp only [rejections_eq_true_iff]
      case applied =>
        rw [if_neg (fun hc => by obtain ⟨k, hk⟩ := rejections_contains_iff.mp hc; exact hgood k hk), newLines_eq hgood]
          at hrecord
        exact exec_answers h hrecord

/-! ### WITHDRAW (R18, R19) -/

theorem withdrawRecord_unmarked {t : State} {i : Slot} {r : Source} (hs : r.state ≠ .releasing ∧ r.state ≠ .returning)
    (hu : Unmarked r) : t.withdrawRecord i r = (t.withdrawByState i r).settle.reply r.withdrawStatus [] := by
  obtain ⟨hreleasing, hreturning⟩ := hs
  obtain ⟨hw, he⟩ := hu
  unfold State.withdrawRecord
  rw [if_neg (fun h => h.elim hreleasing hreturning), he, hw]
  rfl

theorem withdrawRecord_expired {t : State} {i : Slot} {r : Source} (hs : r.state ≠ .releasing ∧ r.state ≠ .returning)
    (he : r.tote.expired = true) :
    t.withdrawRecord i r = (t.withdrawExpired i r).settle.reply r.withdrawStatus [] := by
  obtain ⟨hreleasing, hreturning⟩ := hs
  unfold State.withdrawRecord
  rw [if_neg (fun h => h.elim hreleasing hreturning), if_pos he]

/-- A head that is READY under reason WITHDRAWN is passed at once (R111). -/
theorem passHead_withdrawn {s : State} {i : Slot} {r : Source} (hr : s.source i = some r) (hready : r.state = .ready)
    (hpass : r.passThrough = some .withdrawn) {p : Port} (hlane : (s.port p).lane.head? = some (.slot i)) :
    s.passHead p = s.openStop p := by
  obtain ⟨rest, hl⟩ := List.head?_eq_some_iff.mp hlane
  unfold State.passHead
  rw [hl]
  simp only [hr]
  exact if_pos ⟨hready, .inl hpass⟩

/-- Settles O23: the slot's refusals, then the record's state decides. -/
theorem withdrawActsByTheState : Obligations.WithdrawActsByTheState := by
  intro slot s t h
  refine ⟨fun status hr => ?refused, fun i r hb hi hr => ?record⟩
  case refused => exact exec_answers h (onSource_refuses t slot _ status hr)
  case record =>
    intro w taken
    have hact : act (.withdraw slot) t = t.withdrawRecord i r := onSource_of_source hb hi hr _
    have hw : r.withdrawn = w := by
      unfold Source.withdrawn Source.resolveLines
      rw [← resolved_eq]
    refine ⟨fun hs => ?leaving, fun hu => ?unmarked, fun hreleasing hreturning he hmark => ?marked, fun he => ?expired⟩
    case leaving => exact exec_answers h (hact.trans (if_pos hs))
    case unmarked =>
      have acts : ∀ {status : Status} {u : State}, r.state ≠ .releasing ∧ r.state ≠ .returning →
          r.withdrawStatus = status → t.withdrawByState i r = u → taken status u := fun hs hst hu' =>
        exec_answers h (hact.trans (by rw [withdrawRecord_unmarked hs hu, hst, hu']))
      refine ⟨?outside, ?called, fun hs => ?cancelling, fun hs => ?inbound, ?laned, fun hs hlane => ?ready,
        fun hs => ?presented, fun hs => ?recycling⟩
      case outside =>
        rintro (hs | hs) <;>
          exact acts (by simp [hs]) (by simp only [Source.withdrawStatus, hs])
            (by simp only [State.withdrawByState, hs, hw])
      case called =>
        rintro (hs | hs) <;>
          exact acts (by simp [hs]) (by simp only [Source.withdrawStatus, hs])
            (by simp only [State.withdrawByState, hs, hw])
      case laned =>
        rintro (hs | hs) <;>
          exact acts (by simp [hs]) (by simp only [Source.withdrawStatus, hs])
            (by simp only [State.withdrawByState, hs, hw])
      case ready =>
        refine acts (by simp [hs]) (by simp only [Source.withdrawStatus, hs]) ?_
        simp only [State.withdrawByState, hs, hw]
        exact passHead_withdrawn (State.source_putSource_self t i { w with passThrough := some .withdrawn }) hs rfl
          (by simpa using hlane)
      all_goals
        exact acts (by simp [hs]) (by simp only [Source.withdrawStatus, hs])
          (by simp only [State.withdrawByState, hs, hw])
    case marked =>
      refine exec_answers h (hact.trans ?_)
      unfold State.withdrawRecord
      rw [if_neg (fun hs => hs.elim hreleasing hreturning), he, hmark]
      rfl
    case expired =>
      have acts : ∀ {status : Status} {u : State}, r.state ≠ .releasing ∧ r.state ≠ .returning →
          r.withdrawStatus = status → t.withdrawExpired i r = u → taken status u := fun hs hst hu' =>
        exec_answers h (hact.trans (by rw [withdrawRecord_expired hs he, hst, hu']))
      refine ⟨?outside, fun hqueued hmissing hreleasing hreturning => ?inside⟩
      case outside =>
        rintro (hs | hs) <;>
          exact acts (by simp [hs]) (by simp only [Source.withdrawStatus, hs]) (by simp only [State.withdrawExpired, hs])
      case inside =>
        refine acts ⟨hreleasing, hreturning⟩ ?_ ?_
        · unfold Source.withdrawStatus
          split
          · exact absurd ‹_› hqueued
          · exact absurd ‹_› hmissing
          · rfl
        · unfold State.withdrawExpired
          split
          · exact absurd ‹_› hqueued
          · exact absurd ‹_› hmissing
          · rfl

/-! ### CLOSE_ORDER (R21) -/

/-- Settles O24: the refusals by slot, force and record; a close that is taken, written out; and what retiring an order is. -/
theorem closeOrderRetiresTheOrder : Obligations.CloseOrderRetiresTheOrder := by
  intro slot force s t h row
  have flag : ∀ {b : Byte}, (flagField b).isSome = true ↔ b.toNat ≤ 1 := fun {b} => by
    rw [flagField_isSome, decide_eq_true_eq]
  refine ⟨fun hb => ?unconfigured, fun hb hbad => ?badField, fun i hb hf hi => ?record⟩
  case unconfigured => exact exec_answers h (State.whenConfigured_of_unconfigured hb _)
  case badField =>
    refine exec_answers h (?_ : cmdCloseOrder slot force t = _)
    unfold cmdCloseOrder
    rw [State.whenConfigured_of_ne hb]
    rcases hbad with hbad | hbad
    · rw [slotField_eq_none hbad]
      rfl
    · have hnone : flagField force = none := by
        rw [← Option.not_isSome_iff_eq_none, flag]
        omega
      rw [hnone]
      cases slotField slot <;> rfl
  case record =>
    obtain ⟨forced, hforced⟩ := Option.isSome_iff_exists.mp (flag.mpr hf)
    have hforce : forced = decide (force = 1#8) := by rw [← flagField_getD, hforced]; rfl
    refine ⟨fun hr => ?noRecord, fun r hr => ?source, fun o ho => ?order⟩
    case noRecord =>
      refine exec_answers h (?_ : cmdCloseOrder slot force t = _)
      unfold cmdCloseOrder
      rw [State.whenConfigured_of_ne hb]
      simp only [slotField_eq hi, hforced, hr]
      rfl
    case source =>
      refine exec_answers h (?_ : cmdCloseOrder slot force t = _)
      unfold cmdCloseOrder
      rw [State.whenConfigured_of_ne hb]
      simp only [slotField_eq hi, hforced, State.source_eq_some.mp hr]
      rfl
    case order =>
      intro n orphaned
      have hact : act (.closeOrder slot force) t =
          if 0 < t.pendingCount i ∧ forced = false then t.refuse .linesPending else (t.closeRecord i).reply .ok [] := by
        show cmdCloseOrder slot force t = _
        unfold cmdCloseOrder
        rw [State.whenConfigured_of_ne hb]
        simp only [slotField_eq hi, hforced, State.order_eq_some.mp ho]
      refine ⟨fun hn hz => ?pending, fun hn => ?closed, fun u cause m hu => ?retire⟩
      case pending =>
        subst hz
        exact exec_answers h (hact.trans (if_pos ⟨hn, hforce⟩))
      case closed =>
        have hno : ¬ (0 < t.pendingCount i ∧ forced = false) := by
          rintro ⟨hpos, hfalse⟩
          rcases hn with hn | hn
          · exact absurd hn (Nat.ne_of_gt hpos)
          · rw [hforce, hn] at hfalse
            cases hfalse
        have hpending : (fun l : Line => decide (l.state = .isOpen ∨ l.state = .blocked)) = Line.pending := by
          funext l
          rw [Bool.eq_iff_iff, decide_eq_true_eq, Line.pending_iff]
        have hclose : t.closeRecord i = (orphaned.retireOrder i (if 0 < n then .closedForced else .closed) n).settle := by
          show _ = ((((t.moveLinesFor i (fun l => decide (l.state = .isOpen ∨ l.state = .blocked)) .orphaned).refreshLine
            .a).refreshLine .b).retireOrder i _ n).settle
          rw [hpending]
          rfl
        exact exec_answers h (hact.trans ((if_neg hno).trans (by rw [hclose])))
      case retire =>
        unfold State.retireOrder
        rw [hu]

end Sys2Proof.Machine

/-! ## Port commands, station commands and notices

OPEN_PORT, CLOSE_PORT, ACK_FAULT and RELEASE_SERVICE (R105, R146 to R150, R155), the station commands (R124 to R129), and
READ_NOTICES with the bytes of each notice (R181, R184, R189). -/

namespace Sys2Proof.Machine

/-! ### The end of a presentation leaves the ports -/

@[simp] theorem State.port_modifyStation (s : State) (st : Station) (f : StationRec → StationRec) (p : Port) :
    (s.modifyStation st f).port p = s.port p := State.port_setStation s st _ p

@[simp] theorem State.port_endPresentation (s : State) (st : Station) (p : Port) :
    (s.endPresentation st).port p = s.port p := by
  unfold State.endPresentation State.enterHeld
  split
  · rfl
  · dsimp only
    split <;> simp [port_modifySource]

@[simp] theorem State.port_endPresentationOf (s : State) (q : Port) (i : Slot) (p : Port) :
    (s.endPresentationOf q i).port p = s.port p := by
  unfold State.endPresentationOf
  split
  · exact State.port_endPresentation s _ p
  · rfl

/-! ### Port commands (R105, R146 to R150, R155) -/

theorem portCommand_unconfigured {t : State} (h : t.bench = .unconfigured) (port : Byte) (act : Port → Reply) :
    t.portCommand port act = t.refuse .notConfigured := State.whenConfigured_of_unconfigured h _

theorem portCommand_noPort {t : State} (hb : t.bench ≠ .unconfigured) {port : Byte} (h : 3 < port.toNat)
    (act : Port → Reply) : t.portCommand port act = t.refuse .badArgument := by
  unfold State.portCommand
  rw [State.whenConfigured_of_ne hb, portField_eq_none h]

theorem portCommand_eq {t : State} (hb : t.bench ≠ .unconfigured) {port : Byte} {p : Port} (h : p.val = port.toNat)
    (act : Port → Reply) : t.portCommand port act = act p := by
  unfold State.portCommand
  rw [State.whenConfigured_of_ne hb, portField_eq h]

theorem currentDeferred_eq (r : Source) : currentDeferred r = r.deferCurrent := by
  unfold currentDeferred Source.deferCurrent
  by_cases hp : r.passThrough = some .expired
  · rw [if_pos hp, hp]
    cases hk : r.current with
    | none => exact (List.mapIdx_eq_iff.mpr fun k => by simp)
    | some n =>
      refine List.ext_getElem? fun k => ?_
      unfold setLine
      rw [List.getElem?_mapIdx, List.getElem?_modify]
      cases r.lines[k]? with
      | none => rfl
      | some l =>
        by_cases e : n = k
        · simp [e, Line.pending_iff]
        · simp [e, Ne.symm e]
  · rw [if_neg hp]
    split
    · exact absurd ‹_› hp
    · rfl

theorem restartChain_verified {s : State} {p : Port} {i : Slot} {r : Source} (hv : (s.port p).stop = .verified)
    (hl : (s.port p).lane.head? = some (.slot i)) (hr : s.source i = some r) : s.restartChain p =
      (((s.setPort p { s.port p with stop := .reading .first, readPulses := (s.port p).readPulses + 1 }).putSource i
        { r with state := .atStop, current := none, lines := currentDeferred r }).endPresentationOf p i) := by
  obtain ⟨rest, hlane⟩ := List.head?_eq_some_iff.mp hl
  unfold State.restartChain
  rw [if_pos hv, hlane]
  simp only [hr, currentDeferred_eq]
  rfl

/-- What OPEN_PORT and CLOSE_PORT answer after an event that leaves the port OPEN. -/
theorem replyPort_open {s : State} {p : Port} (h : (s.port p).mode = .isOpen) :
    s.settle.replyPort p = s.settle.reply .ok [1#8] := by
  unfold State.replyPort
  rw [settle_mode (by simp [h]), h]
  rfl

/-- Settles O25: each command by the state of its port. -/
theorem portsOpenAndClose : Obligations.PortsOpenAndClose := by
  intro port s t opens closes
  refine ⟨fun hb => ?unconfigured, fun hb hp => ?noPort, fun p hb hp => ?port⟩
  case unconfigured =>
    exact ⟨fun h => exec_answers h (portCommand_unconfigured hb port _),
      fun h => exec_answers h (portCommand_unconfigured hb port _)⟩
  case noPort =>
    exact ⟨fun h => exec_answers h (portCommand_noPort hb hp _), fun h => exec_answers h (portCommand_noPort hb hp _)⟩
  case port =>
    intro opened reading closing
    have opensBy : ∀ {u : State} {status : Status} {result : List Byte}, t.openPort p = u.reply status result →
        opens u status result := fun e h => exec_answers h ((portCommand_eq hb hp _).trans e)
    have closesBy : ∀ {u : State} {status : Status} {result : List Byte}, t.closePort p = u.reply status result →
        closes u status result := fun e h => exec_answers h ((portCommand_eq hb hp _).trans e)
    refine ⟨fun hm => ⟨opensBy ?openOpen, closesBy ?closeOpen⟩, fun hm => closesBy ?closeOther,
      fun hm => opensBy ?openFaulted, fun hm => ⟨fun hv => opensBy ?opened, fun i r hv hl hr => opensBy ?restarted⟩⟩
    case openOpen =>
      unfold State.openPort State.replyPort
      rw [hm]
      rfl
    case closeOpen =>
      unfold State.closePort State.replyPort
      rw [hm]
      rfl
    case closeOther =>
      unfold State.closePort
      split
      · exact absurd ‹_› hm
      all_goals rfl
    case openFaulted =>
      unfold State.openPort
      rw [hm]
      rfl
    case opened =>
      have hsame : (t.setMode p .isOpen).restartChain p = opened := by
        unfold State.restartChain
        rw [if_neg (by simpa [State.setMode] using hv)]
        rfl
      have hreply : ((t.setMode p .isOpen).restartChain p).settle.replyPort p = opened.settle.reply .ok [1#8] := by
        rw [hsame]
        exact replyPort_open (by simp [opened])
      unfold State.openPort
      rcases hm with hm | hm <;> rw [hm] <;> exact hreply
    case restarted =>
      have hchain := restartChain_verified (s := t.setMode p .isOpen) (p := p) (i := i) (r := r)
        (by simpa [State.setMode] using hv) (by simpa [State.setMode] using hl) hr
      have hset : (t.setMode p .isOpen).setPort p { (t.setMode p .isOpen).port p with
          stop := .reading .first, readPulses := ((t.setMode p .isOpen).port p).readPulses + 1 } = reading := by
        simp [State.setMode, State.modifyPort, reading]
      rw [hset] at hchain
      have hreply : ((t.setMode p .isOpen).restartChain p).settle.replyPort p = ((reading.putSource i { r with
          state := .atStop, current := none, lines := currentDeferred r }).endPresentationOf p i).settle.reply .ok [1#8] := by
        rw [hchain]
        exact replyPort_open (by simp [reading])
      unfold State.openPort
      rcases hm with hm | hm <;> rw [hm] <;> exact hreply

/-- Settles O26: by the local-control line and the state of the port. -/
theorem ackFaultClosesThePort : Obligations.AckFaultClosesThePort := by
  intro port s t h
  refine ⟨fun hb => ?unconfigured, fun hb hp => ?noPort, fun p hb hp => ?port⟩
  case unconfigured => exact exec_answers h (portCommand_unconfigured hb port _)
  case noPort => exact exec_answers h (portCommand_noPort hb hp _)
  case port =>
    refine ⟨fun hl => ?localControl, fun hl hm => ?notFaulted, fun hl hm => ?closed⟩
    case localControl => exact exec_answers h ((portCommand_eq hb hp _).trans (if_pos hl))
    case notFaulted =>
      refine exec_answers h ((portCommand_eq hb hp _).trans ?_)
      unfold State.ackFault
      rw [hl, if_neg hm]
      rfl
    case closed =>
      refine exec_answers h ((portCommand_eq hb hp _).trans ?_)
      unfold State.ackFault State.replyPort
      rw [hl, if_pos hm, State.port_modifyPort_self]
      rfl

/-- Settles O27: a stop that is HOLDING has a FOREIGN head, which opening it leaves to its exit. -/
theorem releaseServiceOpensTheStop : Obligations.ReleaseServiceOpensTheStop := by
  intro port s t h
  refine ⟨fun hp => ?noPort, fun p hp => ⟨fun hs => ?notHolding, fun reason c hs hl => ?opened⟩⟩
  case noPort =>
    refine exec_answers h (?_ : cmdReleaseService port t = _)
    unfold cmdReleaseService
    rw [portField_eq_none hp]
    rfl
  case notHolding =>
    refine exec_answers h (?_ : cmdReleaseService port t = _)
    unfold cmdReleaseService
    rw [portField_eq hp]
    exact if_neg hs
  case opened =>
    obtain ⟨rest, hlane⟩ := List.head?_eq_some_iff.mp hl
    have hopen : t.openStop p = t.setPort p { t.port p with stop := .openSeated, exitWindow := some 50 } := by
      unfold State.openStop
      rw [hlane]
      rfl
    refine exec_answers h (?_ : cmdReleaseService port t = _)
    unfold cmdReleaseService
    rw [portField_eq hp, ← hopen]
    exact if_pos hs

/-! ### Station commands (R124, R125, R127, R128) -/

theorem stationField_byte (st : Station) : stationField (stationByte st) = some st := by cases st <;> rfl

theorem stationCommand_noStation {t : State} {station : Byte} (h : 1 < station.toNat) (act : State → Station → State) :
    t.stationCommand station act = t.refuse .badArgument := by
  unfold State.stationCommand
  rw [stationField_none_iff.mpr h]

theorem stationCommand_eq {t u : State} {st : Station} {act : State → Station → State} (h : act t st = u) :
    t.stationCommand (stationByte st) act = u.settle.reply .ok [(u.settle.station st).hold.byte] := by
  unfold State.stationCommand
  rw [stationField_byte, ← h]

@[simp] theorem State.pauseSwitch_setStation (s : State) (st z : Station) (r : StationRec) :
    (s.setStation st r).pauseSwitch z = s.pauseSwitch z := by cases st <;> cases z <;> rfl

theorem holdSet_rests {s : State} {st : Station} (h : (s.station st).hold ≠ .running) : s.holdSet st = s := by
  unfold State.holdSet
  split
  · exact absurd ‹_› h
  all_goals rfl

theorem holdClear_rests {s : State} {st : Station} (h : (s.station st).hold ≠ .holdPending) : s.holdClear st = s := by
  unfold State.holdClear
  split
  · exact absurd ‹_› h
  all_goals rfl

/-- A command flag's new value is followed where the pause switch is off (R124). -/
theorem setCommandFlag_eq (t : State) (st : Station) (flag : Bool) : t.setCommandFlag st flag =
    let set := t.setStation st { t.station st with commandFlag := flag }
    if t.pauseSwitch st = true ∨ (t.station st).commandFlag = flag then set
    else if flag then set.holdSet st else set.holdClear st := by
  unfold State.setCommandFlag State.followRequest State.holdRequest State.modifyStation
  rw [State.station_setStation_self, State.pauseSwitch_setStation]
  cases t.pauseSwitch st <;> cases (t.station st).commandFlag <;> cases flag <;> rfl

/-- Settles O28: the flag's new value is set, then followed; a resume by the hold status and the request. -/
theorem stationCommandsMoveTheHold : Obligations.StationCommandsMoveTheHold := by
  refine ⟨?flags, fun station s t h => ⟨fun hs => ?noResume, fun st hst => ?resume⟩⟩
  case flags =>
    intro station flag s t row h
    have hrow : row = requestRow (if flag then .holdStation station else .releaseHold station) := by cases flag <;> rfl
    have hact : act (if flag then .holdStation station else .releaseHold station) t =
        t.stationCommand station (fun t st => t.setCommandFlag st flag) := by cases flag <;> rfl
    rw [hrow]
    refine ⟨fun hs => exec_answers h (hact.trans (stationCommand_noStation hs _)), fun st hst => ?_⟩
    intro r answers set
    subst hst
    have acts : ∀ {u : State}, t.setCommandFlag st flag = u → answers u := fun e => by
      exact exec_answers h (hact.trans (stationCommand_eq e))
    have hset : t.setStation st { t.station st with commandFlag := flag } = set r.hold r.holdMode := rfl
    refine ⟨fun hf hc hp hh hn => acts ?held, fun hf hc hp hh hn => acts ?pending, fun hf hc hp hh => acts ?cleared,
      fun hrest => acts ?rests⟩
    case held =>
      rw [setCommandFlag_eq, if_neg (by simp [hp, show (t.station st).commandFlag = _ from hc, hf]), if_pos hf]
      unfold State.holdSet State.enterHeld State.modifyStation
      simp only [State.station_setStation_self, show (t.station st).hold = .running from hh,
        if_pos (show (t.station st).presentation = none from hn), State.setStation_setStation]
      rfl
    case pending =>
      rw [setCommandFlag_eq, if_neg (by simp [hp, show (t.station st).commandFlag = _ from hc, hf]), if_pos hf]
      unfold State.holdSet State.modifyStation
      simp only [State.station_setStation_self, show (t.station st).hold = .running from hh,
        if_neg (show ¬ (t.station st).presentation = none from hn), State.setStation_setStation]
      rfl
    case cleared =>
      rw [setCommandFlag_eq, if_neg (by simp [hp, show (t.station st).commandFlag = _ from hc, hf]), if_neg (by simp [hf])]
      unfold State.holdClear State.enterRunning State.modifyStation
      simp only [State.station_setStation_self, show (t.station st).hold = .holdPending from hh,
        State.setStation_setStation]
      rfl
    case rests =>
      rw [setCommandFlag_eq, ← hset]
      dsimp only
      split
      · rfl
      · next hno =>
        obtain ⟨hp, hc⟩ := not_or.mp hno
        split
        · next hf =>
          refine holdSet_rests ?_
          rw [State.station_setStation_self]
          rcases hrest with h | h | h | ⟨u, h⟩ | ⟨_, h⟩ | ⟨h, _⟩
          · exact absurd h hc
          · exact absurd h hp
          · exact fun e => nomatch h.symm.trans e
          · exact fun e => nomatch h.symm.trans e
          · exact fun e => nomatch h.symm.trans e
          · rw [h] at hf; cases hf
        · next hf =>
          refine holdClear_rests ?_
          rw [State.station_setStation_self]
          rcases hrest with h | h | h | ⟨u, h⟩ | ⟨h, _⟩ | ⟨_, h⟩
          · exact absurd h hc
          · exact absurd h hp
          · exact fun e => nomatch h.symm.trans e
          · exact fun e => nomatch h.symm.trans e
          · exact absurd h hf
          · exact fun e => nomatch h.symm.trans e
  case noResume => exact exec_answers h (stationCommand_noStation hs _)
  case resume =>
    intro r request answers
    subst hst
    have acts : ∀ {u : State}, t.resume st = u → answers u := fun e => exec_answers h (stationCommand_eq e)
    refine ⟨fun hh hr => acts ?step, fun hh hr => acts ?running, fun hh => acts ?rests⟩
    case step =>
      unfold State.resume
      rw [show (t.station st).hold = .held from hh]
      exact if_pos hr
    case running =>
      unfold State.resume
      rw [show (t.station st).hold = .held from hh]
      exact if_neg (by rw [show t.holdRequest st = false from hr]; exact Bool.false_ne_true)
    case rests =>
      unfold State.resume
      split
      · exact absurd ‹_› hh
      all_goals rfl

/-! ### READ_NOTICES (R181, R184, R189) -/

/-- Settles O30: the queue's oldest part, and each notice's bytes as `Notice.bytes` lays them. -/
theorem readNoticesTakesTheOldest : Obligations.ReadNoticesTakesTheOldest := by
  refine ⟨fun most s t h => ⟨fun hm => ?refused, fun hlo hhi => ?taken⟩, ?bytes⟩
  case refused =>
    refine exec_answers h (?_ : cmdReadNotices most t = _)
    unfold cmdReadNotices
    rw [within_eq, if_neg (by rw [decide_eq_true_eq]; omega)]
    rfl
  case taken =>
    intro n
    refine ⟨exec_answers h (?_ : cmdReadNotices most t = _), ?attn⟩
    · unfold cmdReadNotices
      rw [within_eq, if_pos (decide_eq_true ⟨hlo, hhi⟩)]
      have htake : t.notices.take most.toNat = t.notices.take n :=
        List.take_eq_take_iff.mpr (by omega)
      have hdrop : t.notices.drop most.toNat = t.notices.drop n := by
        rcases Nat.le_total most.toNat t.notices.length with hle | hle
        · rw [show n = most.toNat from Nat.min_eq_left hle]
        · rw [show n = t.notices.length from Nat.min_eq_right hle, List.drop_of_length_le hle, List.drop_length]
      have hn : (t.notices.take n).length = n := by
        rw [List.length_take]
        omega
      dsimp only
      rw [htake, hdrop, hn, List.length_drop]
    case attn =>
      unfold State.attn
      simp [List.drop_eq_nil_iff]
  case bytes =>
    intro two laid absent none_ atPort atStation atPosition half cls retire fault lost heldBy i c p q u st n m k
    have hport : (stationByte (portStation p)).toNat = half p.val 2 := by
      show _ = if p.val < 2 then 0 else 1
      revert p
      decide
    have hposition : (stationByte (positionStation u)).toNat = half u.val 6 := by
      show _ = if u.val < 6 then 0 else 1
      revert u
      decide
    have hstation : stationLocation st = atStation st := by cases st <;> rfl
    have hcls : ∀ cl : ToteClass, cl.byte.toNat = cls cl := fun cl => by cases cl <;> rfl
    have hretire : ∀ cause : RetireCause, byteOf cause.byte.toNat = retire cause := fun cause => by cases cause <;> rfl
    have hfault : ∀ cause : FaultCause, cause.byte.toNat = fault cause := fun cause => by cases cause <;> rfl
    have hlost : ∀ detail : LostDetail, byteOf detail.number = lost detail := fun detail => by cases detail <;> rfl
    have hheld : ∀ detail : HeldDetail, byteOf detail.number = heldBy detail := fun detail => by cases detail <;> rfl
    refine ⟨?retiredSource, ?retiredOrder, ?warned, ?expiry, ?exhausted, rfl, rfl, rfl, ?stray, ?presentLost, rfl, rfl,
      rfl, rfl, rfl, rfl, rfl, ?wrongPut, ?wrongPutNone, ?portFault, rfl, ?stationHeld, ?unattended, ?reader⟩
    case retiredSource => intro cause outcomes; rw [← hretire, ← hport]; rfl
    case retiredOrder => intro cause; rw [← hretire, ← hposition]; rfl
    case warned => intro cl; rw [← hcls]; exact ⟨rfl, rfl⟩
    case expiry => intro cl state; rw [← hcls, ← byteOf_toNat state.byte]; exact ⟨rfl, rfl⟩
    case exhausted => intro final; cases final <;> rfl
    case stray => intro atStop; cases atStop <;> exact ⟨rfl, rfl, rfl, rfl⟩
    case presentLost => intro detail; rw [← hlost]; rfl
    case wrongPut => rw [← hstation]; rfl
    case wrongPutNone => rw [← hstation]; rfl
    case portFault => intro raised kept; rw [← hfault, ← hfault]; rfl
    case stationHeld => intro detail; rw [← hheld, ← hstation]; rfl
    case unattended => rw [← hstation]; rfl
    case reader => intro channel; cases channel <;> exact ⟨rfl, rfl⟩

end Sys2Proof.Machine

/-! ## The supply link

What a message of the dispatcher does to the record it names, the answer windows, and the ways a tote leaves (R25, R26,
R50 to R69). What a CANCEL and the end of a call do to a record is said once, first. -/

namespace Sys2Proof.Machine

/-! ### A CANCEL sent or held, and the end of a call (R53, R58, R62, R63) -/

theorem marked_of_not_unmarked {r : Source} (h : ¬ Unmarked r) : r.marked = true := by
  rw [unmarked_iff, Bool.not_eq_false] at h
  exact h

theorem sendCancel_putSource_ready {s : State} (h : s.inputs.supplyReady = true) (i : Slot) (r : Source) :
    (s.putSource i r).sendCancel i =
      (s.putSource i { r with answerWindow := some s.config.answerWindow, cancelHeld := false }).transmit
        (.cancel (r.tag i)) := by
  unfold State.sendCancel
  simp only [State.source_putSource_self, State.inputs_putSource, h, if_true, State.putSource_putSource,
    State.config_putSource]

theorem sendCancel_putSource_held {s : State} (h : s.inputs.supplyReady = false) (i : Slot) (r : Source) :
    (s.putSource i r).sendCancel i = s.putSource i { r with answerWindow := none, cancelHeld := true } := by
  unfold State.sendCancel
  simp only [State.source_putSource_self, State.inputs_putSource, h, Bool.false_eq_true, if_false,
    State.putSource_putSource]

theorem failedCallCause_withdrawn {r : Source} (h : r.withdraw = true) : r.failedCallCause = some .withdrawn := if_pos h

theorem failedCallCause_expired {r : Source} (hw : r.withdraw = false) (he : r.tote.expired = true) :
    r.failedCallCause = some .expired := by
  simp [Source.failedCallCause, hw, he]

theorem failedCallCause_callFailed {r : Source} (hu : Unmarked r) (h : 2 ≤ r.callAttempts) :
    r.failedCallCause = some .callFailed := by
  simp [Source.failedCallCause, hu.1, hu.2, Config.callAttemptLimit, h]

theorem failedCallCause_none {r : Source} (hu : Unmarked r) (h : r.callAttempts < 2) : r.failedCallCause = none := by
  simp [Source.failedCallCause, hu.1, hu.2, Config.callAttemptLimit]
  omega

theorem endFailedCall_retires {r : Source} {cause : RetireCause} (h : r.failedCallCause = some cause) (s : State) (i : Slot) :
    s.endFailedCall i r = s.retireSource i cause := by
  unfold State.endFailedCall
  rw [h]

theorem endFailedCall_calls_again {r : Source} (hu : Unmarked r) (h : r.callAttempts < 2) (s : State) (i : Slot) :
    s.endFailedCall i r = s.callAgain i r := by
  unfold State.endFailedCall
  rw [failedCallCause_none hu h]
  rfl

/-! ### Messages (R57 to R64, R68, R69) -/

theorem exec_accepted {s : State} (hl : s.resetHeld = false) {tag : Byte} {i : Slot} {r : Source}
    (hs : s.source i = some r) (hn : Names tag i r) (hc : r.state = .calling) :
    exec (.accepted tag) s = .next (s.betweenFrames.acceptCall i r).settle :=
  congrArg Host.Outcome.next (message_fits hl hs hn State.acceptCall (fits := Source.fitsAnswer) (decide_eq_true hc))

theorem exec_refused {s : State} (hl : s.resetHeld = false) {tag : Byte} {i : Slot} {r : Source}
    (hs : s.source i = some r) (hn : Names tag i r) (hc : r.state = .calling) (reason : RefuseReason) :
    exec (.refused tag reason) s = .next (s.betweenFrames.refuseCall i r reason).settle :=
  congrArg Host.Outcome.next
    (message_fits hl hs hn (fun t i r => t.refuseCall i r reason) (fits := Source.fitsAnswer) (decide_eq_true hc))

theorem exec_released {s : State} (hl : s.resetHeld = false) {tag : Byte} {i : Slot} {r : Source}
    (hs : s.source i = some r) (hn : Names tag i r) (hc : r.state = .calling ∨ r.state = .called) :
    exec (.released tag) s = .next (s.betweenFrames.takeRelease i r).settle :=
  congrArg Host.Outcome.next
    (message_fits hl hs hn State.takeRelease (fits := Source.fitsReleased) (by simpa [Source.fitsReleased] using hc))

theorem exec_cancelResult {s : State} (hl : s.resetHeld = false) {tag : Byte} {i : Slot} {r : Source}
    (hs : s.source i = some r) (hn : Names tag i r) (hc : r.state = .cancelling) (hh : r.cancelHeld = false)
    (outcome : CancelOutcome) :
    exec (.cancelResult tag outcome) s = .next (s.betweenFrames.resolveCancel i r outcome).settle :=
  congrArg Host.Outcome.next (message_fits hl hs hn (fun t i r => t.resolveCancel i r outcome)
    (fits := Source.fitsCancelResult) (by simp [Source.fitsCancelResult, hc, hh]))

theorem exec_taken {s : State} (hl : s.resetHeld = false) {tag : Byte} {i : Slot} {r : Source}
    (hs : s.source i = some r) (hn : Names tag i r) (hc : r.state = .returning ∨ r.state = .recycling) :
    exec (.taken tag) s = .next (s.betweenFrames.takeHome i r).settle :=
  congrArg Host.Outcome.next
    (message_fits hl hs hn State.takeHome (fits := Source.fitsTaken) (by simpa [Source.fitsTaken] using hc))

/-- Settles O31: ACCEPTED by the marks, REFUSED by the marks, the reason and the attempts. -/
theorem callAnswersEndTheCall : Obligations.CallAnswersEndTheCall := by
  intro tag i r s hl hs hn hc t w
  have accepted : ∀ {u : State}, t.acceptCall i r = u → exec (.accepted tag) s = .next u.settle := fun e => by
    rw [exec_accepted hl hs hn hc]
    exact congrArg (fun u : State => Host.Outcome.next u.settle) e
  have cancelled : ¬ Unmarked r → t.acceptCall i r = (t.putSource i { w with answerWindow := none }).sendCancel i :=
    fun hm => if_pos (marked_of_not_unmarked hm)
  refine ⟨fun hu => accepted ?called, fun hm hr => accepted ?sent, fun hm hr => accepted ?held, fun reason => ?refused⟩
  case called => exact if_neg (by rw [unmarked_iff.mp hu]; exact Bool.false_ne_true)
  case sent =>
    rw [cancelled hm, sendCancel_putSource_ready (s := t) hr, hn]
    rfl
  case held => exact (cancelled hm).trans (sendCancel_putSource_held (s := t) hr i _)
  case refused =>
    have refused : ∀ {u : State}, t.refuseCall i r reason = u → exec (.refused tag reason) s = .next u.settle := fun e => by
      rw [exec_refused hl hs hn hc]
      exact congrArg (fun u : State => Host.Outcome.next u.settle) e
    refine ⟨fun hw => refused ?withdrawn, fun hw he => refused ?expiry, fun hu hf => refused ?callFailed,
      fun hu hk ha => refused ?again⟩
    case withdrawn =>
      cases reason with
      | unknownTote => simp [State.refuseCall, hw]
      | _ => exact endFailedCall_retires (failedCallCause_withdrawn hw) t i
    case expiry =>
      cases reason with
      | unknownTote => simp [State.refuseCall, hw, he]
      | _ => exact endFailedCall_retires (failedCallCause_expired hw he) t i
    case callFailed =>
      cases reason with
      | unknownTote => simp [State.refuseCall, hu.1, hu.2]
      | _ => exact endFailedCall_retires (failedCallCause_callFailed hu (hf.resolve_left nofun)) t i
    case again =>
      cases reason with
      | unknownTote => exact absurd rfl hk
      | _ => exact endFailedCall_calls_again hu ha t i

/-- Settles O32: a release by the marks, a result of a CANCEL as the end of a call or as a release. -/
theorem releasesAndCancelResultsMoveTheRecord : Obligations.ReleasesAndCancelResultsMoveTheRecord := by
  intro tag i r s hl hs hn t letOut
  have released : ∀ {c : Instr}, exec c s = .next (t.takeRelease i r).settle → letOut c := fun hc => by
    refine ⟨fun hu => hc.trans ?_, fun hm => hc.trans ?_⟩
    · have e : t.takeRelease i r = t.putSource i { r.found with state := .inbound } :=
        if_neg (by rw [unmarked_iff.mp hu]; exact Bool.false_ne_true)
      rw [e]
    · have e : t.takeRelease i r = (t.putSource i r.found).enterReturning i (leavingBy r) :=
        if_pos (marked_of_not_unmarked hm)
      rw [e]
  refine ⟨fun hc => released (exec_released hl hs hn hc), fun hc hh =>
    ⟨released (exec_cancelResult hl hs hn hc hh .tooLate), fun outcome ho => ?resolved⟩⟩
  case resolved =>
    have ended : exec (.cancelResult tag outcome) s = .next (t.endFailedCall i r).settle := by
      rw [exec_cancelResult hl hs hn hc hh]
      cases outcome with
      | tooLate => exact absurd rfl ho
      | cancelled => rfl
      | unknownTag => rfl
    refine ⟨fun hw => ?withdrawn, fun hw he => ?expiry, fun hu ha => ?callFailed, fun hu ha => ?again⟩
    case withdrawn => rw [ended, endFailedCall_retires (failedCallCause_withdrawn hw)]
    case expiry => rw [ended, endFailedCall_retires (failedCallCause_expired hw he)]
    case callFailed => rw [ended, endFailedCall_retires (failedCallCause_callFailed hu ha)]
    case again => rw [ended, endFailedCall_calls_again hu ha]

theorem State.isQueued_putSource_of_ne (s : State) {i j : Slot} (h : j ≠ i) (r : Source) :
    (s.putSource i r).isQueued j = s.isQueued j := by
  unfold State.isQueued
  rw [State.source_putSource_of_ne s (Ne.symm h)]

/-- Settles O33: a RETURNING record by its leaving cause, a RECYCLING one by its marks. -/
theorem takenEndsTheReturn : Obligations.TakenEndsTheReturn := by
  intro tag i r s hl hs hn t retires back q waits
  refine ⟨fun hc => ?returning, fun hc => ?recycling⟩
  case returning =>
    have home : ∀ {cause : LeavingCause}, r.leaving = some cause → retires cause.retireCause := fun {cause} hl' => by
      show exec (.taken tag) s = .next (t.retireSource i cause.retireCause).settle
      have e : t.takeHome i r = t.retireSource i cause.retireCause := by
        unfold State.takeHome
        rw [if_pos hc, hl']
        rfl
      rw [exec_taken hl hs hn (.inl hc), e]
    exact ⟨home, home, home, home⟩
  case recycling =>
    have hnot : ¬ r.state = .returning := by simp [hc]
    have taken : ∀ {u : State}, t.takeHome i r = u → exec (.taken tag) s = .next u.settle := fun e => by
      rw [exec_taken hl hs hn (.inr hc)]
      exact congrArg (fun u : State => Host.Outcome.next u.settle) e
    refine ⟨fun hw => taken ?withdrawn, fun hw he => taken ?expiry, fun hu => taken ?queued⟩
    case withdrawn => simp [State.takeHome, hnot, hw]
    case expiry => simp [State.takeHome, hnot, hw, he]
    case queued =>
      obtain ⟨hw, he⟩ := hu
      have hwaits : (fun j => !s.isQueued j) = waits := by
        funext j
        unfold State.isQueued
        cases hj : s.source j <;> simp [waits, hj]
      have hahead : insertAhead (t.putSource i back).isQueued i q = q.takeWhile waits ++ [i] ++ q.dropWhile waits := by
        rw [← hwaits, ← insertAhead_eq]
        refine insertAhead_congr fun j hj => State.isQueued_putSource_of_ne t ?_ back
        exact of_decide_eq_true (List.mem_filter.mp hj).2
      unfold State.takeHome
      rw [if_neg hnot, if_neg (by simp [hw]), if_neg (by simp [he])]
      cases r.tote.warned
      · rfl
      · exact congrArg (fun l => (t.putSource i back).setPort r.port { s.port r.port with queue := l }) hahead

/-- Settles O34: a message that fits no record is counted as stale. -/
theorem staleMessagesAreCounted : Obligations.StaleMessagesAreCounted := by
  intro tag s hl fits counted
  have hstale : Host.Outcome.next s.betweenFrames.stale = counted := by
    show Host.Outcome.next (s.setSupply _) = Host.Outcome.next (s.setSupply _)
    simp only [saturate]
    rfl
  have stale : ∀ {c : Instr} {f : Source → Bool} {act : State → Slot → Source → State} {g : Source → Prop},
      exec c s = .next (s.whenLive (fun s => (s.setReceiver .hunting).answer tag f act)) → (∀ r, f r = true ↔ g r) →
      ¬ fits g → exec c s = counted := fun hc hg hno => by
    rw [hc, message_stale hl tag _ _ fun ⟨i, r, hr, hn, hf⟩ => hno ⟨i, r, hr, hn, (hg r).mp hf⟩]
    exact hstale
  refine ⟨fun hno => ⟨stale rfl (fun r => ?_) hno, fun reason => stale (f := Source.fitsAnswer)
      (act := fun t i r => t.refuseCall i r reason) rfl (fun r => ?_) hno⟩, fun hno => stale rfl (fun r => ?_) hno,
    fun hno outcome => stale (f := Source.fitsCancelResult) (act := fun t i r => t.resolveCancel i r outcome) rfl
      (fun r => ?_) hno, fun hno => stale rfl (fun r => ?_) hno⟩
  · simp [Source.fitsAnswer]
  · simp [Source.fitsAnswer]
  · simp [Source.fitsReleased]
  · simp [Source.fitsCancelResult]
  · simp [Source.fitsTaken]

/-! ### The answer windows (R54, R55) -/

theorem exec_callWindowExpiry {s : State} (hl : s.resetHeld = false) (i : Slot) :
    exec (.callWindowExpiry i) s = .next (s.expireCallWindow i) := by
  show Host.Outcome.next (s.whenLive _) = _
  rw [State.whenLive_of_live hl]

theorem exec_cancelWindowExpiry {s : State} (hl : s.resetHeld = false) (i : Slot) :
    exec (.cancelWindowExpiry i) s = .next (s.expireCancelWindow i) := by
  show Host.Outcome.next (s.whenLive _) = _
  rw [State.whenLive_of_live hl]

theorem expireCancelWindow_retires {s : State} {i : Slot} {r : Source} {cause : RetireCause} (hr : s.source i = some r)
    (hc : r.state = .cancelling) (hw : r.answerWindow ≠ none) (hcause : r.failedCallCause = some cause) :
    s.expireCancelWindow i = (if (s.retireSource i cause).inputs.supplyReady then
      (s.retireSource i cause).transmit (.returnTote (r.tag i) r.tote.code r.tote.cls cause.courtesy)
      else s.retireSource i cause).settle := by
  unfold State.expireCancelWindow
  simp only [hr]
  rw [if_pos ⟨hc, Option.isSome_iff_ne_none.mpr hw⟩, endFailedCall_retires hcause]
  unfold State.courtesyReturn
  simp only [hcause]

theorem retireSource_inputs (s : State) (i : Slot) (cause : RetireCause) : (s.retireSource i cause).inputs = s.inputs := by
  unfold State.retireSource
  split
  · rfl
  · exact State.post_inputs _ _

/-- Settles O35: the CALL's window sends or holds a CANCEL, the CANCEL's window ends the call with a courtesy RETURN. -/
theorem answerWindowsExpire : Obligations.AnswerWindowsExpire := by
  intro i s hl
  rw [exec_callWindowExpiry hl, exec_cancelWindowExpiry hl]
  refine ⟨fun r hr hc hw => ?call, fun r hr hc hw => ?cancel, fun hno => ?noCall, fun hno => ?noCancel⟩
  case call =>
    intro w
    have hmark : (!r.marked) = (!r.withdraw && !r.tote.expired) := Bool.not_or _ _
    have expires : s.expireCallWindow i = ((s.putSource i { w with answerWindow := none }).sendCancel i).settle := by
      unfold State.expireCallWindow
      simp only [hr]
      rw [if_pos ⟨hc, Option.isSome_iff_ne_none.mpr hw⟩, hmark]
    rw [expires]
    refine ⟨fun hready => ?sent, fun hready => ?held⟩
    case sent => rw [sendCancel_putSource_ready hready]; rfl
    case held => rw [sendCancel_putSource_held hready]
  case cancel =>
    intro retires
    have retired : ∀ {cause : RetireCause}, r.failedCallCause = some cause → retires cause cause.courtesy := fun hcause => by
      show Host.Outcome.next _ = Host.Outcome.next _
      rw [expireCancelWindow_retires hr hc hw hcause, retireSource_inputs]
    refine ⟨fun hm => retired (failedCallCause_withdrawn hm), fun hm he => retired (failedCallCause_expired hm he),
      fun hu ha => retired (failedCallCause_callFailed hu ha), fun hu ha => ?again⟩
    case again =>
      unfold State.expireCancelWindow
      simp only [hr]
      rw [if_pos ⟨hc, Option.isSome_iff_ne_none.mpr hw⟩, endFailedCall_calls_again hu ha]
      unfold State.courtesyReturn
      simp only [failedCallCause_none hu ha]
  case noCall =>
    unfold State.expireCallWindow
    split
    · rfl
    · next r hr =>
      refine congrArg Host.Outcome.next (if_neg ?_)
      rintro ⟨hc, hw⟩
      exact (hno r hr).elim (fun h => h hc) (fun h => Option.isSome_iff_ne_none.mp hw h)
  case noCancel =>
    unfold State.expireCancelWindow
    split
    · rfl
    · next r hr =>
      refine congrArg Host.Outcome.next (if_neg ?_)
      rintro ⟨hc, hw⟩
      exact (hno r hr).elim (fun h => h hc) (fun h => Option.isSome_iff_ne_none.mp hw h)

/-! ### RETURNING and retirement (R25, R26, R65, R66, R179) -/

theorem sendReturn_of_source {s : State} {i : Slot} {r : Source} (hr : s.source i = some r) :
    s.sendReturn i = if s.inputs.supplyReady then
      (s.putSource i { r with returnOwed := false }).transmit (.returnTote (r.tag i) r.tote.code r.tote.cls r.returnCause)
      else s.putSource i { r with returnOwed := true } := by
  unfold State.sendReturn
  rw [hr]

/-- A record's RETURN sent or owed, where its record and its port have just been written. -/
theorem sendReturn_placed (s : State) (i : Slot) (g : Source) (p : Port) (q : PortRec) :
    ((s.putSource i g).setPort p q).sendReturn i =
      if s.inputs.supplyReady then
        ((s.putSource i { g with returnOwed := !s.inputs.supplyReady }).setPort p q).transmit
          (.returnTote (g.tag i) g.tote.code g.tote.cls g.returnCause)
      else (s.putSource i { g with returnOwed := !s.inputs.supplyReady }).setPort p q := by
  have hsource : ((s.putSource i g).setPort p q).source i = some g := State.source_putSource_self s i g
  rw [sendReturn_of_source hsource, State.setPort_putSource, State.setPort_putSource, State.putSource_putSource,
    State.putSource_putSource]
  show (if s.inputs.supplyReady = true then _ else _) = _
  cases s.inputs.supplyReady <;> rfl

/-- The arm of a port dropped where it holds a record. -/
theorem dropArmOf_eq (s : State) (p : Port) (i : Slot) : s.dropArmOf p i = s.setPort p ((s.port p).unarmed i) := by
  unfold State.dropArmOf State.modifyPort PortRec.unarmed
  dsimp only
  split <;> rfl

/-- Settles O38: a record that leaves gives up its place in the views and its arm, and its RETURN is sent or owed. -/
theorem leavingTotesAreReturnedOrRetired : Obligations.LeavingTotesAreReturnedOrRetired := by
  intro s
  refine ⟨fun i r hr => ?leaves, fun n => ?post⟩
  case leaves =>
    intro q out
    refine ⟨fun cause => ?returning, fun cause => ?retired⟩
    case returning =>
      intro gone told u
      let g : Source := { r.resolveLines .deferred with
        state := .returning, leaving := some cause, current := none, answerWindow := none, cancelHeld := false }
      have hviews : ((s.putSource i g).unqueue r.port i).dropArmOf r.port i = (s.putSource i g).setPort r.port out := by
        unfold State.unqueue State.modifyPort
        rw [dropArmOf_eq, State.setPort_setPort, State.port_setPort_self]
        rfl
      have hsend : s.enterReturning i cause = ((s.putSource i g).setPort r.port out).sendReturn i := by
        unfold State.enterReturning
        simp only [hr]
        exact congrArg (State.sendReturn · i) hviews
      have htold : g.returnCause = told := by cases cause <;> rfl
      have hgone : { g with returnOwed := !s.inputs.supplyReady } = gone := by
        simp only [gone, g, resolved_eq]
        rfl
      rw [hsend, sendReturn_placed, htold, hgone]
      rfl
    case retired =>
      have hviews : (s.modifyPort r.port (fun q => { q with
          queue := withoutSlot i q.queue, lane := q.lane.filter (fun e => decide (e ≠ .slot i)) })).dropArmOf r.port i =
          s.setPort r.port { out with lane := q.lane.filter (fun e => decide (e ≠ .slot i)) } := by
        unfold State.modifyPort
        rw [dropArmOf_eq, State.setPort_setPort, State.port_setPort_self]
        rfl
      unfold State.retireSource
      simp only [hr]
      rw [hviews, resolved_eq]
      rfl
  case post =>
    refine ⟨fun hn => ?room, fun hn => ?full⟩
    case room => exact if_pos hn
    case full => exact if_neg (Nat.not_lt.mpr hn)

/-! ### The transmitter (R48) -/

/-- What producing a frame does to the supply link. -/
def SupplyLink.produce (x : SupplyLink) (m : Message) : SupplyLink :=
  match x.sending with
  | none => { x with sending := some m }
  | some _ => { x with waiting := x.waiting ++ [m] }

theorem State.transmit_eq (s : State) (m : Message) : s.transmit m = s.setSupply (s.supply.produce m) := by
  unfold State.transmit SupplyLink.produce
  split
  · next h => simp only [h]
  · next h => simp only [h]

theorem foldl_transmit_supply (ms : List Message) : ∀ s : State,
    (ms.foldl State.transmit s).supply = ms.foldl SupplyLink.produce s.supply := by
  induction ms with
  | nil => exact fun _ => rfl
  | cons m rest ih =>
    intro s
    rw [List.foldl_cons, List.foldl_cons, ih, State.transmit_eq]
    rfl

theorem SupplyLink.produce_pass (x : SupplyLink) (pass : Option Nat) (m : Message) :
    ({ x with pass := pass } : SupplyLink).produce m = { x.produce m with pass := pass } := by
  unfold SupplyLink.produce
  dsimp only
  split <;> rfl

/-! ### The pass of a rise of SUPPLY_READY (R62, R67) -/

/-- The CANCEL and the RETURN of a slot's record, if it has one. -/
def State.cancelOf (s : State) (i : Slot) : Option Message := (s.source i).map (fun r => .cancel (r.tag i))

def State.returnOf (s : State) (i : Slot) : Option Message :=
  (s.source i).map (fun r => .returnTote (r.tag i) r.tote.code r.tote.cls r.returnCause)

/-- The frames of a pass that has sent some CANCELs and then some RETURNs. -/
def State.passMessages (s : State) (cancels returns : List Slot) : List Message :=
  cancels.filterMap s.cancelOf ++ returns.filterMap s.returnOf

/-- A record in a pass: the window of a sent CANCEL runs, a sent RETURN is no longer owed. -/
def Source.passed (r : Source) (window : Nat) (cancelled returned : Prop) [Decidable cancelled] [Decidable returned] :
    Source :=
  { r with
    answerWindow := if cancelled then some window else r.answerWindow,
    cancelHeld := if cancelled then false else r.cancelHeld,
    returnOwed := if returned then false else r.returnOwed }

/-- Where a pass that has sent some RETURNs has come to. -/
def passPlace (returns : List Slot) : Nat := (returns.getLast?.map (fun i => i.val + 1)).getD 0

/-- A pass begun in `s` that has sent some CANCELs and then some RETURNs stands at `u`. -/
structure PassAt (s : State) (cancels returns : List Slot) (u : State) : Prop where
  rest : ∃ supply slots, u = { s with
    inputs := { s.inputs with supplyReady := true }, supply := supply, slots := slots, meets := none }
  supply : u.supply =
    { (s.passMessages cancels returns).foldl SupplyLink.produce s.supply with pass := some (passPlace returns) }
  record : ∀ i, u.record i = match s.record i with
    | some (.source r) => some (.source (r.passed s.config.answerWindow (i ∈ cancels) (i ∈ returns)))
    | other => other

theorem PassAt.source {s u : State} {cancels returns : List Slot} (h : PassAt s cancels returns u) {i : Slot} {r : Source}
    (hr : s.source i = some r) :
    u.source i = some (r.passed s.config.answerWindow (i ∈ cancels) (i ∈ returns)) := by
  rw [State.source_eq_some, h.record i, State.source_eq_some.mp hr]

theorem PassAt.begin (s : State) : PassAt s [] [] (({ s with
    inputs := { s.inputs with supplyReady := true }, meets := none } : State).setPass (some 0)) where
  rest := ⟨_, _, rfl⟩
  supply := rfl
  record i := by
    show s.record i = _
    match s.record i with
    | none => rfl
    | some (.order _) => rfl
    | some (.source _) => rfl

theorem Source.passed_congr (r : Source) (window : Nat) {a b c d : Prop} [Decidable a] [Decidable b] [Decidable c]
    [Decidable d] (hab : a ↔ b) (hcd : c ↔ d) : r.passed window a c = r.passed window b d := by
  unfold Source.passed
  simp only [hab, hcd]

/-- One frame of a pass: its record replaced, the frame produced. -/
theorem PassAt.send {s u : State} {cancels returns cancels' returns' : List Slot} (h : PassAt s cancels returns u) {i : Slot}
    {r q : Source} {m : Message} (hr : s.source i = some r)
    (hq : q = r.passed s.config.answerWindow (i ∈ cancels') (i ∈ returns'))
    (hother : ∀ j, j ≠ i → (j ∈ cancels ↔ j ∈ cancels') ∧ (j ∈ returns ↔ j ∈ returns'))
    (hm : s.passMessages cancels' returns' = s.passMessages cancels returns ++ [m]) :
    PassAt s cancels' returns' (((u.putSource i q).transmit m).setPass (some (passPlace returns'))) where
  rest := by
    obtain ⟨supply, slots, rfl⟩ := h.rest
    rw [State.transmit_eq]
    exact ⟨_, _, rfl⟩
  supply := by
    rw [State.transmit_eq]
    show ({ u.supply.produce m with pass := some (passPlace returns') } : SupplyLink) = _
    rw [h.supply, SupplyLink.produce_pass, hm, List.foldl_append]
    rfl
  record j := by
    rw [State.transmit_eq]
    show (u.setSlot i (some (.source q))).record j = _
    rw [State.record_setSlot]
    split
    · next e =>
      subst e
      rw [State.source_eq_some.mp hr, hq]
    · next e =>
      obtain ⟨hc, hd⟩ := hother j (Ne.symm e)
      rw [h.record j]
      match s.record j with
      | none => rfl
      | some (.order _) => rfl
      | some (.source x) => exact congrArg (fun y => some (Record.source y)) (x.passed_congr _ hc hd)

theorem PassAt.supplyReady {s u : State} {cancels returns : List Slot} (h : PassAt s cancels returns u) :
    u.inputs.supplyReady = true := by
  obtain ⟨_, _, rfl⟩ := h.rest
  rfl

theorem PassAt.config {s u : State} {cancels returns : List Slot} (h : PassAt s cancels returns u) :
    u.config = s.config := by
  obtain ⟨_, _, rfl⟩ := h.rest
  rfl

theorem mem_concat_of_ne {i j : Slot} (h : j ≠ i) (l : List Slot) : j ∈ l ↔ j ∈ l ++ [i] := by simp [h]

theorem PassAt.cancel {s u : State} {cancels : List Slot} (h : PassAt s cancels [] u) {i : Slot} {r : Source}
    (hr : s.source i = some r) : PassAt s (cancels ++ [i]) [] (u.sendCancel i) := by
  let q : Source := { r.passed s.config.answerWindow (i ∈ cancels) (i ∈ ([] : List Slot)) with
    answerWindow := some s.config.answerWindow, cancelHeld := false }
  have hsend : u.sendCancel i = (u.putSource i q).transmit (.cancel (r.tag i)) := by
    unfold State.sendCancel
    simp only [h.source hr, h.supplyReady, if_true, h.config]
    rfl
  have hpass : (u.sendCancel i).supply.pass = some (passPlace []) := by
    rw [hsend, State.transmit_eq]
    show (u.supply.produce _).pass = _
    rw [h.supply, SupplyLink.produce_pass]
  have hself : u.sendCancel i = ((u.putSource i q).transmit (.cancel (r.tag i))).setPass (some (passPlace [])) := by
    rw [← hpass, hsend]
    rfl
  rw [hself]
  refine h.send hr (by simp [q, Source.passed]) (fun j hj => ⟨mem_concat_of_ne hj cancels, Iff.rfl⟩) ?_
  simp [State.passMessages, State.cancelOf, hr]

theorem PassAt.giveHome {s u : State} {cancels returns : List Slot} (h : PassAt s cancels returns u) {i : Slot} {r : Source}
    (hr : s.source i = some r) :
    PassAt s cancels (returns ++ [i]) ((u.sendReturn i).setPass (some (i.val + 1))) := by
  let q : Source := { r.passed s.config.answerWindow (i ∈ cancels) (i ∈ returns) with returnOwed := false }
  have hsend : u.sendReturn i =
      (u.putSource i q).transmit (.returnTote (r.tag i) r.tote.code r.tote.cls r.returnCause) := by
    unfold State.sendReturn
    simp only [h.source hr, h.supplyReady, if_true]
    rfl
  have hplace : some (i.val + 1) = some (passPlace (returns ++ [i])) := by simp [passPlace]
  rw [hsend, hplace]
  refine h.send hr (by simp [q, Source.passed]) (fun j hj => ⟨Iff.rfl, mem_concat_of_ne hj returns⟩) ?_
  simp [State.passMessages, State.returnOf, hr]

theorem PassAt.cancelAll {s : State} (l : List Slot) : ∀ {u : State} {cancels : List Slot}, PassAt s cancels [] u →
    (∀ i ∈ l, ∃ r, s.source i = some r) →
    PassAt s (cancels ++ l) [] ((l.map PassFrame.cancel).foldl State.producePass u) := by
  induction l with
  | nil =>
    intro u cancels h _
    rwa [List.append_nil]
  | cons i rest ih =>
    intro u cancels h hl
    obtain ⟨r, hr⟩ := hl i List.mem_cons_self
    have := ih (h.cancel hr) fun j hj => hl j (List.mem_cons_of_mem i hj)
    rwa [List.append_assoc] at this

theorem PassAt.giveHomeAll {s : State} (l : List Slot) : ∀ {u : State} {cancels returns : List Slot},
    PassAt s cancels returns u → (∀ i ∈ l, ∃ r, s.source i = some r) →
    PassAt s cancels (returns ++ l) ((l.map PassFrame.giveHome).foldl State.producePass u) := by
  induction l with
  | nil =>
    intro u cancels returns h _
    rwa [List.append_nil]
  | cons i rest ih =>
    intro u cancels returns h hl
    obtain ⟨r, hr⟩ := hl i List.mem_cons_self
    have := ih (h.giveHome hr) fun j hj => hl j (List.mem_cons_of_mem i hj)
    rwa [List.append_assoc] at this

theorem heldCancels_source {s : State} : ∀ i ∈ s.heldCancels, ∃ r, s.source i = some r ∧ r.cancelHeld = true := by
  intro i hi
  have := (List.mem_filter.mp hi).2
  cases hr : s.source i with
  | none => simp [hr] at this
  | some r => exact ⟨r, rfl, by simpa [hr] using this⟩

theorem owedReturns_source {s : State} : ∀ i ∈ s.owedReturns, ∃ r, s.source i = some r ∧ r.returnOwed = true := by
  intro i hi
  have := (List.mem_filter.mp hi).2
  cases hr : s.source i with
  | none => simp [hr] at this
  | some r => exact ⟨r, rfl, by simpa [hr] using this⟩

/-- A pass from slot 0 produces the held CANCELs and then the owed RETURNs, each in slot order. -/
theorem passFrames_zero (s : State) :
    s.passFrames 0 = s.heldCancels.map .cancel ++ s.owedReturns.map .giveHome := by
  simp [State.passFrames]

/-- A pass taken some frames on. -/
theorem PassAt.taken (s : State) (n : Nat) :
    PassAt s (s.heldCancels.take n) (s.owedReturns.take (n - s.heldCancels.length))
      (((s.passFrames 0).take n).foldl State.producePass (({ s with
        inputs := { s.inputs with supplyReady := true }, meets := none } : State).setPass (some 0))) := by
  rw [passFrames_zero, List.take_append, ← List.map_take, ← List.map_take, List.length_map, List.foldl_append]
  refine PassAt.giveHomeAll (returns := []) _ (PassAt.cancelAll (cancels := []) _ (.begin s) fun i hi => ?_) fun i hi => ?_
  · obtain ⟨r, hr, _⟩ := heldCancels_source i (List.mem_of_mem_take hi)
    exact ⟨r, hr⟩
  · obtain ⟨r, hr, _⟩ := owedReturns_source i (List.mem_of_mem_take hi)
    exact ⟨r, hr⟩

theorem length_filterMap_of_isSome {α β : Type} {f : α → Option β} {l : List α} (h : ∀ a ∈ l, (f a).isSome = true) :
    (l.filterMap f).length = l.length := by
  rw [List.length_filterMap_eq_countP, List.countP_eq_length]
  exact h

theorem take_filterMap_of_isSome {α β : Type} {f : α → Option β} : ∀ {l : List α}, (∀ a ∈ l, (f a).isSome = true) →
    ∀ n, (l.filterMap f).take n = (l.take n).filterMap f
  | [], _, n => by simp
  | a :: rest, _, 0 => rfl
  | a :: rest, h, n + 1 => by
    obtain ⟨b, hb⟩ := Option.isSome_iff_exists.mp (h a List.mem_cons_self)
    rw [List.take_succ_cons, List.filterMap_cons_some hb, List.filterMap_cons_some hb, List.take_succ_cons,
      take_filterMap_of_isSome fun c hc => h c (List.mem_cons_of_mem a hc)]

theorem cancelOf_isSome {s : State} : ∀ i ∈ s.heldCancels, (s.cancelOf i).isSome = true := fun i hi => by
  obtain ⟨r, hr, _⟩ := heldCancels_source i hi
  simp [State.cancelOf, hr]

theorem returnOf_isSome {s : State} : ∀ i ∈ s.owedReturns, (s.returnOf i).isSome = true := fun i hi => by
  obtain ⟨r, hr, _⟩ := owedReturns_source i hi
  simp [State.returnOf, hr]

/-- The messages of a pass taken some frames on are the first of the messages it has to produce. -/
theorem take_passMessages (s : State) (n : Nat) : (s.passMessages s.heldCancels s.owedReturns).take n =
    s.passMessages (s.heldCancels.take n) (s.owedReturns.take (n - s.heldCancels.length)) := by
  unfold State.passMessages
  rw [List.take_append, take_filterMap_of_isSome cancelOf_isSome, take_filterMap_of_isSome returnOf_isSome,
    length_filterMap_of_isSome cancelOf_isSome]

theorem passMessages_length (s : State) :
    (s.passMessages s.heldCancels s.owedReturns).length = (s.passFrames 0).length := by
  unfold State.passMessages
  rw [passFrames_zero, List.length_append, List.length_append, length_filterMap_of_isSome cancelOf_isSome,
    length_filterMap_of_isSome returnOf_isSome, List.length_map, List.length_map]

/-! ### The pass with no command waiting (R62, R67) -/

theorem filter_allSlots_pairwise (f : Slot → Bool) : (allSlots.filter f).Pairwise (· < ·) :=
  (List.pairwise_lt_finRange 64).filter f

/-- The first of the slots that fit a test is the least. -/
theorem filter_allSlots_eq_cons {f : Slot → Bool} {i : Slot} (hi : f i = true) (hmin : ∀ j, f j = true → i ≤ j) :
    ∃ rest, allSlots.filter f = i :: rest := by
  have hmem : i ∈ allSlots.filter f := List.mem_filter.mpr ⟨List.mem_finRange i, hi⟩
  have hsorted := filter_allSlots_pairwise f
  cases hl : allSlots.filter f with
  | nil => simp [hl] at hmem
  | cons h rest =>
    rw [hl] at hmem hsorted
    have hh : f h = true := by
      have : h ∈ allSlots.filter f := by rw [hl]; exact List.mem_cons_self
      exact (List.mem_filter.mp this).2
    rcases List.mem_cons.mp hmem with rfl | hrest
    · exact ⟨rest, rfl⟩
    · exact absurd (List.rel_of_pairwise_cons hsorted hrest) (not_lt_of_ge (hmin h hh))

theorem idle_ends_pass {s : State} {place : Nat} (hl : s.resetHeld = false) (hp : s.supply.pass = some place)
    (hready : s.inputs.supplyReady = true) (h : s.passFrames place = []) : s.idle = s.endPass := by
  unfold State.idle
  rw [State.whenLive_of_live hl]
  simp only [hp, hready, if_true, h]

theorem idle_produces {s : State} {place : Nat} {frame : PassFrame} {rest : List PassFrame} (hl : s.resetHeld = false)
    (hp : s.supply.pass = some place) (hready : s.inputs.supplyReady = true) (h : s.passFrames place = frame :: rest) :
    s.idle = s.producePass frame := by
  unfold State.idle
  rw [State.whenLive_of_live hl]
  simp only [hp, hready, if_true, h]

/-- Whether a slot's record has a held CANCEL. -/
def State.holdsCancel (s : State) (i : Slot) : Bool :=
  match s.source i with
  | some r => r.cancelHeld
  | none => false

/-- Whether a slot's record is owed a RETURN. -/
def State.owesReturn (s : State) (i : Slot) : Bool :=
  match s.source i with
  | some r => r.returnOwed
  | none => false

theorem holdsCancel_iff {s : State} {i : Slot} :
    s.holdsCancel i = true ↔ ∃ r, s.source i = some r ∧ r.cancelHeld = true := by
  unfold State.holdsCancel
  cases s.source i <;> simp

theorem owesReturn_iff {s : State} {i : Slot} :
    s.owesReturn i = true ↔ ∃ r, s.source i = some r ∧ r.returnOwed = true := by
  unfold State.owesReturn
  cases s.source i <;> simp

theorem passFrames_cancel {s : State} {i : Slot} (hi : s.holdsCancel i = true) (hmin : ∀ j, s.holdsCancel j = true → i ≤ j)
    (place : Nat) : ∃ rest, s.passFrames place = .cancel i :: rest := by
  obtain ⟨rest, hrest⟩ := filter_allSlots_eq_cons hi hmin
  have hheld : s.heldCancels = i :: rest := hrest
  unfold State.passFrames
  rw [hheld]
  exact ⟨_, rfl⟩

theorem heldCancels_eq_nil {s : State} (h : ∀ j, s.holdsCancel j = false) : s.heldCancels = [] :=
  List.filter_eq_nil_iff.mpr fun j _ => by
    show ¬ s.holdsCancel j = true
    rw [h j]
    exact Bool.false_ne_true

/-- With no CANCEL held, the next frame is the RETURN owed to the next slot in turn. -/
theorem passFrames_giveHome {s : State} {place : Nat} {i : Slot} (hno : ∀ j, s.holdsCancel j = false)
    (hi : s.owesReturn i = true) (hmin : ∀ j : Slot, s.owesReturn j = true →
      (if place ≤ i.val then i.val else i.val + 64) ≤ (if place ≤ j.val then j.val else j.val + 64)) :
    ∃ rest, s.passFrames place = .giveHome i :: rest := by
  have howed : s.owedReturns = allSlots.filter s.owesReturn := rfl
  unfold State.passFrames
  rw [heldCancels_eq_nil hno, howed, List.filter_filter, List.filter_filter]
  by_cases hp : place ≤ i.val
  · obtain ⟨rest, hrest⟩ := filter_allSlots_eq_cons (f := fun j => decide (place ≤ j.val) && s.owesReturn j) (i := i)
      (by simp [hp, hi]) fun j hj => by
        rw [Bool.and_eq_true, decide_eq_true_eq] at hj
        obtain ⟨hpj, hoj⟩ := hj
        have := hmin j hoj
        rw [if_pos hp, if_pos hpj] at this
        exact this
    rw [hrest]
    exact ⟨_, rfl⟩
  · have hlater : ∀ j : Slot, s.owesReturn j = true → j.val < place ∧ i ≤ j := fun j hoj => by
      have := hmin j hoj
      have hj := j.isLt
      rw [if_neg hp] at this
      split at this
      · omega
      · exact ⟨by omega, by rw [Fin.le_def]; omega⟩
    have hnone : allSlots.filter (fun j => decide (place ≤ j.val) && s.owesReturn j) = [] :=
      List.filter_eq_nil_iff.mpr fun j _ hj => by
        rw [Bool.and_eq_true, decide_eq_true_eq] at hj
        obtain ⟨hpj, hoj⟩ := hj
        have := (hlater j hoj).1
        omega
    obtain ⟨rest, hrest⟩ := filter_allSlots_eq_cons (f := fun j => decide (j.val < place) && s.owesReturn j) (i := i)
      (by simp [hi]; omega) fun j hj => by
        rw [Bool.and_eq_true] at hj
        exact (hlater j hj.2).2
    rw [hnone, hrest]
    exact ⟨_, rfl⟩

theorem step_idles {s : State} (h : s.pending = []) : step s = .next s.idle := by
  unfold step
  rw [h]

/-- Settles O36: a rise's pass as far as it is taken, its frames one by one, the transmitter, and the bytes of a frame. -/
theorem supplyReadySendsWhatIsOwed : Obligations.SupplyReadySendsWhatIsOwed := by
  intro s hl held owed returns
  refine ⟨rfl, fun hr => ?repeated, fun hr => ?rise, fun place hpend hpass hready => ?goesOn, fun m hn => ?idleLine,
    fun m n hn => ?busyLine, ?transmitted, fun tag c p cls cause => ?bytes⟩
  case repeated =>
    have hsame : s.setSupplyReady true = s := by
      unfold State.setSupplyReady
      rw [← hr]
      rfl
    show Host.Outcome.next ((s.setSupplyReady true).whenLive _) = _
    rw [hsame, State.whenLive_of_live hl]
    exact congrArg Host.Outcome.next (if_pos hr)
  case rise =>
    intro cancelled returned frames produced
    have hrise : exec .supplyReadyRise s = .next (s.setSupplyReady true).beginPass := by
      show Host.Outcome.next ((s.setSupplyReady true).whenLive _) = _
      rw [State.whenLive_of_live (s := s.setSupplyReady true) hl]
      simp only [hr, Bool.false_eq_true, if_false]
    let begun : State := ({ s with
      inputs := { s.inputs with supplyReady := true }, meets := none } : State).setPass (some 0)
    have taken : ∀ n, produced n (some (passPlace (returned.take (n - cancelled.length))))
        (((s.passFrames 0).take n).foldl State.producePass begun) := fun n => by
      have h := PassAt.taken s n
      refine ⟨?_, ?_, h.record⟩
      · obtain ⟨_, _, hrest⟩ := h.rest
        rw [hrest]
      · rw [h.supply, ← take_passMessages, foldl_transmit_supply]
        rfl
    refine ⟨fun hm => ?whole, fun n hm => ?met⟩
    case whole =>
      have hall : (s.passFrames 0).take frames.length = s.passFrames 0 :=
        List.take_of_length_le (passMessages_length s).ge
      have htaken := taken frames.length
      have hpass := PassAt.taken s frames.length
      rw [hall] at htaken hpass
      obtain ⟨_, hsupply, hrecord⟩ := htaken
      obtain ⟨_, _, hrest⟩ := hpass.rest
      refine ⟨((s.passFrames 0).foldl State.producePass begun).setPass none, ?_, ?_, ?_, hrecord⟩
      · rw [hrise]
        unfold State.beginPass
        simp only [show (s.setSupplyReady true).meets = none from hm]
        rfl
      · rw [hrest]
        rfl
      · exact congrArg (fun x : SupplyLink => { x with pass := none }) hsupply
    case met =>
      refine ⟨_, ?_, taken n⟩
      rw [hrise]
      unfold State.beginPass
      simp only [show (s.setSupplyReady true).meets = some n from hm]
      rfl
  case goesOn =>
    intro turn
    have hheld : ∀ {j}, s.holdsCancel j = true ↔ ∃ q, held j q := holdsCancel_iff
    have howed : ∀ {j}, s.owesReturn j = true ↔ ∃ q, owed j q := owesReturn_iff
    rw [step_idles hpend]
    refine ⟨fun i r hi hmin => ?cancel, fun i r hno hi hmin => ?giveHome, fun hno => ?ends⟩
    case cancel =>
      obtain ⟨rest, hframes⟩ := passFrames_cancel (hheld.mpr ⟨r, hi⟩) (fun j hj => by
        obtain ⟨q, hq⟩ := hheld.mp hj
        exact hmin j q hq) place
      rw [idle_produces hl hpass hready hframes]
      show Host.Outcome.next (s.sendCancel i) = _
      unfold State.sendCancel
      simp only [hi.1, hready, if_true]
    case giveHome =>
      intro u
      obtain ⟨rest, hframes⟩ := passFrames_giveHome (place := place)
        (fun j => Bool.eq_false_iff.mpr fun hj => by
          obtain ⟨q, hq⟩ := hheld.mp hj
          exact hno j q hq) (howed.mpr ⟨r, hi⟩) (fun j hj => by
          obtain ⟨q, hq⟩ := howed.mp hj
          exact hmin j q hq)
      rw [idle_produces hl hpass hready hframes]
      show Host.Outcome.next ((s.sendReturn i).setPass _) = _
      rw [sendReturn_of_source hi.1, if_pos hready]
      rfl
    case ends =>
      have hframes : s.passFrames place = [] := by
        have howes : s.owedReturns = [] := List.filter_eq_nil_iff.mpr fun j _ hj => by
          obtain ⟨q, hq⟩ := howed.mp hj
          exact (hno j q).2 hq
        unfold State.passFrames
        rw [howes, heldCancels_eq_nil fun j => Bool.eq_false_iff.mpr fun hj => by
          obtain ⟨q, hq⟩ := hheld.mp hj
          exact (hno j q).1 hq]
        rfl
      rw [idle_ends_pass hl hpass hready hframes]
      rfl
  case idleLine => simp only [State.transmit, hn]
  case busyLine => simp only [State.transmit, hn]
  case transmitted =>
    show Host.Outcome.next (s.whenLive _) = _
    rw [State.whenLive_of_live hl]
  case bytes =>
    cases cls <;> cases cause <;> exact ⟨rfl, rfl, rfl⟩

/-! ### The supply receiver (R49) -/

theorem dispatcherMessage_body (m : DispatcherMessage) : dispatcherMessage m.body.1 m.body.2 = some m := by
  cases m with
  | refused tag reason => cases reason <;> rfl
  | cancelResult tag outcome => cases outcome <;> rfl
  | _ => rfl

theorem refuseReasonField_some {b : Byte} {reason : RefuseReason} (h : refuseReasonField b = some reason) :
    refuseReasonByte reason = b := by
  unfold refuseReasonField at h
  split at h
  · next e => cases h; exact e.symm
  · split at h
    · next e => cases h; exact e.symm
    · split at h
      · next e => cases h; exact e.symm
      · cases h

theorem cancelOutcomeField_some {b : Byte} {outcome : CancelOutcome} (h : cancelOutcomeField b = some outcome) :
    cancelOutcomeByte outcome = b := by
  unfold cancelOutcomeField at h
  split at h
  · next e => cases h; exact e.symm
  · split at h
    · next e => cases h; exact e.symm
    · split at h
      · next e => cases h; exact e.symm
      · cases h

/-- The bytes a message is read from are its own. -/
theorem body_of_dispatcherMessage {type : Byte} {payload : List Byte} {m : DispatcherMessage}
    (h : dispatcherMessage type payload = some m) : m.body = (type, payload) := by
  unfold dispatcherMessage at h
  split at h
  case h_1 htype => cases h; exact Prod.ext (BitVec.eq_of_toNat_eq htype.symm) rfl
  case h_2 htype =>
    obtain ⟨reason, hr, rfl⟩ := Option.map_eq_some_iff.mp h
    rw [← refuseReasonField_some hr]
    exact Prod.ext (BitVec.eq_of_toNat_eq htype.symm) rfl
  case h_3 htype => cases h; exact Prod.ext (BitVec.eq_of_toNat_eq htype.symm) rfl
  case h_4 htype =>
    obtain ⟨outcome, ho, rfl⟩ := Option.map_eq_some_iff.mp h
    rw [← cancelOutcomeField_some ho]
    exact Prod.ext (BitVec.eq_of_toNat_eq htype.symm) rfl
  case h_5 htype => cases h; exact Prod.ext (BitVec.eq_of_toNat_eq htype.symm) rfl
  case h_6 => cases h

theorem frameEvent_message {bytes : List Byte} {m : DispatcherMessage} (h : frameEvent bytes = .message m) :
    crc8 (bytes.take (bytes.length - 1)) = byteAt bytes (bytes.length - 1) ∧
      m.body = (byteAt bytes 0, (bytes.take (bytes.length - 1)).drop 2) := by
  unfold frameEvent at h
  dsimp only at h
  split at h
  · next hcrc =>
    split at h
    · next m' hm =>
      cases h
      exact ⟨hcrc, body_of_dispatcherMessage hm⟩
    · cases h
  · cases h

theorem frameEvent_ne_none (bytes : List Byte) : frameEvent bytes ≠ .none := by
  unfold frameEvent
  dsimp only
  split
  · split <;> nofun
  · nofun

/-- What the receiver does with a byte inside a frame that goes on. -/
theorem takeSupplyByte_goes_on {s : State} {taken : List Byte} {b : Byte} (hr : s.supply.receiver = .inFrame taken)
    (hlen : (taken ++ [b]).length < 2 ∨ ((byteAt (taken ++ [b]) 1).toNat ≤ 16 ∧
      (taken ++ [b]).length < (byteAt (taken ++ [b]) 1).toNat + 3)) :
    s.takeSupplyByte { value := b, stopOk := true } = s.setReceiver (.inFrame (taken ++ [b])) := by
  have hnext : SupplyReceiver.next (.inFrame taken) { value := b, stopOk := true } = (.inFrame (taken ++ [b]), .none) := by
    unfold SupplyReceiver.next
    dsimp only
    rw [if_pos rfl]
    by_cases htwo : (taken ++ [b]).length < 2
    · rw [if_pos htwo]
    · obtain ⟨hsmall, hmore⟩ := hlen.resolve_left htwo
      rw [if_neg htwo, if_neg (Nat.not_lt.mpr hsmall), if_pos hmore]
  unfold State.takeSupplyByte
  rw [hr, hnext]

/-- What the receiver does with the byte that completes a frame. -/
theorem takeSupplyByte_completes {s : State} {taken : List Byte} {b : Byte} (hr : s.supply.receiver = .inFrame taken)
    (hsmall : (byteAt (taken ++ [b]) 1).toNat ≤ 16) (hlen : (taken ++ [b]).length = (byteAt (taken ++ [b]) 1).toNat + 3) :
    (∀ m, frameEvent (taken ++ [b]) = .message m →
      s.takeSupplyByte { value := b, stopOk := true } = (s.setReceiver .hunting).takeMessage m) ∧
    (frameEvent (taken ++ [b]) = .bad → s.takeSupplyByte { value := b, stopOk := true } = s.badSupply) := by
  have hnext : SupplyReceiver.next (.inFrame taken) { value := b, stopOk := true } =
      (.hunting, frameEvent (taken ++ [b])) := by
    unfold SupplyReceiver.next
    dsimp only
    rw [if_pos rfl, if_neg (by omega), if_neg (Nat.not_lt.mpr hsmall), if_neg (by omega)]
  refine ⟨fun m hm => ?_, fun hb => ?_⟩
  · unfold State.takeSupplyByte
    rw [hr, hnext, hm]
  · unfold State.takeSupplyByte
    rw [hr, hnext, hb]

theorem byteAt_append_left {bs cs : List Byte} {k : Nat} (h : k < bs.length) : byteAt (bs ++ cs) k = byteAt bs k := by
  simp [byteAt, List.getD_eq_getElem?_getD, List.getElem?_append_left h]

/-- Bytes as a line without stop-bit errors carries them. -/
def goodBytes (bs : List Byte) : List SerialByte := bs.map (fun b => { value := b, stopOk := true })

/-- The bytes of a whole frame, taken from a place inside it on, end in what the frame gives. -/
theorem takeSupplyBytes_whole : ∀ (rest : List Byte) {s : State} {taken : List Byte}, s.supply.receiver = .inFrame taken →
    rest ≠ [] → (byteAt (taken ++ rest) 1).toNat ≤ 16 →
    (taken ++ rest).length = (byteAt (taken ++ rest) 1).toNat + 3 →
    (∀ m, frameEvent (taken ++ rest) = .message m →
      s.takeSupplyBytes (goodBytes rest) = (s.setReceiver .hunting).takeMessage m) ∧
    (frameEvent (taken ++ rest) = .bad → s.takeSupplyBytes (goodBytes rest) = s.badSupply)
  | [], _, _, _, hne, _, _ => absurd rfl hne
  | [b], _, _, hr, _, hsmall, hlen => takeSupplyByte_completes hr hsmall hlen
  | b :: c :: rest, s, taken, hr, _, hsmall, hlen => by
    have happend : taken ++ b :: c :: rest = (taken ++ [b]) ++ c :: rest := by simp
    rw [happend] at hsmall hlen ⊢
    have hstep : s.takeSupplyByte { value := b, stopOk := true } = s.setReceiver (.inFrame (taken ++ [b])) := by
      refine takeSupplyByte_goes_on hr ?_
      by_cases htwo : (taken ++ [b]).length < 2
      · exact .inl htwo
      · rw [byteAt_append_left (by omega)] at hsmall hlen
        refine .inr ⟨hsmall, ?_⟩
        rw [List.length_append (as := taken ++ [b]), List.length_cons] at hlen
        omega
    have hbytes : s.takeSupplyBytes (goodBytes (b :: c :: rest)) =
        (s.setReceiver (.inFrame (taken ++ [b]))).takeSupplyBytes (goodBytes (c :: rest)) := by
      rw [← hstep]
      rfl
    rw [hbytes]
    exact takeSupplyBytes_whole (c :: rest) (s := s.setReceiver (.inFrame (taken ++ [b]))) rfl (List.cons_ne_nil c rest)
      hsmall hlen

theorem exec_badSupplyFrame {s : State} (hl : s.resetHeld = false) (bytes : List SerialByte) :
    exec (.badSupplyFrame bytes) s = .next (s.takeSupplyBytes bytes) := by
  show Host.Outcome.next (s.whenLive _) = _
  rw [State.whenLive_of_live hl]

theorem exec_supplyIdleGapTimeout {s : State} (hl : s.resetHeld = false) (bytes : List SerialByte) :
    exec (.supplyIdleGapTimeout bytes) s = .next (s.takeSupplyBytes bytes).supplyGap := by
  show Host.Outcome.next (s.whenLive _) = _
  rw [State.whenLive_of_live hl]

/-- A start byte taken between frames begins one. -/
theorem takeSupplyBytes_start {s : State} (h : s.supply.receiver = .hunting) (bs : List SerialByte) :
    s.takeSupplyBytes ({ value := 0xA5#8, stopOk := true } :: bs) = (s.setReceiver (.inFrame [])).takeSupplyBytes bs := by
  have hstep : s.takeSupplyByte { value := 0xA5#8, stopOk := true } = s.setReceiver (.inFrame []) := by
    unfold State.takeSupplyByte
    rw [h]
    rfl
  rw [← hstep]
  rfl

/-- A byte that begins no frame is skipped. -/
theorem takeSupplyByte_skipped {s : State} (h : s.supply.receiver = .hunting) {b : SerialByte}
    (hb : b.value ≠ 0xA5#8 ∨ b.stopOk = false) : s.takeSupplyByte b = s := by
  have hnext : SupplyReceiver.next .hunting b = (.hunting, .none) := by
    unfold SupplyReceiver.next
    refine if_neg fun ⟨hv, hs⟩ => ?_
    rcases hb with hb | hb
    · exact hb hv
    · rw [hb] at hs
      cases hs
  unfold State.takeSupplyByte
  rw [h, hnext]
  show s.setSupply { s.supply with receiver := .hunting } = s
  rw [← h]
  rfl

/-- Bytes that give a message are its frame's. -/
theorem frame_of_frameEvent {type length : Byte} {rest : List Byte} {m : DispatcherMessage}
    (hlen : rest.length = length.toNat + 1) (h : frameEvent (type :: length :: rest) = .message m) :
    m.frame = 0xA5#8 :: type :: length :: rest := by
  obtain ⟨hcrc, hbody⟩ := frameEvent_message h
  let n := length.toNat
  have hcount : (type :: length :: rest).length - 1 = n + 2 := by simp [hlen, n]
  have htake : (type :: length :: rest).take (n + 2) = type :: length :: rest.take n := rfl
  rw [hcount, htake] at hcrc hbody
  have hpayload : m.body.2 = rest.take n := by rw [hbody]; rfl
  have htype : m.body.1 = type := by rw [hbody]; rfl
  have hlength : byteOf (rest.take n).length = length := by
    rw [List.length_take, hlen, Nat.min_eq_left (Nat.le_succ _)]
    exact byteOf_toNat length
  have hlast : rest = rest.take n ++ [byteAt (type :: length :: rest) (n + 2)] := by
    have hsplit := (List.take_append_drop n rest).symm
    have hdrop : rest.drop n = [byteAt (type :: length :: rest) (n + 2)] := by
      rw [List.drop_eq_getElem_cons (by omega), List.drop_of_length_le (by omega)]
      simp [byteAt, List.getD_eq_getElem?_getD, List.getElem?_eq_getElem (show n < rest.length by omega)]
    rwa [hdrop] at hsplit
  unfold DispatcherMessage.frame
  dsimp only
  rw [htype, hpayload, hlength, hcrc]
  exact congrArg (fun l => 0xA5#8 :: type :: length :: l) hlast.symm

/-- Settles O37: a frame is taken byte by byte to its end (`takeSupplyBytes_whole`), where its event is what its bytes give. -/
theorem supplyReceiverReadsFrames : Obligations.SupplyReceiverReadsFrames := by
  intro s hl good row bad
  have hbad : ∀ u : State, u.badSupply = bad u := fun u => by
    show u.setSupply _ = u.setSupply _
    simp only [saturate]
  refine ⟨fun hr => ⟨fun m => ?message, fun bytes hb => ?skipped, fun type length rest hsmall hlen hno => ?noMessage,
    fun type length hlong => ?tooLong, ?quiet⟩, fun taken hr => ⟨fun value => ?stopBit, ?gap⟩, fun bs cs u hu => ?append⟩
  case message =>
    let covered := m.body.1 :: byteOf m.body.2.length :: m.body.2
    have hlength : m.body.2.length ≤ 2 := by cases m <;> exact Nat.le_of_ble_eq_true rfl
    have hcount : (byteAt (covered ++ [crc8 covered]) 1).toNat = m.body.2.length :=
      byteOf_length_toNat (l := m.body.2) (by omega)
    have hevent : frameEvent (covered ++ [crc8 covered]) = .message m :=
      (frameEvent_whole (dispatcherMessage_body m) (crc8 covered)).trans (if_pos rfl)
    have hwhole := (takeSupplyBytes_whole (covered ++ [crc8 covered]) (s := s.setReceiver (.inFrame [])) (taken := []) rfl
      (by simp) (by rw [List.nil_append, hcount]; omega) (by rw [List.nil_append, hcount]; simp [covered])).1 m hevent
    have hrow : exec (row m) s = .next ((s.setReceiver .hunting).takeMessage m) := by
      cases m <;>
        · show Host.Outcome.next (s.whenLive _) = _
          rw [State.whenLive_of_live hl]
    rw [exec_badSupplyFrame hl, hrow]
    exact congrArg Host.Outcome.next ((takeSupplyBytes_start hr _).trans hwhole)
  case skipped =>
    rw [exec_badSupplyFrame hl]
    congr 1
    induction bytes with
    | nil => rfl
    | cons b rest ih =>
      show (s.takeSupplyByte b).takeSupplyBytes rest = s
      rw [takeSupplyByte_skipped hr (hb b List.mem_cons_self)]
      exact ih fun c hc => hb c (List.mem_cons_of_mem b hc)
  case noMessage =>
    let total := type :: length :: rest
    have hcount : total.length = length.toNat + 3 := by simp [total, hlen]
    have hevent : frameEvent total = .bad := by
      cases he : frameEvent total with
      | none => exact absurd he (frameEvent_ne_none total)
      | bad => rfl
      | message m =>
        exact absurd (frame_of_frameEvent (type := type) (length := length) (rest := rest) hlen he) (hno m)
    have hwhole := (takeSupplyBytes_whole total (s := s.setReceiver (.inFrame [])) (taken := []) rfl
      (List.cons_ne_nil _ _) hsmall hcount).2 hevent
    rw [exec_badSupplyFrame hl, ← hbad]
    exact congrArg Host.Outcome.next ((takeSupplyBytes_start hr _).trans hwhole)
  case tooLong =>
    rw [exec_badSupplyFrame hl, ← hbad]
    refine congrArg Host.Outcome.next ((takeSupplyBytes_start hr _).trans ?_)
    have hfirst : (s.setReceiver (.inFrame [])).takeSupplyByte { value := type, stopOk := true } =
        (s.setReceiver (.inFrame [])).setReceiver (.inFrame [type]) :=
      takeSupplyByte_goes_on (taken := []) rfl (.inl Nat.one_lt_two)
    have hnext : SupplyReceiver.next (.inFrame [type]) { value := length, stopOk := true } = (.hunting, .bad) := by
      unfold SupplyReceiver.next
      dsimp only
      rw [if_pos rfl, if_neg (by simp)]
      exact if_pos hlong
    show ((s.setReceiver (.inFrame [])).takeSupplyByte { value := type, stopOk := true }).takeSupplyByte
      { value := length, stopOk := true } = s.badSupply
    rw [hfirst]
    unfold State.takeSupplyByte
    rw [show ((s.setReceiver (.inFrame [])).setReceiver (.inFrame [type])).supply.receiver = .inFrame [type] from rfl, hnext]
    rfl
  case quiet =>
    rw [exec_supplyIdleGapTimeout hl]
    show Host.Outcome.next s.supplyGap = _
    unfold State.supplyGap
    rw [hr]
  case stopBit =>
    rw [exec_badSupplyFrame hl, ← hbad]
    show Host.Outcome.next (s.takeSupplyByte _) = _
    unfold State.takeSupplyByte
    rw [hr]
    rfl
  case gap =>
    rw [exec_supplyIdleGapTimeout hl, ← hbad]
    show Host.Outcome.next s.supplyGap = _
    unfold State.supplyGap
    rw [hr]
  case append =>
    rw [exec_badSupplyFrame hl] at hu
    obtain rfl := Host.Outcome.next.inj hu
    have hl' : (s.takeSupplyBytes bs).resetHeld = false := (reach_takeSupplyBytes s bs).changes.resetHeld.trans hl
    have happend : s.takeSupplyBytes (bs ++ cs) = (s.takeSupplyBytes bs).takeSupplyBytes cs := List.foldl_append
    rw [exec_badSupplyFrame hl, exec_badSupplyFrame hl', exec_supplyIdleGapTimeout hl, exec_supplyIdleGapTimeout hl',
      happend]
    exact ⟨rfl, rfl⟩

end Sys2Proof.Machine

/-! ## The readers

The reception of a channel's bytes up to a whole frame, the classes a frame is told apart by, and where it is handed on
(R158 to R162). -/

namespace Sys2Proof.Machine

/-! ### A channel's record -/

@[simp] theorem State.setReader_setReader (s : State) (c : Channel) (a b : ReaderRec) :
    (s.setReader c a).setReader c b = s.setReader c b := by
  cases c with
  | scanner => rfl
  | port p => simp [State.setReader]

@[simp] theorem State.setReader_self (s : State) (c : Channel) : s.setReader c (s.reader c) = s := by
  cases c with
  | scanner => rfl
  | port p => simp [State.setReader, State.reader]

/-! ### The bytes of a frame (R158) -/

theorem takeReaderByte_skipped {c : Channel} {s : State} (h : (s.reader c).receiver = .hunting ∨
    (s.reader c).receiver = .ignoring) (time : Nat) (b : Byte) : State.takeReaderByte c time s b = s := by
  unfold State.takeReaderByte
  rcases h with h | h <;> rw [h]

theorem takeReaderBytes_skipped {c : Channel} {s : State} (h : (s.reader c).receiver = .hunting ∨
    (s.reader c).receiver = .ignoring) (time : Nat) (bytes : List Byte) :
    bytes.foldl (State.takeReaderByte c time) s = s := by
  induction bytes with
  | nil => rfl
  | cons b rest ih => rw [List.foldl_cons, takeReaderByte_skipped h, ih]

/-- Bytes that do not complete a frame are held. -/
theorem takeReaderBytes_held {c : Channel} (time : Nat) : ∀ (bytes : List Byte) {s : State} {held : List Byte},
    (s.reader c).receiver = .receiving held → (held ++ bytes).length < 6 →
    bytes.foldl (State.takeReaderByte c time) s =
      s.setReader c { s.reader c with receiver := .receiving (held ++ bytes) }
  | [], s, held, hr, _ => by
    rw [List.append_nil, ← hr, State.setReader_self]
    rfl
  | b :: rest, s, held, hr, hlen => by
    have happend : held ++ b :: rest = (held ++ [b]) ++ rest := by simp
    rw [happend] at hlen ⊢
    have hstep : State.takeReaderByte c time s b = s.setReader c { s.reader c with receiver := .receiving (held ++ [b]) } := by
      unfold State.takeReaderByte
      rw [hr]
      exact if_pos (by rw [List.length_append] at hlen; omega)
    rw [List.foldl_cons, hstep, takeReaderBytes_held time rest (by rw [State.reader_setReader_self]) hlen,
      State.reader_setReader_self, State.setReader_setReader]

/-- The bytes that complete a frame have it classified, handed on and counted. -/
theorem takeReaderBytes_whole {c : Channel} {s : State} {held bytes : List Byte} (time : Nat)
    (hr : (s.reader c).receiver = .receiving held) (hheld : held.length < 6) (hlen : (held ++ bytes).length = 6) :
    bytes.foldl (State.takeReaderByte c time) s =
      ((((s.setReader c { s.reader c with receiver := .hunting }).handOn c
        (classifyFrame s.config.qualityThreshold (held ++ bytes)) time).settle.countFrame c
          (classifyFrame s.config.qualityThreshold (held ++ bytes)).bad).settle) := by
  have hne : bytes ≠ [] := fun e => by
    rw [e, List.append_nil] at hlen
    omega
  obtain ⟨front, last, rfl⟩ : ∃ front last, bytes = front ++ [last] :=
    ⟨_, _, (List.dropLast_append_getLast hne).symm⟩
  have hfront : (held ++ front).length < 6 := by
    rw [← List.append_assoc, List.length_append, List.length_singleton] at hlen
    omega
  rw [List.foldl_concat, takeReaderBytes_held time front hr hfront]
  unfold State.takeReaderByte
  rw [State.reader_setReader_self]
  dsimp only
  rw [List.append_assoc, if_neg (by omega)]
  unfold State.completeFrame State.modifyReader
  rw [State.reader_setReader_self, State.setReader_setReader, State.setReader_config]

/-! ### The classes of a frame (R160) -/

theorem classifyFrame_good {threshold : Nat} {frame : List Byte} (hcheck : byteAt frame 5 = crc8 (frame.take 5))
    (hlo : 1 ≤ (byteAt frame 4).toNat) (hhi : (byteAt frame 4).toNat ≤ 100) (ht : threshold ≤ (byteAt frame 4).toNat)
    (hcode : word32 frame 0 ≠ 0#32) : classifyFrame threshold frame = .good (word32 frame 0) := by
  unfold classifyFrame
  dsimp only
  rw [if_neg (not_not_intro hcheck), if_neg (fun h => h.elim (fun h => by omega) (fun h => hcode h.2)), if_neg (by omega),
    if_neg (by omega)]

theorem classifyFrame_bad {threshold : Nat} {frame : List Byte}
    (h : ¬ (byteAt frame 5 = crc8 (frame.take 5) ∧ 1 ≤ (byteAt frame 4).toNat ∧ (byteAt frame 4).toNat ≤ 100 ∧
      threshold ≤ (byteAt frame 4).toNat ∧ word32 frame 0 ≠ 0#32)) : (classifyFrame threshold frame).bad = true := by
  unfold classifyFrame
  dsimp only
  split
  · rfl
  · next hcheck =>
    split
    · rfl
    · next hform =>
      split
      · rfl
      · next hread =>
        split
        · rfl
        · next hlow =>
          obtain ⟨hhi, hcode⟩ := not_or.mp hform
          refine absurd ⟨not_not.mp hcheck, by omega, by omega, by omega, fun e => hcode ⟨by omega, e⟩⟩ h

theorem handOn_scanner_bad {f : FrameClass} (h : f.bad = true) (s : State) (time : Nat) :
    s.handOn .scanner f time = s := by
  cases f with
  | good code => cases h
  | _ => rfl

theorem laneFrame_judged_good {s : State} {p : Port} {attempt : Attempt} (hs : (s.port p).stop = .reading attempt)
    (hf : s.following = true) (code : Code) : s.laneFrame p (.good code) = s.verify p code := by
  unfold State.laneFrame
  simp only [hs, hf, if_true]

theorem laneFrame_judged_bad {s : State} {p : Port} {attempt : Attempt} (hs : (s.port p).stop = .reading attempt)
    (hf : s.following = true) {f : FrameClass} (h : f.bad = true) : s.laneFrame p f = s.failedRead p attempt := by
  unfold State.laneFrame
  simp only [hs, hf, if_true]
  cases f with
  | good code => cases h
  | _ => rfl

theorem laneFrame_not_judged {s : State} {p : Port}
    (h : s.following = false ∨ ∀ attempt, (s.port p).stop ≠ .reading attempt) (f : FrameClass) : s.laneFrame p f = s := by
  unfold State.laneFrame
  split
  · next attempt ha =>
    rw [if_neg]
    rcases h with h | h
    · rw [h]
      exact Bool.false_ne_true
    · exact absurd ha (h attempt)
  all_goals rfl

/-! ### The rows of the readers -/

theorem exec_readerFrame {s : State} (hl : s.resetHeld = false) (c : Channel) (bytes : List Byte) (time : Nat) :
    exec (.readerFrame c bytes time) s = .next (bytes.foldl (State.takeReaderByte c time) s) := by
  show Host.Outcome.next (s.whenLive _) = _
  rw [State.whenLive_of_live hl]

theorem exec_readerMarker {s : State} (hl : s.resetHeld = false) (c : Channel) :
    exec (.readerMarker c) s = .next (match (s.reader c).receiver with
      | .receiving _ => s.discardFrame c .ignoring
      | _ => s.modifyReader c (fun r => { r with receiver := .receiving [] })) := by
  show Host.Outcome.next (s.whenLive _) = _
  rw [State.whenLive_of_live hl]
  cases (s.reader c).receiver <;> rfl

theorem exec_readerStopBitError {s : State} (hl : s.resetHeld = false) (c : Channel) :
    exec (.readerStopBitError c) s = .next (match (s.reader c).receiver with
      | .receiving _ => s.discardFrame c .ignoring
      | _ => s) := by
  show Host.Outcome.next (s.whenLive _) = _
  rw [State.whenLive_of_live hl]
  cases (s.reader c).receiver <;> rfl

theorem exec_readerRuntTimeout {s : State} (hl : s.resetHeld = false) (c : Channel) :
    exec (.readerRuntTimeout c) s = .next (match (s.reader c).receiver with
      | .receiving _ => s.discardFrame c .hunting
      | _ => s) := by
  show Host.Outcome.next (s.whenLive _) = _
  rw [State.whenLive_of_live hl]
  cases (s.reader c).receiver <;> rfl

/-- Settles O40: the receiver's state decides; six bytes are classified, handed on and counted (`takeReaderBytes_whole`). -/
theorem readerFramesAreClassified : Obligations.ReaderFramesAreClassified := by
  intro c bytes time s hl r cut
  refine ⟨fun taken hr => ?cut, fun hr => ?between, fun held hr hheld => ?receiving, fun more u hu => ?append⟩
  case cut =>
    have hr' : (s.reader c).receiver = .receiving taken := hr
    refine ⟨?_, ?_, ?_⟩
    · rw [exec_readerMarker hl, hr']
      rfl
    · rw [exec_readerStopBitError hl, hr']
      rfl
    · rw [exec_readerRuntTimeout hl, hr']
      rfl
  case between =>
    refine ⟨?_, ?_, ?_, ?_⟩
    · rw [exec_readerMarker hl]
      rcases hr with hr | hr <;> rw [show (s.reader c).receiver = _ from hr] <;> rfl
    · rw [exec_readerStopBitError hl]
      rcases hr with hr | hr <;> rw [show (s.reader c).receiver = _ from hr]
    · rw [exec_readerRuntTimeout hl]
      rcases hr with hr | hr <;> rw [show (s.reader c).receiver = _ from hr]
    · rw [exec_readerFrame hl, takeReaderBytes_skipped hr]
  case receiving =>
    intro frame code quality good t counted
    have whole : frame.length = 6 → ∀ {u : State} {f : FrameClass},
        classifyFrame s.config.qualityThreshold frame = f → t.handOn c f time = u → counted u f.bad := fun hlen u f hf hu => by
      show exec (.readerFrame c bytes time) s = .next (u.settle.countFrame c f.bad).settle
      rw [exec_readerFrame hl, takeReaderBytes_whole time hr hheld hlen]
      show Host.Outcome.next (((t.handOn c (classifyFrame s.config.qualityThreshold frame) time).settle.countFrame c
        (classifyFrame s.config.qualityThreshold frame).bad).settle) = _
      rw [hf, hu]
    have passed : good → classifyFrame s.config.qualityThreshold frame = .good code := fun ⟨hcheck, hlo, hhi, ht, hcode⟩ =>
      classifyFrame_good hcheck hlo hhi ht hcode
    have failed : ¬ good → (classifyFrame s.config.qualityThreshold frame).bad = true := fun h => classifyFrame_bad h
    refine ⟨fun hlen => ?held, fun hlen hc => ?scanner, fun p hlen hc => ?port⟩
    case held => rw [exec_readerFrame hl, takeReaderBytes_held time bytes hr hlen]
    case scanner =>
      subst hc
      refine ⟨fun hg => ?_, fun hb => ?_⟩
      · have := whole hlen (passed hg) (u := t.scannerRead code time) rfl
        exact this
      · have := whole hlen (u := t) rfl (handOn_scanner_bad (failed hb) t time)
        rwa [failed hb] at this
    case port =>
      intro judged
      subst hc
      have hport : t.port p = s.port p := State.port_setReader s _ _ p
      have hfollow : t.following = s.following := by
        unfold State.following
        rw [State.setReader_bench]
      refine ⟨fun attempt hj hs => ?judged, fun hj => ?notJudged⟩
      case judged =>
        have hstop : (t.port p).stop = .reading attempt := by rw [hport, hs]
        have hf : t.following = true := by rw [hfollow, following_iff]; exact hj
        refine ⟨fun hg => ?_, fun hb => ?_⟩
        · have := whole hlen (passed hg) (u := t.verify p code) (laneFrame_judged_good hstop hf code)
          exact this
        · have := whole hlen (u := t.failedRead p attempt) rfl (laneFrame_judged_bad hstop hf (failed hb))
          rwa [failed hb] at this
      case notJudged =>
        have hrest : ∀ f, t.laneFrame p f = t := laneFrame_not_judged (by
          rw [hport, hfollow]
          exact hj.imp_left following_of_not)
        refine ⟨fun hg => ?_, fun hb => ?_⟩
        · have := whole hlen (passed hg) (u := t) (hrest (.good code))
          exact this
        · have := whole hlen (u := t) rfl (hrest (classifyFrame s.config.qualityThreshold frame))
          rwa [failed hb] at this
  case append =>
    rw [exec_readerFrame hl] at hu
    obtain rfl := Host.Outcome.next.inj hu
    have hl' : (bytes.foldl (State.takeReaderByte c time) s).resetHeld = false :=
      (Reach.foldl _ (reach_takeReaderByte c time) bytes s).changes.resetHeld.trans hl
    rw [exec_readerFrame hl, exec_readerFrame hl', List.foldl_append]

end Sys2Proof.Machine

/-! ## The loop

The divert decision and its collisions, arms that are not confirmed, sightings, and the scanner's reads (R71 to R91). -/

namespace Sys2Proof.Machine

/-! ### Collisions and the divert decision (R84 to R87) -/

theorem collide_draws {s : State} {i : Slot} {r : Source} (hr : s.source i = some r) (hi : r.state = .inbound)
    (h : r.attemptsAfter s.config.divertLimit < s.config.divertLimit) :
    s.collide i = s.drawBackoff i r (r.attemptsAfter s.config.divertLimit) := by
  unfold State.collide
  simp only [hr]
  rw [if_pos hi, if_pos h]

theorem collide_exhausts {s : State} {i : Slot} {r : Source} (hr : s.source i = some r) (hi : r.state = .inbound)
    (h : s.config.divertLimit ≤ r.attemptsAfter s.config.divertLimit) :
    s.collide i = s.exhaust i (r.attemptsAfter s.config.divertLimit) := by
  unfold State.collide
  simp only [hr]
  rw [if_pos hi, if_neg (Nat.not_lt.mpr h)]

theorem collide_rests {s : State} {i : Slot} (h : ∀ r, s.source i = some r → r.state ≠ .inbound) : s.collide i = s := by
  unfold State.collide
  split
  · rfl
  · next r hr => exact if_neg (h r hr)

theorem divertDecision_rests {s : State} {i : Slot} {r : Source} (hr : s.source i = some r) (hi : r.state ≠ .inbound) :
    s.divertDecision i = s := by
  unfold State.divertDecision
  simp only [hr]
  exact if_neg hi

theorem divertDecision_inbound {s : State} {i : Slot} {r : Source} (hr : s.source i = some r) (hi : r.state = .inbound) :
    s.divertDecision i = if s.bench = .halted then s
      else if 0 < r.backoff then s.putSource i { r with backoff := r.backoff - 1 }
      else if (s.port r.port).accepts then s.armDivert r.port (.slot i)
      else s.collide i := by
  unfold State.divertDecision
  simp only [hr]
  exact if_pos hi

/-- Settles O43: the decision by bench state, backoff and port; the collision by the attempts and the recycles. -/
theorem collisionsBackOffOrExhaust : Obligations.CollisionsBackOffOrExhaust := by
  intro i r s hr p q n
  refine ⟨fun hi => ⟨fun hh => ?halted, fun hh hb => ?backoff, fun hh hb => ⟨fun ha => ?accepted, fun ha => ?refused⟩,
    fun hn => ?draws, fun hn hc => ?recycled, fun hn hc => ?exhausted⟩, fun hi => ?outside, fun port => ?output⟩
  case halted => rw [divertDecision_inbound hr hi, if_pos hh]
  case backoff => rw [divertDecision_inbound hr hi, if_neg hh, if_pos hb]
  case accepted =>
    rw [divertDecision_inbound hr hi, if_neg hh, if_neg (by omega), if_pos (accepts_iff.mp ha)]
    rfl
  case refused =>
    rw [divertDecision_inbound hr hi, if_neg hh, if_neg (by omega), if_neg fun h => ha (accepts_iff.mpr h)]
  case draws =>
    exact ⟨_, Nat.mod_lt _ (Nat.two_pow_pos _), collide_draws hr hi hn⟩
  case recycled =>
    intro u
    rw [collide_exhausts hr hi hn]
    unfold State.exhaust
    simp only [hr]
    rw [if_pos (show r.recycleCount < Config.recycleLimit from hc), dropArmOf_eq, State.port_putSource, sendReturn_placed]
    rfl
  case exhausted =>
    rw [collide_exhausts hr hi hn]
    unfold State.exhaust
    simp only [hr]
    rw [if_neg (show ¬ r.recycleCount < Config.recycleLimit from Nat.not_lt.mpr hc)]
    rfl
  case outside =>
    exact ⟨divertDecision_rests hr hi, collide_rests fun x hx => by cases hr.symm.trans hx; exact hi⟩
  case output =>
    unfold PortRec.divertArm
    rw [Option.isSome_iff_ne_none]

/-! ### Arms that are not confirmed (R90, R91) -/

theorem exec_confirmWindowExpiry {s : State} (hl : s.resetHeld = false) (p : Port) :
    exec (.confirmWindowExpiry p) s = .next (s.endUnconfirmed p).settle := by
  show Host.Outcome.next (s.whenLive _) = _
  rw [State.whenLive_of_live hl]

/-- Settles O44: no arm, a slot's arm, a FOREIGN arm. -/
theorem unconfirmedDivertsAreCounted : Obligations.UnconfirmedDivertsAreCounted := by
  intro p s q n ended faulted answers
  have answersBy : ∀ {u : State}, s.endUnconfirmed p = u → answers u := fun e =>
    ⟨e, fun hl => by rw [exec_confirmWindowExpiry hl, e]⟩
  refine ⟨fun ha => ⟨answersBy ?noArm, ?noArmWithdrawn⟩, fun i x window ha hx => ⟨answersBy ?slot, ?slotWithdrawn⟩,
    fun reason code window ha => ⟨answersBy ?foreign, ?foreignWithdrawn⟩⟩
  case noArm =>
    unfold State.endUnconfirmed
    rw [show (s.port p).arm = none from ha]
  case noArmWithdrawn =>
    unfold State.withdrawArm
    rw [show (s.port p).arm = none from ha]
  case slot =>
    unfold State.endUnconfirmed
    simp only [show (s.port p).arm = some ⟨.slot i, window⟩ from ha, State.unconfirmedNotice, hx]
    rfl
  case slotWithdrawn =>
    unfold State.withdrawArm
    simp only [show (s.port p).arm = some ⟨.slot i, window⟩ from ha]
    rfl
  case foreign =>
    unfold State.endUnconfirmed
    simp only [show (s.port p).arm = some ⟨.foreign reason code, window⟩ from ha, State.unconfirmedNotice]
    rfl
  case foreignWithdrawn =>
    unfold State.withdrawArm
    simp only [show (s.port p).arm = some ⟨.foreign reason code, window⟩ from ha]
    rfl

/-! ### Sightings of source records (R74 to R79) -/

/-- The record whose presentation ends loses its current line, if it is presented, and nothing else. -/
theorem source_endPresentationOf {s : State} {i : Slot} {r : Source} (hr : s.source i = some r) (p : Port) :
    ∃ x, (s.endPresentationOf p i).source i = some x ∧ ({ x with current := none } : Source) = { r with current := none } := by
  unfold State.endPresentationOf
  split
  · next hp =>
    refine ⟨{ r with current := none }, ?_, rfl⟩
    unfold State.endPresentation
    simp only [hp]
    unfold State.enterHeld State.modifyStation
    rw [State.modifySource_of_some hr]
    split <;> simp
  · exact ⟨r, hr, rfl⟩

theorem sightSource_by_mark {s : State} {i : Slot} {r : Source} (hr : s.source i = some r) : s.sightSource i =
    match r.state with
    | .queued => s.adopt i
    | .inbound => s.sightInbound i r.port
    | .releasing => s.takeExit r.port
    | .returning => s
    | .recycling => s
    | .calling | .called | .cancelling => if r.marked then s.sendHome i else s.adopt i
    | .laned | .atStop | .ready | .presented => if r.marked then s.sendHome i else s.sightLane i
    | .missing => if r.marked then s.sendHome i else s.sightMissing i := by
  unfold State.sightSource
  simp only [hr]
  cases r.state <;> rfl

/-- Settles O42: by the state, and for the states a mark sends home, by the marks. -/
theorem sightingsMoveTheRecord : Obligations.SightingsMoveTheRecord := by
  intro i r s hr p q again unlisted moved told
  have hsight := sightSource_by_mark hr
  have adopts : s.adopt i = s.putSource i { r.found with state := .inbound } := by
    unfold State.adopt
    rw [State.modifySource_of_some hr]
    rfl
  have hunlisted : ∀ t : State, t.port p = q → t.unidentify p i = t.setPort p unlisted := fun t ht => by
    unfold State.unidentify State.modifyPort
    rw [ht]
    congr 1
    by_cases ha : again
    · simp only [if_pos (show q.lane.head? = some (.slot i) ∧ q.stop = .verified from ha), unlisted, if_pos ha]
      rfl
    · simp only [if_neg (show ¬ (q.lane.head? = some (.slot i) ∧ q.stop = .verified) from ha), unlisted, if_neg ha]
  have goesHome : s.sendHome i =
      (((s.putSource i r.found).setPort p unlisted).endPresentationOf p i).enterReturning i (leavingBy r) := by
    unfold State.sendHome
    simp only [hr]
    rw [hunlisted (s.putSource i r.giveBack) rfl]
    rfl
  have corrects : s.sightLane i = told.setPort p { unlisted with queue := toHead i q.queue } := by
    obtain ⟨x, hx, hcurrent⟩ := source_endPresentationOf (s := s.setPort p unlisted) hr p
    have hmoved : ((s.setPort p unlisted).endPresentationOf p i).modifySource i
        (fun q => { q with state := .inbound, current := none }) = moved := by
      rw [State.modifySource_of_some hx]
      exact congrArg (fun y : Source => ((s.setPort p unlisted).endPresentationOf p i).putSource i
        { y with state := .inbound }) hcurrent
    have hport : told.port p = unlisted := by
      simp only [told]
      split <;> simp [moved]
    have hlane : s.sightLane i = told.queueHead p i := by
      unfold State.sightLane
      simp only [hr]
      rw [hunlisted s rfl, hmoved]
    rw [hlane]
    unfold State.queueHead State.modifyPort
    rw [hport]
    rfl
  have found : s.sightMissing i = ((s.putSource i { r.found with state := .inbound }).setPort p
      { q with queue := toHead i q.queue }).post (.presentRegained i r.tote.code p .sighted) := by
    unfold State.sightMissing
    simp only [hr]
    rfl
  refine ⟨fun hs => ?queued, fun hu => ⟨fun hs => ?called, fun hs => ?laned, fun hs => ?missing⟩, fun hm hs => ?marked,
    fun hs => ⟨fun ha => ?armed, fun ha => ?unarmed⟩, fun hs => ?releasing, fun hs => ?leaving⟩
  case queued => rw [hsight, hs, adopts]
  case called =>
    have hmark := unmarked_iff.mp hu
    rcases hs with hs | hs | hs <;> simp only [hsight, hs, hmark, Bool.false_eq_true, if_false, adopts]
  case laned =>
    have hmark := unmarked_iff.mp hu
    rcases hs with hs | hs | hs | hs <;> simp only [hsight, hs, hmark, Bool.false_eq_true, if_false, corrects]
  case missing =>
    have hmark := unmarked_iff.mp hu
    simp only [hsight, hs, hmark, Bool.false_eq_true, if_false, found]
  case marked =>
    have hmark := marked_of_not_unmarked hm
    rcases hs with hs | hs | hs | hs | hs | hs | hs | hs <;> simp only [hsight, hs, hmark, if_true, goesHome]
  case armed =>
    rw [hsight, hs]
    exact if_pos ha
  case unarmed =>
    rw [hsight, hs]
    exact if_neg ha
  case releasing => rw [hsight, hs]
  case leaving => rcases hs with hs | hs <;> rw [hsight, hs]

/-! ### The scanner's reads (R71 to R73, R81 to R83, R91) -/

theorem isDuplicate_iff {s : State} {code : Code} {time : Nat} : s.isDuplicate code time = true ↔
    ∃ f, s.dupFilter = some f ∧ f.code = code ∧ time ≤ f.time + 1000000 := by
  unfold State.isDuplicate
  cases s.dupFilter with
  | none => simp
  | some f =>
    simp only [Bool.and_eq_true, decide_eq_true_eq, Nat.sub_le_iff_le_add', Option.some.injEq, exists_eq_left']

theorem scannerRead_following {s : State} (h : s.following = true) (code : Code) (time : Nat) : s.scannerRead code time =
    if s.isDuplicate code time then { s with dupFilter := some { code := code, time := time } }
    else (allPorts.foldl (State.endForeignArm code) { s with dupFilter := some { code := code, time := time } }).identify
      code := if_pos h

theorem capturePort_of_takes {s : State} {configured : Option Port} {p : Port} (hc : configured = some p)
    (hr : s.bench = .running) (ha : Accepts (s.port p)) : s.capturePort configured = some p := by
  subst hc
  exact if_pos ⟨hr, accepts_iff.mp ha⟩

theorem capturePort_none {s : State} {configured : Option Port}
    (h : ∀ p, ¬ (configured = some p ∧ s.bench = .running ∧ Accepts (s.port p))) : s.capturePort configured = none := by
  cases configured with
  | none => rfl
  | some p => exact if_neg fun ⟨hr, ha⟩ => h p ⟨rfl, hr, accepts_iff.mpr ha⟩

theorem identify_source {s : State} {code : Code} {i : Slot} {r : Source} (hc : code ≠ serviceCode)
    (hf : s.findCode code = some i) (hr : s.source i = some r) :
    s.identify code = (s.sightSource i).divertDecision i := by
  unfold State.identify
  rw [if_neg hc, hf]
  simp only [hr]

theorem identify_order {s : State} {code : Code} {i : Slot} (hc : code ≠ serviceCode) (hf : s.findCode code = some i)
    (hr : s.source i = none) : s.identify code = s.sightOrder i code := by
  unfold State.identify
  rw [if_neg hc, hf]
  simp only [hr]

theorem identify_unknown {s : State} {code : Code} (hc : code ≠ serviceCode) (hf : s.findCode code = none) :
    s.identify code = s.sightUnknown code := by
  unfold State.identify
  rw [if_neg hc, hf]

theorem State.source_of_order_record {s : State} {i : Slot} {o : Order} (h : s.record i = some (.order o)) :
    s.source i = none := by
  unfold State.source
  rw [h]

/-- Settles O41: the read by the bench state and the filter, the code by what holds it. -/
theorem scannerReadsAreIdentified : Obligations.ScannerReadsAreIdentified := by
  intro code time s noted whole repeated byte reported takes armed
  refine ⟨fun hb => ?unfollowed, fun hb => ⟨fun hd => ?duplicate, fun hd => ?read⟩,
    fun hc => ⟨fun p hp => ?service, fun hp => ?serviceNone⟩,
    fun i x hc hx hcode hu => ⟨fun hk => ?source, fun hk => ?order⟩, fun hc hno => ?unknown⟩
  case unfollowed =>
    have hf : s.following = false := following_of_not fun h => by
      rcases hb with hb | hb <;> simp [hb] at h
    unfold State.scannerRead
    rw [hf]
    rfl
  case duplicate =>
    rw [scannerRead_following (following_iff.mpr hb)]
    exact if_pos (isDuplicate_iff.mpr hd)
  case read =>
    rw [scannerRead_following (following_iff.mpr hb), if_neg fun h => hd (isDuplicate_iff.mp h)]
    refine congrArg (fun f => (allPorts.foldl f noted).identify code) (a₁ := State.endForeignArm code) ?_
    funext u p
    unfold State.endForeignArm
    rcases (u.port p).arm with _ | ⟨_ | _, _⟩ <;> rfl
  case service =>
    obtain ⟨hport, hr, ha⟩ := hp
    subst hc
    show s.armForeign (s.capturePort s.config.servicePort) .service serviceCode = _
    rw [capturePort_of_takes hport hr ha]
    rfl
  case serviceNone =>
    subst hc
    show s.armForeign (s.capturePort s.config.servicePort) .service serviceCode = _
    rw [capturePort_none hp]
    rfl
  case source =>
    cases x with
    | order o => cases hk
    | source r => exact identify_source hc (findCode_of_unique hx hcode hu) (State.source_eq_some.mpr hx)
  case order =>
    cases x with
    | source r => cases hk
    | order o => exact identify_order hc (findCode_of_unique hx hcode hu) (State.source_of_order_record hx)
  case unknown =>
    have hreports : s.config.reports code = true ↔ reported := by
      have hindex : familyIndex code = (byte 3 + byte 2 + byte 1 + byte 0) % 64 := by
        show (byte 3 + (byte 2 + (byte 1 + (byte 0 + 0)))) % 64 = _
        rw [Nat.add_zero, ← Nat.add_assoc, ← Nat.add_assoc]
      unfold Configuration.reports
      rw [Bool.or_eq_true, hindex]
    rw [identify_unknown hc (findCode_none hno)]
    refine ⟨fun hn => ?silent, fun p hr hp => ?captured, fun hr hp => ?stray⟩
    case silent => exact if_neg fun h => hn (hreports.mp h)
    case captured =>
      obtain ⟨hport, hrun, ha⟩ := hp
      unfold State.sightUnknown
      rw [if_pos (hreports.mpr hr), capturePort_of_takes hport hrun ha]
      rfl
    case stray =>
      unfold State.sightUnknown
      rw [if_pos (hreports.mpr hr), capturePort_none hp]
      rfl

end Sys2Proof.Machine

/-! ## The lanes

The entry, seat and exit sensors, the read windows, and the reads at a stop (R95 to R109). -/

namespace Sys2Proof.Machine

/-! ### Entries (R89, R96) -/

theorem exec_entryEvent {s : State} (hl : s.resetHeld = false) (p : Port) :
    exec (.entryEvent p) s = .next (if s.following then (s.takeEntry p).settle else s) := by
  show Host.Outcome.next (s.whenLive _) = _
  rw [State.whenLive_of_live hl]

theorem takeEntry_overfill {s : State} {p : Port} (h : 3 ≤ (s.port p).lane.length) :
    s.takeEntry p = (s.withdrawArm p).raiseFault p .overfill := if_neg (Nat.not_lt.mpr h)

theorem takeEntry_unarmed {s : State} {p : Port} (h : (s.port p).lane.length < 3) (ha : (s.port p).arm = none) :
    s.takeEntry p = s.setPort p { s.port p with lane := (s.port p).lane ++ [.unidentified] } := by
  unfold State.takeEntry
  rw [if_pos h, ha]
  rfl

theorem takeEntry_armed {s : State} {p : Port} (h : (s.port p).lane.length < 3) {a : Arm} (ha : (s.port p).arm = some a) :
    s.takeEntry p = s.consumeArm p a.item := by
  unfold State.takeEntry
  rw [if_pos h, ha]

theorem consumeArm_slot {s : State} {i : Slot} {r : Source} (hr : s.source i = some r) (p : Port) :
    s.consumeArm p (.slot i) = (s.putSource i { r with state := .laned }).setPort p
      { s.port p with
        lane := (s.port p).lane ++ [.slot i], arm := none, unconfirmed := 0, queue := withoutSlot i (s.port p).queue } := by
  unfold State.consumeArm State.unqueue State.modifyPort
  simp only [ArmItem.entry]
  rw [State.modifySource_of_some (show (s.setPort p _).source i = some r from hr), State.port_putSource,
    State.port_setPort_self, State.setPort_putSource, State.setPort_setPort]

/-- Settles O45: the overfill, and below it the entry by the arm. -/
theorem entriesJoinTheLane : Obligations.EntriesJoinTheLane := by
  intro p s hl q followed answers
  have answersBy : ∀ {u : State}, followed → s.takeEntry p = u → answers u := fun hf e => by
    show exec (.entryEvent p) s = _
    rw [exec_entryEvent hl, if_pos (following_iff.mpr hf), e]
  refine ⟨fun hf => ?unfollowed, fun hf h => answersBy hf (takeEntry_overfill h), fun hf h =>
    ⟨fun ha => answersBy hf (takeEntry_unarmed h ha), fun i r window ha hr => answersBy hf ?slot,
      fun reason code window ha => answersBy hf (takeEntry_armed h ha)⟩⟩
  case unfollowed => rw [exec_entryEvent hl, following_of_not hf, if_neg Bool.false_ne_true]
  case slot => exact (takeEntry_armed h ha).trans (consumeArm_slot hr p)

/-! ### The seat (R97, R109) -/

theorem exec_seatOn {s : State} (hl : s.resetHeld = false) (p : Port) : exec (.seatOn p) s =
    .next (if s.following = true ∧ s.seatLevel p = false then ((s.setSeat p true).takeSeatOn p).settle
      else s.setSeat p true) := by
  show Host.Outcome.next ((s.setSeat p true).whenLive _) = _
  rw [State.whenLive_of_live (show (s.setSeat p true).resetHeld = false from hl)]
  exact congrArg _ (ite_cond_congr (by simp only [Bool.and_eq_true, Bool.not_eq_true']; rfl))

theorem exec_seatOff {s : State} (hl : s.resetHeld = false) (p : Port) : exec (.seatOff p) s =
    .next (if s.following = true ∧ s.seatLevel p = true then ((s.setSeat p false).takeSeatOff p).settle
      else s.setSeat p false) := by
  show Host.Outcome.next ((s.setSeat p false).whenLive _) = _
  rw [State.whenLive_of_live (show (s.setSeat p false).resetHeld = false from hl)]
  exact congrArg _ (ite_cond_congr (by simp only [Bool.and_eq_true]; rfl))

theorem seatHead_empty {s : State} {p : Port} (h : (s.port p).lane = []) : s.seatHead p = s.setPort p
    { s.port p with
      stop := .reading .first, readPulses := (s.port p).readPulses + 1, lane := [.unidentified] } := by
  unfold State.seatHead State.modifyPort
  simp only [h]
  rfl

theorem seatHead_slot {s : State} {p : Port} {i : Slot} {r : Source} (h : (s.port p).lane.head? = some (.slot i))
    (hr : s.source i = some r) : s.seatHead p = (s.setPort p
      { s.port p with stop := .reading .first, readPulses := (s.port p).readPulses + 1 }).putSource i
        { r with state := .atStop } := by
  obtain ⟨rest, hlane⟩ := List.head?_eq_some_iff.mp h
  unfold State.seatHead State.modifyPort
  simp only [hlane, List.isEmpty_cons, Bool.false_eq_true, if_false]
  rw [State.modifySource_of_some (show (s.setPort p _).source i = some r from hr), ← hlane]
  rfl

theorem seatHead_other {s : State} {p : Port} {e : LaneEntry} (h : (s.port p).lane.head? = some e)
    (he : ∀ i, e ≠ .slot i) : s.seatHead p =
      s.setPort p { s.port p with stop := .reading .first, readPulses := (s.port p).readPulses + 1 } := by
  obtain ⟨rest, hlane⟩ := List.head?_eq_some_iff.mp h
  unfold State.seatHead State.modifyPort
  cases e with
  | slot i => exact absurd rfl (he i)
  | unidentified | foreign =>
    simp only [hlane, List.isEmpty_cons, Bool.false_eq_true, if_false]
    rw [← hlane]
    rfl

theorem takeSeatOn_rests {s : State} {p : Port} (hv : (s.port p).stop ≠ .vacant)
    (hc : ∀ waiting, (s.port p).stop ≠ .openClear waiting) : s.takeSeatOn p = s := by
  unfold State.takeSeatOn
  cases hs : (s.port p).stop with
  | vacant => exact absurd hs hv
  | openClear waiting => exact absurd hs (hc waiting)
  | reading _ | verified | holding | openSeated | leaving => rfl

theorem takeSeatOff_loses {s : State} {p : Port}
    (h : (s.port p).stop = .verified ∨ (s.port p).stop = .holding ∨ ∃ attempt, (s.port p).stop = .reading attempt) :
    s.takeSeatOff p = s.loseHead p .vacant .seatLost := by
  unfold State.takeSeatOff
  rcases h with h | h | ⟨attempt, h⟩ <;> simp only [h]

/-- Settles O46: the level's repeats, then each edge by the stop. -/
theorem seatEventsMoveTheStop : Obligations.SeatEventsMoveTheStop := by
  intro p s hl q followed seated goes reading
  refine ⟨fun hf => ⟨?onUnfollowed, ?offUnfollowed⟩, fun _ h => ?onRepeats, fun _ h => ?offRepeats,
    fun hf h => ?on, fun hf h => ?off, ?request⟩
  case onUnfollowed => exact (exec_seatOn hl p).trans (congrArg _ (if_neg fun g => hf (following_iff.mp g.1)))
  case offUnfollowed => exact (exec_seatOff hl p).trans (congrArg _ (if_neg fun g => hf (following_iff.mp g.1)))
  case onRepeats => exact (exec_seatOn hl p).trans (congrArg _ (if_neg fun g => by simp [h] at g))
  case offRepeats => exact (exec_seatOff hl p).trans (congrArg _ (if_neg fun g => by simp [h] at g))
  case on =>
    intro answers
    have answersBy : ∀ {u : State}, (seated true).takeSeatOn p = u → answers u := fun e => by
      show exec (.seatOn p) s = _
      rw [← e, exec_seatOn hl, if_pos ⟨following_iff.mpr hf, h⟩]
      rfl
    have vacant : q.stop = .vacant → (seated true).takeSeatOn p = (seated true).seatHead p := fun hs => by
      unfold State.takeSeatOn
      rw [show ((seated true).port p).stop = .vacant from hs]
    refine ⟨fun hs => ⟨fun hlane => answersBy ((vacant hs).trans (seatHead_empty hlane)),
      fun i r hhead hr => answersBy ((vacant hs).trans (seatHead_slot hhead hr)),
      fun e hhead he => answersBy ((vacant hs).trans (seatHead_other hhead he))⟩, fun waiting hs => answersBy ?clear,
      fun hv hc => answersBy (takeSeatOn_rests hv hc)⟩
    case clear =>
      unfold State.takeSeatOn
      rw [show ((seated true).port p).stop = .openClear waiting from hs]
      rfl
  case off =>
    intro answers
    have answersBy : ∀ {u : State}, (seated false).takeSeatOff p = u → answers u := fun e => by
      show exec (.seatOff p) s = _
      rw [← e, exec_seatOff hl, if_pos ⟨following_iff.mpr hf, h⟩]
      rfl
    have byStop : ∀ {stop : Stop}, q.stop = stop → ((seated false).port p).stop = stop := fun hs => hs
    refine ⟨fun hs => answersBy ?seated, fun waiting hs => answersBy ?clear, fun hs => answersBy ?leaving,
      fun hs => answersBy ?vacant, fun hs => answersBy (takeSeatOff_loses hs)⟩
    case vacant => unfold State.takeSeatOff; rw [byStop hs]
    all_goals unfold State.takeSeatOff; rw [byStop hs]; rfl
  case request =>
    show (s.port p).readRequest = true ↔ ∃ attempt, (s.port p).stop = .reading attempt
    unfold PortRec.readRequest
    cases (s.port p).stop <;> simp

/-! ### Exits and losses (R107, R109) -/

theorem exec_readerExitEvent {s : State} (hl : s.resetHeld = false) (p : Port) :
    exec (.readerExitEvent p) s = .next (if s.following then (s.takeExitEvent p).settle else s) := by
  show Host.Outcome.next (s.whenLive _) = _
  rw [State.whenLive_of_live hl]

theorem takeExit_cons {s : State} {p : Port} {head : LaneEntry} {rest : List LaneEntry}
    (h : (s.port p).lane = head :: rest) : s.takeExit p =
      (let moved := s.setPort p
        { s.port p with lane := rest, stop := (s.port p).stop.afterExit.1, exitWindow := none }
       if (s.port p).stop.afterExit.2 then moved.seatHead p else moved).exitResult head := by
  unfold State.takeExit
  rw [h]
  rfl

theorem loseHead_cons {s : State} {p : Port} {head : LaneEntry} {rest : List LaneEntry}
    (h : (s.port p).lane = head :: rest) (after : Stop) (detail : LostDetail) : s.loseHead p after detail =
      (s.setPort p { s.port p with lane := rest, stop := after }).loseEntry detail head := by
  unfold State.loseHead
  rw [h]
  rfl

theorem loseEntry_withdrawn {s : State} {i : Slot} {r : Source} (hr : s.source i = some r) (hw : r.withdraw = true)
    (detail : LostDetail) :
    s.loseEntry detail (.slot i) = (s.endPresentationOf r.port i).retireSource i .withdrawn := by
  unfold State.loseEntry
  simp only [hr]
  exact if_pos hw

theorem loseEntry_missing {s : State} {i : Slot} {r : Source} (hr : s.source i = some r) (hw : r.withdraw = false)
    (detail : LostDetail) : s.loseEntry detail (.slot i) =
      ((s.putSource i { r with state := .missing, current := none }).endPresentationOf r.port i).post
        (.presentLost i r.tote.code r.port detail) := by
  unfold State.loseEntry State.makeMissing
  simp only [hr]
  rw [hw]
  rfl

theorem loseEntry_other (s : State) {e : LaneEntry} (he : ∀ i, e ≠ .slot i) (detail : LostDetail) :
    s.loseEntry detail e = s := by
  cases e with
  | slot i => exact absurd rfl (he i)
  | unidentified | foreign => rfl

theorem exitResult_misrouted {s : State} {code : Code} {i : Slot} (h : s.findCode code = some i) :
    s.exitResult (.foreign .misrouted code) = s.collide i := by
  unfold State.exitResult
  simp only [h]

theorem exitResult_unknown {s : State} {code : Code} (h : s.findCode code = none) :
    s.exitResult (.foreign .misrouted code) = s := by
  unfold State.exitResult
  simp only [h]

theorem record_of_findCode {s : State} {code : Code} {i : Slot} (h : s.findCode code = some i) :
    ∃ x, s.record i = some x ∧ x.tote.code = code := by
  have hi := List.find?_some h
  cases hx : s.record i with
  | none => simp [hx] at hi
  | some x => exact ⟨x, rfl, by simpa [hx] using hi⟩

/-- A code that only orders hold is found at an order, if it is found. -/
theorem source_of_findCode_order {s : State} {code : Code} {i : Slot} (h : s.findCode code = some i)
    (ho : ∀ j y, s.record j = some y → y.tote.code = code → y.kind = .order) : s.source i = none := by
  obtain ⟨x, hx, hc⟩ := record_of_findCode h
  cases x with
  | order o => exact State.source_of_order_record hx
  | source r => exact absurd (ho i _ hx hc) nofun

/-- Settles O47: the exit by the stop, the released head and the lost head by what they are. -/
theorem exitsAndLossesRemoveTheHead : Obligations.ExitsAndLossesRemoveTheHead := by
  intro p s q followed answers
  refine ⟨fun hl => ⟨fun hf => ?unfollowed, fun hf => ?exit⟩, fun head rest hlane => ?head,
    fun i r hr => ⟨?complete, ?withdrawn, ?expiry, ?failed, ?misrouted⟩, fun code ho => ?strayed,
    fun reason code hne => ?foreign, rfl⟩
  case unfollowed => rw [exec_readerExitEvent hl, following_of_not hf, if_neg Bool.false_ne_true]
  case exit =>
    have answersBy : ∀ {u : State}, s.takeExitEvent p = u → answers u := fun e => by
      show exec (.readerExitEvent p) s = _
      rw [exec_readerExitEvent hl, if_pos (following_iff.mpr hf), e]
    refine ⟨fun hs => answersBy ?opened, fun hs => answersBy ?rests, fun hs => answersBy ?lost⟩
    case opened =>
      unfold State.takeExitEvent
      rcases hs with hs | ⟨waiting, hs⟩ <;> rw [show (s.port p).stop = _ from hs]
    case rests =>
      unfold State.takeExitEvent
      rcases hs with hs | hs <;> rw [show (s.port p).stop = _ from hs]
    case lost =>
      unfold State.takeExitEvent
      rcases hs with hs | hs | ⟨attempt, hs⟩ <;> rw [show (s.port p).stop = _ from hs]
  case head =>
    intro gone lost
    refine ⟨fun hs => ?seated, fun hs => ?clear, fun hs => ?waiting, fun stop detail =>
      ⟨fun i r hh hr hw => ?withdrawnHead, fun i r hh hr hw => ?missingHead, fun hh => ?otherHead⟩⟩
    case seated =>
      rw [takeExit_cons hlane, show (s.port p).stop = .openSeated from hs]
      rfl
    case clear =>
      rw [takeExit_cons hlane, show (s.port p).stop = .openClear false from hs]
      rfl
    case waiting =>
      rw [takeExit_cons hlane, show (s.port p).stop = .openClear true from hs]
      rfl
    case withdrawnHead =>
      rw [loseHead_cons hlane, hh]
      exact loseEntry_withdrawn (s := lost stop) hr hw detail
    case missingHead =>
      rw [loseHead_cons hlane, hh]
      exact loseEntry_missing (s := lost stop) hr hw detail
    case otherHead =>
      rw [loseHead_cons hlane]
      exact loseEntry_other _ hh detail
  case complete => intro h; unfold State.exitResult; simp only [hr, h]
  case withdrawn => intro h; unfold State.exitResult; simp only [hr, h]
  case expiry => intro h; unfold State.exitResult; simp only [hr, h]
  case failed =>
    intro h
    unfold State.exitResult
    simp only [hr, h]
    exact ⟨fun he => if_pos he, fun he => if_neg (by simp [he])⟩
  case misrouted =>
    intro hu
    exact exitResult_misrouted (findCode_of_unique (State.source_eq_some.mp hr) rfl hu)
  case strayed =>
    cases hf : s.findCode code with
    | none => exact exitResult_unknown hf
    | some i =>
      rw [exitResult_misrouted hf]
      exact collide_rests fun r hr => by simp [source_of_findCode_order hf ho] at hr
  case foreign =>
    cases reason with
    | misrouted => exact absurd rfl hne
    | stray | captured | service => rfl

end Sys2Proof.Machine

/-! ## The reads at a stop

The read windows, what opens the stop, and the records and totes a good read names (R98 to R106). -/

namespace Sys2Proof.Machine

/-! ### Failed reads and the opening of a stop (R98, R99, R106) -/

theorem exec_readWindowExpiry_reading {s : State} (hl : s.resetHeld = false) {p : Port} {attempt : Attempt}
    (h : (s.port p).stop = .reading attempt) : exec (.readWindowExpiry p) s = .next (s.failedRead p attempt).settle := by
  show Host.Outcome.next (s.whenLive _) = _
  rw [State.whenLive_of_live hl]
  simp only [h]

theorem exec_readWindowExpiry_none {s : State} (hl : s.resetHeld = false) {p : Port}
    (h : ∀ attempt, (s.port p).stop ≠ .reading attempt) : exec (.readWindowExpiry p) s = .next s := by
  show Host.Outcome.next (s.whenLive _) = _
  rw [State.whenLive_of_live hl]
  cases hs : (s.port p).stop with
  | reading attempt => exact absurd hs (h attempt)
  | vacant | verified | holding | openSeated | openClear _ | leaving => rfl

theorem openStop_slot {s : State} {p : Port} {i : Slot} {r : Source} (h : (s.port p).lane.head? = some (.slot i))
    (hr : s.source i = some r) : s.openStop p =
      ((s.setPort p { s.port p with stop := .openSeated, exitWindow := some 50 }).putSource i
        { r with state := .releasing }).endPresentationOf p i := by
  obtain ⟨rest, hlane⟩ := List.head?_eq_some_iff.mp h
  unfold State.openStop State.modifyPort
  simp only [hlane]
  rw [State.modifySource_of_some (show (s.setPort p _).source i = some r from hr)]

/-- An operation that acts on a slot head finds none. -/
theorem lane_without_slot {lane : List LaneEntry} (h : ∀ i, lane.head? ≠ some (.slot i)) {i : Slot}
    {rest : List LaneEntry} : lane ≠ .slot i :: rest := fun e => h i (by rw [e]; rfl)

theorem openStop_other {s : State} {p : Port} (h : ∀ i, (s.port p).lane.head? ≠ some (.slot i)) :
    s.openStop p = s.setPort p { s.port p with stop := .openSeated, exitWindow := some 50 } := by
  unfold State.openStop
  split
  · next i rest hlane => exact absurd hlane (lane_without_slot h)
  · rfl

theorem passHead_slot {s : State} {p : Port} {i : Slot} {r : Source} (h : (s.port p).lane.head? = some (.slot i))
    (hr : s.source i = some r) : s.passHead p =
      if r.state = .ready ∧ (r.passThrough = some .withdrawn ∨ r.passThrough = some .expired) then s.openStop p else s := by
  obtain ⟨rest, hlane⟩ := List.head?_eq_some_iff.mp h
  unfold State.passHead
  rw [hlane]
  simp only [hr]

theorem passHead_other {s : State} {p : Port} (h : ∀ i, (s.port p).lane.head? ≠ some (.slot i)) : s.passHead p = s := by
  unfold State.passHead
  split
  · next i rest hlane => exact absurd hlane (lane_without_slot h)
  · rfl

theorem headName_slot {s : State} {p : Port} {i : Slot} {r : Source} (h : (s.port p).lane.head? = some (.slot i))
    (hr : s.source i = some r) : s.headName p = some (i, r.tote.code) := by
  obtain ⟨rest, hlane⟩ := List.head?_eq_some_iff.mp h
  unfold State.headName
  rw [hlane]
  simp only [hr, Option.map_some]

theorem headName_other {s : State} {p : Port} (h : ∀ i, (s.port p).lane.head? ≠ some (.slot i)) : s.headName p = none := by
  unfold State.headName
  split
  · next i rest hlane => exact absurd hlane (lane_without_slot h)
  · rfl

theorem failHead_slot {s : State} {p : Port} {i : Slot} {r : Source} (h : (s.port p).lane.head? = some (.slot i))
    (hr : s.source i = some r) : s.failHead p =
      s.putSource i { r with passThrough := some (r.passThrough.getD .verifyFailed) } := by
  obtain ⟨rest, hlane⟩ := List.head?_eq_some_iff.mp h
  unfold State.failHead
  rw [hlane]
  simp only [State.modifySource_of_some hr]
  cases hp : r.passThrough with
  | none => rfl
  | some reason => exact congrArg (s.putSource i) (congrArg (fun x => { r with passThrough := x }) hp)

theorem failHead_other {s : State} {p : Port} (h : ∀ i, (s.port p).lane.head? ≠ some (.slot i)) : s.failHead p = s := by
  unfold State.failHead
  split
  · next i rest hlane => exact absurd hlane (lane_without_slot h)
  · rfl

/-- Settles O48: the window's expiry by attempt, and each operation by the head of the lane. -/
theorem failedReadsOpenTheStop : Obligations.FailedReadsOpenTheStop := by
  intro p s q opened answers
  have answersBy : ∀ {attempt : Attempt} {u : State}, s.failedRead p attempt = u → answers attempt u := fun e =>
    ⟨e, fun hl hs => by rw [exec_readWindowExpiry_reading hl hs, e]⟩
  refine ⟨fun hl h => exec_readWindowExpiry_none hl h, answersBy rfl, fun i r hhead hr =>
    ⟨answersBy ?failed, openStop_slot hhead hr, fun hready hreason => ?passed, fun h => ?kept⟩,
    fun h => ⟨answersBy ?unnamed, openStop_other h, passHead_other h⟩, ?output⟩
  case failed =>
    have hport : (s.post (.verifyFailed (some (i, r.tote.code)) p)).port p = s.port p := State.port_post ..
    show ((s.post (.verifyFailed (s.headName p) p)).failHead p).openStop p = _
    rw [headName_slot hhead hr, failHead_slot (by rw [hport]; exact hhead) (by simpa using hr)]
  case passed => exact (passHead_slot hhead hr).trans (if_pos ⟨hready, hreason⟩)
  case kept =>
    refine (passHead_slot hhead hr).trans (if_neg fun ⟨hready, hreason⟩ => ?_)
    rcases h with h | h | h
    · exact h hready
    · simp [h] at hreason
    · simp [h] at hreason
  case unnamed =>
    show ((s.post (.verifyFailed (s.headName p) p)).failHead p).openStop p = _
    rw [headName_other h, failHead_other (by simpa using h)]
  case output =>
    show (s.port p).stopOpen = true ↔ (s.port p).stop = .openSeated ∨ ∃ waiting, (s.port p).stop = .openClear waiting
    unfold PortRec.stopOpen
    cases (s.port p).stop <;> simp

/-! ### Displacement (R102) -/

theorem replaceUnidentified_cons (j : Slot) {e : LaneEntry} (he : e ≠ .unidentified) (rest : List LaneEntry) :
    replaceUnidentified j (e :: rest) = (replaceUnidentified j rest).map (e :: ·) := by
  cases e with
  | unidentified => exact absurd rfl he
  | slot | foreign => rfl

theorem replaceUnidentified_first (j : Slot) (after : List LaneEntry) : ∀ before : List LaneEntry,
    LaneEntry.unidentified ∉ before →
    replaceUnidentified j (before ++ .unidentified :: after) = some (before ++ .slot j :: after)
  | [], _ => rfl
  | e :: before, h => by
    rw [List.cons_append, replaceUnidentified_cons j (fun he => h (he ▸ .head _)),
      replaceUnidentified_first j after before fun m => h (.tail _ m)]
    rfl

theorem replaceUnidentified_none (j : Slot) : ∀ rest : List LaneEntry, LaneEntry.unidentified ∉ rest →
    replaceUnidentified j rest = none
  | [], _ => rfl
  | e :: rest, h => by
    rw [replaceUnidentified_cons j (fun he => h (he ▸ .head _)), replaceUnidentified_none j rest fun m => h (.tail _ m)]
    rfl

theorem displaceHead_other {s : State} {p : Port} {head : LaneEntry} {rest : List LaneEntry}
    (h : (s.port p).lane = head :: rest) (hs : ∀ j, head ≠ .slot j) (new : LaneEntry) :
    s.displaceHead p new = s.setPort p { s.port p with lane := new :: rest } := by
  unfold State.displaceHead
  rw [h]
  cases head with
  | slot j => exact absurd rfl (hs j)
  | unidentified | foreign => rfl

theorem displaceHead_steps_back {s : State} {p : Port} {j : Slot} {rest behind : List LaneEntry}
    (h : (s.port p).lane = .slot j :: rest) (hb : replaceUnidentified j rest = some behind) {x : Source}
    (hx : s.source j = some x) (new : LaneEntry) : s.displaceHead p new =
      (s.setPort p { s.port p with lane := new :: behind }).putSource j { x with state := .laned } := by
  unfold State.displaceHead
  rw [h]
  simp only [hb]
  exact State.modifySource_of_some (show (s.setPort p _).source j = some x from hx) _

theorem displaceHead_leaves {s : State} {p : Port} {j : Slot} {rest : List LaneEntry}
    (h : (s.port p).lane = .slot j :: rest) (hb : replaceUnidentified j rest = none) (new : LaneEntry) :
    s.displaceHead p new = (s.setPort p { s.port p with lane := new :: rest }).leaveLane j := by
  unfold State.displaceHead
  rw [h]
  simp only [hb]
  rfl

theorem leaveLane_unmarked {s : State} {j : Slot} {x : Source} (hx : s.source j = some x) (hu : Unmarked x) :
    s.leaveLane j = ((s.putSource j { x with state := .inbound }).setPort x.port
      { s.port x.port with queue := toHead j (s.port x.port).queue }).collide j := by
  unfold State.leaveLane
  simp only [hx]
  rw [unmarked_iff.mp hu]
  rfl

theorem leaveLane_marked {s : State} {j : Slot} {x : Source} (hx : s.source j = some x) (hm : ¬ Unmarked x) :
    s.leaveLane j = s.enterReturning j (leavingBy x) := by
  unfold State.leaveLane
  simp only [hx]
  rw [marked_of_not_unmarked hm]
  rfl

/-! ### What a displaced head leaves alone -/

/-- An operation on one slot leaves the source records of the others as they are. -/
def LeavesOthers (i : Slot) (s t : State) : Prop := ∀ j, i ≠ j → t.source j = s.source j

theorem LeavesOthers.after {i : Slot} {s t u : State} (g : LeavesOthers i t u) (h : LeavesOthers i s t) :
    LeavesOthers i s u := fun j hj => (g j hj).trans (h j hj)

theorem leavesOthers_putSource (s : State) (i : Slot) (r : Source) : LeavesOthers i s (s.putSource i r) := fun _ hj =>
  State.source_putSource_of_ne s hj r

theorem leavesOthers_sendReturn (s : State) (i : Slot) : LeavesOthers i s (s.sendReturn i) := by
  unfold State.sendReturn
  split
  · exact fun _ _ => rfl
  · split
    · exact fun j hj => by rw [State.transmit_eq, State.source_setSupply, State.source_putSource_of_ne s hj]
    · exact leavesOthers_putSource s i _

theorem leavesOthers_enterReturning (s : State) (i : Slot) (cause : LeavingCause) :
    LeavesOthers i s (s.enterReturning i cause) := by
  unfold State.enterReturning
  split
  · exact fun _ _ => rfl
  · exact (leavesOthers_sendReturn _ i).after (leavesOthers_putSource s i _)

theorem leavesOthers_exhaust (s : State) (i : Slot) (attempts : Nat) : LeavesOthers i s (s.exhaust i attempts) := by
  unfold State.exhaust
  split
  · exact fun _ _ => rfl
  · split
    · intro j hj
      rw [State.source_post]
      exact (leavesOthers_sendReturn (State.dropArmOf _ _ i) i).after (leavesOthers_putSource s i _) j hj
    · intro j hj
      rw [State.source_post]
      exact (leavesOthers_enterReturning _ i _).after (leavesOthers_putSource s i _) j hj

theorem leavesOthers_collide (s : State) (i : Slot) : LeavesOthers i s (s.collide i) := by
  unfold State.collide
  split
  · exact fun _ _ => rfl
  · split
    · split
      · exact leavesOthers_putSource s i _
      · exact leavesOthers_exhaust s i _
    · exact fun _ _ => rfl

theorem leavesOthers_leaveLane (s : State) (i : Slot) : LeavesOthers i s (s.leaveLane i) := by
  unfold State.leaveLane
  split
  · exact fun _ _ => rfl
  · split
    · exact leavesOthers_enterReturning s i _
    · exact (leavesOthers_collide _ i).after (leavesOthers_putSource s i _)

/-- A displaced head is the one record a displacement changes. -/
theorem source_displaceHead {s : State} {p : Port} {i : Slot} (h : (s.port p).lane.head? ≠ some (.slot i))
    (new : LaneEntry) : (s.displaceHead p new).source i = s.source i := by
  unfold State.displaceHead
  split
  · rfl
  · next j rest hlane =>
    have hj : j ≠ i := fun e => h (by rw [hlane, e]; rfl)
    split
    · unfold State.modifySource
      split
      · exact State.source_putSource_of_ne _ hj _
      · rfl
    · exact leavesOthers_leaveLane _ j i hj
  · rfl

end Sys2Proof.Machine

/-! ## Verification (R101 to R104) -/

namespace Sys2Proof.Machine

/-! ### A read by what its code names -/

theorem verify_service (s : State) (p : Port) : s.verify p serviceCode = s.verifyService p := if_pos rfl

theorem verify_unknown {s : State} {code : Code} (hc : code ≠ serviceCode) (hf : s.findCode code = none) (p : Port) :
    s.verify p code = s.verifyStray p code none := by
  unfold State.verify
  rw [if_neg hc, hf]

theorem verify_order {s : State} {code : Code} {i : Slot} (hc : code ≠ serviceCode) (hf : s.findCode code = some i)
    (hr : s.source i = none) (p : Port) : s.verify p code = s.verifyStray p code (some i) := by
  unfold State.verify
  rw [if_neg hc, hf]
  simp only [hr]

theorem verify_source {s : State} {code : Code} {i : Slot} {r : Source} (hc : code ≠ serviceCode)
    (hf : s.findCode code = some i) (hr : s.source i = some r) (p : Port) :
    s.verify p code = if r.port = p then s.verifyOwn p i r else s.verifyMisrouted p i r := by
  unfold State.verify
  rw [if_neg hc, hf]
  simp only [hr]

/-! ### A record of the port -/

theorem makeReady_eq {s : State} {i : Slot} {r : Source} (hr : s.source i = some r) (p : Port) : s.makeReady p i =
    ((s.putSource i { r with state := .ready }).setPort p { s.port p with stop := .verified }).passHead p := by
  unfold State.makeReady
  rw [State.modifySource_of_some hr]
  rfl

/-- A record that is READY already stands as it is. -/
theorem makeReady_ready {s : State} {i : Slot} {r : Source} (hr : s.source i = some r) (hs : r.state = .ready) (p : Port) :
    s.makeReady p i = (s.setPort p { s.port p with stop := .verified }).passHead p := by
  have hself : ({ r with state := .ready } : Source) = r := by rw [← hs]
  rw [makeReady_eq hr, hself, State.putSource_self hr]

theorem verifyOwn_inLane {r : Source} (h : r.state = .atStop ∨ r.state = .laned ∨ r.state = .ready) (s : State) (p : Port)
    (i : Slot) : s.verifyOwn p i r = s.verifyInLane p i := by
  unfold State.verifyOwn
  rcases h with h | h | h <;> rw [h]

theorem verifyOwn_found {r : Source} (h : r.state = .queued ∨ r.state = .calling ∨ r.state = .called ∨
    r.state = .cancelling ∨ r.state = .inbound ∨ r.state = .missing) (s : State) (p : Port) (i : Slot) :
    s.verifyOwn p i r = s.verifyFound p i r := by
  unfold State.verifyOwn
  rcases h with h | h | h | h | h | h <;> rw [h]

theorem verifyOwn_leaving {r : Source} (h : r.state = .returning ∨ r.state = .recycling) (s : State) (p : Port)
    (i : Slot) : s.verifyOwn p i r = (s.foreignHead p .misrouted r.tote.code).openStop p := by
  unfold State.verifyOwn
  rcases h with h | h <;> rw [h]

theorem verifyInLane_own {s : State} {p : Port} {i : Slot} (h : (s.port p).lane.head? = some (.slot i)) :
    s.verifyInLane p i = s.makeReady p i := if_pos h

theorem verifyInLane_exchanges {s : State} {p : Port} {i : Slot} {head : LaneEntry} {rest : List LaneEntry}
    (h : (s.port p).lane = head :: rest) (hne : head ≠ .slot i) : s.verifyInLane p i =
      ((s.stepBack (some head)).modifyPort p (fun q => { q with lane := exchangeHead i q.lane })).makeReady p i := by
  unfold State.verifyInLane
  rw [h]
  exact if_neg fun e => hne (Option.some.inj e)

theorem stepBack_slot {s : State} {j : Slot} {x : Source} (hx : s.source j = some x) :
    s.stepBack (some (.slot j)) = s.putSource j { x with state := .laned } := State.modifySource_of_some hx _

theorem stepBack_other (s : State) {e : LaneEntry} (he : ∀ j, e ≠ .slot j) : s.stepBack (some e) = s := by
  cases e with
  | slot j => exact absurd rfl (he j)
  | unidentified | foreign => rfl

/-- The record found at the stop, in the words of the statement. -/
theorem foundAtStop_eq (r : Source) : ({ r.foundAtStop with state := .ready } : Source) = { r.found with
    state := .ready,
    passThrough := if r.withdraw then some .withdrawn else if r.tote.expired then some .expired else r.passThrough,
    lines := if r.withdraw ∨ r.tote.expired then resolved .deferred r.lines else r.lines } := by
  have hmark : r.giveBack.marked = (r.withdraw || r.tote.expired) := rfl
  unfold Source.foundAtStop
  simp only [hmark, resolved_eq]
  cases hw : r.withdraw <;> cases he : r.tote.expired <;> simp [Source.giveBack, Source.found, Source.resolveLines, hw, he]

theorem verifyFound_eq {s : State} {p : Port} {i : Slot} (h : (s.port p).lane.head? ≠ some (.slot i)) (r : Source) :
    let u := ((s.putSource i { r.foundAtStop with state := .ready }).setPort p
      { (s.port p).unarmed i with queue := withoutSlot i (s.port p).queue }).displaceHead p (.slot i)
    let told := if r.state = .missing then u.post (.presentRegained i r.tote.code p .atStop) else u
    s.verifyFound p i r = (told.setPort p { told.port p with stop := .verified }).passHead p := by
  intro u told
  have hlisted : ((s.putSource i { r.foundAtStop with state := .ready }).unqueue p i).dropArmOf p i =
      (s.putSource i { r.foundAtStop with state := .ready }).setPort p
        { (s.port p).unarmed i with queue := withoutSlot i (s.port p).queue } := by
    rw [dropArmOf_eq]
    unfold State.unqueue State.modifyPort
    rw [State.port_setPort_self, State.setPort_setPort]
    rfl
  have hu : u.source i = some { r.foundAtStop with state := .ready } := by
    refine (source_displaceHead ?_ _).trans (State.source_putSource_self s i _)
    rw [State.port_setPort_self]
    exact h
  have htold : told.source i = some { r.foundAtStop with state := .ready } := by
    unfold told
    split
    · exact (State.source_post u _ i).trans hu
    · exact hu
  unfold State.verifyFound
  rw [hlisted]
  exact makeReady_ready htold rfl p

/-- Settles O49: the code by what holds it, the record of the port by its state, the displaced head by the entries
behind it. -/
theorem readsAtTheStopNameTheHead : Obligations.ReadsAtTheStopNameTheHead := by
  intro p code head rest s hlane named held ready strayed
  have strays : ∀ order, s.verify p code = s.verifyStray p code order → strayed order := fun order h =>
    ⟨fun hp => h.trans (if_pos hp), fun hp => h.trans (if_neg hp)⟩
  refine ⟨fun hc => ?service, fun hc hno => strays none (verify_unknown hc (findCode_none hno) p),
    fun i x hc hx hcode hu => ⟨fun hk => ?order, fun r hsource => ?source⟩, fun new => ⟨fun hh => ?other,
      fun j h hhead hj => ⟨fun before after hrest hno => ?back, fun hno => ?out⟩⟩⟩
  case service =>
    subst hc
    have hverify := verify_service s p
    exact ⟨fun hp => hverify.trans (if_pos hp), fun hp => hverify.trans (if_neg hp)⟩
  case order =>
    cases x with
    | source r => cases hk
    | order o =>
      exact strays (some i) (verify_order hc (findCode_of_unique hx hcode hu) (State.source_of_order_record hx) p)
  case source =>
    subst hsource
    have hr : s.source i = some r := State.source_eq_some.mpr hx
    have hcode' : r.tote.code = code := hcode
    have hverify := verify_source hc (findCode_of_unique hx hcode hu) hr p
    have hne : head ≠ .slot i → (s.port p).lane.head? ≠ some (.slot i) := fun h e => by
      rw [hlane] at e
      exact h (Option.some.inj e)
    refine ⟨fun hport => ?misrouted, fun hport => ?own⟩
    case misrouted =>
      rw [hverify, if_neg hport]
      unfold State.verifyMisrouted
      rw [hcode']
      rfl
    case own =>
      rw [if_pos hport] at hverify
      refine ⟨fun hs => ?leaving, fun hs hh => ?verified, fun hs hh => ?exchanged, fun hs hh => ?found⟩
      case leaving =>
        rw [hverify, verifyOwn_leaving hs, hcode']
        rfl
      case verified =>
        rw [hverify, verifyOwn_inLane hs, verifyInLane_own (by rw [hlane, hh]; rfl)]
        exact makeReady_eq hr p
      case exchanged =>
        intro swapped
        have exchanges : ∀ t : State, t.port p = s.port p →
            t.modifyPort p (fun q => { q with lane := exchangeHead i q.lane }) = t.setPort p (swapped.port p) := fun t ht => by
          rw [State.port_setPort_self]
          show t.setPort p { t.port p with lane := exchangeHead i (t.port p).lane } = _
          rw [ht, hlane]
          rfl
        refine ⟨fun j h hhead hj => ?slot, fun ho => ?foreign⟩
        case slot =>
          have hji : j ≠ i := fun e => hh (by rw [hhead, e])
          have hi : (swapped.putSource j { h with state := .laned }).source i = some r :=
            (State.source_putSource_of_ne swapped hji _).trans hr
          rw [hverify, verifyOwn_inLane hs, verifyInLane_exchanges hlane hh, hhead, stepBack_slot hj,
            exchanges (s.putSource j _) rfl, State.port_setPort_self]
          exact makeReady_eq hi p
        case foreign =>
          rw [hverify, verifyOwn_inLane hs, verifyInLane_exchanges hlane hh, stepBack_other s ho, exchanges s rfl,
            State.port_setPort_self]
          exact makeReady_eq (s := swapped) hr p
      case found =>
        intro reason lines w q u told
        rw [hverify, verifyOwn_found hs, verifyFound_eq (hne hh), foundAtStop_eq, hcode']
        rfl
  case other => exact displaceHead_other hlane hh new
  case back =>
    subst hhead hrest
    exact displaceHead_steps_back hlane (replaceUnidentified_first j after before hno) hj new
  case out =>
    subst hhead
    intro u
    have hleaves := displaceHead_leaves hlane (replaceUnidentified_none j rest hno) new
    exact ⟨fun hu => hleaves.trans (leaveLane_unmarked (s := u) hj hu), fun hm => hleaves.trans (leaveLane_marked (s := u) hj hm)⟩

end Sys2Proof.Machine

/-! ## Faults and local control (R108, R151 to R154) -/

namespace Sys2Proof.Machine

/-! ### The local-control line -/

theorem exec_localControlAssert {s : State} (hl : s.resetHeld = false) (p : Port) : exec (.localControlAssert p) s =
    .next (if s.localLevel p = true then s.setLocalControl p true
      else ((s.setLocalControl p true).takeLocalControl p).settle) := by
  show Host.Outcome.next ((s.setLocalControl p true).whenLive _) = _
  rw [State.whenLive_of_live (show (s.setLocalControl p true).resetHeld = false from hl)]

theorem exec_localControlDeassert {s : State} (hl : s.resetHeld = false) (p : Port) : exec (.localControlDeassert p) s =
    .next (if s.following = true ∧ s.localLevel p = true then ((s.setLocalControl p false).seatWaiting p).settle
      else s.setLocalControl p false) := by
  show Host.Outcome.next ((s.setLocalControl p false).whenLive _) = _
  rw [State.whenLive_of_live (show (s.setLocalControl p false).resetHeld = false from hl)]
  exact congrArg _ (ite_cond_congr (by simp only [Bool.and_eq_true]; rfl))

theorem clearVerifyFailed_slot {s : State} {i : Slot} {r : Source} (hr : s.source i = some r) :
    s.clearVerifyFailed (.slot i) =
      s.putSource i (if r.passThrough = some .verifyFailed then { r with passThrough := none } else r) :=
  State.modifySource_of_some hr _

theorem clearVerifyFailed_other (s : State) {e : LaneEntry} (he : ∀ i, e ≠ .slot i) : s.clearVerifyFailed e = s := by
  cases e with
  | slot i => exact absurd rfl (he i)
  | unidentified | foreign => rfl

/-- A slot's entry lost from a lane, by the withdraw mark alone (R109, R153). -/
theorem loseEntry_slot {s : State} {i : Slot} {r : Source} (hr : s.source i = some r) (detail : LostDetail) :
    s.loseEntry detail (.slot i) =
      if r.withdraw then (s.endPresentationOf r.port i).retireSource i .withdrawn
      else ((s.putSource i { r with state := .missing, current := none }).endPresentationOf r.port i).post
        (.presentLost i r.tote.code r.port detail) := by
  by_cases hw : r.withdraw = true
  · rw [loseEntry_withdrawn hr hw, if_pos hw]
  · rw [loseEntry_missing hr (Bool.eq_false_of_not_eq_true hw), if_neg hw]

/-- Clearing the reason leaves the rest of the record as it is. -/
theorem loseEntry_cleared {s : State} {i : Slot} {r c : Source} (hr : s.source i = some r)
    (hc : c = if r.passThrough = some .verifyFailed then { r with passThrough := none } else r) (detail : LostDetail) :
    (s.clearVerifyFailed (.slot i)).loseEntry detail (.slot i) =
      if r.withdraw then ((s.putSource i c).endPresentationOf r.port i).retireSource i .withdrawn
      else ((s.putSource i { c with state := .missing, current := none }).endPresentationOf r.port i).post
        (.presentLost i r.tote.code r.port detail) := by
  have kept : c.withdraw = r.withdraw ∧ c.port = r.port ∧ c.tote = r.tote := by
    rw [hc]
    split <;> exact ⟨rfl, rfl, rfl⟩
  obtain ⟨hwithdraw, hport, htote⟩ := kept
  rw [clearVerifyFailed_slot hr, ← hc, loseEntry_slot (State.source_putSource_self s i c), hwithdraw, hport, htote,
    State.putSource_putSource]

/-! ### The raising of a fault -/

theorem markFault_eq (s : State) (p : Port) (cause : FaultCause) : s.markFault p cause =
    (s.setPort p (if (s.port p).mode = .faulted then s.port p
      else { s.port p with mode := .faulted, cause := some cause })).post
      (.portFault p cause (if (s.port p).mode = .faulted then (s.port p).cause.getD cause else cause)) := rfl

/-- A fault leaves the lane list as it is. -/
theorem markFault_lane (s : State) (p : Port) (cause : FaultCause) :
    ((s.markFault p cause).port p).lane = (s.port p).lane := by
  rw [markFault_eq, State.port_post, State.port_setPort_self]
  split <;> rfl

theorem markFault_source (s : State) (p : Port) (cause : FaultCause) (i : Slot) :
    (s.markFault p cause).source i = s.source i := by
  rw [markFault_eq, State.source_post, State.source_setPort]

theorem demote_presented {s : State} {p : Port} {i : Slot} {r : Source} (h : (s.port p).lane.head? = some (.slot i))
    (hr : s.source i = some r) (hs : r.state = .presented) : s.demote p =
      ((s.putSource i { r with state := .ready, current := none, lines := r.deferCurrent }).endPresentationOf p i).passHead
        p := by
  obtain ⟨rest, hlane⟩ := List.head?_eq_some_iff.mp h
  unfold State.demote
  rw [hlane]
  simp only [hr]
  exact if_pos hs

theorem demote_rests {s : State} {p : Port} (h : ∀ i r, (s.port p).lane.head? = some (.slot i) → s.source i = some r →
    r.state ≠ .presented) : s.demote p = s := by
  unfold State.demote
  split
  · next i rest hlane =>
    split
    · next r hr => exact if_neg (h i r (by rw [hlane]; rfl) hr)
    · rfl
  · rfl

theorem exec_exitWindowExpiry {s : State} (hl : s.resetHeld = false) (p : Port) : exec (.exitWindowExpiry p) s =
    .next (if (s.port p).exitWindow.isSome then
      ((s.modifyPort p (fun q => { q with exitWindow := none })).raiseFault p .stopJam).settle else s) := by
  show Host.Outcome.next (s.whenLive _) = _
  rw [State.whenLive_of_live hl]

/-- Settles O50: the line's levels, the lane entry by entry, the fault with its demotion, the exit window. -/
theorem faultsAndLocalControlTakeThePort : Obligations.FaultsAndLocalControlTakeThePort := by
  intro p s q line kept marked
  refine ⟨fun hl => ⟨fun h => ?repeated, fun h => ⟨?asserted, ?down⟩, fun h hb => ?deasserted, fun hr hh => ?unfollowed⟩,
    rfl, fun i r hr => loseEntry_cleared hr rfl .override, fun e he => ?dropped,
    fun cause => ⟨rfl, fun i r hhead hr hs => ?demoted, fun h => ?stays⟩, fun hl => ⟨fun h => ?noWindow, fun h => ?window⟩⟩
  case repeated => exact (exec_localControlAssert hl p).trans (congrArg _ (if_pos h))
  case asserted => exact (exec_localControlAssert hl p).trans (congrArg _ (if_neg fun g => by simp [h] at g))
  case down => exact (exec_localControlDeassert hl p).trans (congrArg _ (if_neg fun g => by simp [h] at g))
  case deasserted =>
    exact (exec_localControlDeassert hl p).trans (congrArg _ (if_pos ⟨following_iff.mpr hb, h⟩))
  case unfollowed =>
    exact (exec_localControlDeassert hl p).trans
      (congrArg _ (if_neg fun g => (following_iff.mp g.1).elim hr hh))
  case dropped => rw [clearVerifyFailed_other s he, loseEntry_other s he]
  case demoted =>
    have hdemote := demote_presented (s := s.markFault p cause) (by rw [markFault_lane]; exact hhead)
      ((markFault_source s p cause i).trans hr) hs
    rw [currentDeferred_eq]
    exact hdemote
  case stays =>
    refine demote_rests (s := s.markFault p cause) fun i r hhead hr => h i r ?_ ?_
    · rw [markFault_lane] at hhead
      exact hhead
    · rw [markFault_source] at hr
      exact hr
  case noWindow =>
    refine (exec_exitWindowExpiry hl p).trans (congrArg _ (if_neg ?_))
    rw [show (s.port p).exitWindow = none from h]
    exact Bool.false_ne_true
  case window =>
    exact (exec_exitWindowExpiry hl p).trans (congrArg _ (if_pos (Option.isSome_iff_ne_none.mpr h)))

end Sys2Proof.Machine

/-! ## Orders and pickers

The presence sensors, the picker's inputs and the attendance window (R27, R28, R114 to R118, R124, R125, R131, R132). -/

namespace Sys2Proof.Machine

/-! ### The current line (R114, R115) -/

theorem currentLine_iff {s : State} {st : Station} {l : Line} : s.currentLine st = some l ↔ ∃ i r k,
    (s.station st).presentation = some i ∧ s.source i = some r ∧ r.current = some k ∧ r.lines[k]? = some l := by
  unfold State.currentLine
  simp only [Option.bind_eq_bind, Option.bind_eq_some_iff]
  constructor
  · rintro ⟨i, hi, r, hr, k, hk, hl⟩
    exact ⟨i, r, k, hi, hr, hk, hl⟩
  · rintro ⟨i, r, k, hi, hr, hk, hl⟩
    exact ⟨i, hi, r, hr, k, hk, hl⟩

theorem putLamp_iff {s : State} {st : Station} {u : Position} : s.putLamp st = some u ↔ ∃ l o,
    s.currentLine st = some l ∧ s.order l.target = some o ∧ o.position = u := by
  unfold State.putLamp
  simp only [Option.bind_eq_bind, Option.bind_eq_some_iff, Option.some.injEq]
  constructor
  · rintro ⟨l, hl, o, ho, hu⟩
    exact ⟨l, o, hl, ho, hu⟩
  · rintro ⟨l, o, hl, ho, hu⟩
    exact ⟨l, hl, o, ho, hu⟩

/-! ### Presence (R27, R28) -/

theorem exec_presenceOff {s : State} (hl : s.resetHeld = false) (u : Position) : exec (.presenceOff u) s =
    .next (if s.presenceLevel u = true then (s.setPresence u false).orderGone u else s.setPresence u false) := by
  show Host.Outcome.next ((s.setPresence u false).whenLive _) = _
  rw [State.whenLive_of_live (show (s.setPresence u false).resetHeld = false from hl)]

theorem exec_presenceOn {s : State} (hl : s.resetHeld = false) (u : Position) : exec (.presenceOn u) s =
    .next (if s.presenceLevel u = true then s.setPresence u true else (s.setPresence u true).orderBack u) := by
  show Host.Outcome.next ((s.setPresence u true).whenLive _) = _
  rw [State.whenLive_of_live (show (s.setPresence u true).resetHeld = false from hl)]

theorem orderGone_none {s : State} {u : Position} (h : s.orderAt u = none) : s.orderGone u = s := by
  unfold State.orderGone
  rw [h]

theorem orderBack_none {s : State} {u : Position} (h : s.orderAt u = none) : s.orderBack u = s := by
  unfold State.orderBack
  rw [h]

theorem orderGone_some {s : State} {o : Slot} {x : Order} {u : Position} (ho : s.orderAt u = some o)
    (hx : s.order o = some x) (hp : x.position = u) : s.orderGone u = if x.state = .bound then
      (((((s.putOrder o { x with state := .missing }).moveLinesFor o (fun l => decide (l.state = .isOpen)) .blocked).post
        (.orderMissing o x.tote.code u)).refreshLine .a).refreshLine .b).settle
      else s := by
  unfold State.orderGone
  rw [ho]
  simp only [hx, hp]
  rfl

theorem orderBack_some {s : State} {o : Slot} {x : Order} {u : Position} (ho : s.orderAt u = some o)
    (hx : s.order o = some x) (hp : x.position = u) : s.orderBack u = if x.state = .missing then
      (((s.putOrder o { x with state := .bound }).moveLinesFor o (fun l => decide (l.state = .blocked)) .isOpen).post
        (.orderRestored o x.tote.code u)).settle
      else s := by
  unfold State.orderBack
  rw [ho]
  simp only [hx, hp]
  rfl

theorem refreshLine_open {s : State} {st : Station} (h : ∀ l, s.currentLine st = some l → l.state = .isOpen) :
    s.refreshLine st = s := by
  unfold State.refreshLine
  split
  · next l hl => exact if_pos (h l hl)
  · rfl

theorem refreshLine_chooses {s : State} {st : Station} {l : Line} (hl : s.currentLine st = some l)
    (h : l.state ≠ .isOpen) : s.refreshLine st = s.chooseLine st := by
  unfold State.refreshLine
  rw [hl]
  exact if_neg h

/-- Settles O51: the sensor by its level and the order at the position, then the moved lines and the refreshed line. -/
theorem presenceMovesTheOrder : Obligations.PresenceMovesTheOrder := by
  refine ⟨fun u s hl => ?sensor, fun s o j test dest => ⟨rfl, ?lines⟩, fun s st =>
    ⟨fun l hl h => refreshLine_chooses hl h, refreshLine_open⟩⟩
  case sensor =>
    intro level at_
    have off : (s.presenceLevel u = true → (level false).orderGone u = level false) →
        exec (.presenceOff u) s = .next (level false) := fun h => by
      rw [exec_presenceOff hl]
      by_cases hu : s.presenceLevel u = true
      · rw [if_pos hu]
        exact congrArg _ (h hu)
      · rw [if_neg hu]
        rfl
    have on : (s.presenceLevel u = false → (level true).orderBack u = level true) →
        exec (.presenceOn u) s = .next (level true) := fun h => by
      rw [exec_presenceOn hl]
      by_cases hu : s.presenceLevel u = true
      · rw [if_pos hu]
        rfl
      · rw [if_neg hu]
        exact congrArg _ (h (Bool.eq_false_of_not_eq_true hu))
    refine ⟨fun h => off fun g => ?_, fun h => on fun g => ?_, fun hno => ⟨off fun _ => ?_, on fun _ => ?_⟩,
      fun o x ⟨hx, hp, hu⟩ => ?order⟩
    · rw [h] at g; cases g
    · rw [h] at g; cases g
    · exact orderGone_none (s := level false) (orderAt_none hno)
    · exact orderBack_none (s := level true) (orderAt_none hno)
    case order =>
      have gone := orderGone_some (s := level false) (orderAt_of_unique hx hp hu) hx hp
      have back := orderBack_some (s := level true) (orderAt_of_unique hx hp hu) hx hp
      refine ⟨fun h => off fun _ => gone.trans (if_neg h), fun h => on fun _ => back.trans (if_neg h),
        fun h hlevel => ?missing, fun h hlevel => ?restored⟩
      case missing =>
        rw [exec_presenceOff hl, if_pos hlevel]
        exact congrArg _ (gone.trans (if_pos h))
      case restored =>
        rw [exec_presenceOn hl, if_neg (by simp [hlevel])]
        exact congrArg _ (back.trans (if_pos h))
  case lines =>
    unfold State.moveLinesFor
    rw [State.record_mapSlots]
    cases s.record j with
    | none => rfl
    | some x =>
      cases x with
      | order o => rfl
      | source r => simp only [moveLines, Bool.and_eq_true, decide_eq_true_eq]

/-! ### The picker's inputs (R116 to R118, R124, R125, R131, R132) -/

@[simp] theorem State.following_pickerInput (s : State) (st : Station) : (s.pickerInput st).following = s.following := by
  unfold State.following State.pickerInput State.modifyStation
  rw [State.setStation_bench]

@[simp] theorem State.source_pickerInput (s : State) (st : Station) (i : Slot) : (s.pickerInput st).source i = s.source i :=
  State.source_setStation ..

@[simp] theorem State.order_pickerInput (s : State) (st : Station) (i : Slot) : (s.pickerInput st).order i = s.order i :=
  State.order_setStation ..

@[simp] theorem State.presentation_pickerInput (s : State) (st : Station) :
    ((s.pickerInput st).station st).presentation = (s.station st).presentation := by
  unfold State.pickerInput
  rw [State.station_modifyStation_self]

theorem exec_putButton {s : State} (hl : s.resetHeld = false) (u : Position) : exec (.putButton u) s =
    .next (if s.following = true then (s.pickerInput (positionStation u)).pressPut u
      else s.pickerInput (positionStation u)).settle := by
  show Host.Outcome.next (s.whenLive _) = _
  rw [State.whenLive_of_live hl, ← State.following_pickerInput s (positionStation u)]

theorem exec_shortButton {s : State} (hl : s.resetHeld = false) (st : Station) : exec (.shortButton st) s =
    .next (if s.following = true then (s.pickerInput st).resolveCurrent st .short else s.pickerInput st).settle := by
  show Host.Outcome.next (s.whenLive _) = _
  rw [State.whenLive_of_live hl, ← State.following_pickerInput s st]

theorem exec_pauseSwitchChange {s : State} (hl : s.resetHeld = false) (st : Station) : exec (.pauseSwitchChange st) s =
    .next (((s.togglePause st).pickerInput st).followRequest st (s.holdRequest st)).settle := by
  have hlive : (s.togglePause st).resetHeld = false := by cases st <;> exact hl
  show Host.Outcome.next ((s.togglePause st).whenLive _) = _
  rw [State.whenLive_of_live hlive]

theorem exec_attendanceWindowExpiry {s : State} (hl : s.resetHeld = false) (st : Station) :
    exec (.attendanceWindowExpiry st) s = .next (s.expireAttendance st).settle := by
  show Host.Outcome.next (s.whenLive _) = _
  rw [State.whenLive_of_live hl]

/-- The line a station's picker works, with the record and the index that hold it. -/
def Works (s : State) (st : Station) (i : Slot) (r : Source) (k : Nat) (l : Line) : Prop :=
  (s.station st).presentation = some i ∧ s.source i = some r ∧ r.current = some k ∧ r.lines[k]? = some l

theorem works_pickerInput {s : State} {st : Station} {i : Slot} {r : Source} {k : Nat} {l : Line} :
    Works (s.pickerInput st) st i r k l ↔ Works s st i r k l := by
  unfold Works
  rw [State.presentation_pickerInput, State.source_pickerInput]

theorem putLamp_pickerInput {s : State} {st : Station} {u : Position} : (s.pickerInput st).putLamp st = some u ↔
    ∃ i r k l o, Works s st i r k l ∧ s.order l.target = some o ∧ o.position = u := by
  rw [putLamp_iff]
  constructor
  · rintro ⟨l, o, hl, ho, hu⟩
    obtain ⟨i, r, k, hw⟩ := currentLine_iff.mp hl
    exact ⟨i, r, k, l, o, works_pickerInput.mp hw, (State.order_pickerInput s st _).symm.trans ho, hu⟩
  · rintro ⟨i, r, k, l, o, hw, ho, hu⟩
    exact ⟨l, o, currentLine_iff.mpr ⟨i, r, k, works_pickerInput.mpr hw⟩, (State.order_pickerInput s st _).trans ho, hu⟩

theorem resolveCurrent_works {s : State} {st : Station} {i : Slot} {r : Source} {k : Nat} {l : Line}
    (h : Works s st i r k l) (ho : l.state = .isOpen) (dest : LineState) : s.resolveCurrent st dest =
      (s.putSource i { r with lines := r.lines.set k { l with state := dest } }).chooseLine st := by
  obtain ⟨hp, hr, hk, hl⟩ := h
  unfold State.resolveCurrent
  simp only [hp, hr, hk]
  rw [setLine_eq hl ho]

theorem resolveCurrent_rests {s : State} {st : Station} (h : ∀ i r k, (s.station st).presentation = some i →
    s.source i = some r → r.current ≠ some k) (dest : LineState) : s.resolveCurrent st dest = s := by
  unfold State.resolveCurrent
  split
  · rfl
  · next i hp =>
    split
    · rfl
    · next r hr =>
      split
      · rfl
      · next k hk => exact absurd hk (h i r k hp hr)

theorem pressPut_lit {s : State} {st : Station} {u : Position} (hu : positionStation u = st)
    (h : s.putLamp st = some u) : s.pressPut u = s.resolveCurrent st .done := by
  subst hu
  exact if_pos h

theorem pressPut_unlit {s : State} {st : Station} {u : Position} (hu : positionStation u = st)
    (h : s.putLamp st ≠ some u) : s.pressPut u = s.post (.wrongPut (s.station st).presentation st u) := by
  subst hu
  exact if_neg h

/-- A change of the pause switch is followed where the command flag is off (R124). -/
theorem followRequest_togglePause (s : State) (st : Station) :
    ((s.togglePause st).pickerInput st).followRequest st (s.holdRequest st) =
      if (s.station st).commandFlag = true then (s.togglePause st).pickerInput st
      else if s.pauseSwitch st = true then ((s.togglePause st).pickerInput st).holdClear st
      else ((s.togglePause st).pickerInput st).holdSet st := by
  have hrequest : ((s.togglePause st).pickerInput st).holdRequest st =
      ((s.station st).commandFlag || !s.pauseSwitch st) := by cases st <;> rfl
  unfold State.followRequest
  rw [hrequest]
  unfold State.holdRequest
  cases (s.station st).commandFlag <;> cases s.pauseSwitch st <;> rfl

theorem holdSet_free {s : State} {st : Station} (h : (s.station st).hold = .running)
    (hp : (s.station st).presentation = none) : s.holdSet st = s.enterHeld st .request := by
  unfold State.holdSet
  rw [h]
  exact if_pos hp

theorem holdSet_presenting {s : State} {st : Station} (h : (s.station st).hold = .running)
    (hp : (s.station st).presentation ≠ none) :
    s.holdSet st = s.modifyStation st (fun r => { r with hold := .holdPending }) := by
  unfold State.holdSet
  rw [h]
  exact if_neg hp

theorem holdClear_pending {s : State} {st : Station} (h : (s.station st).hold = .holdPending) :
    s.holdClear st = s.enterRunning st := by
  unfold State.holdClear
  rw [h]

theorem station_togglePause (s : State) (st : Station) :
    ((s.togglePause st).pickerInput st).station st = { s.station st with attendance := .attended } := by
  cases st <;> rfl

theorem setStation_togglePause (s : State) (st : Station) (r : StationRec) :
    ((s.togglePause st).pickerInput st).setStation st r = (s.togglePause st).setStation st r :=
  State.setStation_setStation ..

theorem expireAttendance_none {s : State} {st : Station} (h : (s.station st).window = none) :
    s.expireAttendance st = s := by
  unfold State.expireAttendance
  simp only [h]

theorem expireAttendance_unattended {s : State} {st : Station} (h : (s.station st).window ≠ none)
    (ha : (s.station st).attendance = .unattended) :
    s.expireAttendance st = s.setStation st { s.station st with window := none } := by
  obtain ⟨n, hn⟩ := Option.ne_none_iff_exists'.mp h
  unfold State.expireAttendance
  simp only [hn, ha]

theorem expireAttendance_attended {s : State} {st : Station} {i : Slot} (h : (s.station st).window ≠ none)
    (ha : (s.station st).attendance = .attended) (hp : (s.station st).presentation = some i) : s.expireAttendance st =
      (s.setStation st { s.station st with window := none, attendance := .unattended }).post (.stationUnattended i st) := by
  obtain ⟨n, hn⟩ := Option.ne_none_iff_exists'.mp h
  unfold State.expireAttendance
  simp only [hn, ha, hp, Option.map_some, State.postIf]

/-- Settles O52: the buttons by the lit lamp and the worked line, the switch by the flag and the hold status, the window by
the attendance. -/
theorem pickerInputsWorkTheStation : Obligations.PickerInputsWorkTheStation := by
  refine ⟨fun st s hl => ?buttons, fun st s hl => ?pause, fun st s hl => ?window⟩
  case buttons =>
    intro t followed works resolve lit
    have worksOn : ∀ {i r k l}, works i r k l → Works (s.pickerInput st) st i r k l := fun h => works_pickerInput.mpr h
    refine ⟨fun u hu => ⟨fun hf => ?putUnfollowed, fun hf hlit => ?wrong, fun i r k l hf hlit hw ho => ?put⟩,
      fun hno hk => ?none, fun i r k l hf hw ho => ?short⟩
    case putUnfollowed =>
      rw [exec_putButton hl, following_of_not hf, if_neg Bool.false_ne_true, hu]
      rfl
    case wrong =>
      have hunlit : (s.pickerInput st).putLamp st ≠ some u := fun h => hlit (putLamp_pickerInput.mp h)
      rw [exec_putButton hl, if_pos (following_iff.mpr hf), hu, pressPut_unlit hu hunlit, State.presentation_pickerInput]
      rfl
    case put =>
      rw [exec_putButton hl, if_pos (following_iff.mpr hf), hu, pressPut_lit hu (putLamp_pickerInput.mpr hlit),
        resolveCurrent_works (worksOn hw) ho]
      rfl
    case none =>
      rw [exec_shortButton hl]
      split
      · next hf =>
        have hrests : (s.pickerInput st).resolveCurrent st .short = s.pickerInput st := by
          refine resolveCurrent_rests (fun i r k hp hr hcur => ?_) _
          rw [State.presentation_pickerInput] at hp
          rw [State.source_pickerInput] at hr
          obtain ⟨l, hline⟩ := Option.ne_none_iff_exists'.mp (hk i r k hp hr hcur)
          rcases hno with hno | hno
          · exact hno (following_iff.mp hf)
          · exact hno i r k l ⟨hp, hr, hcur, hline⟩
        rw [hrests]
        rfl
      · rfl
    case short =>
      rw [exec_shortButton hl, if_pos (following_iff.mpr hf), resolveCurrent_works (worksOn hw) ho]
      rfl
  case pause =>
    intro r on answers
    let v := (s.togglePause st).pickerInput st
    have hstation : v.station st = { s.station st with attendance := .attended } := station_togglePause s st
    have answersBy : ∀ {hold mode told}, v.followRequest st (s.holdRequest st) = told.foldl State.post
        (v.setStation st { s.station st with attendance := .attended, hold := hold, holdMode := mode }) →
        answers hold mode told := fun e => by
      show exec (.pauseSwitchChange st) s = _
      rw [exec_pauseSwitchChange hl, e, setStation_togglePause]
      cases st <;> rfl
    have kept : v = v.setStation st { s.station st with attendance := .attended } := by
      rw [setStation_togglePause]
      cases st <;> rfl
    have follow := followRequest_togglePause s st
    refine ⟨fun hon hflag hhold => ?set, fun hon hflag hhold => answersBy ?clear, fun h => answersBy ?rest⟩
    case set =>
      have hset : v.followRequest st (s.holdRequest st) = v.holdSet st := by
        rw [follow, if_neg (by simp [show (s.station st).commandFlag = false from hflag]),
          if_neg (by simpa [on] using hon)]
      have hrunning : (v.station st).hold = .running := by rw [hstation]; exact hhold
      refine ⟨fun hp => answersBy ?free, fun hp => answersBy ?presenting⟩
      case free =>
        rw [hset, holdSet_free hrunning (by rw [hstation]; exact hp)]
        unfold State.enterHeld State.modifyStation
        rw [hstation]
        rfl
      case presenting =>
        rw [hset, holdSet_presenting hrunning (by rw [hstation]; exact hp)]
        unfold State.modifyStation
        rw [hstation]
        rfl
    case clear =>
      rw [follow, if_neg (by simp [show (s.station st).commandFlag = false from hflag]), if_pos (by simpa [on] using hon),
        holdClear_pending (by rw [hstation]; exact hhold)]
      unfold State.enterRunning State.modifyStation
      rw [hstation]
      rfl
    case rest =>
      have hrest : v.followRequest st (s.holdRequest st) = v := by
        rw [follow]
        split
        · rfl
        · next hflag =>
          split
          · next hpause =>
            refine holdClear_rests fun hp => ?_
            rw [hstation] at hp
            have hpending : r.hold = .holdPending := hp
            rcases h with h | h | ⟨_, h⟩ | ⟨hon, _⟩ | ⟨_, h⟩
            · exact hflag h
            · cases h.symm.trans hpending
            · cases h.symm.trans hpending
            · simp [on, hpause] at hon
            · cases h.symm.trans hpending
          · next hpause =>
            refine holdSet_rests fun hp => ?_
            rw [hstation] at hp
            have hrunning : r.hold = .running := hp
            rcases h with h | h | ⟨_, h⟩ | ⟨_, h⟩ | ⟨hon, _⟩
            · exact hflag h
            · cases h.symm.trans hrunning
            · cases h.symm.trans hrunning
            · cases h.symm.trans hrunning
            · simp [on, hpause] at hon
      rw [hrest]
      exact kept
  case window =>
    intro r
    refine ⟨fun hw => ?none, fun hw ha => ?unattended, fun i hw ha hp => ?attended⟩
    case none => rw [exec_attendanceWindowExpiry hl, expireAttendance_none hw]
    case unattended => rw [exec_attendanceWindowExpiry hl, expireAttendance_unattended hw ha]
    case attended => rw [exec_attendanceWindowExpiry hl, expireAttendance_attended hw ha hp]

end Sys2Proof.Machine

/-! ## Exposure (R133, R136 to R144) -/

namespace Sys2Proof.Machine

/-! ### Counts and figures (R133, R136) -/

theorem exec_exposureTick {s : State} (hl : s.resetHeld = false) (i : Slot) :
    exec (.exposureTick i) s = .next (s.modifyTote i Tote.tick) := by
  show Host.Outcome.next (s.whenLive _) = _
  rw [State.whenLive_of_live hl]

theorem exec_warnThresholdReached {s : State} (hl : s.resetHeld = false) (i : Slot) :
    exec (.warnThresholdReached i) s = .next (if s.counting i then s.warnRecord i else s) := by
  show Host.Outcome.next (s.whenLive _) = _
  rw [State.whenLive_of_live hl]

theorem exec_budgetReached {s : State} (hl : s.resetHeld = false) (i : Slot) :
    exec (.budgetReached i) s = .next (if s.counting i then (s.examine i).settle else s) := by
  show Host.Outcome.next (s.whenLive _) = _
  rw [State.whenLive_of_live hl]

theorem counting_of_record {s : State} {i : Slot} {x : Record} (hx : s.record i = some x) :
    s.counting i = x.tote.running := by
  unfold State.counting
  rw [hx]

theorem modifyTote_of_record {s : State} {i : Slot} {x : Record} (hx : s.record i = some x) (f : Tote → Tote) :
    s.modifyTote i f = s.setSlot i (some (x.withTote (f x.tote))) := by
  unfold State.modifyTote
  rw [hx]

theorem Tote.tick_eq (e : Tote) : e.tick =
    { e with exposure := if e.running ∧ e.exposure < 65535 then e.exposure + 1 else e.exposure } := by
  unfold Tote.tick saturate
  split
  · next h => simp only [h, true_and]
  · next h => rw [if_neg fun g => h g.1]

/-- The budget of a class that has one, as the statement writes it. -/
def Configuration.budgetOf (k : Configuration) : ToteClass → Nat
  | .ambient => 0
  | .chilled => k.chilledBudget * 10
  | .frozen => k.frozenBudget * 10

theorem budget_of_ne {k : Configuration} {c : ToteClass} (h : c ≠ .ambient) : k.budget c = some (k.budgetOf c) := by
  cases c with
  | ambient => exact absurd rfl h
  | chilled | frozen => rfl

theorem warnThreshold_of_ne {k : Configuration} {c : ToteClass} (h : c ≠ .ambient) :
    k.warnThreshold c = some (k.budgetOf c * k.warnPercent / 100) := by
  unfold Configuration.warnThreshold
  rw [budget_of_ne h]
  rfl

/-! ### The warning and the expiry (R137, R138) -/

theorem warnRecord_ambient {s : State} {i : Slot} {x : Record} (hx : s.record i = some x) (h : x.tote.cls = .ambient) :
    s.warnRecord i = s := by
  unfold State.warnRecord
  simp only [hx]
  rw [h]
  rfl

theorem warnRecord_eq {s : State} {i : Slot} {x : Record} (hx : s.record i = some x) (h : x.tote.cls ≠ .ambient) :
    s.warnRecord i =
      if s.config.budgetOf x.tote.cls * s.config.warnPercent / 100 ≤ x.tote.exposure ∧ x.tote.warned = false then
        (s.setSlot i (some (x.withTote { x.tote with warned := true }))).post
          (.warned i x.tote.code x.place x.tote.cls x.tote.exposure
            (s.config.budgetOf x.tote.cls * s.config.warnPercent / 100))
      else s := by
  unfold State.warnRecord
  simp only [hx, warnThreshold_of_ne h, modifyTote_of_record hx]

theorem expireRecord_ambient {s : State} {i : Slot} {x : Record} (hx : s.record i = some x) (h : x.tote.cls = .ambient) :
    s.expireRecord i = s := by
  unfold State.expireRecord
  simp only [hx]
  rw [h]
  rfl

/-- The record under the expired mark, its notice posted. -/
def State.markedExpired (s : State) (i : Slot) (x : Record) : State :=
  (s.setSlot i (some (x.withTote { x.tote with expired := true }))).post
    (.expired i x.tote.code x.place x.state x.tote.cls x.tote.exposure (s.config.budgetOf x.tote.cls))

theorem expireRecord_rests {s : State} {i : Slot} {x : Record} (hx : s.record i = some x) (h : x.tote.cls ≠ .ambient)
    (hn : ¬ (s.config.budgetOf x.tote.cls ≤ x.tote.exposure ∧ x.tote.expired = false)) : s.expireRecord i = s := by
  unfold State.expireRecord
  simp only [hx, budget_of_ne h]
  exact if_neg hn

theorem expireRecord_order {s : State} {i : Slot} {o : Order} (hx : s.record i = some (.order o))
    (h : o.tote.cls ≠ .ambient) (hb : s.config.budgetOf o.tote.cls ≤ o.tote.exposure ∧ o.tote.expired = false) :
    s.expireRecord i = (s.markedExpired i (.order o)).expireOrder i := by
  unfold State.expireRecord
  simp only [hx, show s.config.budget (Record.order o).tote.cls = _ from budget_of_ne h, modifyTote_of_record hx]
  exact if_pos hb

theorem expireRecord_source {s : State} {i : Slot} {r : Source} (hx : s.record i = some (.source r))
    (h : r.tote.cls ≠ .ambient) (hb : s.config.budgetOf r.tote.cls ≤ r.tote.exposure ∧ r.tote.expired = false) :
    s.expireRecord i = (s.markedExpired i (.source r)).expireSource i := by
  unfold State.expireRecord
  simp only [hx, show s.config.budget (Record.source r).tote.cls = _ from budget_of_ne h, modifyTote_of_record hx]
  exact if_pos hb

theorem order_markedExpired (s : State) (i : Slot) (o : Order) : (s.markedExpired i (.order o)).order i =
    some { o with tote := { o.tote with expired := true } } := by
  rw [State.order_eq_some]
  unfold State.markedExpired
  rw [State.record_post, State.record_setSlot_self]
  rfl

theorem source_markedExpired (s : State) (i : Slot) (r : Source) : (s.markedExpired i (.source r)).source i =
    some { r with tote := { r.tote with expired := true } } := by
  rw [State.source_eq_some]
  unfold State.markedExpired
  rw [State.record_post, State.record_setSlot_self]
  rfl

theorem expireOrder_eq {s : State} {i : Slot} {o x : Order} (ho : s.order i = some o)
    (hx : x = { o with state := .expired }) : s.expireOrder i =
    (((s.putOrder i x).moveLinesFor i
      (fun l => decide (l.state = .isOpen ∨ l.state = .blocked)) .orphaned).refreshLine .a).refreshLine .b := by
  have hpending : (fun l : Line => decide (l.state = .isOpen ∨ l.state = .blocked)) = Line.pending := by
    funext l
    rw [Bool.eq_iff_iff, decide_eq_true_eq, Line.pending_iff]
  rw [hpending, hx]
  unfold State.expireOrder
  rw [ho]

/-! ### The expiry of a source record, by its state (R140 to R142) -/

section
variable {s : State} {i : Slot} {r : Source}

theorem expireSource_unmoved (hr : s.source i = some r)
    (h : r.state = .calling ∨ r.state = .called ∨ r.state = .releasing ∨ r.state = .returning) : s.expireSource i = s := by
  unfold State.expireSource
  rcases h with h | h | h | h <;> simp only [hr, h]

theorem expireSource_queued (hr : s.source i = some r) (h : r.state = .queued) :
    s.expireSource i = s.retireSource i .expired := by
  unfold State.expireSource
  simp only [hr, h]

theorem expireSource_cancelling (hr : s.source i = some r) (h : r.state = .cancelling) :
    s.expireSource i = s.putSource i { r with requeue := false } := by
  unfold State.expireSource
  simp only [hr, h]

theorem expireSource_inbound (hr : s.source i = some r) (h : r.state = .inbound) :
    s.expireSource i = s.enterReturning i .expired := by
  unfold State.expireSource
  simp only [hr, h]

theorem expireSource_waiting (hr : s.source i = some r) (h : r.state = .laned ∨ r.state = .atStop) : s.expireSource i =
    s.putSource i { r with lines := resolved .deferred r.lines, passThrough := some r.expiredReason } := by
  unfold State.expireSource
  rcases h with h | h <;> simp only [hr, h, Source.resolveLines, resolved_eq]

theorem expireSource_ready (hr : s.source i = some r) (h : r.state = .ready) : s.expireSource i =
    (s.putSource i { r with lines := resolved .deferred r.lines, passThrough := some r.expiredReason }).passHead r.port := by
  unfold State.expireSource
  simp only [hr, h, Source.resolveLines, resolved_eq]

theorem expireSource_presented (hr : s.source i = some r) (h : r.state = .presented) : s.expireSource i =
    if r.current = none then
      (s.putSource i { r with lines := r.deferOthers, passThrough := some r.expiredReason }).releasePresented i
    else s.putSource i { r with lines := r.deferOthers, passThrough := some r.expiredReason } := by
  unfold State.expireSource
  simp only [hr, h]

theorem expireSource_away (hr : s.source i = some r) (h : r.state = .recycling ∨ r.state = .missing) :
    s.expireSource i = s.putSource i { r with lines := resolved .deferred r.lines } := by
  unfold State.expireSource
  rcases h with h | h <;> simp only [hr, h, Source.resolveLines, resolved_eq]

end

theorem expiredReason_eq (r : Source) :
    some r.expiredReason = if r.passThrough = some .withdrawn then r.passThrough else some .expired := by
  unfold Source.expiredReason
  split
  · next h => rw [h]
  · rfl

theorem deferOthers_eq (r : Source) : r.deferOthers = r.lines.mapIdx (fun k l =>
    if (l.state = .isOpen ∨ l.state = .blocked) ∧ some k ≠ r.current then { l with state := .deferred } else l) := by
  unfold Source.deferOthers
  congr 1
  funext k l
  exact ite_cond_congr (by simp only [Bool.and_eq_true, decide_eq_true_eq, Line.pending_iff])

/-- Settles O53: the count, the two figures, and the expiry by kind and state. -/
theorem exposureWarnsAndExpires : Obligations.ExposureWarnsAndExpires := by
  intro i x s hx e budget threshold with_ count
  have hbudget : budget = s.config.budgetOf x.tote.cls := by
    show (match x.tote.cls with
      | .ambient => 0
      | .chilled => s.config.chilledBudget * 10
      | .frozen => s.config.frozenBudget * 10) = _
    cases x.tote.cls <;> rfl
  have hcounting := counting_of_record hx
  refine ⟨fun hl => ⟨?tick, fun hrun => ⟨?warnReached, ?budgetReached⟩, fun hrun => ⟨?warnStopped, ?budgetStopped⟩⟩,
    fun h => ?unwarned, fun hc ht hw => ?warned, fun h => ?unexpired, fun hc hb he => ?expires⟩
  case tick => rw [exec_exposureTick hl, modifyTote_of_record hx, Tote.tick_eq]
  case warnReached => exact (exec_warnThresholdReached hl i).trans (congrArg _ (if_pos (hcounting.trans hrun)))
  case budgetReached => exact (exec_budgetReached hl i).trans (congrArg _ (if_pos (hcounting.trans hrun)))
  case warnStopped =>
    exact (exec_warnThresholdReached hl i).trans (congrArg _ (if_neg (by simp [hcounting, show x.tote.running = _ from hrun])))
  case budgetStopped =>
    exact (exec_budgetReached hl i).trans (congrArg _ (if_neg (by simp [hcounting, show x.tote.running = _ from hrun])))
  case unwarned =>
    by_cases hc : x.tote.cls = .ambient
    · exact warnRecord_ambient hx hc
    · rw [warnRecord_eq hx hc, ← hbudget]
      refine if_neg fun ⟨hle, hw⟩ => ?_
      rcases h with h | h | h
      · exact hc h
      · exact absurd h (Nat.not_lt.mpr hle)
      · exact absurd (hw.symm.trans h) Bool.false_ne_true
  case warned =>
    rw [warnRecord_eq hx hc, ← hbudget]
    exact if_pos ⟨ht, hw⟩
  case unexpired =>
    by_cases hc : x.tote.cls = .ambient
    · exact expireRecord_ambient hx hc
    · refine expireRecord_rests hx hc fun ⟨hle, he⟩ => ?_
      rw [← hbudget] at hle
      rcases h with h | h | h
      · exact hc h
      · exact absurd h (Nat.not_lt.mpr hle)
      · exact absurd (he.symm.trans h) Bool.false_ne_true
  case expires =>
    intro t
    have ht : t = s.markedExpired i x := by
      unfold State.markedExpired
      rw [← hbudget]
    have hreached : s.config.budgetOf x.tote.cls ≤ x.tote.exposure ∧ x.tote.expired = false := by
      rw [← hbudget]
      exact ⟨hb, he⟩
    refine ⟨fun o ho => ?order, fun r hr => ?source⟩
    case order =>
      subst ho
      have hmarked : t.order i = some { o with tote := { o.tote with expired := true } } := by
        rw [ht]
        exact order_markedExpired s i o
      rw [expireRecord_order hx hc hreached, ← ht]
      exact expireOrder_eq (x := { o with tote := { e with expired := true }, state := .expired }) hmarked rfl
    case source =>
      subst hr
      intro w passing working
      have hw : t.source i = some w := by rw [ht]; exact source_markedExpired s i r
      have expires : s.expireRecord i = t.expireSource i := by rw [expireRecord_source hx hc hreached, ht]
      have hpassing : passing =
          { w with lines := resolved .deferred w.lines, passThrough := some w.expiredReason } := by
        rw [expiredReason_eq]
      have hworking : working = { w with lines := w.deferOthers, passThrough := some w.expiredReason } := by
        rw [expiredReason_eq, deferOthers_eq]
      refine ⟨fun h => expires.trans (expireSource_queued hw h), fun h => expires.trans (expireSource_unmoved hw h),
        fun h => expires.trans (expireSource_cancelling hw h), fun h => expires.trans (expireSource_inbound hw h),
        fun h => ?waiting, fun h => ?ready, fun h hcur => ?presented, fun h hcur => ?released,
        fun h => expires.trans (expireSource_away hw h)⟩
      case waiting => rw [expires, expireSource_waiting hw h, hpassing]
      case ready => rw [expires, expireSource_ready hw h, hpassing]
      case presented =>
        rw [expires, expireSource_presented hw h, hworking]
        exact if_neg hcur
      case released =>
        rw [expires, expireSource_presented hw h, hworking]
        exact if_pos hcur

end Sys2Proof.Machine

/-! ## Stations and presentations (R112 to R115, R120, R121, R126) -/

namespace Sys2Proof.Machine

/-! ### Selection (R112, R113) -/

theorem HoldStatus.selects_iff {h : HoldStatus} : h.selects = true ↔ h = .running ∨ h = .step .isOpen := by
  rcases h with _ | _ | _ | ⟨_ | _⟩ <;> simp [HoldStatus.selects]

theorem select_presents {s : State} {st : Station} {p : Port} {i : Slot} (hp : (s.station st).presentation = none)
    (hh : (s.station st).hold.selects = true) (h : s.selectedPort st = some (p, i)) :
    s.select st = (s.present st p i).selectHead st 2 := by
  show (if (s.station st).presentation = none ∧ (s.station st).hold.selects = true then _ else s) = _
  rw [if_pos ⟨hp, hh⟩, h]

theorem offers_none {s : State} {p : Port} (h : ∀ i, s.offers p ≠ some i) : s.offers p = none :=
  Option.eq_none_iff_forall_ne_some.mpr h

theorem selectedPort_preferred {s : State} {st : Station} {i : Slot}
    (h : s.offers (stationPort st (s.station st).side.other) = some i) :
    s.selectedPort st = some (stationPort st (s.station st).side.other, i) := by
  unfold State.selectedPort
  simp only [h]

theorem selectedPort_other {s : State} {st : Station}
    (h : s.offers (stationPort st (s.station st).side.other) = none) :
    s.selectedPort st = (s.offers (stationPort st (s.station st).side)).map
      (fun i => (stationPort st (s.station st).side, i)) := by
  unfold State.selectedPort
  simp only [h]

theorem present_eq {s : State} {i : Slot} {r : Source} (hr : s.source i = some r) (st : Station) (p : Port) :
    s.present st p i = ((s.putSource i { r with state := .presented }).setStation st
      { s.station st with
        presentation := some i, workingPort := some p, side := portSide p, hold := (s.station st).hold.onPresent,
        window := some (10 * s.config.attendanceWindow) }).chooseLine st := by
  unfold State.present State.modifyStation
  rw [State.modifySource_of_some hr]
  simp only [State.putSource, State.station_setSlot]

/-! ### The choice of a line (R114, R120) -/

theorem firstOpen_some {ls : List Line} {k : Nat} {l : Line} (hl : ls[k]? = some l) (ho : l.state = .isOpen)
    (hfirst : ∀ j m, j < k → ls[j]? = some m → m.state ≠ .isOpen) : firstOpen ls = some k := by
  obtain ⟨hk, hget⟩ := List.getElem?_eq_some_iff.mp hl
  refine List.findIdx?_eq_some_iff_getElem.mpr ⟨hk, ?_, fun j hj => ?_⟩
  · rw [hget, ho]
    rfl
  · rw [decide_eq_true_eq]
    exact hfirst j _ hj (List.getElem?_eq_getElem (hj.trans hk))

theorem firstOpen_none {ls : List Line} (h : ∀ l ∈ ls, l.state ≠ .isOpen) : firstOpen ls = none :=
  List.findIdx?_eq_none_iff.mpr fun l hl => decide_eq_false (h l hl)

theorem chooseLine_open {s : State} {st : Station} {i : Slot} {r : Source} {k : Nat}
    (hp : (s.station st).presentation = some i) (hr : s.source i = some r) (hk : firstOpen r.lines = some k) :
    s.chooseLine st = s.putSource i { r with current := some k } := by
  unfold State.chooseLine
  simp only [hp, hr, hk]

theorem chooseLine_releases {s : State} {st : Station} {i : Slot} {r : Source}
    (hp : (s.station st).presentation = some i) (hr : s.source i = some r) (hk : firstOpen r.lines = none) :
    s.chooseLine st = (s.putSource i { r with
      current := none,
      lines := r.lines.map (fun l => if l.state = .blocked then { l with state := .deferred } else l) }).openStop r.port := by
  unfold State.chooseLine
  simp only [hp, hr, hk]
  unfold State.releasePresented
  simp only [hr, moveLines, decide_eq_true_eq]

/-! ### The end of a presentation (R121, R126) -/

/-- The record and the station as a presentation's end leaves them. -/
def State.presentationEnded (s : State) (st : Station) (i : Slot) (r : Source) (hold : HoldStatus) (mode : Bool) : State :=
  (s.putSource i { r with current := none }).setStation st
    { s.station st with presentation := none, window := none, hold := hold, holdMode := mode }

theorem endPresentation_none {s : State} {st : Station} (hp : (s.station st).presentation = none) :
    s.endPresentation st = s := by
  unfold State.endPresentation
  rw [hp]

section
variable {s : State} {st : Station} {i : Slot} {r : Source}

/-- Steps 1 to 3 of R121, before the hold status is settled. -/
theorem presentationEnded_eq (hr : s.source i = some r) :
    (s.modifySource i (fun r => { r with current := none })).modifyStation st
      (fun r => { r with presentation := none, window := none }) =
    s.presentationEnded st i r (s.station st).hold (s.station st).holdMode := by
  unfold State.modifyStation State.presentationEnded
  rw [State.modifySource_of_some hr]
  simp only [State.putSource, State.station_setSlot]

theorem enterHeld_presentationEnded (hold : HoldStatus) (mode : Bool) (detail : HeldDetail) :
    (s.presentationEnded st i r hold mode).enterHeld st detail =
      (s.presentationEnded st i r .held true).post (.stationHeld st detail) := by
  unfold State.enterHeld State.modifyStation State.presentationEnded
  rw [State.station_setStation_self, State.setStation_setStation]

theorem endPresentation_goes_on (hp : (s.station st).presentation = some i) (hr : s.source i = some r)
    (h : (s.station st).hold = .running ∨ (s.station st).hold = .held ∨ (s.station st).hold = .step .isOpen) :
    s.endPresentation st = s.presentationEnded st i r (s.station st).hold (s.station st).holdMode := by
  unfold State.endPresentation
  simp only [hp]
  rw [presentationEnded_eq hr]
  rcases h with h | h | h <;> simp only [h]

theorem endPresentation_pending (hp : (s.station st).presentation = some i) (hr : s.source i = some r)
    (h : (s.station st).hold = .holdPending) :
    s.endPresentation st = (s.presentationEnded st i r .held true).post (.stationHeld st .pendingDone) := by
  unfold State.endPresentation
  simp only [hp]
  rw [presentationEnded_eq hr, enterHeld_presentationEnded]
  simp only [h]

theorem endPresentation_step (hp : (s.station st).presentation = some i) (hr : s.source i = some r)
    (h : (s.station st).hold = .step .inUse) :
    s.endPresentation st = (s.presentationEnded st i r .held true).post (.stationHeld st .stepDone) := by
  unfold State.endPresentation
  simp only [hp]
  rw [presentationEnded_eq hr, enterHeld_presentationEnded, enterHeld_presentationEnded]
  simp only [h]

/-! ### The guidance (R115) -/

theorem guidance_line {l : Line} (h : s.currentLine st = some l) :
    s.portLamp st = (s.station st).workingPort ∧ s.display st = some l.quantity ∧
    ∀ o, s.order l.target = some o → s.putLamp st = some o.position := by
  refine ⟨?_, ?_, fun o ho => putLamp_iff.mpr ⟨l, o, h, ho, rfl⟩⟩
  · unfold State.portLamp
    rw [h]
  · unfold State.display
    rw [h]
    rfl

theorem guidance_none (h : s.currentLine st = none) : s.portLamp st = none ∧ s.putLamp st = none ∧ s.display st = none := by
  unfold State.portLamp State.putLamp State.display
  rw [h]
  exact ⟨rfl, rfl, rfl⟩

end

/-- Settles O54: the selection by what the two sides offer, the presentation, the line, the end, the guidance. -/
theorem stationsPresentReadyHeads : Obligations.StationsPresentReadyHeads := by
  intro st s q offered preferred other free
  have hpreferred : preferred = stationPort st (s.station st).side.other := by
    show stationPort st (if (s.station st).side = .left then .right else .left) = _
    cases (s.station st).side <;> rfl
  have offers : ∀ {p i}, offered p i ↔ s.offers p = some i := offers_iff.symm
  have selects : ∀ {p i}, free → s.selectedPort st = some (p, i) → s.select st = (s.present st p i).selectHead st 2 :=
    fun ⟨hp, hh⟩ h => select_presents hp (HoldStatus.selects_iff.mpr hh) h
  refine ⟨fun hf => ?engaged, fun hf h1 h2 => ?nothing, fun i hf h => ?preferred, fun i hf h1 h2 => ?other,
    fun p i r hr => ?presents, fun i r hp hr => ⟨fun k l hl ho hfirst => chooseLine_open hp hr (firstOpen_some hl ho hfirst),
      fun h => chooseLine_releases hp hr (firstOpen_none h), fun h => endPresentation_goes_on hp hr h,
      fun h => endPresentation_pending hp hr h, fun h => endPresentation_step hp hr h,
      fun k l hk hl => guidance_line (currentLine_iff.mpr ⟨i, r, k, hp, hr, hk, hl⟩), fun hk => guidance_none ?noLine⟩,
    fun hp => ⟨endPresentation_none hp, guidance_none ?noPresentation⟩⟩
  case engaged =>
    refine selectHead_rests ?_ 3
    by_cases hp : (s.station st).presentation = none
    · exact .inr (.inl (Bool.eq_false_iff.mpr fun hh => hf ⟨hp, HoldStatus.selects_iff.mp hh⟩))
    · exact .inl hp
  case nothing =>
    refine selectHead_rests (.inr (.inr ?_)) 3
    rw [selectedPort_other (offers_none fun i hi => h1 i (offers.mpr (by rw [hpreferred]; exact hi))),
      offers_none fun i hi => h2 i (offers.mpr hi)]
    rfl
  case preferred =>
    have hi := offers.mp h
    rw [hpreferred] at hi ⊢
    exact selects hf (selectedPort_preferred hi)
  case other =>
    refine selects hf ?_
    rw [selectedPort_other (offers_none fun i hi => h1 i (offers.mpr (by rw [hpreferred]; exact hi))), offers.mp h2]
    rfl
  case presents =>
    rw [present_eq hr]
    rcases (s.station st).hold with _ | _ | _ | _ <;> rfl
  case noLine =>
    refine Option.eq_none_iff_forall_ne_some.mpr fun l hl => ?_
    obtain ⟨j, x, k, hj, hx, hcur, _⟩ := currentLine_iff.mp hl
    cases hp.symm.trans hj
    cases hr.symm.trans hx
    cases hk.symm.trans hcur
  case noPresentation =>
    refine Option.eq_none_iff_forall_ne_some.mpr fun l hl => ?_
    obtain ⟨j, _, _, hj, _⟩ := currentLine_iff.mp hl
    cases (show (s.station st).presentation = none from hp).symm.trans hj

end Sys2Proof.Machine

/-! ## The end of an event: the drain test and the arbiter (R38 to R43, R150) -/

namespace Sys2Proof.Machine

/-! ### The drain test (R150) -/

theorem Source.holdsPortOpen_iff {r : Source} : r.holdsPortOpen = true ↔
    r.state = .calling ∨ r.state = .called ∨ r.state = .cancelling ∨ r.state = .inbound := by
  unfold Source.holdsPortOpen
  cases r.state <;> simp

theorem countSources_pos_iff {s : State} {f : Source → Bool} :
    0 < s.countSources f ↔ ∃ i r, s.source i = some r ∧ f r = true := by
  rw [State.countSources_eq, List.countP_pos_iff]
  constructor
  · rintro ⟨i, _, hi⟩
    obtain ⟨r, hr, hf⟩ := (Option.any_eq_true ..).mp hi
    exact ⟨i, r, hr, hf⟩
  · rintro ⟨i, r, hr, hf⟩
    exact ⟨i, List.mem_finRange i, by rw [hr]; exact hf⟩

theorem drained_iff {s : State} {p : Port} : s.drained p = true ↔
    (s.port p).lane = [] ∧ (s.port p).arm = none ∧ ∀ i r, s.source i = some r → r.port = p →
      r.state ≠ .calling ∧ r.state ≠ .called ∧ r.state ≠ .cancelling ∧ r.state ≠ .inbound := by
  have hflight : s.inFlight p = true ↔ ∃ i r, s.source i = some r ∧ r.port = p ∧ r.holdsPortOpen = true := by
    unfold State.inFlight
    simp only [decide_eq_true_eq, countSources_pos_iff, Bool.and_eq_true]
  unfold State.drained
  rw [Bool.and_eq_true, Bool.and_eq_true, List.isEmpty_iff, Option.isNone_iff_eq_none, Bool.not_eq_true', and_assoc,
    ← Bool.not_eq_true, hflight]
  refine and_congr_right fun _ => and_congr_right fun _ => ?_
  constructor
  · intro h i r hr hp
    have hno : ¬ r.holdsPortOpen = true := fun ho => h ⟨i, r, hr, hp, ho⟩
    rw [Source.holdsPortOpen_iff] at hno
    simpa only [not_or] using hno
  · rintro h ⟨i, r, hr, hp, ho⟩
    obtain ⟨hcalling, hcalled, hcancelling, hinbound⟩ := h i r hr hp
    rcases Source.holdsPortOpen_iff.mp ho with ho | ho | ho | ho
    · exact hcalling ho
    · exact hcalled ho
    · exact hcancelling ho
    · exact hinbound ho

/-! ### The claims (R38, R40, R41) -/

theorem Source.cancelClaim_iff {r : Source} : r.cancelClaim = true ↔ r.state = .called ∧ ¬ Unmarked r := by
  unfold Source.cancelClaim
  rw [Bool.and_eq_true, decide_eq_true_eq, unmarked_iff, Bool.not_eq_false]

/-- A cancel claim stands for the record of a slot (R40). -/
def State.claimsCancel (s : State) (i : Slot) : Bool := (s.source i).any Source.cancelClaim

theorem claimsCancel_iff {s : State} {i : Slot} :
    s.claimsCancel i = true ↔ ∃ r, s.source i = some r ∧ r.state = .called ∧ ¬ Unmarked r := by
  unfold State.claimsCancel
  simp only [Option.any_eq_true, Source.cancelClaim_iff]

theorem cancelClaim_eq (s : State) : s.cancelClaim = allSlots.find? s.claimsCancel := by
  unfold State.cancelClaim
  congr 1
  funext i
  unfold State.claimsCancel
  cases s.source i <;> rfl

theorem cancelClaim_none {s : State} (h : ∀ i, s.claimsCancel i ≠ true) : s.cancelClaim = none := by
  rw [cancelClaim_eq, List.find?_eq_none]
  exact fun i _ => h i

theorem cancelClaim_first {s : State} {i : Slot} (hi : s.claimsCancel i = true)
    (hmin : ∀ j, s.claimsCancel j = true → i ≤ j) : s.cancelClaim = some i := by
  obtain ⟨rest, hrest⟩ := filter_allSlots_eq_cons hi hmin
  rw [cancelClaim_eq, ← List.head?_filter, hrest]
  rfl

theorem eligible_iff {s : State} {p : Port} : s.eligible p = true ↔
    s.bench = .running ∧ s.inputs.supplyReady = true ∧ (s.port p).mode = .isOpen ∧
    (s.reader (.port p)).status = .ok ∧ (s.reader .scanner).status = .ok ∧
    s.committedCount p < s.config.pipelineDepth := by
  unfold State.eligible
  simp only [Bool.and_eq_true, decide_eq_true_eq, and_assoc]
  rfl

/-- The record of a slot is QUEUED and may be called for a port (R38, R39). -/
def State.fitsCall (s : State) (p : Port) (i : Slot) : Bool :=
  (s.source i).any (fun r => decide (r.state = .queued) && s.fitsAttendance p r)

theorem fitsCall_iff {s : State} {p : Port} {i : Slot} : s.fitsCall p i = true ↔ ∃ r, s.source i = some r ∧
    r.state = .queued ∧ ((s.station (portStation p)).attendance = .attended ∨ r.tote.cls = .ambient) := by
  unfold State.fitsCall State.fitsAttendance
  simp only [Option.any_eq_true, Bool.and_eq_true, Bool.or_eq_true, decide_eq_true_eq]

theorem candidate_eq (s : State) (p : Port) : s.candidate p = (s.port p).queue.find? (s.fitsCall p) := by
  unfold State.candidate
  congr 1
  funext i
  unfold State.fitsCall
  cases s.source i <;> rfl

/-- The call claim of a port is for the first fitting record of its queue view (R38). -/
theorem callClaim_iff {s : State} {p : Port} {i : Slot} : s.callClaim p = some i ↔ s.eligible p = true ∧
    ∃ before after, (s.port p).queue = before ++ i :: after ∧ s.fitsCall p i = true ∧
      ∀ j ∈ before, ¬ s.fitsCall p j = true := by
  unfold State.callClaim
  rw [candidate_eq]
  by_cases he : s.eligible p = true
  · simp only [he, if_true, true_and, List.find?_eq_some_iff_append, Bool.not_eq_true', Bool.not_eq_true]
    constructor
    · rintro ⟨hi, before, after, hq, hb⟩
      exact ⟨before, after, hq, hi, hb⟩
    · rintro ⟨before, after, hq, hi, hb⟩
      exact ⟨hi, before, after, hq, hb⟩
  · simp [he]

/-- Every port stands in the rotation, behind the ports that are nearer its start (R41). -/
theorem rotationOrder_split : ∀ n p : Port, ∃ before after, rotationOrder n = before ++ p :: after ∧
    ∀ q ∈ before, q - (n + 1) < p - (n + 1) := by
  intro n p
  refine ⟨(rotationOrder n).takeWhile (fun q => decide (q ≠ p)), ((rotationOrder n).dropWhile (fun q => decide (q ≠ p))).tail,
    ?_⟩
  revert n p
  decide

theorem nextCall_first {s : State} {p : Port} {i : Slot} (h : s.callClaim p = some i)
    (hmin : ∀ q j, s.callClaim q = some j → p - (s.rotation + 1) ≤ q - (s.rotation + 1)) : s.nextCall = some (p, i) := by
  obtain ⟨before, after, hsplit, hbefore⟩ := rotationOrder_split s.rotation p
  refine List.findSome?_eq_some_iff.mpr ⟨before, p, after, hsplit, by rw [h]; rfl, fun q hq => ?_⟩
  cases hc : s.callClaim q with
  | none => rfl
  | some j => exact absurd (hmin q j hc) (Fin.not_le.mpr (hbefore q hq))

theorem mem_rotationOrder (n p : Port) : p ∈ rotationOrder n := by
  obtain ⟨before, after, hsplit, _⟩ := rotationOrder_split n p
  rw [hsplit]
  exact List.mem_append_right _ (.head _)

theorem nextCall_eq_none_iff {s : State} : s.nextCall = none ↔ ∀ p, s.callClaim p = none := by
  unfold State.nextCall
  rw [List.findSome?_eq_none_iff]
  simp only [Option.map_eq_none_iff]
  exact ⟨fun h p => h p (mem_rotationOrder _ p), fun h p _ => h p⟩

/-! ### The grants (R41 to R43) -/

theorem grants_cancel {s : State} {i : Slot} (hm : s.mayGrant = true) (hc : s.cancelClaim = some i) (fuel : Nat) :
    s.grants (fuel + 1) = (s.grantCancel i).grants fuel := by
  show (if s.mayGrant then _ else s) = _
  rw [if_pos hm, hc]

theorem grants_call {s : State} {p : Port} {i : Slot} (hm : s.mayGrant = true) (hc : s.cancelClaim = none)
    (hn : s.nextCall = some (p, i)) (fuel : Nat) : s.grants (fuel + 1) = (s.grantCall p i).grants fuel := by
  show (if s.mayGrant then _ else s) = _
  rw [if_pos hm, hc, hn]

theorem grantCancel_eq {s : State} {i : Slot} {r : Source} (hs : s.inputs.supplyReady = true)
    (hr : s.source i = some r) : s.grantCancel i = (s.putSource i { r with
      state := .cancelling, answerWindow := some s.config.answerWindow, cancelHeld := false }).transmit
        (.cancel (r.tag i)) := by
  unfold State.grantCancel
  rw [State.modifySource_of_some hr, sendCancel_putSource_ready hs]
  rfl

theorem grantCall_eq {s : State} {i : Slot} {r : Source} (hr : s.source i = some r) (p : Port) : s.grantCall p i =
    ({ s.putSource i { r with
        visit := r.visit + 1, state := .calling, answerWindow := some s.config.answerWindow } with
      rotation := p } : State).transmit
        (.call (({ r with visit := r.visit + 1, state := .calling, answerWindow := some s.config.answerWindow } :
          Source).tag i) r.tote.code p r.tote.cls) := by
  unfold State.grantCall
  simp only [hr]

/-! ### Four rounds suffice (R41, R52) -/

theorem countP_add_countP_le {α : Type} {f e g : α → Bool} (hdisjoint : ∀ a, e a = true → f a = false)
    (hf : ∀ a, f a = true → g a = true) (he : ∀ a, e a = true → g a = true) :
    ∀ l : List α, l.countP f + l.countP e ≤ l.countP g
  | [] => Nat.le_refl 0
  | a :: l => by
    have ih := countP_add_countP_le hdisjoint hf he l
    have hone : (if f a then 1 else 0) + (if e a then 1 else 0) ≤ if g a then 1 else 0 := by
      cases hea : e a with
      | true => simp [hdisjoint a hea, he a hea]
      | false =>
        cases hfa : f a with
        | true => simp [hf a hfa]
        | false => simp
    simp only [List.countP_cons]
    omega

/-- A record that takes a credit counts one more. -/
theorem creditsInUse_putSource_succ {s : State} {i : Slot} {r q : Source} (hr : s.source i = some r)
    (hno : r.holdsCredit = false) (hq : q.holdsCredit = true) : s.creditsInUse + 1 ≤ (s.putSource i q).creditsInUse := by
  unfold State.creditsInUse
  rw [State.countSources_eq, State.countSources_eq]
  have hone : allSlots.countP (fun j => decide (j = i)) = 1 :=
    List.count_eq_one_of_mem (List.nodup_finRange 64) (List.mem_finRange i)
  rw [← hone]
  refine countP_add_countP_le (fun j hj => ?_) (fun j hj => ?_) (fun j hj => ?_) allSlots
  · rw [of_decide_eq_true hj, hr]
    exact hno
  · have hji : i ≠ j := fun e => by
      rw [← e, hr] at hj
      exact absurd (hno.symm.trans hj) Bool.false_ne_true
    rw [State.source_putSource_of_ne s hji]
    exact hj
  · rw [of_decide_eq_true hj, State.source_putSource_self]
    exact hq

/-- The arbiter has nothing left to grant. -/
def ArbiterRests (s : State) : Prop := s.mayGrant = false ∨ (s.cancelClaim = none ∧ s.nextCall = none)

theorem ArbiterRests.reason {s : State} (h : ArbiterRests s) : s.inputs.supplyReady = false ∨ s.supply.pass ≠ none ∨
    4 ≤ s.creditsInUse ∨ (s.cancelClaim = none ∧ ∀ p, s.callClaim p = none) := by
  rcases h with hm | ⟨hc, hn⟩
  · have hno : ¬ (s.inputs.supplyReady = true ∧ s.supply.pass = none ∧ s.creditsInUse < 4) := fun h =>
      absurd (hm.symm.trans (mayGrant_iff.mpr h)) Bool.false_ne_true
    by_cases hs : s.inputs.supplyReady = true
    · by_cases hp : s.supply.pass = none
      · exact .inr (.inr (.inl (Nat.not_lt.mp fun h => hno ⟨hs, hp, h⟩)))
      · exact .inr (.inl hp)
    · exact .inl (Bool.eq_false_of_not_eq_true hs)
  · exact .inr (.inr (.inr ⟨hc, nextCall_eq_none_iff.mp hn⟩))

theorem creditsInUse_grantCancel {s : State} {i : Slot} (hs : s.inputs.supplyReady = true)
    (h : s.cancelClaim = some i) : s.creditsInUse + 1 ≤ (s.grantCancel i).creditsInUse := by
  obtain ⟨r, hr, hclaim⟩ := cancelClaim_some h
  rw [grantCancel_eq hs hr, State.transmit_eq]
  refine creditsInUse_putSource_succ hr ?_ rfl
  unfold Source.holdsCredit
  rw [(Source.cancelClaim_iff.mp hclaim).1]

theorem creditsInUse_grantCall {s : State} {p : Port} {i : Slot} (h : s.nextCall = some (p, i)) :
    s.creditsInUse + 1 ≤ (s.grantCall p i).creditsInUse := by
  obtain ⟨_, r, hr, hqueued, _⟩ := callClaim_some (nextCall_some h)
  rw [grantCall_eq hr, State.transmit_eq]
  refine creditsInUse_putSource_succ hr ?_ rfl
  unfold Source.holdsCredit
  rw [hqueued]

/-- The arbiter rests after its rounds, or each round has taken a credit. -/
theorem grants_rest_or_take : ∀ (fuel : Nat) (s : State),
    ArbiterRests (s.grants fuel) ∨ s.creditsInUse + fuel ≤ (s.grants fuel).creditsInUse
  | 0, s => .inr (Nat.le_refl _)
  | fuel + 1, s => by
    have go : ∀ {u : State}, s.grants (fuel + 1) = u.grants fuel → s.creditsInUse + 1 ≤ u.creditsInUse →
        ArbiterRests (s.grants (fuel + 1)) ∨ s.creditsInUse + (fuel + 1) ≤ (s.grants (fuel + 1)).creditsInUse := by
      intro u hu hle
      rw [hu]
      exact (grants_rest_or_take fuel u).imp_right fun h => by omega
    by_cases hm : s.mayGrant = true
    · cases hc : s.cancelClaim with
      | some i => exact go (grants_cancel hm hc fuel) (creditsInUse_grantCancel (mayGrant_iff.mp hm).1 hc)
      | none =>
        cases hn : s.nextCall with
        | some x => exact go (grants_call hm hc hn fuel) (creditsInUse_grantCall hn)
        | none =>
          have hrests : ArbiterRests s := .inr ⟨hc, hn⟩
          exact .inl (by rw [grants_rests hrests]; exact hrests)
    · have hrests : ArbiterRests s := .inl (Bool.eq_false_of_not_eq_true hm)
      exact .inl (by rw [grants_rests hrests]; exact hrests)

theorem settle_rests_or_full (s : State) : ArbiterRests s.settle ∨ 4 ≤ s.settle.creditsInUse := by
  have hsettle : s.settle = s.selectAndDrain.grants 4 := rfl
  rw [hsettle]
  exact (grants_rest_or_take 4 s.selectAndDrain).imp_right fun h => (Nat.le_add_left 4 _).trans h

/-! ### What the end of an event leaves alone -/

/-- Records that could neither be presented nor granted a claim stand as they were. -/
theorem frame_settle (s : State) {keep : Slot → Prop} (hselect : ∀ i, keep i → ¬ Selectable s i)
    (hgrant : ∀ i, keep i → ¬ Grantable s i) : FrameBut keep s s.settle := by
  have same : ∀ {t : State}, FrameBut keep s t → ∀ i, keep i → t.source i = s.source i := fun h i hi => by
    unfold State.source
    rw [h.record i hi]
  have hA := frame_selectHead .a 3 s hselect
  have hB := (frame_selectHead .b 3 (s.select .a) fun i hi ⟨r, hr, hs⟩ =>
    hselect i hi ⟨r, (same hA i hi).symm.trans hr, hs⟩).after hA
  have hdrain := (frame_foldl (keep := keep) _ frame_drainPort allPorts ((s.select .a).select .b)).after hB
  exact (frame_grants 4 s.selectAndDrain fun i hi ⟨r, hr, hs⟩ =>
    hgrant i hi ⟨r, (same hdrain i hi).symm.trans hr, hs⟩).after hdrain

/-- Settles O55: the drain test, one round of the arbiter by the claims that stand, then the whole of it. -/
theorem claimsAreGrantedInOrder : Obligations.ClaimsAreGrantedInOrder := by
  refine ⟨fun s => rfl, fun s p => ?drain, fun s fuel => ?grants, fun s => ?settled⟩
  case drain =>
    intro drained
    have hdrained : drained ↔ (s.port p).mode = .closing ∧ s.drained p = true := by rw [drained_iff]
    exact ⟨fun h => if_pos (hdrained.mp h), fun h => if_neg fun g => h (hdrained.mpr g)⟩
  case grants =>
    intro open_ cancels eligible fits claims
    have hcancels : ∀ {i}, s.claimsCancel i = true ↔ ∃ r, cancels i r := claimsCancel_iff
    have hclaims : ∀ {p i}, claims p i ↔ s.callClaim p = some i := fun {p i} => by
      rw [callClaim_iff, eligible_iff]
      simp only [fitsCall_iff]
      rfl
    have noCancel : (∀ i r, ¬ cancels i r) → s.cancelClaim = none := fun h =>
      cancelClaim_none fun i hi => by
        obtain ⟨r, hr⟩ := hcancels.mp hi
        exact h i r hr
    refine ⟨fun ho => grants_rests (.inl (Bool.eq_false_iff.mpr fun hm => ho (mayGrant_iff.mp hm))) _,
      fun ho hno hnone => ?rests, fun i r ho hc hmin => ?cancel, fun p i r ho hno hc hr hmin => ?call⟩
    case rests =>
      refine grants_rests (.inr ⟨noCancel hno, nextCall_eq_none_iff.mpr fun p => ?_⟩) _
      exact Option.eq_none_iff_forall_ne_some.mpr fun i hi => hnone p i (hclaims.mpr hi)
    case cancel =>
      have hfirst : s.cancelClaim = some i := cancelClaim_first (hcancels.mpr ⟨r, hc⟩) fun j hj => by
        obtain ⟨y, hy⟩ := hcancels.mp hj
        exact hmin j y hy
      rw [grants_cancel (mayGrant_iff.mpr ho) hfirst, grantCancel_eq ho.1 hc.1]
    case call =>
      have hnext : s.nextCall = some (p, i) := nextCall_first (hclaims.mp hc) fun q j hj => hmin q j (hclaims.mpr hj)
      intro called
      rw [grants_call (mayGrant_iff.mpr ho) (noCancel hno) hnext, grantCall_eq hr]
  case settled =>
    intro t
    have kept : ∀ i, (∀ r, s.source i = some r → r.state ≠ .queued ∧ (r.state = .called → Unmarked r) ∧
        (r.state = .ready → r.passThrough ≠ none)) → ¬ Selectable s i ∧ ¬ Grantable s i := by
      refine fun i h => ⟨fun ⟨r, hr, hready, hpass⟩ => (h r hr).2.2 hready hpass, fun ⟨r, hr, hg⟩ => ?_⟩
      obtain ⟨hqueued, hcalled, _⟩ := h r hr
      rcases hg with hg | hg
      · exact hqueued hg
      · obtain ⟨hstate, hmark⟩ := Source.cancelClaim_iff.mp hg
        exact hmark (hcalled hstate)
    have frame : FrameBut _ s t := frame_settle s (fun i hi => (kept i hi).1) (fun i hi => (kept i hi).2)
    refine ⟨?rests, frame.inputs, frame.bench, frame.config, frame.allocPtr, frame.dupFilter, frame.link, frame.reader,
      frame.receiver, frame.stale, frame.bad, frame.pass, frame.record⟩
    case rests =>
      have hsettled : ArbiterRests t ∨ 4 ≤ t.creditsInUse := settle_rests_or_full s
      rcases hsettled with hrests | hfull
      · exact hrests.reason
      · exact .inr (.inr (.inl hfull))

end Sys2Proof.Machine
